-- ==== Sys2Proof/Word.lean ====
section
/-! DEFINITION. Word.lean: the word types of the block's interfaces (spec 30_encoding.md R100, 20_memory.md R70, R72). -/

namespace Sys2Proof

/-- One 32-bit word of an operation or message (R100). -/
abbrev Word := BitVec 32

/-- One byte of host memory (R70, R72). -/
abbrev Byte := BitVec 8

/-- A host-memory address. Its width `ADDR_BITS` is a parameter (R10), so it is a natural number kept
below `2^ADDR_BITS` by the operations that compute addresses (R74). -/
abbrev Addr := Nat

end Sys2Proof
end

