-- ==== Sys2Proof/Syntax.lean ====
section
/-! DEFINITION. Syntax.lean: the operands and the operations of the block (30_encoding.md R104, R110,
R111) and the three token packets it builds (R120, R121), one constructor for each row of
spec/opcode_table.json. -/

namespace Sys2Proof

/-- Transfer mode of a pipe, which is its priority class; listed in priority order (R25, R50). -/
inductive Mode where
  | iso | intr | ctrl | bulk
  deriving DecidableEq, Repr

/-- Speed of a device or of the bus: 0 full, 1 low (R25, R56). -/
inductive Speed where
  | full | low
  deriving DecidableEq, Repr

/-- The operand `endpoint_id` (R111), field by field, its two reserved fields included. -/
structure EndpointId where
  /-- bits 6:0 -/
  devAddr : BitVec 7
  /-- bits 10:7 -/
  epNum : BitVec 4
  /-- bit 11: 1 = IN pipe -/
  dirIn : Bool
  /-- bits 13:12 -/
  mode : Mode
  /-- bit 14 -/
  speed : Speed
  /-- bit 15, reserved, must be 0 -/
  rsv15 : Bool
  /-- bits 26:16 -/
  maxPacket : BitVec 11
  /-- bits 31:27, reserved, must be 0 -/
  rsvHi : BitVec 5
  deriving DecidableEq, Repr

/-- The eleven operations of R104 and the three token packets of R121. Operands that the spec checks
inside an operation's own rule (reserved bits of an `endpoint_id`, the alignment of a handle, the range
of a `status`) are kept as they arrive. -/
inductive Instr where
  /-- `SUBMIT eid, h` (R170). -/
  | submit (eid : EndpointId) (handle : Word)
  /-- `CANCEL h` (R183). -/
  | cancel (handle : Word)
  /-- `EP_TEARDOWN eid` (R188). -/
  | epTeardown (eid : EndpointId)
  /-- `EP_CLEAR_HALT eid` (R191). -/
  | epClearHalt (eid : EndpointId)
  /-- `GET_FRAME` (R193). -/
  | getFrame
  /-- `EV_FRAME_START` (R140). -/
  | evFrameStart
  /-- `EV_TX_CONFIRM pkt, st` (R208). -/
  | evTxConfirm (status : BitVec 8) (pkt : BitVec 16)
  /-- `EV_RX_CONFIRM pkt, st, rx_len` (R212). -/
  | evRxConfirm (status : BitVec 8) (pkt : BitVec 16) (rxLen : Word)
  /-- `EV_CONNECT speed` (R275). -/
  | evConnect (speed : Speed)
  /-- `EV_DISCONNECT` (R276). -/
  | evDisconnect
  /-- `DRAIN` (R260). -/
  | drain
  /-- The OUT token packet (R120, R121); not an operation of R104. -/
  | tokenOut (devAddr : BitVec 7) (epNum : BitVec 4) (crc5 : BitVec 5)
  /-- The IN token packet (R120, R121); not an operation of R104. -/
  | tokenIn (devAddr : BitVec 7) (epNum : BitVec 4) (crc5 : BitVec 5)
  /-- The SETUP token packet (R120, R121); not an operation of R104. -/
  | tokenSetup (devAddr : BitVec 7) (epNum : BitVec 4) (crc5 : BitVec 5)
  deriving DecidableEq, Repr

/-- The way a word comes to the block (R102): the core's command port, the transceiver's event port, or
the block's own deferred task. -/
inductive Port where
  | command | event | internal
  deriving DecidableEq, Repr

end Sys2Proof
end

