-- ==== Sys2Proof/Decode.lean ====
section
/-! DEFINITION. Decode.lean: from words to operations and back (30_encoding.md R100 to R104, R110, R111,
R120 to R122, R125 to R127). The decoder is total and rejects by name; the encoder after it is written
from the same tables. Word 0 comes first in every list. -/

namespace Sys2Proof

/-- The opcode byte, bits 31:24 of word 0 (R101). -/
def opcodeOf (w : Word) : BitVec 8 := w.extractLsb' 24 8

/-- The 24 bits below the opcode: operand fields or reserved (R101). -/
def belowOpcode (w : Word) : BitVec 24 := w.extractLsb' 0 24

/-- The transfer mode of a 2-bit code: 0 ISO, 1 INTR, 2 CTRL, 3 BULK (R25, R111). -/
def Mode.ofCode (c : BitVec 2) : Mode :=
  if c = 0#2 then .iso else if c = 1#2 then .intr else if c = 2#2 then .ctrl else .bulk

/-- The 2-bit code of a transfer mode, which is also its class-list index (R25, R50). -/
def Mode.code : Mode → BitVec 2
  | .iso => 0#2
  | .intr => 1#2
  | .ctrl => 2#2
  | .bulk => 3#2

/-- The speed of a one-bit code: 0 full, 1 low (R25, R110). -/
def Speed.ofBit (b : Bool) : Speed := if b then .low else .full

/-- The one-bit code of a speed (R25, R110). -/
def Speed.bit : Speed → Bool
  | .full => false
  | .low => true

/-- The fields of an `endpoint_id` word (R111). -/
def EndpointId.ofWord (w : Word) : EndpointId where
  devAddr := w.extractLsb' 0 7
  epNum := w.extractLsb' 7 4
  dirIn := w.getLsbD 11
  mode := Mode.ofCode (w.extractLsb' 12 2)
  speed := Speed.ofBit (w.getLsbD 14)
  rsv15 := w.getLsbD 15
  maxPacket := w.extractLsb' 16 11
  rsvHi := w.extractLsb' 27 5

/-- The `endpoint_id` word of its fields (R111). -/
def EndpointId.toWord (e : EndpointId) : Word :=
  e.rsvHi ++ e.maxPacket ++ BitVec.ofBool e.rsv15 ++ BitVec.ofBool e.speed.bit ++ e.mode.code
    ++ BitVec.ofBool e.dirIn ++ e.epNum ++ e.devAddr

/-- The reserved bits 15 and 31:27 of an `endpoint_id` are zero (R111). -/
def EndpointId.reservedZero (e : EndpointId) : Bool := !e.rsv15 && e.rsvHi == 0#5

/-- A handle is valid when it is a multiple of 4 (R77). -/
def handleAligned (h : Word) : Bool := h.extractLsb' 0 2 == 0#2

/-- A confirm event may report the codes `TS_OK` to `TS_TIMEOUT`, 0 to 8 (R110). -/
def eventStatusLegal (st : BitVec 8) : Bool := decide (st.toNat ≤ 8)

/-- Packet-ID bytes of the three tokens (R121): OUT, IN, SETUP. -/
def pidOut : BitVec 8 := 0xE1#8
/-- Packet-ID byte of an IN token (R121). -/
def pidIn : BitVec 8 := 0x69#8
/-- Packet-ID byte of a SETUP token (R121). -/
def pidSetup : BitVec 8 := 0x2D#8

/-- One shift of the 5-bit CRC register by an input bit (R122: the loop body). -/
def crc5Step (r : BitVec 5) (b : Bool) : BitVec 5 :=
  let shifted := r <<< 1
  if r.getLsbD 4 ^^ b then shifted ^^^ 0b00101#5 else shifted

/-- The 5 CRC bits as they stand in `W[15:11]` (R122): the register starts at all ones, the bits
`W[0] .. W[10]` are shifted in, the register is complemented, and its top bit goes to `W[11]`. -/
def crc5 (devAddr : BitVec 7) (epNum : BitVec 4) : BitVec 5 :=
  let bits : BitVec 11 := epNum ++ devAddr
  let r := ~~~((List.range 11).foldl (fun r i => crc5Step r (bits.getLsbD i)) 0b11111#5)
  BitVec.ofBool (r.getLsbD 0) ++ BitVec.ofBool (r.getLsbD 1) ++ BitVec.ofBool (r.getLsbD 2)
    ++ BitVec.ofBool (r.getLsbD 3) ++ BitVec.ofBool (r.getLsbD 4)

/-- The 24-bit token packet of a packet-ID byte, an address, an endpoint and CRC bits (R120): byte 0 in
bits 7:0, `W` in bits 23:8 with `W[6:0]` the address, `W[10:7]` the endpoint, `W[15:11]` the CRC. -/
def tokenPacket (pid : BitVec 8) (devAddr : BitVec 7) (epNum : BitVec 4) (crc : BitVec 5) : BitVec 24 :=
  crc ++ epNum ++ devAddr ++ pid

/-- Why a sequence of words is not an operation. -/
inductive DecodeError where
  /-- The opcode byte of word 0 is in no row of R104, and the word is no token packet of R121 (R127). -/
  | unknownOpcode
  /-- A bit of word 0 outside the operation's operand fields is non-zero (R101, R125, R126). -/
  | reservedBits
  /-- Word 0 selects an operation whose operand words have not all arrived (R101); also no word at all. -/
  | incomplete
  deriving DecidableEq, Repr

/-- How many words the operation with this opcode takes in all (R104: the column "words"). -/
def opWords (opcode : BitVec 8) : Nat :=
  if opcode = 0x01#8 then 3
  else if opcode = 0x02#8 ∨ opcode = 0x03#8 ∨ opcode = 0x04#8 ∨ opcode = 0x12#8 then 2
  else 1

/-- A token packet read from a word whose bits 31:24 are zero (R120, R121): the packet-ID byte in bits
7:0 decides. -/
def decodeToken (w : Word) : Except DecodeError Instr :=
  let dev := w.extractLsb' 8 7
  let ep := w.extractLsb' 15 4
  let crc := w.extractLsb' 19 5
  let pid := w.extractLsb' 0 8
  if pid = pidOut then .ok (.tokenOut dev ep crc)
  else if pid = pidIn then .ok (.tokenIn dev ep crc)
  else if pid = pidSetup then .ok (.tokenSetup dev ep crc)
  else .error .unknownOpcode

/-- The operation that word 0 selects, given the words behind it (R104). -/
def decodeFirst (w0 : Word) (rest : List Word) : Except DecodeError (Instr × List Word) :=
  let op := opcodeOf w0
  let low := belowOpcode w0
  if op = 0x00#8 then (decodeToken w0).map (fun i => (i, rest))
  else if op = 0x01#8 then
    if low ≠ 0#24 then .error .reservedBits else
    match rest with
    | w1 :: w2 :: r => .ok (.submit (EndpointId.ofWord w1) w2, r)
    | _ => .error .incomplete
  else if op = 0x02#8 then
    if low ≠ 0#24 then .error .reservedBits else
    match rest with
    | w1 :: r => .ok (.cancel w1, r)
    | _ => .error .incomplete
  else if op = 0x03#8 then
    if low ≠ 0#24 then .error .reservedBits else
    match rest with
    | w1 :: r => .ok (.epTeardown (EndpointId.ofWord w1), r)
    | _ => .error .incomplete
  else if op = 0x04#8 then
    if low ≠ 0#24 then .error .reservedBits else
    match rest with
    | w1 :: r => .ok (.epClearHalt (EndpointId.ofWord w1), r)
    | _ => .error .incomplete
  else if op = 0x05#8 then
    if low ≠ 0#24 then .error .reservedBits else .ok (.getFrame, rest)
  else if op = 0x10#8 then
    if low ≠ 0#24 then .error .reservedBits else .ok (.evFrameStart, rest)
  else if op = 0x11#8 then .ok (.evTxConfirm (w0.extractLsb' 16 8) (w0.extractLsb' 0 16), rest)
  else if op = 0x12#8 then
    match rest with
    | w1 :: r => .ok (.evRxConfirm (w0.extractLsb' 16 8) (w0.extractLsb' 0 16) w1, r)
    | _ => .error .incomplete
  else if op = 0x13#8 then
    if w0.extractLsb' 1 23 ≠ 0#23 then .error .reservedBits
    else .ok (.evConnect (Speed.ofBit (w0.getLsbD 0)), rest)
  else if op = 0x14#8 then
    if low ≠ 0#24 then .error .reservedBits else .ok (.evDisconnect, rest)
  else if op = 0x20#8 then
    if low ≠ 0#24 then .error .reservedBits else .ok (.drain, rest)
  else .error .unknownOpcode

/-- The operation at the head of a word stream, and the words behind it; or the reason there is none. -/
def decode : List Word → Except DecodeError (Instr × List Word)
  | [] => .error .incomplete
  | w0 :: rest => decodeFirst w0 rest

/-- Word 0 of an operation: the opcode in bits 31:24 over its 24 operand or reserved bits (R101). -/
def headWord (opcode : BitVec 8) (low : BitVec 24) : Word := opcode ++ low

/-- The words of an operation (R104), or of a token packet widened to one word (R120). -/
def encode : Instr → List Word
  | .submit eid h => [headWord 0x01#8 0#24, eid.toWord, h]
  | .cancel h => [headWord 0x02#8 0#24, h]
  | .epTeardown eid => [headWord 0x03#8 0#24, eid.toWord]
  | .epClearHalt eid => [headWord 0x04#8 0#24, eid.toWord]
  | .getFrame => [headWord 0x05#8 0#24]
  | .evFrameStart => [headWord 0x10#8 0#24]
  | .evTxConfirm st pkt => [headWord 0x11#8 (st ++ pkt)]
  | .evRxConfirm st pkt len => [headWord 0x12#8 (st ++ pkt), len]
  | .evConnect speed => [headWord 0x13#8 (0#23 ++ BitVec.ofBool speed.bit)]
  | .evDisconnect => [headWord 0x14#8 0#24]
  | .drain => [headWord 0x20#8 0#24]
  | .tokenOut dev ep crc => [headWord 0x00#8 (tokenPacket pidOut dev ep crc)]
  | .tokenIn dev ep crc => [headWord 0x00#8 (tokenPacket pidIn dev ep crc)]
  | .tokenSetup dev ep crc => [headWord 0x00#8 (tokenPacket pidSetup dev ep crc)]

/-- Which port a word 0 may arrive on, by its opcode byte (R102): high nibble 0 the core's command port,
1 the transceiver's event port, 2 the block itself. `none` for a high nibble that names no issuer. -/
def opcodePort (opcode : BitVec 8) : Option Port :=
  if opcode.extractLsb' 4 4 = 0#4 then some .command
  else if opcode.extractLsb' 4 4 = 1#4 then some .event
  else if opcode.extractLsb' 4 4 = 2#4 then some .internal
  else none

/-- The three words that the table's bit numbering gives a number: bits 31:0, 63:32, 95:64. -/
def tableWords (nbits w : Nat) : List Word :=
  let v := w % 2 ^ nbits
  [BitVec.ofNat 32 v, BitVec.ofNat 32 (v / 2 ^ 32), BitVec.ofNat 32 (v / 2 ^ 64)]

/-- Exactly the words that the operation selected by word 0 takes, of those `tableWords` lays out. -/
def tableInstrWords (nbits w : Nat) : List Word :=
  (tableWords nbits w).take (opWords (opcodeOf (BitVec.ofNat 32 (w % 2 ^ nbits))))

/-- The instruction the decoder reads from an instruction whose bits are `w`, bit 0 the least
significant bit of its first word, every bit from `nbits` up taken as 0. -/
def decodeTableWord (nbits w : Nat) : Option Instr :=
  match decode (tableInstrWords nbits w) with
  | .ok (i, _) => some i
  | .error _ => none

end Sys2Proof
end

