-- ==== Sys2Proof/Config.lean ====
section
/-! DEFINITION. Config.lean: the implementation parameters of 00_scope.md R10 as one record, the
constraints R11 puts on them, the configuration the model's own reset state carries, and the
environment's unconstrained answers as constants without a body (93_implementation_defined.md U4, U5, U7). -/

namespace Sys2Proof

/-- The parameters of R10, "one configuration record ... fixed before reset is released, never changed
afterwards, and not writable by any operation". `PKT_POOL_CAP` and `N_DUMMY` are derived below. -/
structure Config where
  /-- `TX_RING_LEN`, natural >= 1, OPEN. -/
  txRingLen : Nat
  /-- `dummy_addr(i)` for `i = 0 .. N_DUMMY-1`, in index order, OPEN; its length is `N_DUMMY`. -/
  dummyAddrs : List Addr
  /-- `MAX_EDS`, OPEN. -/
  maxEds : Nat
  /-- `MAX_TDS`, OPEN. -/
  maxTds : Nat
  /-- `MAX_TOKENS`, OPEN. -/
  maxTokens : Nat
  /-- `MAX_TXNS`, OPEN. -/
  maxTxns : Nat
  /-- `MAX_BYTES_PER_FRAME`, OPEN. -/
  maxBytesPerFrame : Nat
  /-- `PKT_OVERHEAD`, OPEN. -/
  pktOverhead : Nat
  /-- `K_FULL_N`, numerator of the full-speed factor, OPEN. -/
  kFullN : Nat
  /-- `K_FULL_D`, its denominator. -/
  kFullD : Nat
  /-- `K_LOW_N`, numerator of the low-speed factor, OPEN. -/
  kLowN : Nat
  /-- `K_LOW_D`, its denominator. -/
  kLowD : Nat
  /-- `CHUNK_SIZE`, default 4096. -/
  chunkSize : Nat := 4096
  /-- `FLUSH_THRESHOLD`, default 5. -/
  flushThreshold : Nat := 5
  /-- `RETRY_LIMIT`, default 3. -/
  retryLimit : Nat := 3
  /-- `FRAME_WRAP`, default 2048. -/
  frameWrap : Nat := 2048
  /-- `FRAME_US`, default 1000; no rule reads it (R10, U27). -/
  frameUs : Nat := 1000
  /-- `EXHAUST_HALTS_ED`, default true (90_conflicts.md C4). -/
  exhaustHaltsEd : Bool := true
  /-- `ADDR_BITS`, default 32. -/
  addrBits : Nat := 32
  deriving DecidableEq, Repr

/-- `PKT_POOL_CAP = TX_RING_LEN + 3` (R10, R240). -/
def Config.pktPoolCap (c : Config) : Nat := c.txRingLen + 3

/-- `N_DUMMY`: how many dummy buffers `dummy_addr` names (R10). -/
def Config.nDummy (c : Config) : Nat := c.dummyAddrs.length

/-- The constraints on a configuration: R11, the "natural >= 1" of R10's types, and the bound 65535 on
every pool size (R23). `retryLimit ≤ 255` is DEDUCED from the 8-bit width of `error_count`, whose range
is `0 .. RETRY_LIMIT` (R28); log entry 5. -/
abbrev Config.valid (c : Config) : Prop :=
  1 ≤ c.txRingLen ∧ c.pktPoolCap ≤ 65535 ∧
  1 ≤ c.nDummy ∧ c.nDummy ≤ 65535 ∧
  1 ≤ c.maxEds ∧ c.maxEds ≤ 65535 ∧
  1 ≤ c.maxTds ∧ c.maxTds ≤ 65535 ∧
  1 ≤ c.maxTokens ∧ c.maxTokens ≤ 65535 ∧
  1 ≤ c.maxTxns ∧ c.maxTxns ≤ 65535 ∧
  1 ≤ c.kFullD ∧ 1 ≤ c.kLowD ∧
  1 ≤ c.chunkSize ∧
  1 ≤ c.retryLimit ∧ c.retryLimit ≤ 255 ∧
  c.frameWrap ∈ (List.range 17).map (fun k => 2 ^ k)

/-- The configuration that the model's reset state carries. DESIGN CHOICE (log entry 1): the spec
leaves the OPEN parameters without a value, and these are the fixture TC0 of 95_test_vectors.md section
0. Every other definition takes the configuration from the state, so it holds of every configuration. -/
def Config.atReset : Config where
  txRingLen := 8
  dummyAddrs := [0xF000, 0xF040]
  maxEds := 4
  maxTds := 8
  maxTokens := 8
  maxTxns := 4
  maxBytesPerFrame := 200
  pktOverhead := 16
  kFullN := 2
  kFullD := 3
  kLowN := 16
  kLowD := 3

/-- The transceiver's answer to the `n`-th `ring_submit` whose answer the state does not script:
any Boolean (R308, U4). No body: nothing can be proved of its value. Log entry 3. -/
opaque Config.freeRingAnswer : Nat → Bool

/-- The transceiver's answer to the `n`-th `sof_remaining` whose answer the state does not script:
any natural (R307, U5). No body. Log entry 3. -/
opaque Config.freeSofAnswer : Nat → Nat

/-- Which of the enabled sources of work runs at the `n`-th choice the state does not script: any
(R296, R298, U7). No body. Log entry 3. -/
opaque Config.freeChoice : Nat → Nat

end Sys2Proof
end

