-- ==== Sys2Proof/Machine/State.lean ====
section
/-! DEFINITION. Machine/State.lean: everything the spec gives the block (10_state.md R22 to R59), the
configuration it is built for (00_scope.md R10), host memory and what waits in the environment
(20_memory.md R70, 10_state.md R63), the record of what the block has put out (R16), the reasons a step
can stop, and the state right after reset (70_reset_and_hazards.md R321). An index `NIL` is `none`. -/

namespace Sys2Proof.Machine

/-- State of an Endpoint Descriptor (R26). -/
inductive EdState where
  | operational | skip | halted | pendingDelete
  deriving DecidableEq, Repr

/-- An Endpoint Descriptor (R25). -/
structure Ed where
  alloc : Bool
  state : EdState
  devAddr : BitVec 7
  epNum : BitVec 4
  dirIn : Bool
  mode : Mode
  speed : Speed
  maxPacket : BitVec 11
  toggleCarry : Bool
  queue : List Nat
  deriving DecidableEq, Repr

/-- The one container a TD is in (R29). -/
inductive Place where
  | free | queued | active | done
  deriving DecidableEq, Repr

/-- Direction and token kind of a TD (R28). -/
inductive Dir where
  | out | inn | setup
  deriving DecidableEq, Repr

/-- Data-toggle value of a TD: 0 or 1, or `CARRY` until resolved (R32). -/
inductive Toggle where
  | val (b : Bool)
  | carry
  deriving DecidableEq, Repr

/-- Transaction and TD status codes `TS_*` (R118), in the order of their numbers 0 to 9. -/
inductive Ts where
  | ok | nak | stall | crc | bitstuff | overrun | underrun | piderr | timeout | cancelled
  deriving DecidableEq, Repr

/-- Completion status codes `CS_*` (R119), in the order of their numbers 0 to 5. -/
inductive Cs where
  | ok | short | stall | crc | timeout | cancelled
  deriving DecidableEq, Repr

/-- A Transfer Descriptor (R28). -/
structure Td where
  alloc : Bool
  place : Place
  request : Addr
  ed : Option Nat
  dir : Dir
  data : Addr
  length : BitVec 32
  transferred : BitVec 32
  toggle : Toggle
  errorCount : BitVec 8
  nakCount : BitVec 16
  startFrame : BitVec 16
  interval : BitVec 16
  status : Ts
  ioc : Bool
  zlpPending : Bool
  token : Option Nat
  txn : Option Nat
  deriving DecidableEq, Repr

/-- A Token object (R35). -/
structure Tok where
  alloc : Bool
  bytes : BitVec 24
  td : Option Nat
  deriving DecidableEq, Repr

/-- Phase of a Transaction record (R40). -/
inductive Phase where
  | idle | tokenWait | dataWait | confirmed
  deriving DecidableEq, Repr

/-- A transmit descriptor, four words (R116). -/
structure TxDesc where
  w0 : Word
  w1 : Word
  w2 : Word
  w3 : Word
  deriving DecidableEq, Repr

/-- A Transaction record (R38). -/
structure Txn where
  alloc : Bool
  phase : Phase
  td : Option Nat
  pkt : Option Nat
  token : Option Nat
  len : BitVec 11
  dummy : Option Nat
  dataDesc : TxDesc
  deriving DecidableEq, Repr

/-- A Packet (R42). `info`: bit 0 `IN`, bit 1 `PRE`, bit 2 `TOGGLE`, bit 3 `DUMMY`, bits 7:4 zero. -/
structure Pkt where
  pointer : Addr
  length : BitVec 16
  status : Ts
  info : BitVec 8
  out : Bool
  deriving DecidableEq, Repr

/-- The Packet Pool ring: the array `RING`, the read position `rd` and the count `cnt` (R43). -/
structure PktRing where
  slots : List Nat
  rd : Nat
  cnt : Nat
  deriving DecidableEq, Repr

/-- The four class lists `CLS[0..3]` of ED indices (R50). -/
structure Classes where
  iso : List Nat
  intr : List Nat
  ctrl : List Nat
  bulk : List Nat
  deriving DecidableEq, Repr

/-- Status of the frame record (R51, R158). -/
inductive FrameStatus where
  | prepared | transmitted | endOfTransmission | timerForcedEnd
  deriving DecidableEq, Repr

/-- The frame record `FRAME` (R51). -/
structure Frame where
  bytes : BitVec 32
  status : FrameStatus
  active : List Nat
  number : BitVec 16
  timeUs : BitVec 32
  deriving DecidableEq, Repr

/-- The register `BUSSTS` (R56). -/
structure BusSts where
  connected : Bool
  speed : Speed
  deriving DecidableEq, Repr

/-- The exclusion region `LOCK`: free, or held by context (a), (b) or (h) (R58). -/
inductive Lock where
  | free | heldA | heldB | heldH
  deriving DecidableEq, Repr

/-- The sticky flags `DIAG`, bits 0 to 3; bits 7:4 are zero (R59). -/
structure Diag where
  doubleRelease : Bool
  spuriousConfirm : Bool
  illegalEvent : Bool
  rxOverlen : Bool
  deriving DecidableEq, Repr

/-- Host memory: the bytes that differ from what an unlisted address reads as, by rising address
(R70; the form is `Memory.wf` of Ops.lean). -/
abbrev Memory := List Host.Cell

/-- What the environment may make the machine do next (R63, R294, R296): take the oldest command, take
the oldest event, run the deferred task; or an act of the environment itself: store one byte to host
memory (the core or the transceiver, R71, R74), or detach the block (R320). -/
inductive Source where
  | command | event | deferred | hostWrite | detach
  deriving DecidableEq, Repr

/-- What waits in the environment (R63): the choices of what runs next, the answers to the two services
(R307, R308) and the environment's stores to host memory, oldest first. Where a list has run out, the
free constants of Config.lean answer, read at the counter beside it. The counters are the model's own. -/
structure Env where
  sched : List Source
  ringAnswers : List Bool
  sofAnswers : List Nat
  hostWrites : List Host.Cell
  choiceCount : Nat
  ringCount : Nat
  sofCount : Nat
  deriving DecidableEq, Repr

/-- What the block puts out, in order (R16): a response word (R112), a callback message (R114), a
descriptor handed to the transceiver with the answer it got (R116, R308), a host-memory write (R74). -/
inductive Output where
  | response (w : Word)
  | callback (w0 w1 w2 : Word)
  | ringSubmit (d : TxDesc) (accepted : Bool)
  | memWrite (addr : Addr) (value : Word)
  deriving DecidableEq, Repr

/-- The whole state. -/
structure State where
  /-- The parameters of R10, constant (log entry 2). -/
  cfg : Config
  /-- The block is between attach and detach (R320). -/
  attached : Bool
  /-- `ED[0 .. MAX_EDS-1]` (R25). -/
  eds : List Ed
  /-- `TD[0 .. MAX_TDS-1]` (R28). -/
  tds : List Td
  /-- `TOK[0 .. MAX_TOKENS-1]` (R35). -/
  toks : List Tok
  /-- `TXN[0 .. MAX_TXNS-1]` (R38). -/
  txns : List Txn
  /-- `PKT[0 .. PKT_POOL_CAP-1]` (R42). -/
  pkts : List Pkt
  /-- `RING`, `rd`, `cnt` (R43). -/
  ring : PktRing
  /-- `DFREE` (R46). -/
  dfree : List Nat
  /-- `EFREE` (R48). -/
  efree : List Nat
  /-- `TFREE` (R48). -/
  tfree : List Nat
  /-- `KFREE` (R48). -/
  kfree : List Nat
  /-- `XFREE` (R48). -/
  xfree : List Nat
  /-- `CLS[0..3]` (R50). -/
  cls : Classes
  /-- `FRAME` (R51). -/
  frame : Frame
  /-- `DONE` (R53). -/
  done : List Nat
  /-- `FRNUM` (R55). -/
  frnum : BitVec 16
  /-- `BUSSTS` (R56). -/
  bussts : BusSts
  /-- `DRAINP` (R57). -/
  drainp : Bool
  /-- `LOCK` (R58). -/
  lock : Lock
  /-- `DIAG` (R59). -/
  diag : Diag
  /-- Host memory (R70); the core's, not the block's. -/
  mem : Memory
  /-- Command words issued and not yet taken, oldest first (R63, R102). -/
  cmdPort : List Word
  /-- Event words raised and not yet taken, in the order they will be taken (R63, R102). -/
  evtPort : List Word
  /-- The rest of what waits in the environment (R63). -/
  env : Env
  /-- Everything put out so far, oldest first (R16). -/
  out : List Output
  deriving DecidableEq, Repr

/-- Why the machine stops with a fault: there is no reason. No operation of this block faults ("Host
memory has no faults", R74; R285, R300), so the type has no constructor, and a step never answers one. -/
inductive Fault where
  deriving DecidableEq, Repr

/-- Why a step is refused. -/
inductive Refusal where
  /-- Raised by an arm of `exec` whose instruction has no meaning yet; no arm raises it. Safe. -/
  | notModelled (mnemonic : String)
  /-- Raised by `step` on a block that has been detached: "An operation issued after detach" is to be
  refused (U25, R320). Safe: nothing runs. -/
  | detached
  deriving DecidableEq, Repr

/-- An ED entry at reset: free, every other field 0, queue empty (R25, R321). -/
def Ed.initial : Ed where
  alloc := false
  state := .operational
  devAddr := 0
  epNum := 0
  dirIn := false
  mode := .iso
  speed := .full
  maxPacket := 0
  toggleCarry := false
  queue := []

/-- A TD entry at reset: free, its references `NIL`, every other field 0 (R28, R321). -/
def Td.initial : Td where
  alloc := false
  place := .free
  request := 0
  ed := none
  dir := .out
  data := 0
  length := 0
  transferred := 0
  toggle := .val false
  errorCount := 0
  nakCount := 0
  startFrame := 0
  interval := 0
  status := .ok
  ioc := false
  zlpPending := false
  token := none
  txn := none

/-- A Token entry at reset (R35, R321). -/
def Tok.initial : Tok where
  alloc := false
  bytes := 0
  td := none

/-- A transmit descriptor of four zero words (R38, R321). -/
def TxDesc.zero : TxDesc where
  w0 := 0
  w1 := 0
  w2 := 0
  w3 := 0

/-- A Transaction record at reset (R38, R321). -/
def Txn.initial : Txn where
  alloc := false
  phase := .idle
  td := none
  pkt := none
  token := none
  len := 0
  dummy := none
  dataDesc := TxDesc.zero

/-- A Packet at reset, and as a release leaves it (R42, R251, R321). -/
def Pkt.initial : Pkt where
  pointer := 0
  length := 0
  status := .ok
  info := 0
  out := false

/-- The frame record at reset (R51, R321). -/
def Frame.initial : Frame where
  bytes := 0
  status := .prepared
  active := []
  number := 0
  timeUs := 0

/-- Nothing waits in the environment (R321: "pending events and commands: none"). -/
def Env.quiet : Env where
  sched := []
  ringAnswers := []
  sofAnswers := []
  hostWrites := []
  choiceCount := 0
  ringCount := 0
  sofCount := 0

/-- The state right after reset of a block built with the parameters `c` (R321). Host memory "is not
reset by the block and its contents at reset are whatever the core left": here, nothing listed. -/
def State.resetOf (c : Config) : State where
  cfg := c
  attached := true
  eds := List.replicate c.maxEds Ed.initial
  tds := List.replicate c.maxTds Td.initial
  toks := List.replicate c.maxTokens Tok.initial
  txns := List.replicate c.maxTxns Txn.initial
  pkts := List.replicate c.pktPoolCap Pkt.initial
  ring := { slots := List.range c.pktPoolCap, rd := 0, cnt := c.pktPoolCap }
  dfree := List.range c.nDummy
  efree := List.range c.maxEds
  tfree := List.range c.maxTds
  kfree := List.range c.maxTokens
  xfree := List.range c.maxTxns
  cls := { iso := [], intr := [], ctrl := [], bulk := [] }
  frame := Frame.initial
  done := []
  frnum := 0
  bussts := { connected := false, speed := .full }
  drainp := false
  lock := .free
  diag := { doubleRelease := false, spuriousConfirm := false, illegalEvent := false, rxOverlen := false }
  mem := []
  cmdPort := []
  evtPort := []
  env := Env.quiet
  out := []

/-- The state right after reset (R321), for the configuration of log entry 1. -/
def State.reset : State := State.resetOf Config.atReset

end Sys2Proof.Machine
end

