-- ==== Sys2Proof/Machine/Ops.lean ====
section
/-! DEFINITION. Machine/Ops.lean: the named operations over the state: one update per field, reads of
pool entries by index, host memory (20_memory.md), the pools and their lists (43_pools.md), the outputs
and the two services of the environment (R15, R307, R308), and entry to and exit from a pass (R300,
R301), which is what this block has in the place of taking an exception and returning from one. -/

namespace Sys2Proof.Machine

/-! Updates, one per field. -/

def State.setAttached (v : Bool) (s : State) : State := { s with attached := v }
def State.setEds (v : List Ed) (s : State) : State := { s with eds := v }
def State.setTds (v : List Td) (s : State) : State := { s with tds := v }
def State.setToks (v : List Tok) (s : State) : State := { s with toks := v }
def State.setTxns (v : List Txn) (s : State) : State := { s with txns := v }
def State.setPkts (v : List Pkt) (s : State) : State := { s with pkts := v }
def State.setRing (v : PktRing) (s : State) : State := { s with ring := v }
def State.setDfree (v : List Nat) (s : State) : State := { s with dfree := v }
def State.setEfree (v : List Nat) (s : State) : State := { s with efree := v }
def State.setTfree (v : List Nat) (s : State) : State := { s with tfree := v }
def State.setKfree (v : List Nat) (s : State) : State := { s with kfree := v }
def State.setXfree (v : List Nat) (s : State) : State := { s with xfree := v }
def State.setCls (v : Classes) (s : State) : State := { s with cls := v }
def State.setFrame (v : Frame) (s : State) : State := { s with frame := v }
def State.setDone (v : List Nat) (s : State) : State := { s with done := v }
def State.setFrnum (v : BitVec 16) (s : State) : State := { s with frnum := v }
def State.setBussts (v : BusSts) (s : State) : State := { s with bussts := v }
def State.setDrainp (v : Bool) (s : State) : State := { s with drainp := v }
def State.setLock (v : Lock) (s : State) : State := { s with lock := v }
def State.setDiag (v : Diag) (s : State) : State := { s with diag := v }
def State.setMem (v : Memory) (s : State) : State := { s with mem := v }
def State.setCmdPort (v : List Word) (s : State) : State := { s with cmdPort := v }
def State.setEvtPort (v : List Word) (s : State) : State := { s with evtPort := v }
def State.setEnv (v : Env) (s : State) : State := { s with env := v }
def State.setOut (v : List Output) (s : State) : State := { s with out := v }

/-! Pool entries by index (R23). An index outside its pool names no entry: reading it gives the entry's
reset value and updating it changes nothing (log entry 8). -/

/-- `ED[i]`. -/
def State.ed (s : State) (i : Nat) : Ed := s.eds.getD i Ed.initial
/-- `TD[i]`. -/
def State.td (s : State) (i : Nat) : Td := s.tds.getD i Td.initial
/-- `TOK[i]`. -/
def State.tok (s : State) (i : Nat) : Tok := s.toks.getD i Tok.initial
/-- `TXN[i]`. -/
def State.txn (s : State) (i : Nat) : Txn := s.txns.getD i Txn.initial
/-- `PKT[i]`. -/
def State.pkt (s : State) (i : Nat) : Pkt := s.pkts.getD i Pkt.initial

/-- Update `ED[i]`. -/
def State.modEd (i : Nat) (f : Ed → Ed) (s : State) : State := s.setEds (s.eds.modify i f)
/-- Update `TD[i]`. -/
def State.modTd (i : Nat) (f : Td → Td) (s : State) : State := s.setTds (s.tds.modify i f)
/-- Update `TOK[i]`. -/
def State.modTok (i : Nat) (f : Tok → Tok) (s : State) : State := s.setToks (s.toks.modify i f)
/-- Update `TXN[i]`. -/
def State.modTxn (i : Nat) (f : Txn → Txn) (s : State) : State := s.setTxns (s.txns.modify i f)
/-- Update `PKT[i]`. -/
def State.modPkt (i : Nat) (f : Pkt → Pkt) (s : State) : State := s.setPkts (s.pkts.modify i f)

/-! Lists (R15). -/

/-- `list.rotate()`: the head goes to the tail (R15, R159). -/
def rotateList : List Nat → List Nat
  | [] => []
  | x :: xs => xs ++ [x]

/-- The class list of a mode (R50). -/
def Classes.get (c : Classes) : Mode → List Nat
  | .iso => c.iso
  | .intr => c.intr
  | .ctrl => c.ctrl
  | .bulk => c.bulk

/-- Put a class list back (R50). -/
def Classes.set (c : Classes) (m : Mode) (l : List Nat) : Classes :=
  match m with
  | .iso => { c with iso := l }
  | .intr => { c with intr := l }
  | .ctrl => { c with ctrl := l }
  | .bulk => { c with bulk := l }

/-! The `DIAG` flags (R59): each is only ever set. -/

/-- `DIAG.DOUBLE_RELEASE <- 1` (R252). -/
def State.flagDoubleRelease (s : State) : State := s.setDiag { s.diag with doubleRelease := true }
/-- `DIAG.SPURIOUS_CONFIRM <- 1` (R209). -/
def State.flagSpuriousConfirm (s : State) : State := s.setDiag { s.diag with spuriousConfirm := true }
/-- `DIAG.ILLEGAL_EVENT <- 1` (R126). -/
def State.flagIllegalEvent (s : State) : State := s.setDiag { s.diag with illegalEvent := true }
/-- `DIAG.RX_OVERLEN <- 1` (R213). -/
def State.flagRxOverlen (s : State) : State := s.setDiag { s.diag with rxOverlen := true }

/-! Host memory (R70 to R74). -/

/-- What an address that is not listed reads as. DESIGN CHOICE (log entry 4): the spec leaves the
contents of memory the block never wrote open (R321, U15). Every contents of the address space is
still the memory of some state, since a state lists any byte that differs. -/
def unlistedByte : Byte := 0#8

/-- The byte at an address. -/
def Memory.read : Memory → Addr → Byte
  | [], _ => unlistedByte
  | (b, v) :: rest, a => if a = b then v else Memory.read rest a

/-- A memory that lists `v` at `a` before the entries of `m`, or `m` where `v` is what an unlisted
address reads as. -/
def Memory.cons (a : Addr) (v : Byte) (m : Memory) : Memory := if v = unlistedByte then m else (a, v) :: m

/-- Store a byte, keeping the addresses rising and no entry equal to what an unlisted address reads as. -/
def Memory.write : Memory → Addr → Byte → Memory
  | [], a, v => Memory.cons a v []
  | (b, u) :: rest, a, v =>
    if a < b then Memory.cons a v ((b, u) :: rest)
    else if a = b then Memory.cons a v rest
    else (b, u) :: Memory.write rest a v

/-- The canonical form: addresses strictly rising, no entry equal to what an unlisted address reads as. -/
abbrev Memory.wf (m : Memory) : Prop :=
  m.Pairwise (fun c d => c.1 < d.1) ∧ ∀ c ∈ m, c.2 ≠ unlistedByte

/-- Address arithmetic is modulo `2^ADDR_BITS` (R74). -/
def wrapAddr (c : Config) (a : Nat) : Addr := a % 2 ^ c.addrBits

/-- `MemRead(addr, 4)`, little-endian (R72, R74). -/
def State.memRead (s : State) (a : Addr) : Word :=
  s.mem.read (wrapAddr s.cfg (a + 3)) ++ s.mem.read (wrapAddr s.cfg (a + 2))
    ++ s.mem.read (wrapAddr s.cfg (a + 1)) ++ s.mem.read (wrapAddr s.cfg a)

/-- The four byte stores of `MemWrite(addr, 4, v)`, least significant byte first (R72). -/
def Memory.write32 (c : Config) (m : Memory) (a : Addr) (v : Word) : Memory :=
  (((m.write (wrapAddr c a) (v.extractLsb' 0 8)).write (wrapAddr c (a + 1)) (v.extractLsb' 8 8)).write
    (wrapAddr c (a + 2)) (v.extractLsb' 16 8)).write (wrapAddr c (a + 3)) (v.extractLsb' 24 8)

/-- Put out an output, behind the earlier ones (R16, R85). -/
def State.emit (o : Output) (s : State) : State := s.setOut (s.out ++ [o])

/-- `MemWrite(addr, 4, v)` (R72, R74); the write is an output of the pass (R16). -/
def State.memWrite (a : Addr) (v : Word) (s : State) : State :=
  (s.setMem (s.mem.write32 s.cfg a v)).emit (.memWrite (wrapAddr s.cfg a) v)

/-! The services of the transceiver (R15, R306 to R308). -/

/-- `ring_submit(d)`: the environment's answer, and the state after the call (R308). -/
def ringSubmit (d : TxDesc) (s : State) : Bool × State :=
  match s.env.ringAnswers with
  | a :: rest => (a, (s.setEnv { s.env with ringAnswers := rest }).emit (.ringSubmit d a))
  | [] =>
    let a := Config.freeRingAnswer s.env.ringCount
    (a, (s.setEnv { s.env with ringCount := s.env.ringCount + 1 }).emit (.ringSubmit d a))

/-- `sof_remaining()`: the environment's answer, and the state after the call (R307). -/
def sofRemaining (s : State) : Nat × State :=
  match s.env.sofAnswers with
  | a :: rest => (a, s.setEnv { s.env with sofAnswers := rest })
  | [] => (Config.freeSofAnswer s.env.sofCount, s.setEnv { s.env with sofCount := s.env.sofCount + 1 })

/-! The Packet Pool ring (R250 to R252). -/

/-- `pkt_acquire()` (R250): the oldest handle of the ring, marked out; `none` when the ring is empty. -/
def pktAcquire (s : State) : Option Nat × State :=
  if s.ring.cnt = 0 then (none, s)
  else
    let p := s.ring.slots.getD s.ring.rd 0
    (some p, (s.setRing { s.ring with rd := (s.ring.rd + 1) % s.cfg.pktPoolCap, cnt := s.ring.cnt - 1 }).modPkt p
      (fun k => { k with out := true }))

/-- `pkt_release(p)` (R251): reset the Packet's fields and put it at the tail; a handle that is not out
sets `DIAG.DOUBLE_RELEASE` and changes nothing else (R252). -/
def pktRelease (p : Nat) (s : State) : State :=
  if s.cfg.pktPoolCap ≤ p ∨ (s.pkt p).out = false then s.flagDoubleRelease
  else
    (s.modPkt p (fun _ => Pkt.initial)).setRing
      { s.ring with
        slots := s.ring.slots.set ((s.ring.rd + s.ring.cnt) % s.cfg.pktPoolCap) p
        cnt := s.ring.cnt + 1 }

/-! The four free-lists (R253, R254) and the dummy pool (R255). Fields other than `alloc` keep what
their last user left. -/

/-- `ed_alloc()` (R253). -/
def edAlloc (s : State) : Option Nat × State :=
  match s.efree with
  | [] => (none, s)
  | i :: rest => (some i, (s.setEfree rest).modEd i (fun e => { e with alloc := true }))

/-- `ed_free(i)` (R254). -/
def edFree (i : Nat) (s : State) : State :=
  if s.cfg.maxEds ≤ i ∨ (s.ed i).alloc = false then s.flagDoubleRelease
  else (s.modEd i (fun e => { e with alloc := false })).setEfree (i :: s.efree)

/-- `td_alloc()` (R253). -/
def tdAlloc (s : State) : Option Nat × State :=
  match s.tfree with
  | [] => (none, s)
  | i :: rest => (some i, (s.setTfree rest).modTd i (fun t => { t with alloc := true }))

/-- `td_free(i)` (R254). -/
def tdFree (i : Nat) (s : State) : State :=
  if s.cfg.maxTds ≤ i ∨ (s.td i).alloc = false then s.flagDoubleRelease
  else (s.modTd i (fun t => { t with alloc := false })).setTfree (i :: s.tfree)

/-- `token_alloc()` (R253). -/
def tokenAlloc (s : State) : Option Nat × State :=
  match s.kfree with
  | [] => (none, s)
  | i :: rest => (some i, (s.setKfree rest).modTok i (fun k => { k with alloc := true }))

/-- `token_free(i)` (R254). -/
def tokenFree (i : Nat) (s : State) : State :=
  if s.cfg.maxTokens ≤ i ∨ (s.tok i).alloc = false then s.flagDoubleRelease
  else (s.modTok i (fun k => { k with alloc := false })).setKfree (i :: s.kfree)

/-- `txn_alloc()` (R253). -/
def txnAlloc (s : State) : Option Nat × State :=
  match s.xfree with
  | [] => (none, s)
  | i :: rest => (some i, (s.setXfree rest).modTxn i (fun t => { t with alloc := true }))

/-- `txn_free(i)` (R254). -/
def txnFree (i : Nat) (s : State) : State :=
  if s.cfg.maxTxns ≤ i ∨ (s.txn i).alloc = false then s.flagDoubleRelease
  else (s.modTxn i (fun t => { t with alloc := false })).setXfree (i :: s.xfree)

/-- `dummy_acquire()` (R255). -/
def dummyAcquire (s : State) : Option Nat × State :=
  match s.dfree with
  | [] => (none, s)
  | u :: rest => (some u, s.setDfree rest)

/-- `dummy_release(u)` (R255). -/
def dummyRelease (u : Nat) (s : State) : State :=
  if s.cfg.nDummy ≤ u ∨ u ∈ s.dfree then s.flagDoubleRelease else s.setDfree (u :: s.dfree)

/-! The Packet and dummy of a transaction, where it has them. -/

/-- `dummy_release` of a dummy buffer that may be `NIL`. -/
def dummyReleaseOpt (u : Option Nat) (s : State) : State :=
  match u with
  | none => s
  | some u => dummyRelease u s

/-- `pkt_release` of a Packet index that may be `NIL`: `NIL` is out of range (R23, R251). -/
def pktReleaseOpt (p : Option Nat) (s : State) : State :=
  match p with
  | none => s.flagDoubleRelease
  | some p => pktRelease p s

/-- `token_free` of a Token index that may be `NIL`: `NIL` is out of range (R23, R254). -/
def tokenFreeOpt (k : Option Nat) (s : State) : State :=
  match k with
  | none => s.flagDoubleRelease
  | some k => tokenFree k s

/-! Passes (R16, R300, R301, R304). -/

/-- Entry to a pass: the exclusion region is taken; nothing is saved and no mode changes (R300). -/
def enterPass (holder : Lock) (s : State) : State := s.setLock holder

/-- Exit from a pass: the region is released; there is nothing to restore (R301). -/
def leavePass (s : State) : State := s.setLock .free

/-- One pass in a context: take the region, run the operation's pseudocode, release it (R16, R300). -/
def runPass (holder : Lock) (body : State → State) (s : State) : State :=
  leavePass (body (enterPass holder s))

end Sys2Proof.Machine
end

