-- ==== Sys2Proof/Machine/Flags.lean ====
section
/-! DEFINITION. Machine/Flags.lean: the conditions and computed values that steer the rules (10_state.md
R60): status codes and their classes (30_encoding.md R118, R119; 42_transaction_engine.md R225), counters,
frame-number arithmetic (40_frame_scheduler.md R141, R142, R151) and the admission arithmetic (R152, R153). -/

namespace Sys2Proof.Machine

/-! Status codes. -/

/-- The number of a `TS_*` code (R118). -/
def Ts.code : Ts → BitVec 4
  | .ok => 0#4
  | .nak => 1#4
  | .stall => 2#4
  | .crc => 3#4
  | .bitstuff => 4#4
  | .overrun => 5#4
  | .underrun => 6#4
  | .piderr => 7#4
  | .timeout => 8#4
  | .cancelled => 9#4

/-- The status a confirm event reports; `none` for a value above 8, which makes the event illegal (R110,
R126). -/
def Ts.ofEvent (st : BitVec 8) : Option Ts :=
  match st.toNat with
  | 0 => some .ok
  | 1 => some .nak
  | 2 => some .stall
  | 3 => some .crc
  | 4 => some .bitstuff
  | 5 => some .overrun
  | 6 => some .underrun
  | 7 => some .piderr
  | 8 => some .timeout
  | _ => none

/-- The CRC class (R118). -/
def Ts.crcClass : Ts → Bool
  | .crc => true
  | .bitstuff => true
  | .overrun => true
  | .piderr => true
  | .ok => false
  | .nak => false
  | .stall => false
  | .underrun => false
  | .timeout => false
  | .cancelled => false

/-- The number of a `CS_*` code, as a request record's `status` word holds it (R76, R119). -/
def Cs.code : Cs → Word
  | .ok => 0#32
  | .short => 1#32
  | .stall => 2#32
  | .crc => 3#32
  | .timeout => 4#32
  | .cancelled => 5#32

/-- The completion status of a terminal TD status (R119). -/
def csOf : Ts → Cs
  | .ok => .ok
  | .nak => .timeout
  | .stall => .stall
  | .crc => .crc
  | .bitstuff => .crc
  | .overrun => .crc
  | .underrun => .crc
  | .piderr => .crc
  | .timeout => .timeout
  | .cancelled => .cancelled

/-- `fatal_halts(st)` (R225): whether a TD made terminal by this error status halts its ED. -/
def fatalHalts (c : Config) (st : Ts) : Bool :=
  if st.crcClass then c.exhaustHaltsEd
  else st == .stall || st == .timeout || st == .underrun

/-- A failing terminal status, after which the request is dead: anything but `TS_OK` and `TS_CANCELLED`
(R226, R228). -/
def Ts.failing (st : Ts) : Bool := st != .ok && st != .cancelled

/-! The registers as words. -/

/-- `BUSSTS` as its 2 bits: bit 0 `CONNECTED`, bit 1 `SPEED` (R56). -/
def BusSts.bits (b : BusSts) : BitVec 2 := BitVec.ofBool b.speed.bit ++ BitVec.ofBool b.connected

/-- `DIAG` as its 8 bits, bits 7:4 zero (R59). -/
def Diag.bits (d : Diag) : BitVec 8 :=
  0#4 ++ BitVec.ofBool d.rxOverlen ++ BitVec.ofBool d.illegalEvent ++ BitVec.ofBool d.spuriousConfirm
    ++ BitVec.ofBool d.doubleRelease

/-! Toggle and counters. -/

/-- The toggle flipped after a good data phase (R214). A toggle still `CARRY` has none to flip; a
dispatch resolved it before (R203). -/
def Toggle.flip : Toggle → Toggle
  | .val b => .val (!b)
  | .carry => .carry

/-- `nak_count` after one more NAK: it saturates at 65535 (R28, R221). -/
def satSucc16 (n : BitVec 16) : BitVec 16 := if n = 0xFFFF#16 then n else n + 1

/-! Frame-number arithmetic. -/

/-- `(a - b) mod m`, the non-negative remainder (R14). -/
def modDiff (a b : BitVec 16) (m : Nat) : Nat := (((a.toNat : Int) - (b.toNat : Int)) % (m : Int)).toNat

/-- `FRNUM` after one more frame start (R141). -/
def nextFrnum (c : Config) (n : BitVec 16) : BitVec 16 := BitVec.ofNat 16 ((n.toNat + 1) % c.frameWrap)

/-- The frame is stale: more than `FLUSH_THRESHOLD` frame-counts elapsed since it was opened (R142). -/
def frameStale (s : State) : Bool := decide (s.cfg.flushThreshold < modDiff s.frnum s.frame.number s.cfg.frameWrap)

/-- The head TD of a periodic ED is eligible: its `interval` has elapsed since `start_frame` (R151). -/
def periodicEligible (s : State) (t : Td) : Bool :=
  decide (t.interval.toNat ≤ modDiff s.frame.number t.startFrame s.cfg.frameWrap)

/-- The periodic classes: isochronous and interrupt (R149: `c <= 1`). -/
def periodicMode : Mode → Bool
  | .iso => true
  | .intr => true
  | .ctrl => false
  | .bulk => false

/-- A frame that admits nothing more (R155, R158). -/
def FrameStatus.closed : FrameStatus → Bool
  | .prepared => false
  | .transmitted => false
  | .endOfTransmission => true
  | .timerForcedEnd => true

/-! Admission arithmetic. -/

/-- The bytes a transaction of `len` data bytes commits (R153). -/
def costOf (c : Config) (len : Nat) : Nat := len + c.pktOverhead

/-- Its wire time in microseconds, by the speed of the bus, rounded down (R152, R153). -/
def wireTime (c : Config) (bus : Speed) (cost : Nat) : Nat :=
  match bus with
  | .full => cost * c.kFullN / c.kFullD
  | .low => cost * c.kLowN / c.kLowD

/-- The byte test: the transaction would exceed the frame's byte budget (R152; exactly filling it does not). -/
def overBytes (s : State) (cost : Nat) : Bool := decide (s.cfg.maxBytesPerFrame < s.frame.bytes.toNat + cost)

/-- The time test: it would exceed the time left before the frame boundary (R152). -/
def overTime (s : State) (t rem : Nat) : Bool := decide (rem < s.frame.timeUs.toNat + t)

end Sys2Proof.Machine
end

