-- ==== Sys2Proof/Machine/Operands.lean ====
section
/-! DEFINITION. Machine/Operands.lean: the operand forms: handles and request records (20_memory.md R76,
R77), endpoint keys (30_encoding.md R111) and the searches they steer (10_state.md R41, 41_queue_manager.md
R171, R172), and the messages the block builds: responses (R112), callbacks (R114), transmit descriptors
(R116, 42_transaction_engine.md R205), Packet info flags (R42). -/

namespace Sys2Proof.Machine

/-! Requests. -/

/-- The request handle of a handle word: `ADDR_BITS` of its bits are significant (R110). -/
def State.handle (s : State) (w : Word) : Addr := wrapAddr s.cfg w.toNat

/-- Offsets of the request record's fields (R76). -/
def offLength : Nat := 0x00
def offBuffer : Nat := 0x04
def offFlags : Nat := 0x08
def offSetup : Nat := 0x0C
def offPeriod : Nat := 0x10
def offNPackets : Nat := 0x14
def offActualLength : Nat := 0x18
def offStatus : Nat := 0x1C
def offSub : Nat := 0x20

/-- A field of the request record at `h` (R76): the word at `h + off`, the sum wrapping (R74). -/
def State.field (s : State) (h : Addr) (off : Nat) : Word := s.memRead (wrapAddr s.cfg (h + off))

/-- Write a field of the request record at `h` (R76, R79). -/
def State.setField (h : Addr) (off : Nat) (v : Word) (s : State) : State := s.memWrite (wrapAddr s.cfg (h + off)) v

/-- `flags[0]`, `DIR_IN` (R76). -/
def flagDirIn (flags : Word) : Bool := flags.getLsbD 0
/-- `flags[1]`, `ZERO_PACKET` (R76). -/
def flagZeroPacket (flags : Word) : Bool := flags.getLsbD 1
/-- `flags[31:2]` is zero (R76, R170). -/
def flagsReservedZero (flags : Word) : Bool := flags.extractLsb' 2 30 == 0#30

/-- Some TD with `alloc = 1`, in any place, has this request (R171). -/
def requestInFlight (s : State) (h : Addr) : Bool := s.tds.any (fun t => t.alloc && decide (t.request = h))

/-- The request has a TD that is queued or active (R183). -/
def Td.isLiveOf (t : Td) (h : Addr) : Bool :=
  t.alloc && (decide (t.place = .queued) || decide (t.place = .active)) && decide (t.request = h)

/-- Some TD of the request that is queued or active (R183: "any such TD"). -/
def liveTd (s : State) (h : Addr) : Option Td := s.tds.find? (fun t => t.isLiveOf h)

/-- Another TD than `d` is allocated with this request (R261, R264). -/
def otherTdOf (s : State) (d : Nat) (h : Addr) : Bool :=
  (List.range s.tds.length).any (fun i => decide (i ≠ d) && (s.td i).alloc && decide ((s.td i).request = h))

/-! Endpoints. -/

/-- The direction bit of a new pipe and of a key: 0 when the mode is `CTRL` (R111, R172). -/
def pipeDir (eid : EndpointId) : Bool := if eid.mode = .ctrl then false else eid.dirIn

/-- The 12-bit key of an `endpoint_id` (R111). -/
def pipeKey (eid : EndpointId) : BitVec 12 := BitVec.ofBool (pipeDir eid) ++ eid.epNum ++ eid.devAddr

/-- The key of an ED (R172). -/
def Ed.key (e : Ed) : BitVec 12 := BitVec.ofBool e.dirIn ++ e.epNum ++ e.devAddr

/-- `lookup(k)`: the ED with `alloc = 1` and this key (R172). -/
def lookup (s : State) (k : BitVec 12) : Option Nat :=
  (List.range s.eds.length).find? (fun i => (s.ed i).alloc && decide ((s.ed i).key = k))

/-! Transactions. -/

/-- The live Transaction record bound to a Packet (R41, R208). -/
def txnOfPkt (s : State) (p : Nat) : Option Nat :=
  (List.range s.txns.length).find? (fun i => (s.txn i).alloc && decide ((s.txn i).pkt = some p))

/-! Responses and callbacks. -/

/-- Result codes of a response (R112). -/
inductive Code where
  | ok | busy | notFound | illegal
  deriving DecidableEq, Repr

/-- The number of a result code (R112, R286). -/
def Code.num : Code → BitVec 8
  | .ok => 0x00#8
  | .busy => 0x01#8
  | .notFound => 0x02#8
  | .illegal => 0xFF#8

/-- `BUSY` reason 1, `POOL_EXHAUSTED` (R112). -/
def busyPoolExhausted : BitVec 16 := 1#16
/-- `BUSY` reason 2, `EP_NOT_ACCEPTING` (R112). -/
def busyNotAccepting : BitVec 16 := 2#16

/-- The response word: the opcode answered, the code, the value (R112). -/
def responseWord (op : BitVec 8) (code : Code) (value : BitVec 16) : Word := op ++ code.num ++ value

/-- `respond(code, value)` to a command with this opcode byte (R15, R112). -/
def respond (op : BitVec 8) (code : Code) (value : BitVec 16) (s : State) : State :=
  s.emit (.response (responseWord op code value))

/-- `callback(h, s, n)` (R114): word 0 is `0xC0000000` with the status in bits 7:0 and bits 23:8 zero. -/
def callback (h : Addr) (st n : Word) (s : State) : State :=
  s.emit (.callback (0xC00000#24 ++ st.extractLsb' 0 8) (BitVec.ofNat 32 h) n)

/-! Transmit descriptors (R116, R205). -/

/-- Word 0 of a transmit descriptor (R116): `kind`, `PRE`, `TOGGLE`, `IN`, `DUMMY`, `ISO`, ten zero bits,
the Packet index. -/
def descWord0 (kind pre toggle inn dummy iso : Bool) (pkt : Nat) : Word :=
  BitVec.ofBool kind ++ BitVec.ofBool pre ++ BitVec.ofBool toggle ++ BitVec.ofBool inn ++ BitVec.ofBool dummy
    ++ BitVec.ofBool iso ++ 0#10 ++ BitVec.ofNat 16 pkt

/-- The token descriptor (R205). -/
def tokenDesc (pkt : Nat) (tg pre iso dm isIn : Bool) (len : Nat) (addr : Addr) (token : BitVec 24) : TxDesc where
  w0 := descWord0 false pre (tg && isIn) isIn (dm && isIn) iso pkt
  w1 := (if isIn then BitVec.ofNat 16 len else 0#16) ++ 3#16
  w2 := if isIn then BitVec.ofNat 32 addr else 0#32
  w3 := 0#8 ++ token

/-- The data descriptor of an OUT or SETUP transaction (R205). -/
def dataDesc (pkt : Nat) (tg pre iso dm : Bool) (len : Nat) (addr : Addr) : TxDesc where
  w0 := descWord0 true pre tg false dm iso pkt
  w1 := 0#16 ++ BitVec.ofNat 16 len
  w2 := BitVec.ofNat 32 addr
  w3 := 0#32

/-- `PKT.info`: bit 0 `IN`, bit 1 `PRE`, bit 2 `TOGGLE`, bit 3 `DUMMY`, bits 7:4 zero (R42, R204). -/
def pktInfo (isIn pre tg dm : Bool) : BitVec 8 :=
  0#4 ++ BitVec.ofBool dm ++ BitVec.ofBool tg ++ BitVec.ofBool pre ++ BitVec.ofBool isIn

/-- The packet-ID byte of a token kind (R121). -/
def Dir.pid : Dir → BitVec 8
  | .out => pidOut
  | .inn => pidIn
  | .setup => pidSetup

/-- The token packet that SUBMIT fills a Token with (R176): `pid_byte(dir) | W << 8`, `W` by R120 to R122. -/
def tokenBytes (dir : Dir) (devAddr : BitVec 7) (epNum : BitVec 4) : BitVec 24 :=
  tokenPacket dir.pid devAddr epNum (crc5 devAddr epNum)

/-- The answer to an illegal word on the command port, or to an illegal command: `respond(ILLEGAL, 0)`
with the opcode byte received (R125). -/
def illegalCommand (op : BitVec 8) (s : State) : State := runPass .heldH (respond op .illegal 0#16) s

/-- The effect of an illegal event: `DIAG.ILLEGAL_EVENT` is set and nothing else changes (R126). -/
def illegalEvent (s : State) : State := runPass .heldA State.flagIllegalEvent s

end Sys2Proof.Machine
end

