-- ==== Sys2Proof/Machine/Engine.lean ====
section
/-! DEFINITION. Machine/Engine.lean: the Transaction Engine (42_transaction_engine.md): `next_len`,
`dispatch`, `end_txn`, `terminate`, the reaping of dying EDs (41_queue_manager.md R186), and the meanings
of EV_TX_CONFIRM and EV_RX_CONFIRM. -/

namespace Sys2Proof.Machine

/-! Terminal TDs (R226 to R228). -/

/-- `toggle_carry` after a TD of this ED becomes terminal (R226): the TD's toggle, unless it is still
`CARRY` or the ED is isochronous. -/
def carryAfter (e : Ed) (t : Td) : Bool :=
  match t.toggle with
  | .val b => if e.mode = .iso then e.toggleCarry else b
  | .carry => e.toggleCarry

/-- `finish(e, d, st)` (R226): TD `d` leaves its ED's queue for the done list with status `st`. -/
def finish (e d : Nat) (st : Ts) (s : State) : State :=
  let s1 := s.modEd e (fun x => { x with queue := x.queue.erase d, toggleCarry := carryAfter x (s.td d) })
  let s2 := s1.modTd d (fun t => { t with status := st, place := .done })
  (s2.setDone (s2.done ++ [d])).setDrainp true

/-- The request-fatal sweep over a snapshot of the queue (R226, R228): every TD of request `h` on it is
finished as cancelled, in queue order. -/
def sweep (e : Nat) (h : Addr) : List Nat → State → State
  | [], s => s
  | d :: rest, s => sweep e h rest (if (s.td d).request = h then finish e d .cancelled s else s)

/-- The ED state after a TD became terminal (R226): halted, unless it is dying; else `Skip` when an
`Operational` ED's queue ran empty. -/
def settleEd (e : Nat) (halt : Bool) (s : State) : State :=
  if halt then
    if (s.ed e).state = .pendingDelete then s else s.modEd e (fun x => { x with state := .halted })
  else if (s.ed e).queue = [] ∧ (s.ed e).state = .operational then s.modEd e (fun x => { x with state := .skip })
  else s

/-- `terminate(d, st, halt)` (R226), for a TD whose `ed` is valid (R31; a `NIL` one is left alone). -/
def terminate (d : Nat) (st : Ts) (halt : Bool) (s : State) : State :=
  match (s.td d).ed with
  | none => s
  | some e =>
    let s1 := finish e d st s
    let s2 := if st.failing then sweep e (s.td d).request (s1.ed e).queue s1 else s1
    settleEd e halt s2

/-- `terminate` of each TD of a snapshot, in order (R186, R188). -/
def terminateAll (st : Ts) (halt : Bool) : List Nat → State → State
  | [], s => s
  | d :: rest, s => terminateAll st halt rest (terminate d st halt s)

/-! The end of a transaction (R215). -/

/-- The TD side of `end_txn`: off the active list, back to `QUEUED`, with no transaction (R215). -/
def unlinkTd (d : Nat) (s : State) : State :=
  (s.setFrame { s.frame with active := s.frame.active.erase d }).modTd d
    (fun t => { t with txn := none, place := .queued })

/-- `unlinkTd` of a TD index that may be `NIL`. -/
def unlinkTdOpt (d : Option Nat) (s : State) : State :=
  match d with
  | none => s
  | some d => unlinkTd d s

/-- `end_txn(t)`, also written `abort_txn(t)` (R215). -/
def endTxn (t : Nat) (s : State) : State :=
  let x := s.txn t
  txnFree t (unlinkTdOpt x.td (pktReleaseOpt x.pkt (dummyReleaseOpt x.dummy s)))

/-- `abort_txn` of a Transaction index that may be `NIL`. -/
def abortTxn (t : Option Nat) (s : State) : State :=
  match t with
  | none => s
  | some t => endTxn t s

/-! Reaping (R186). -/

/-- The head TD of this ED is mid-transaction (R45, R186). -/
def headInFlight (s : State) (e : Nat) : Bool :=
  match (s.ed e).queue with
  | [] => false
  | d :: _ => (s.td d).txn.isSome

/-- Take an ED off the class list of its mode and free it (R186, R188, R254). -/
def removeEd (e : Nat) (s : State) : State :=
  edFree e (s.setCls (s.cls.set (s.ed e).mode ((s.cls.get (s.ed e).mode).erase e)))

/-- One turn of the loop of `reap()` (R186). -/
def reapOne (e : Nat) (s : State) : State :=
  if (s.ed e).alloc = false ∨ (s.ed e).state ≠ .pendingDelete then s
  else if headInFlight s e then s
  else removeEd e (terminateAll .cancelled false (s.ed e).queue s)

/-- The loop of `reap()` over a list of ED indices. -/
def reapList : List Nat → State → State
  | [], s => s
  | e :: rest, s => reapList rest (reapOne e s)

/-- `reap()`, at the end of every context-(a) pass (R161, R186). -/
def reap (s : State) : State := reapList (List.range s.cfg.maxEds) s

/-! Dispatch (R202 to R207). -/

/-- `next_len(d)` (R202): the data length of the TD's next transaction. -/
def nextLen (s : State) (e d : Nat) : Nat :=
  min ((s.td d).length.toNat - (s.td d).transferred.toNat) (s.ed e).maxPacket.toNat

/-- The toggle a transaction uses (R203), 0 for an isochronous one (R218). -/
def txnToggle (e : Ed) (t : Td) : Bool :=
  if e.mode = .iso then false
  else match t.toggle with
    | .val b => b
    | .carry => e.toggleCarry

/-- The host address of dummy buffer `u` (R10). -/
def dummyAddr (c : Config) (u : Nat) : Addr := c.dummyAddrs.getD u 0

/-- Everything `dispatch` works out before it asks the transceiver (R204): the address, the descriptors,
the Packet's contents and the Transaction record. -/
structure Prepared where
  toggle : Bool
  token : TxDesc
  pkt : Pkt
  txn : Txn
  deriving DecidableEq, Repr

/-- The prepared transaction of TD `d` of ED `e` on Packet `p` with dummy buffer `u` (R204, R205, R207). -/
def prepare (s : State) (e d len p : Nat) (u : Option Nat) : Prepared :=
  let ed := s.ed e
  let td := s.td d
  let isIn := decide (td.dir = .inn)
  let tg := txnToggle ed td
  let pre := ed.speed.bit
  let iso := decide (ed.mode = .iso)
  let addr := match u with
    | some u => dummyAddr s.cfg u
    | none => wrapAddr s.cfg (td.data + td.transferred.toNat)
  { toggle := tg
    token := tokenDesc p tg pre iso u.isSome isIn len addr (s.tok (td.token.getD s.cfg.maxTokens)).bytes
    pkt := { pointer := addr, length := BitVec.ofNat 16 len, status := .ok,
             info := pktInfo isIn pre tg u.isSome, out := true }
    txn := { alloc := true, phase := .idle, td := some d, pkt := some p, token := td.token,
             len := BitVec.ofNat 11 len, dummy := u,
             dataDesc := if isIn then TxDesc.zero else dataDesc p tg pre iso u.isSome len addr } }

/-- `dispatch` from the point where all three resources are there (R204): fill the Packet and the record,
hand over the token descriptor; a refusal puts everything back (R206). -/
def dispatchWith (e d len p t : Nat) (u : Option Nat) (s : State) : Bool × State :=
  let pr := prepare s e d len p u
  let s1 := (s.modPkt p (fun _ => pr.pkt)).modTxn t (fun _ => pr.txn)
  match ringSubmit pr.token s1 with
  | (false, s2) => (false, pktRelease p (txnFree t (dummyReleaseOpt u s2)))
  | (true, s2) =>
    (true, (s2.modTxn t (fun x => { x with phase := .tokenWait })).modTd d
      (fun x => { x with toggle := .val pr.toggle, txn := some t }))

/-- The dummy buffer a transaction of this length takes: one exactly when the length is 0 (R207). -/
def takeDummy (len : Nat) (s : State) : Option Nat × State := if len = 0 then dummyAcquire s else (none, s)

/-- `dispatch(e, d, len)` (R204): `true` is `Accepted`, `false` is `Deferred` (R206). The order of the
tests is Packet, Transaction record, dummy buffer. -/
def dispatch (e d len : Nat) (s : State) : Bool × State :=
  match pktAcquire s with
  | (none, _) => (false, s)
  | (some p, s1) =>
    if s1.xfree = [] then (false, pktRelease p s1)
    else if len = 0 ∧ s1.dfree = [] then (false, pktRelease p s1)
    else
      match txnAlloc s1 with
      | (none, _) => (false, pktRelease p s1)
      | (some t, s2) =>
        match takeDummy len s2 with
        | (u, s3) => dispatchWith e d len p t u s3

/-! Failure of a transaction (R220 to R225). -/

/-- `nak(d)` (R221). -/
def nak (d : Nat) (s : State) : State :=
  s.modTd d (fun t => { t with nakCount := satSucc16 t.nakCount, errorCount := 0 })

/-- One more error of the error class on TD `d` (R224). -/
def countError (d : Nat) (st : Ts) (s : State) : State :=
  let s1 := s.modTd d (fun t => { t with errorCount := t.errorCount + 1 })
  if s.cfg.retryLimit ≤ (s1.td d).errorCount.toNat then terminate d st (fatalHalts s.cfg st) s1 else s1

/-- `failed(d, st)` (R220), for a data phase that ended with a status other than `TS_OK`. -/
def failed (d : Nat) (st : Ts) (s : State) : State :=
  if st = .nak then nak d s
  else if st = .stall then terminate d .stall true s
  else if st = .timeout then terminate d .timeout true s
  else countError d st s

/-! Confirmation of the token phase (R210, R211). -/

/-- `token_confirmed(t, st)` for the transaction of TD `d` (R210). -/
def tokenConfirmed (t d : Nat) (st : Ts) (s : State) : State :=
  if st = .ok then
    if (s.td d).dir = .inn then s.modTxn t (fun x => { x with phase := .dataWait })
    else
      match ringSubmit (s.txn t).dataDesc s with
      | (true, s1) => s1.modTxn t (fun x => { x with phase := .dataWait })
      | (false, s1) => endTxn t s1
  else if st = .nak then nak d (endTxn t s)
  else terminate d st (fatalHalts s.cfg st) (endTxn t s)

/-! Confirmation of the data phase (R214, R217 to R219). -/

/-- What a good data phase of `len` bytes that moved `moved` does to its TD (R214): the count, the toggle
(not of an isochronous TD, R218), the pending terminator (R219). -/
def creditTd (isIso : Bool) (len moved : Nat) (t : Td) : Td :=
  { t with
    transferred := t.transferred + BitVec.ofNat 32 moved
    toggle := if isIso then t.toggle else t.toggle.flip
    zlpPending := if len = 0 then false else t.zlpPending }

/-- The TD is done after a good data phase (R214): nothing left and no terminator pending, or a short IN
packet (R217). -/
def tdComplete (t : Td) (len moved : Nat) : Bool :=
  (decide (t.transferred = t.length) && !t.zlpPending) || (decide (t.dir = .inn) && decide (moved < len))

/-- `data_confirmed(t, st, n)` for the transaction of TD `d` (R214). -/
def dataConfirmed (t d : Nat) (st : Ts) (n : Nat) (s : State) : State :=
  if st ≠ .ok then failed d st (endTxn t s)
  else
    let len := (s.txn t).len.toNat
    let moved := if (s.td d).dir = .inn then n else len
    let isIso := decide ((s.ed ((s.td d).ed.getD s.cfg.maxEds)).mode = .iso)
    let s1 := s.modTxn t (fun x => { x with phase := .confirmed })
    let s2 := endTxn t (s1.modTd d (creditTd isIso len moved))
    if tdComplete (s2.td d) len moved then terminate d .ok false s2 else s2

/-! The two confirm events. -/

/-- `PKT[pkt].status <- st` (R208, R212). -/
def setPktStatus (p : Nat) (st : Ts) (s : State) : State := s.modPkt p (fun k => { k with status := st })

/-- The body of EV_TX_CONFIRM before its `reap()` (R208, R209). A live record always names its TD (R39);
one that does not is treated as no match. -/
def txConfirmBody (st : Ts) (p : Nat) (s : State) : State :=
  match txnOfPkt s p with
  | none => s.flagSpuriousConfirm
  | some t =>
    match (s.txn t).td with
    | none => s.flagSpuriousConfirm
    | some d =>
      if (s.txn t).phase = .tokenWait then tokenConfirmed t d st (setPktStatus p st s)
      else if (s.txn t).phase = .dataWait ∧ (s.td d).dir ≠ .inn then
        dataConfirmed t d st (s.txn t).len.toNat (setPktStatus p st s)
      else s.flagSpuriousConfirm

/-- A good reception longer than was asked for is an overrun, and is noted (R213). -/
def rxStatus (st : Ts) (n len : Nat) : Ts := if st = .ok ∧ len < n then .overrun else st

/-- The body of EV_RX_CONFIRM before its `reap()` (R212, R213). -/
def rxConfirmBody (st : Ts) (p n : Nat) (s : State) : State :=
  match txnOfPkt s p with
  | none => s.flagSpuriousConfirm
  | some t =>
    match (s.txn t).td with
    | none => s.flagSpuriousConfirm
    | some d =>
      if (s.txn t).phase ≠ .dataWait ∨ (s.td d).dir ≠ .inn then s.flagSpuriousConfirm
      else
        let len := (s.txn t).len.toNat
        let s1 := if st = .ok ∧ len < n then s.flagRxOverlen else s
        let st' := rxStatus st n len
        dataConfirmed t d st' n (setPktStatus p st' s1)

/-- `EV_TX_CONFIRM pkt, st` (R208); a status above 8 makes the event illegal (R126). -/
def execEvTxConfirm (status : BitVec 8) (pkt : BitVec 16) (s : State) : Host.Outcome State Fault Refusal :=
  match Ts.ofEvent status with
  | none => .next (illegalEvent s)
  | some st => .next (runPass .heldA (fun s => reap (txConfirmBody st pkt.toNat s)) s)

/-- `EV_RX_CONFIRM pkt, st, rx_len` (R212); a status above 8 makes the event illegal (R126). -/
def execEvRxConfirm (status : BitVec 8) (pkt : BitVec 16) (rxLen : Word) (s : State) :
    Host.Outcome State Fault Refusal :=
  match Ts.ofEvent status with
  | none => .next (illegalEvent s)
  | some st => .next (runPass .heldA (fun s => reap (rxConfirmBody st pkt.toNat rxLen.toNat s)) s)

end Sys2Proof.Machine
end

