-- ==== Sys2Proof/Machine/BusEvents.lean ====
section
/-! DEFINITION. Machine/BusEvents.lean: the meanings of EV_CONNECT and EV_DISCONNECT (45_bus_events.md). -/

namespace Sys2Proof.Machine

/-- `EV_CONNECT speed` (R275, R277). -/
def execEvConnect (speed : Speed) (s : State) : Host.Outcome State Fault Refusal :=
  .next (runPass .heldA (fun s => reap (s.setBussts { connected := true, speed := speed })) s)

/-- `EV_DISCONNECT` (R276, R277): `SPEED` keeps its value. -/
def execEvDisconnect (s : State) : Host.Outcome State Fault Refusal :=
  .next (runPass .heldA (fun s => reap (s.setBussts { s.bussts with connected := false })) s)

end Sys2Proof.Machine
end

