-- ==== Sys2Proof/Machine/Completion.lean ====
section
/-! DEFINITION. Machine/Completion.lean: the Completion (Done-List) Processor (44_completion.md):
`drain_pass`, `update_request`, `retire`, and the meaning of DRAIN. -/

namespace Sys2Proof.Machine

/-- Add the bytes a TD moved to the request's `actual_length` (R263); the SETUP TD's are not counted. -/
def addActual (t : Td) (h : Addr) (s : State) : State :=
  if t.dir = .setup then s
  else s.setField h offActualLength (s.field h offActualLength + t.transferred)

/-- Keep the first failing status in the request's `status` (R263). -/
def noteStatus (t : Td) (h : Addr) (s : State) : State :=
  if s.field h offStatus = Cs.ok.code ∧ t.status ≠ .ok then s.setField h offStatus (csOf t.status).code
  else s

/-- `update_request(d, h)` (R263). -/
def updateRequest (d : Nat) (h : Addr) (s : State) : State := noteStatus (s.td d) h (addActual (s.td d) h s)

/-- `retire(h)` (R265). -/
def retire (h : Addr) (s : State) : State :=
  let len := s.field h offLength
  let a := s.field h offActualLength
  let st := s.field h offStatus
  if st = Cs.ok.code ∧ a.toNat < len.toNat then
    callback h Cs.short.code a (s.setField h offStatus Cs.short.code)
  else callback h st a s

/-- Free a drained TD and its Token (R261, R266). -/
def freeTd (d : Nat) (s : State) : State :=
  tdFree d ((tokenFreeOpt (s.td d).token s).modTd d (fun t => { t with token := none, place := .free }))

/-- One turn of the loop of `drain_pass()` after its TD left the list (R261): update, retire when it was
the request's last TD (R264), free. -/
def drainOne (d : Nat) (s : State) : State :=
  let h := (s.td d).request
  let s1 := updateRequest d h s
  let s2 := if otherTdOf s1 d h then s1 else retire h s1
  freeTd d s2

/-- The loop of `drain_pass()` (R261): nothing is appended to the done list meanwhile. -/
def drainList : List Nat → State → State
  | [], s => s
  | d :: rest, s => drainList rest (drainOne d (s.setDone rest))

/-- `drain_pass()` (R261). -/
def drainPass (s : State) : State := (drainList s.done s).setDrainp false

/-- `DRAIN` (R260): enabled when `DRAINP = 1`; with `DRAINP = 0` it is "a pass that changes nothing". -/
def execDrain (s : State) : Host.Outcome State Fault Refusal :=
  .next (runPass .heldB (fun s => if s.drainp then drainPass s else s) s)

end Sys2Proof.Machine
end

