-- ==== Sys2Proof/Machine/QueueManager.lean ====
section
/-! DEFINITION. Machine/QueueManager.lean: the Endpoint/Transfer Queue Manager (41_queue_manager.md): the
meanings of SUBMIT, CANCEL, EP_TEARDOWN, EP_CLEAR_HALT and GET_FRAME. -/

namespace Sys2Proof.Machine

/-! SUBMIT (R170 to R181). -/

/-- What a SUBMIT needs to know of the pipe it targets: the ED's own fields where the pipe is known, else
those of the `endpoint_id` (R170, R172). -/
structure Pipe where
  mode : Mode
  maxPacket : BitVec 11
  dirIn : Bool
  deriving DecidableEq, Repr

/-- One TD to be made (R173 to R175). `startFrame` is given for an isochronous TD only. -/
structure TdSpec where
  dir : Dir
  data : Addr
  length : BitVec 32
  toggle : Toggle
  startFrame : Option (BitVec 16)
  interval : BitVec 16
  zlpPending : Bool
  deriving DecidableEq, Repr

/-- The pipe of an ED, or of an `endpoint_id` where there is no ED (R170). -/
def pipeOf (s : State) (eid : EndpointId) : Option Nat → Pipe
  | some e => { mode := (s.ed e).mode, maxPacket := (s.ed e).maxPacket, dirIn := (s.ed e).dirIn }
  | none => { mode := eid.mode, maxPacket := eid.maxPacket, dirIn := pipeDir eid }

/-- The number of chunks of a bulk or interrupt request: `max(1, ceil(length / CHUNK_SIZE))` (R173). -/
def chunkCount (c : Config) (length : Nat) : Nat := max 1 ((length + c.chunkSize - 1) / c.chunkSize)

/-- `td_count` (R173); 0 only for an isochronous request with no sub-packet, which is illegal. -/
def tdCount (s : State) (mode : Mode) (h : Addr) : Nat :=
  match mode with
  | .ctrl => if s.field h offLength = 0#32 then 2 else 3
  | .bulk => chunkCount s.cfg (s.field h offLength).toNat
  | .intr => chunkCount s.cfg (s.field h offLength).toNat
  | .iso => (s.field h offNPackets).toNat

/-- Direction of the TDs of a pipe that is not a control pipe (R173). -/
def pipeTdDir (dirIn : Bool) : Dir := if dirIn then .inn else .out

/-- A host address made of a word and an offset, wrapping (R74). -/
def dataAddr (s : State) (base : Word) (off : Nat) : Addr := wrapAddr s.cfg (base.toNat + off)

/-- The TDs of a control request (R173, R174): SETUP, a data stage when there are data, STATUS. -/
def controlSpecs (s : State) (h : Addr) : List TdSpec :=
  let length := s.field h offLength
  let dirIn := flagDirIn (s.field h offFlags)
  let setupTd : TdSpec :=
    { dir := .setup, data := dataAddr s (s.field h offSetup) 0, length := 8#32, toggle := .val false,
      startFrame := none, interval := 0#16, zlpPending := false }
  let dataTd : TdSpec :=
    { dir := if dirIn then .inn else .out, data := dataAddr s (s.field h offBuffer) 0, length := length,
      toggle := .carry, startFrame := none, interval := 0#16, zlpPending := false }
  let statusTd : TdSpec :=
    { dir := if length ≠ 0#32 ∧ dirIn = true then .out else .inn, data := 0, length := 0#32,
      toggle := .val true, startFrame := none, interval := 0#16, zlpPending := false }
  if length = 0#32 then [setupTd, statusTd] else [setupTd, dataTd, statusTd]

/-- The last TD of a bulk or interrupt request carries a zero-length terminator (R173, R219). -/
def wantsZlp (s : State) (pipe : Pipe) (h : Addr) : Bool :=
  let length := (s.field h offLength).toNat
  flagZeroPacket (s.field h offFlags) && !pipe.dirIn && decide (0 < length)
    && decide (length % pipe.maxPacket.toNat = 0)

/-- Chunk `i` of `n` of a bulk or interrupt request (R173). -/
def chunkSpec (s : State) (pipe : Pipe) (h : Addr) (interval : BitVec 16) (n i : Nat) : TdSpec where
  dir := pipeTdDir pipe.dirIn
  data := dataAddr s (s.field h offBuffer) (i * s.cfg.chunkSize)
  length := BitVec.ofNat 32 (min s.cfg.chunkSize ((s.field h offLength).toNat - i * s.cfg.chunkSize))
  toggle := .carry
  startFrame := none
  interval := interval
  zlpPending := decide (i + 1 = n) && wantsZlp s pipe h

/-- Sub-packet `i` of an isochronous request (R173 to R175). -/
def subPacketSpec (s : State) (pipe : Pipe) (h : Addr) (i : Nat) : TdSpec :=
  let period := s.field h offPeriod
  let interval := period.extractLsb' 0 16
  let base := period.extractLsb' 16 16
  { dir := pipeTdDir pipe.dirIn
    data := dataAddr s (s.field h offBuffer) (s.field h (offSub + 8 * i)).toNat
    length := s.field h (offSub + 4 + 8 * i)
    toggle := .val false
    startFrame := some (BitVec.ofNat 16 ((base.toNat + i * interval.toNat) % s.cfg.frameWrap))
    interval := interval
    zlpPending := false }

/-- `td_specs` (R173): the TDs of a request, in order. -/
def tdSpecs (s : State) (pipe : Pipe) (h : Addr) : List TdSpec :=
  let n := tdCount s pipe.mode h
  match pipe.mode with
  | .ctrl => controlSpecs s h
  | .bulk => (List.range n).map (chunkSpec s pipe h 0#16 n)
  | .intr => (List.range n).map (chunkSpec s pipe h ((s.field h offPeriod).extractLsb' 0 16) n)
  | .iso => (List.range n).map (subPacketSpec s pipe h)

/-- What SUBMIT decides before it changes anything: refuse with a code and a value, or accept on the pipe's
ED (`none`: to be created). -/
inductive SubmitVerdict where
  | refuse (code : Code) (value : BitVec 16)
  | accept (e : Option Nat)
  deriving DecidableEq, Repr

/-- `validate(eid, h)` passes (R171). -/
def submitValid (s : State) (eid : EndpointId) (h : Word) : Bool :=
  eid.reservedZero && eid.maxPacket != 0#11 && handleAligned h && !requestInFlight s (s.handle h)

/-- The pipe's ED takes no new transfer (R180). -/
def notAccepting (s : State) : Option Nat → Bool
  | some e => decide ((s.ed e).state = .halted) || decide ((s.ed e).state = .pendingDelete)
  | none => false

/-- The pools are short of what the request needs (R170, R179). -/
def poolsShort (s : State) (e : Option Nat) (n : Nat) : Bool :=
  decide (s.tfree.length < n) || decide (s.kfree.length < n) || (e.isNone && s.efree.isEmpty)

/-- The verdict, its causes in the order of R299. -/
def submitVerdict (s : State) (eid : EndpointId) (hw : Word) : SubmitVerdict :=
  let h := s.handle hw
  let e := lookup s (pipeKey eid)
  let n := tdCount s (pipeOf s eid e).mode h
  if submitValid s eid hw = false then .refuse .illegal 0#16
  else if notAccepting s e then .refuse .busy busyNotAccepting
  else if flagsReservedZero (s.field h offFlags) = false then .refuse .illegal 0#16
  else if n = 0 then .refuse .illegal 0#16
  else if poolsShort s e n then .refuse .busy busyPoolExhausted
  else .accept e

/-- The fields `create_ed` gives a new ED (R172). -/
def newEd (eid : EndpointId) (old : Ed) : Ed :=
  { old with
    state := .skip
    devAddr := eid.devAddr
    epNum := eid.epNum
    dirIn := pipeDir eid
    mode := eid.mode
    speed := eid.speed
    maxPacket := eid.maxPacket
    toggleCarry := false
    queue := [] }

/-- `create_ed(eid)` (R172). R170 tested that an ED is free. -/
def createEd (eid : EndpointId) (s : State) : Option Nat × State :=
  match edAlloc s with
  | (none, s1) => (none, s1)
  | (some e, s1) =>
    let s2 := s1.modEd e (newEd eid)
    (some e, s2.setCls (s2.cls.set eid.mode (s2.cls.get eid.mode ++ [e])))

/-- The fields `make_td` gives a TD (R176); `ioc` marks the last one of its request (R34, R170). -/
def newTd (e k : Nat) (h : Addr) (frnum : BitVec 16) (sp : TdSpec) (last : Bool) (old : Td) : Td :=
  { old with
    place := .queued
    request := h
    ed := some e
    dir := sp.dir
    data := sp.data
    length := sp.length
    transferred := 0
    toggle := sp.toggle
    errorCount := 0
    nakCount := 0
    startFrame := sp.startFrame.getD frnum
    interval := sp.interval
    status := .ok
    ioc := last
    zlpPending := sp.zlpPending
    token := some k
    txn := none }

/-- `make_td(e, h, s)` and the linking of the new TD behind the others (R170, R176, R178). The allocations
cannot fail: R170 tested the free counts. -/
def makeTd (e : Nat) (h : Addr) (sp : TdSpec) (last : Bool) (s : State) : State :=
  match tdAlloc s with
  | (none, _) => s
  | (some d, s1) =>
    match tokenAlloc s1 with
    | (none, _) => s
    | (some k, s2) =>
      let s3 := s2.modTd d (newTd e k h s2.frnum sp last)
      let s4 := s3.modTok k (fun x =>
        { x with td := some d, bytes := tokenBytes sp.dir (s3.ed e).devAddr (s3.ed e).epNum })
      s4.modEd e (fun x => { x with queue := x.queue ++ [d] })

/-- Make and link every TD of a request, in order (R170). -/
def linkTds (e : Nat) (h : Addr) : List TdSpec → State → State
  | [], s => s
  | sp :: rest, s => linkTds e h rest (makeTd e h sp rest.isEmpty s)

/-- The writes to the request record that end an accepted SUBMIT (R79, R170). -/
def openRequest (h : Addr) (s : State) : State :=
  (s.setField h offActualLength 0#32).setField h offStatus Cs.ok.code

/-- From the creation of the ED to the writes (R170), the specs read as the request stands at entry. -/
def acceptOn (e : Nat) (h : Addr) (specs : List TdSpec) (s : State) : State :=
  openRequest h ((linkTds e h specs s).modEd e (fun x => { x with state := .operational }))

/-- The ED of an accepted SUBMIT: the pipe's own, or a new one (R172). -/
def ensureEd (eid : EndpointId) (e : Option Nat) (s : State) : Option Nat × State :=
  match e with
  | some e => (some e, s)
  | none => createEd eid s

/-- The body of an accepted SUBMIT (R170). -/
def submitAccept (eid : EndpointId) (h : Addr) (e : Option Nat) (s : State) : State :=
  let specs := tdSpecs s (pipeOf s eid e) h
  match ensureEd eid e s with
  | (none, s1) => s1
  | (some e, s1) => acceptOn e h specs s1

/-- The body of SUBMIT (R170): all or nothing (R179). -/
def submitBody (eid : EndpointId) (hw : Word) (s : State) : State :=
  match submitVerdict s eid hw with
  | .refuse code value => respond 0x01#8 code value s
  | .accept e => respond 0x01#8 .ok 0#16 (submitAccept eid (s.handle hw) e s)

/-- `SUBMIT eid, h` (R170). -/
def execSubmit (eid : EndpointId) (handle : Word) (s : State) : Host.Outcome State Fault Refusal :=
  .next (runPass .heldH (submitBody eid handle) s)

/-! CANCEL (R183, R184). -/

/-- Mark an ED `PendingDelete` (R183); a `NIL` index names none. -/
def markDying (e : Option Nat) (s : State) : State :=
  match e with
  | none => s
  | some e => s.modEd e (fun x => { x with state := .pendingDelete })

/-- The body of CANCEL (R183). -/
def cancelBody (hw : Word) (s : State) : State :=
  if handleAligned hw = false then respond 0x02#8 .illegal 0#16 s
  else
    match liveTd s (s.handle hw) with
    | none => respond 0x02#8 .notFound 0#16 s
    | some t => respond 0x02#8 .ok 0#16 (markDying t.ed s)

/-- `CANCEL h` (R183). -/
def execCancel (handle : Word) (s : State) : Host.Outcome State Fault Refusal :=
  .next (runPass .heldH (cancelBody handle) s)

/-! EP_TEARDOWN (R188). -/

/-- Abort the head TD's transaction, where it is mid-transaction (R188). -/
def abortHead (e : Nat) (s : State) : State :=
  match (s.ed e).queue with
  | [] => s
  | d :: _ => abortTxn (s.td d).txn s

/-- The steps of EP_TEARDOWN on the ED it found (R188). -/
def teardownEd (e : Nat) (s : State) : State :=
  let s1 := abortHead e s
  removeEd e (drainPass (terminateAll .cancelled false (s1.ed e).queue s1))

/-- The body of EP_TEARDOWN (R188). -/
def teardownBody (eid : EndpointId) (s : State) : State :=
  if eid.reservedZero = false then respond 0x03#8 .illegal 0#16 s
  else
    match lookup s (pipeKey eid) with
    | none => respond 0x03#8 .notFound 0#16 s
    | some e => respond 0x03#8 .ok 0#16 (teardownEd e s)

/-- `EP_TEARDOWN eid` (R188). -/
def execEpTeardown (eid : EndpointId) (s : State) : Host.Outcome State Fault Refusal :=
  .next (runPass .heldH (teardownBody eid) s)

/-! EP_CLEAR_HALT (R191, R192). -/

/-- A halted ED becomes `Operational`, or `Skip` when its queue is empty; another is left alone (R191). -/
def clearHalt (x : Ed) : Ed :=
  if x.state = .halted then { x with state := if x.queue = [] then .skip else .operational } else x

/-- The body of EP_CLEAR_HALT (R191). -/
def clearHaltBody (eid : EndpointId) (s : State) : State :=
  if eid.reservedZero = false then respond 0x04#8 .illegal 0#16 s
  else
    match lookup s (pipeKey eid) with
    | none => respond 0x04#8 .notFound 0#16 s
    | some e => respond 0x04#8 .ok 0#16 (s.modEd e clearHalt)

/-- `EP_CLEAR_HALT eid` (R191). -/
def execEpClearHalt (eid : EndpointId) (s : State) : Host.Outcome State Fault Refusal :=
  .next (runPass .heldH (clearHaltBody eid) s)

/-! GET_FRAME (R193). -/

/-- `GET_FRAME` (R193): `respond(OK, FRNUM)`. -/
def execGetFrame (s : State) : Host.Outcome State Fault Refusal :=
  .next (runPass .heldH (fun s => respond 0x05#8 .ok s.frnum s) s)

end Sys2Proof.Machine
end

