-- ==== Sys2Proof/Machine/Scheduler.lean ====
section
/-! DEFINITION. Machine/Scheduler.lean: the Frame Scheduler (40_frame_scheduler.md): the stale-frame check
and the force-flush, the class scans, admission, and the meaning of EV_FRAME_START. -/

namespace Sys2Proof.Machine

/-- One turn of `force_flush()` (R145, R146): the transaction is aborted, the TD fails with a timeout and
its ED halts. -/
def flushOne (d : Nat) (s : State) : State := terminate d .timeout true (abortTxn (s.td d).txn s)

/-- The loop of `force_flush()` over the snapshot of the active list. -/
def flushList : List Nat → State → State
  | [], s => s
  | d :: rest, s => flushList rest (flushOne d s)

/-- `force_flush()` (R145). -/
def forceFlush (s : State) : State := flushList s.frame.active s

/-- `open_frame()` (R147); the active list is empty already. -/
def openFrame (s : State) : State :=
  s.setFrame { s.frame with number := s.frnum, bytes := 0, timeUs := 0, status := .prepared }

/-- Close the frame with a status (R155, R158). -/
def closeFrame (st : FrameStatus) (s : State) : State := s.setFrame { s.frame with status := st }

/-- `commit(d, cost, t)` (R156). -/
def commit (d cost t : Nat) (s : State) : State :=
  (s.setFrame { s.frame with
      bytes := BitVec.ofNat 32 (s.frame.bytes.toNat + cost)
      timeUs := BitVec.ofNat 32 (s.frame.timeUs.toNat + t)
      active := s.frame.active ++ [d]
      status := if s.frame.status = .prepared then .transmitted else s.frame.status }).modTd d
    (fun x => { x with place := .active, startFrame := s.frame.number })

/-- The part of `try_admit` after both budget tests (R152, R156, R157). -/
def offer (e d len cost t : Nat) (s : State) : State :=
  match dispatch e d len s with
  | (true, s1) => commit d cost t s1
  | (false, s1) => s1

/-- `try_admit(e, d)` (R152). The time left is asked for only when the byte test passed. -/
def tryAdmit (e d : Nat) (s : State) : State :=
  if s.frame.status.closed then s
  else
    let len := nextLen s e d
    let cost := costOf s.cfg len
    let t := wireTime s.cfg s.bussts.speed cost
    if overBytes s cost then closeFrame .endOfTransmission s
    else
      match sofRemaining s with
      | (rem, s1) =>
        if overTime s1 t rem then closeFrame .timerForcedEnd s1
        else offer e d len cost t s1

/-- One turn of the loop of `scan(c)` (R149 to R151). -/
def scanOne (c : Mode) (e : Nat) (s : State) : State :=
  if (s.ed e).state ≠ .operational then s
  else
    match (s.ed e).queue with
    | [] => s
    | d :: _ =>
      if (s.td d).txn.isSome then s
      else if periodicMode c && !periodicEligible s (s.td d) then s
      else tryAdmit e d s

/-- The loop of `scan(c)` over the snapshot of the class list. -/
def scanList (c : Mode) : List Nat → State → State
  | [], s => s
  | e :: rest, s => scanList c rest (scanOne c e s)

/-- `CLS[c].rotate()` (R159). -/
def rotateClass (c : Mode) (s : State) : State := s.setCls (s.cls.set c (rotateList (s.cls.get c)))

/-- `scan(c)` (R149, R159). -/
def scan (c : Mode) (s : State) : State := rotateClass c (scanList c (s.cls.get c) s)

/-- The four class scans of a connected bus (R140, R148): bulk only when the frame is still open. -/
def scanClasses (s : State) : State :=
  let s1 := scan .ctrl (scan .intr (scan .iso s))
  if s1.frame.status.closed then s1 else scan .bulk s1

/-- From the opening of the frame to the end of the scans (R140, R143, R147). -/
def newFrame (s : State) : State :=
  let s1 := openFrame s
  if s1.bussts.connected then scanClasses s1 else s1

/-- The body of EV_FRAME_START before its `reap()` (R140): count the frame, then open a new one, flush a
stale one first, or be blocked (R142, R144). -/
def frameStartBody (s : State) : State :=
  let s1 := s.setFrnum (nextFrnum s.cfg s.frnum)
  if s1.frame.active = [] then newFrame s1
  else if frameStale s1 then newFrame (forceFlush s1)
  else s1

/-- `EV_FRAME_START` (R140, R161). -/
def execEvFrameStart (s : State) : Host.Outcome State Fault Refusal :=
  .next (runPass .heldA (fun s => reap (frameStartBody s)) s)

end Sys2Proof.Machine
end

