-- ==== Sys2Proof/Machine/TokenPackets.lean ====
section
/-! DEFINITION. Machine/TokenPackets.lean: the three rows of spec/opcode_table.json that are "not an
operation: the token packet the block builds" (30_encoding.md R120, R121). The block builds a token at
SUBMIT (`tokenBytes`, R176) and hands it over inside a token descriptor (R205); it never takes one in. A
word that holds a token packet has 0 in its opcode byte, whose high nibble names the command port (R102),
where every opcode byte outside R104's table is illegal (R125, R127) and is answered `ILLEGAL`; that answer
is what these rows do when they are given to the block as a word. DEDUCED, log entry 6. -/

namespace Sys2Proof.Machine

/-- An OUT token packet given to the block as a word (R102, R125, R127). -/
def execTokenOut (_devAddr : BitVec 7) (_epNum : BitVec 4) (_crc5 : BitVec 5) (s : State) :
    Host.Outcome State Fault Refusal := .next (illegalCommand 0x00#8 s)

/-- An IN token packet given to the block as a word (R102, R125, R127). -/
def execTokenIn (_devAddr : BitVec 7) (_epNum : BitVec 4) (_crc5 : BitVec 5) (s : State) :
    Host.Outcome State Fault Refusal := .next (illegalCommand 0x00#8 s)

/-- A SETUP token packet given to the block as a word (R102, R125, R127). -/
def execTokenSetup (_devAddr : BitVec 7) (_epNum : BitVec 4) (_crc5 : BitVec 5) (s : State) :
    Host.Outcome State Fault Refusal := .next (illegalCommand 0x00#8 s)

end Sys2Proof.Machine
end

