-- ==== Sys2Proof/Machine/Dispatch.lean ====
section
/-! DEFINITION. Machine/Dispatch.lean: one arm per row of spec/opcode_table.json, each a call of its meaning. -/

namespace Sys2Proof.Machine

def exec (i : Instr) (s : State) : Host.Outcome State Fault Refusal :=
  match i with
  | .submit eid handle => Sys2Proof.Machine.execSubmit eid handle s
  | .cancel handle => Sys2Proof.Machine.execCancel handle s
  | .epTeardown eid => Sys2Proof.Machine.execEpTeardown eid s
  | .epClearHalt eid => Sys2Proof.Machine.execEpClearHalt eid s
  | .getFrame => Sys2Proof.Machine.execGetFrame s
  | .evFrameStart => Sys2Proof.Machine.execEvFrameStart s
  | .evTxConfirm status pkt => Sys2Proof.Machine.execEvTxConfirm status pkt s
  | .evRxConfirm status pkt rxLen => Sys2Proof.Machine.execEvRxConfirm status pkt rxLen s
  | .evConnect speed => Sys2Proof.Machine.execEvConnect speed s
  | .evDisconnect => Sys2Proof.Machine.execEvDisconnect s
  | .drain => Sys2Proof.Machine.execDrain s
  | .tokenOut devAddr epNum crc5 => Sys2Proof.Machine.execTokenOut devAddr epNum crc5 s
  | .tokenIn devAddr epNum crc5 => Sys2Proof.Machine.execTokenIn devAddr epNum crc5 s
  | .tokenSetup devAddr epNum crc5 => Sys2Proof.Machine.execTokenSetup devAddr epNum crc5 s

end Sys2Proof.Machine
end

