-- ==== Sys2Proof/Machine/Fetch.lean ====
section
/-! DEFINITION. Machine/Fetch.lean: what runs next and where its words come from (10_state.md R21, R63;
30_encoding.md R101, R102, R125, R126; 60_exceptions.md R294 to R298). The block has no program counter:
the environment chooses a source of work, and an operation's words are taken from that source. -/

namespace Sys2Proof.Machine

/-- What a fetch found. The state it carries has the choice and the words taken out of it. -/
inductive Fetched where
  /-- An operation to run. -/
  | op (i : Instr) (s : State)
  /-- A word on the command port that is no command, with its opcode byte (R125). -/
  | illegalCommand (opcode : BitVec 8) (s : State)
  /-- A word on the event port that is no event (R126). -/
  | illegalEvent (s : State)
  /-- No operation: an act of the environment, a choice with nothing to take, or nothing pending. -/
  | noPass (s : State)
  deriving DecidableEq, Repr

/-- What stands at the head of a port's word stream. -/
inductive PortHead where
  /-- No complete operation has arrived. -/
  | none
  /-- An operation that this port accepts, and the words behind it. -/
  | op (i : Instr) (rest : List Word)
  /-- A word that is illegal on this port; one word is taken (R125, R126). -/
  | illegal (opcode : BitVec 8) (rest : List Word)
  deriving DecidableEq, Repr

/-- Read the head of a port (R101, R102): a word 0 that another port's issuer owns is illegal here, and so
is one that does not decode; an operation whose words have not all arrived is not pending yet. -/
def portHead (port : Port) : List Word → PortHead
  | [] => .none
  | w0 :: rest =>
    if opcodePort (opcodeOf w0) ≠ some port then .illegal (opcodeOf w0) rest
    else
      match decodeFirst w0 rest with
      | .ok (i, rest') => .op i rest'
      | .error .incomplete => .none
      | .error .unknownOpcode => .illegal (opcodeOf w0) rest
      | .error .reservedBits => .illegal (opcodeOf w0) rest

/-- Take from the command port (R102, R125). -/
def fetchCommand (s : State) : Fetched :=
  match portHead .command s.cmdPort with
  | .none => .noPass s
  | .op i rest => .op i (s.setCmdPort rest)
  | .illegal op rest => .illegalCommand op (s.setCmdPort rest)

/-- Take from the event port (R102, R126). -/
def fetchEvent (s : State) : Fetched :=
  match portHead .event s.evtPort with
  | .none => .noPass s
  | .op i rest => .op i (s.setEvtPort rest)
  | .illegal _ rest => .illegalEvent (s.setEvtPort rest)

/-- The environment's next store to host memory: one byte (R71, R74). -/
def hostWriteNext (s : State) : State :=
  match s.env.hostWrites with
  | [] => s
  | (a, v) :: rest => (s.setMem (s.mem.write (wrapAddr s.cfg a) v)).setEnv { s.env with hostWrites := rest }

/-- Detach (R320): all state of the block is discarded and nothing is put out; the configuration, host
memory and what was put out before are not the block's to discard. -/
def detach (s : State) : State :=
  ((((State.resetOf s.cfg).setAttached false).setMem s.mem).setOut s.out).setEnv s.env

/-- Take from a source (R294, R296). -/
def fetchFrom (src : Source) (s : State) : Fetched :=
  match src with
  | .command => fetchCommand s
  | .event => fetchEvent s
  | .deferred => .op .drain s
  | .hostWrite => .noPass (hostWriteNext s)
  | .detach => .noPass (detach s)

/-- A port whose head is an operation or an illegal word. -/
def PortHead.pending : PortHead → Bool
  | .none => false
  | .op _ _ => true
  | .illegal _ _ => true

/-- The sources that have work: a pending event, an issued command, an enabled DRAIN (R260, R296), a store
of the environment. -/
def enabledSources (s : State) : List Source :=
  (if (portHead .event s.evtPort).pending then [Source.event] else [])
    ++ (if (portHead .command s.cmdPort).pending then [Source.command] else [])
    ++ (if s.drainp then [Source.deferred] else [])
    ++ (if s.env.hostWrites = [] then [] else [Source.hostWrite])

/-- What runs next (R296): the environment's next scripted choice; where it has scripted none, a free
choice among the sources that have work (log entry 3); with no work, nothing runs. -/
def fetch (s : State) : Fetched :=
  match s.env.sched with
  | src :: rest => fetchFrom src (s.setEnv { s.env with sched := rest })
  | [] =>
    match enabledSources s with
    | [] => .noPass s
    | src :: srcs =>
      let k := Config.freeChoice s.env.choiceCount % (src :: srcs).length
      fetchFrom ((src :: srcs).getD k src) (s.setEnv { s.env with choiceCount := s.env.choiceCount + 1 })

end Sys2Proof.Machine
end

