-- ==== Sys2Proof/Machine/Step.lean ====
section
/-! DEFINITION. Machine/Step.lean: one step of the machine is one pass (00_scope.md R16, 60_exceptions.md
R296), or an act of the environment; and the placing of one operation where the next step takes it. -/

namespace Sys2Proof.Machine

/-- Run what a fetch found. -/
def runFetched : Fetched → Host.Outcome State Fault Refusal
  | .op i s => exec i s
  | .illegalCommand op s => .next (illegalCommand op s)
  | .illegalEvent s => .next (illegalEvent s)
  | .noPass s => .next s

/-- One step: take the next piece of work and run it as one pass (R16, R296). A detached block runs
nothing (R320, U25). -/
def step (s : State) : Host.Outcome State Fault Refusal :=
  if s.attached then runFetched (fetch s) else .refused .detached

/-- Place the words of one operation where the next step takes them: at the head of the port that its
opcode byte names (R102), with that port chosen next. DRAIN comes from the block itself: its word is on no
port, and the deferred task is chosen.

DESIGN CHOICE (log entry 7): what this does with a word that is no operation of R104 and whose opcode byte R102
gives no port. High nibble 2, that is 21H to 2FH, and 20H with a bit of 23:0 set: the word is dropped and the
deferred task is chosen, so the next step runs DRAIN. High nibble 3 to FH: the word goes to the command port,
where the next step answers it `ILLEGAL` (R125, R127). -/
def State.withFetchWord (s : State) (nbits w : Nat) : State :=
  let words := tableInstrWords nbits w
  match opcodePort (opcodeOf (words.headD 0#32)) with
  | some .event =>
    (s.setEvtPort (words ++ s.evtPort)).setEnv { s.env with sched := .event :: s.env.sched }
  | some .internal => s.setEnv { s.env with sched := .deferred :: s.env.sched }
  | some .command =>
    (s.setCmdPort (words ++ s.cmdPort)).setEnv { s.env with sched := .command :: s.env.sched }
  | none =>
    (s.setCmdPort (words ++ s.cmdPort)).setEnv { s.env with sched := .command :: s.env.sched }

end Sys2Proof.Machine
end

