-- ==== Sys2Proof/Safety.lean ====
section
/-! DEFINITION. Safety.lean: the words in which claims are made: which fields two states agree on (frames),
the invariants of the data structures (10_state.md R65, 43_pools.md R256), what a scan and a reap choose (R150,
R151, R186), and the states a run reaches. -/

namespace Sys2Proof.Machine

/-- The fields of `State`, as names. -/
inductive Field where
  | cfg | attached | eds | tds | toks | txns | pkts | ring | dfree | efree | tfree | kfree | xfree
  | cls | frame | done | frnum | bussts | drainp | lock | diag | mem | cmdPort | evtPort | env | out
  deriving DecidableEq, Repr

/-- The second state has the first one's value in this field. -/
abbrev agree : Field → State → State → Prop
  | .cfg, s, t => t.cfg = s.cfg
  | .attached, s, t => t.attached = s.attached
  | .eds, s, t => t.eds = s.eds
  | .tds, s, t => t.tds = s.tds
  | .toks, s, t => t.toks = s.toks
  | .txns, s, t => t.txns = s.txns
  | .pkts, s, t => t.pkts = s.pkts
  | .ring, s, t => t.ring = s.ring
  | .dfree, s, t => t.dfree = s.dfree
  | .efree, s, t => t.efree = s.efree
  | .tfree, s, t => t.tfree = s.tfree
  | .kfree, s, t => t.kfree = s.kfree
  | .xfree, s, t => t.xfree = s.xfree
  | .cls, s, t => t.cls = s.cls
  | .frame, s, t => t.frame = s.frame
  | .done, s, t => t.done = s.done
  | .frnum, s, t => t.frnum = s.frnum
  | .bussts, s, t => t.bussts = s.bussts
  | .drainp, s, t => t.drainp = s.drainp
  | .lock, s, t => t.lock = s.lock
  | .diag, s, t => t.diag = s.diag
  | .mem, s, t => t.mem = s.mem
  | .cmdPort, s, t => t.cmdPort = s.cmdPort
  | .evtPort, s, t => t.evtPort = s.evtPort
  | .env, s, t => t.env = s.env
  | .out, s, t => t.out = s.out

/-- The frame of a change: going from `s` to `t`, no field outside the list `changed` has changed. -/
def Framed (changed : List Field) (s t : State) : Prop := ∀ f : Field, f ∉ changed → agree f s t

/-- A free-list (R48, R65): no index twice, and exactly the indices below `n` whose entry is free. -/
abbrev FreeListOk (n : Nat) (alloc : Nat → Bool) (l : List Nat) : Prop :=
  l.Nodup ∧ (∀ i ∈ l, i < n) ∧ ∀ i < n, (i ∈ l ↔ alloc i = false)

/-- Every pool has as many entries as the configuration says (R23, R240). -/
abbrev State.sized (s : State) : Prop :=
  s.eds.length = s.cfg.maxEds ∧ s.tds.length = s.cfg.maxTds ∧ s.toks.length = s.cfg.maxTokens ∧
  s.txns.length = s.cfg.maxTxns ∧ s.pkts.length = s.cfg.pktPoolCap ∧ s.ring.slots.length = s.cfg.pktPoolCap

/-- The free-lists of the four pools hold exactly their free entries, once each (R48, R256), and the dummy
pool holds no buffer twice (R46). -/
abbrev State.freeListsOk (s : State) : Prop :=
  FreeListOk s.cfg.maxEds (fun i => (s.ed i).alloc) s.efree ∧
  FreeListOk s.cfg.maxTds (fun i => (s.td i).alloc) s.tfree ∧
  FreeListOk s.cfg.maxTokens (fun i => (s.tok i).alloc) s.kfree ∧
  FreeListOk s.cfg.maxTxns (fun i => (s.txn i).alloc) s.xfree ∧
  s.dfree.Nodup ∧ (∀ u ∈ s.dfree, u < s.cfg.nDummy)

/-- The handles the Packet ring holds, oldest first (R43). -/
def State.ringHandles (s : State) : List Nat :=
  (List.range s.ring.cnt).map (fun j => s.ring.slots.getD ((s.ring.rd + j) % s.cfg.pktPoolCap) 0)

/-- The Packet ring (R43, R44): its positions are in range, and it holds exactly the Packets that are not
out, once each. -/
abbrev State.ringOk (s : State) : Prop :=
  s.ring.rd < s.cfg.pktPoolCap ∧ s.ring.cnt ≤ s.cfg.pktPoolCap ∧
  FreeListOk s.cfg.pktPoolCap (fun p => (s.pkt p).out) s.ringHandles

/-- The pools are sound. -/
abbrev State.poolsOk (s : State) : Prop := s.cfg.valid ∧ s.sized ∧ s.freeListsOk ∧ s.ringOk

/-- What a frame may have committed (R52, R154), the range of the frame counter (R55), the exclusion region
between passes (R58), host memory's canonical form, and a deferred task that is outstanding whenever there
is something to drain (R53, R57). -/
abbrev State.boundsOk (s : State) : Prop :=
  s.cfg.valid ∧ s.frame.bytes.toNat ≤ s.cfg.maxBytesPerFrame ∧ s.frnum.toNat < s.cfg.frameWrap ∧
  s.lock = .free ∧ Memory.wf s.mem ∧ (s.done ≠ [] → s.drainp = true)

/-- `e` is the one allocated ED with this key (R27, R172). -/
abbrev State.onlyPipe (s : State) (e : Nat) (k : BitVec 12) : Prop :=
  e < s.eds.length ∧ (s.ed e).alloc = true ∧ (s.ed e).key = k ∧
  ∀ i < s.eds.length, (s.ed i).alloc = true → (s.ed i).key = k → i = e

/-- No allocated ED has this key (R172). -/
abbrev State.noPipe (s : State) (k : BitVec 12) : Prop :=
  ∀ i < s.eds.length, (s.ed i).alloc = true → (s.ed i).key ≠ k

/-- Transaction record `t` is the one live record bound to Packet `p`, and its TD is `d` (R41). -/
abbrev State.onlyTxn (s : State) (t p d : Nat) : Prop :=
  t < s.txns.length ∧ (s.txn t).alloc = true ∧ (s.txn t).pkt = some p ∧ (s.txn t).td = some d ∧
  ∀ i < s.txns.length, (s.txn i).alloc = true → (s.txn i).pkt = some p → i = t

/-- No live Transaction record is bound to Packet `p` (R209). -/
abbrev State.noTxn (s : State) (p : Nat) : Prop :=
  ∀ i < s.txns.length, (s.txn i).alloc = true → (s.txn i).pkt ≠ some p

/-- Every ED waiting to be reaped has a transaction in flight (R186): the end of a context-(a) pass leaves
all of them for a later pass. -/
abbrev State.nothingToReap (s : State) : Prop :=
  ∀ e < s.cfg.maxEds, (s.ed e).alloc = true → (s.ed e).state = .pendingDelete → headInFlight s e = true

/-- TD `d` is a queued or active TD of the request `h` (R183). -/
abbrev State.liveTdOf (s : State) (h : Addr) (d : Nat) : Prop :=
  d < s.tds.length ∧ (s.td d).alloc = true ∧ ((s.td d).place = .queued ∨ (s.td d).place = .active) ∧
  (s.td d).request = h

/-- A transaction in flight with its resources in order (R39, R41, R44, R255): record `x` is the one bound to
Packet `p`, its TD is `d`, the Packet is out, and its dummy buffer, if any, is not on `DFREE`. -/
abbrev State.liveTxn (s : State) (x p d : Nat) : Prop :=
  s.onlyTxn x p d ∧ x < s.cfg.maxTxns ∧ p < s.cfg.pktPoolCap ∧ (s.pkt p).out = true ∧ d < s.tds.length ∧
  ∀ u, (s.txn x).dummy = some u → u < s.cfg.nDummy ∧ u ∉ s.dfree

/-- The class lists (R50): each allocated ED is on the list of its mode, once, and nothing else is on it. -/
abbrev State.classesOk (s : State) : Prop :=
  ∀ m ∈ [Mode.iso, Mode.intr, Mode.ctrl, Mode.bulk], (s.cls.get m).Nodup ∧
    (∀ e ∈ s.cls.get m, e < s.cfg.maxEds ∧ (s.ed e).alloc = true ∧ (s.ed e).mode = m) ∧
    ∀ e < s.cfg.maxEds, (s.ed e).alloc = true → (s.ed e).mode = m → e ∈ s.cls.get m

/-- ED `e` is one that `reap()` frees (R186): it is allocated, it is dying, and its head TD, if it has one, is not
mid-transaction. -/
def State.toReap (s : State) (e : Nat) : Bool :=
  (s.ed e).alloc && decide ((s.ed e).state = .pendingDelete) &&
    match (s.ed e).queue.head? with
    | none => true
    | some d => (s.td d).txn.isNone

/-- The TD that a scan of class `c` would offer from ED `e` (R150, R151), if there is one: the head of the queue of
an `Operational` ED, not mid-transaction, and in a periodic class only when `interval` frames have passed since its
`start_frame`. -/
def State.readyHead (s : State) (c : Mode) (e : Nat) : Option Nat :=
  if (s.ed e).state = .operational then
    match (s.ed e).queue.head? with
    | none => none
    | some d =>
      if (s.td d).txn = none ∧ ((c = .iso ∨ c = .intr) →
          (s.td d).interval.toNat ≤ modDiff s.frame.number (s.td d).startFrame s.cfg.frameWrap) then some d
      else none
  else none

/-- Every TD is in exactly the one container that its `place` names (R29, R31, R52, R53, R65), and a queue has at
most its head mid-transaction (R45). -/
structure State.PlacesOk (s : State) : Prop where
  free : ∀ d, (s.td d).place = .free ↔ (s.td d).alloc = false
  queued : ∀ d, ((s.td d).place = .queued ∨ (s.td d).place = .active) ↔ ∃ e, d ∈ (s.ed e).queue
  queueEd : ∀ e, ∀ d ∈ (s.ed e).queue, (s.td d).ed = some e
  queueNodup : ∀ e, (s.ed e).queue.Nodup
  queueFree : ∀ e, (s.ed e).alloc = false → (s.ed e).queue = []
  active : ∀ d, (s.td d).place = .active ↔ d ∈ s.frame.active
  activeNodup : s.frame.active.Nodup
  activeTxn : ∀ d, (s.td d).place = .active ↔ (s.td d).txn ≠ none
  activeHead : ∀ e, ∀ d ∈ (s.ed e).queue, (s.td d).place = .active → (s.ed e).queue.head? = some d
  activeToggle : ∀ d, (s.td d).place = .active → (s.td d).toggle ≠ .carry
  done : ∀ d, (s.td d).place = .done ↔ d ∈ s.done
  doneNodup : s.done.Nodup

/-- The live Transaction records, the active TDs, the Packets that are out and the dummy buffers in use belong to
one another, each to exactly one (R39, R40, R41, R44, R46); the records with a dummy buffer are the zero-length ones
(R207). -/
structure State.RecordsOk (s : State) : Prop where
  phase : ∀ x, (s.txn x).alloc = true → (s.txn x).phase = .tokenWait ∨ (s.txn x).phase = .dataWait
  td : ∀ x, (s.txn x).alloc = true → ∃ d, (s.txn x).td = some d
  link : ∀ d x, (s.td d).txn = some x ↔ (s.txn x).alloc = true ∧ (s.txn x).td = some d
  token : ∀ x d, (s.txn x).alloc = true → (s.txn x).td = some d → (s.txn x).token = (s.td d).token
  pkt : ∀ x, (s.txn x).alloc = true → ∃ p, (s.txn x).pkt = some p
  pktOut : ∀ p, (s.pkt p).out = true ↔ ∃ x, (s.txn x).alloc = true ∧ (s.txn x).pkt = some p
  pktOne : ∀ x y, (s.txn x).alloc = true → (s.txn y).alloc = true → (s.txn x).pkt = (s.txn y).pkt → x = y
  dummy : ∀ u, (u < s.cfg.nDummy ∧ u ∉ s.dfree) ↔ ∃ x, (s.txn x).alloc = true ∧ (s.txn x).dummy = some u
  zeroLength : ∀ x, (s.txn x).alloc = true → ((s.txn x).len = 0#11 ↔ (s.txn x).dummy ≠ none)
  dummyOne : ∀ x y u, (s.txn x).alloc = true → (s.txn y).alloc = true → (s.txn x).dummy = some u →
    (s.txn y).dummy = some u → x = y

/-- Every allocated TD has its own allocated Token, and every allocated Token its TD (R35, R65). -/
structure State.TokensOk (s : State) : Prop where
  has : ∀ d, (s.td d).alloc = true → ∃ k, (s.td d).token = some k
  link : ∀ d k, (s.td d).token = some k ↔ (s.tok k).alloc = true ∧ (s.tok k).td = some d
  td : ∀ k, (s.tok k).alloc = true → ∃ d, (s.tok k).td = some d ∧ (s.td d).alloc = true

/-- TDs, Transaction records, Packets, dummy buffers and Tokens correspond as the rules say (R65(b), (f), (g)), and
no release of something already free has happened (R341). -/
structure State.Paired (s : State) : Prop where
  places : s.PlacesOk
  records : s.RecordsOk
  tokens : s.TokensOk
  released : s.diag.doubleRelease = false

/-- The state after a command that only answers (R285): the response word (R112) is put out, and the region is
free. -/
def State.answered (s : State) (op code : BitVec 8) (value : BitVec 16) : State :=
  { s with lock := .free, out := s.out ++ [.response (op ++ code ++ value)] }

/-- The state after the transaction of record `x`, Packet `p` and TD `d` has ended (R215): the dummy buffer, the
Packet and the record are back in their pools, the TD is off the active list and `QUEUED`. -/
def State.ended (s : State) (x p d : Nat) : State :=
  { s with
    dfree := (s.txn x).dummy.toList ++ s.dfree
    pkts := s.pkts.modify p (fun _ => Pkt.initial)
    ring := { slots := s.ring.slots.set ((s.ring.rd + s.ring.cnt) % s.cfg.pktPoolCap) p, rd := s.ring.rd,
              cnt := s.ring.cnt + 1 }
    frame := { s.frame with active := s.frame.active.erase d }
    tds := s.tds.modify d (fun t => { t with txn := none, place := .queued })
    txns := s.txns.modify x (fun t => { t with alloc := false })
    xfree := x :: s.xfree }

/-- The fields each operation may change; every other field it leaves alone. -/
def mayChange : Instr → List Field
  | .submit _ _ => [.efree, .cls, .tfree, .tds, .kfree, .toks, .eds, .mem, .out, .lock]
  | .cancel _ => [.eds, .out, .lock]
  | .epTeardown _ =>
    [.cls, .efree, .eds, .tds, .done, .drainp, .dfree, .ring, .pkts, .frame, .xfree, .txns, .kfree, .toks, .tfree,
     .mem, .out, .diag, .lock]
  | .epClearHalt _ => [.eds, .out, .lock]
  | .getFrame => [.out, .lock]
  | .evFrameStart =>
    [.frnum, .cls, .frame, .ring, .pkts, .xfree, .txns, .dfree, .tds, .eds, .efree, .done, .drainp, .env, .out,
     .diag, .lock]
  | .evTxConfirm _ _ =>
    [.dfree, .ring, .pkts, .frame, .tds, .xfree, .txns, .eds, .cls, .efree, .done, .drainp, .env, .out, .diag, .lock]
  | .evRxConfirm _ _ _ =>
    [.dfree, .ring, .pkts, .frame, .tds, .xfree, .txns, .eds, .cls, .efree, .done, .drainp, .diag, .lock]
  | .evConnect _ => [.bussts, .cls, .efree, .eds, .tds, .done, .drainp, .diag, .lock]
  | .evDisconnect => [.bussts, .cls, .efree, .eds, .tds, .done, .drainp, .diag, .lock]
  | .drain => [.mem, .out, .kfree, .toks, .tfree, .tds, .done, .drainp, .diag, .lock]
  | .tokenOut _ _ _ => [.out, .lock]
  | .tokenIn _ _ _ => [.out, .lock]
  | .tokenSetup _ _ _ => [.out, .lock]

/-- The host commands (R104, format `H`). -/
def isCommand : Instr → Bool
  | .submit _ _ => true
  | .cancel _ => true
  | .epTeardown _ => true
  | .epClearHalt _ => true
  | .getFrame => true
  | .evFrameStart => false
  | .evTxConfirm _ _ => false
  | .evRxConfirm _ _ _ => false
  | .evConnect _ => false
  | .evDisconnect => false
  | .drain => false
  | .tokenOut _ _ _ => false
  | .tokenIn _ _ _ => false
  | .tokenSetup _ _ _ => false

/-- A response word among the outputs (R112). -/
def Output.isResponse : Output → Bool
  | .response _ => true
  | .callback _ _ _ => false
  | .ringSubmit _ _ => false
  | .memWrite _ _ => false

/-- The states that a block built with the parameters `c` can reach: from reset, by steps, while the
environment puts words on the ports and scripts its answers as it likes (R63). -/
inductive Reachable (c : Config) : State → Prop
  | reset : Reachable c (State.resetOf c)
  | step (s t : State) : Reachable c s → step s = .next t → Reachable c t
  | environment (s t : State) : Reachable c s → Framed [.cmdPort, .evtPort, .env] s t → Reachable c t

end Sys2Proof.Machine
end

