-- ==== Sys2Proof/WellFormed.lean ====
section
/-! DEFINITION. WellFormed.lean: the checks the spec puts on the operands of an operation: R111 and R171
on an `endpoint_id`, R77 on a handle, R110 on a status, R122 on the CRC of a token packet. An operation
that fails a check still has a meaning (ILLEGAL, or an ignored event), given in Machine/. -/

namespace Sys2Proof

/-- The operand checks of each row. -/
def Instr.wellFormed : Instr → Bool
  | .submit eid h => eid.reservedZero && eid.maxPacket != 0#11 && handleAligned h
  | .cancel h => handleAligned h
  | .epTeardown eid => eid.reservedZero
  | .epClearHalt eid => eid.reservedZero
  | .getFrame => true
  | .evFrameStart => true
  | .evTxConfirm st _ => eventStatusLegal st
  | .evRxConfirm st _ _ => eventStatusLegal st
  | .evConnect _ => true
  | .evDisconnect => true
  | .drain => true
  | .tokenOut dev ep crc => crc == crc5 dev ep
  | .tokenIn dev ep crc => crc == crc5 dev ep
  | .tokenSetup dev ep crc => crc == crc5 dev ep

end Sys2Proof
end

