-- ==== Sys2Proof/Certificates/Slice0/Obligations.lean ====
section
/-! DEFINITION. Certificates/Slice0/Obligations.lean: the statements for the provers, in the order of
OBLIGATIONS.json: encodings, steps, host commands, events, DRAIN, the pools and memory, and the rules that hold
of every operation. -/

open Sys2Proof Sys2Proof.Machine

/-! ## Encodings -/

/-- Decoding the words of any instruction, well-formed or not, followed by any other words, gives the instruction
back with every operand, and leaves the other words (R101, R104, R110, R111, R120). -/
def Obligations.DecodeUndoesEncode : Prop :=
  ∀ (i : Instr) (rest : List Word), decode (encode i ++ rest) = .ok (i, rest)

/-- Whatever the decoder accepts is the encoding of what it answers: each sequence of words has one reading, and
no bit of it is dropped (R101, R104, R127). -/
def Obligations.EncodeUndoesDecode : Prop :=
  ∀ (ws : List Word) (i : Instr) (rest : List Word), decode ws = .ok (i, rest) → ws = encode i ++ rest

/-- A few words written out from the tables of R104, R111 and R120 decode to the operations they stand for. -/
def Obligations.SpecWordsDecode : Prop :=
  decode [0x01000000#32, 0x00403105#32, 0x00001000#32] =
      .ok (.submit { devAddr := 5, epNum := 2, dirIn := false, mode := .bulk, speed := .full, rsv15 := false,
                     maxPacket := 64, rsvHi := 0 } 0x1000#32, []) ∧
  decode [0x02000000#32, 0x00001000#32] = .ok (.cancel 0x1000#32, []) ∧
  decode [0x05000000#32] = .ok (.getFrame, []) ∧
  decode [0x10000000#32] = .ok (.evFrameStart, []) ∧
  decode [0x11010002#32] = .ok (.evTxConfirm 1#8 2#16, []) ∧
  decode [0x12000003#32, 0x00000012#32] = .ok (.evRxConfirm 0#8 3#16 0x12#32, []) ∧
  decode [0x13000001#32] = .ok (.evConnect .low, []) ∧
  decode [0x20000000#32] = .ok (.drain, []) ∧
  decode [0x00F905E1#32] = .ok (.tokenOut 5#7 2#4 0b11111#5, [])

/-- The worked tokens (R124). -/
def Obligations.WorkedTokens : Prop :=
  tokenBytes .out 5#7 2#4 = 0xF905E1#24 ∧ tokenBytes .inn 5#7 0#4 = 0xD00569#24 ∧
  tokenBytes .setup 5#7 0#4 = 0xD0052D#24 ∧ tokenBytes .inn 3#7 1#4 = 0xE08369#24 ∧
  tokenBytes .inn 127#7 15#4 = 0x47FF69#24

/-- The token packet that SUBMIT builds reads back as the token of its own kind, with the address and endpoint it
was built from and a correct CRC (R120, R121, R122, R176). -/
def Obligations.TokenPacketsReadBack : Prop :=
  ∀ (dir : Dir) (dev : BitVec 7) (ep : BitVec 4),
    decode [0#8 ++ tokenBytes dir dev ep] =
      .ok ((match dir with
        | .out => Instr.tokenOut dev ep (crc5 dev ep)
        | .inn => Instr.tokenIn dev ep (crc5 dev ep)
        | .setup => Instr.tokenSetup dev ep (crc5 dev ep)), [])

/-! ## Steps -/

/-- A step runs the decoded operation: when the environment's choice is a port and the words at its head decode
to an operation of that port, the step is `exec` of it on the state with those words and that choice taken; when
the choice is the deferred task, it is `exec` of DRAIN (R101, R102, R296). -/
def Obligations.StepRunsDecodedOperation : Prop :=
  ∀ (s : State) (i : Instr) (w0 : Word) (ws rest : List Word) (later : List Source),
    s.attached = true → decode (w0 :: ws) = .ok (i, rest) →
    (opcodePort (opcodeOf w0) = some .command → s.env.sched = .command :: later → s.cmdPort = w0 :: ws →
      step s = exec i { s with cmdPort := rest, env := { s.env with sched := later } }) ∧
    (opcodePort (opcodeOf w0) = some .event → s.env.sched = .event :: later → s.evtPort = w0 :: ws →
      step s = exec i { s with evtPort := rest, env := { s.env with sched := later } }) ∧
    (i = .drain → s.env.sched = .deferred :: later →
      step s = exec i { s with env := { s.env with sched := later } })

/-- An operation placed with `withFetchWord` is what the very next step runs, on the state it was placed in. This is
the model's choice of what placing an operation means (log entry 7, DESIGN CHOICE): its words go to the head of the
port its opcode byte names, with that port chosen next, and DRAIN is placed by choosing the deferred task. -/
def Obligations.PlacedOperationRunsNext : Prop :=
  ∀ (s : State) (nbits w : Nat) (i : Instr),
    s.attached = true → decodeTableWord nbits w = some i → step (s.withFetchWord nbits w) = exec i s

/-- Illegal host commands (R125): a word 0 on the command port whose opcode byte is not one of `0x01 .. 0x05`, or
with any of bits 23:0 set, is taken alone and answered `ILLEGAL` with the byte received, and nothing else
changes; the operand checks of the operations end in `ILLEGAL` with no change either. -/
def Obligations.IllegalCommandsAnswerIllegal : Prop :=
  (∀ (s : State) (w0 : Word) (ws : List Word) (later : List Source),
    s.attached = true → s.env.sched = .command :: later → s.cmdPort = w0 :: ws →
    (¬ (1 ≤ (opcodeOf w0).toNat ∧ (opcodeOf w0).toNat ≤ 5) ∨ belowOpcode w0 ≠ 0#24) →
    step s = .next (({ s with cmdPort := ws, env := { s.env with sched := later } } : State).answered
      (opcodeOf w0) 0xFF#8 0#16)) ∧
  (∀ (s : State) (eid : EndpointId) (h : Word),
    (eid.rsv15 = true ∨ eid.rsvHi ≠ 0#5 ∨ eid.maxPacket = 0#11 ∨ h.toNat % 4 ≠ 0 →
      exec (.submit eid h) s = .next (s.answered 0x01#8 0xFF#8 0#16)) ∧
    (h.toNat % 4 ≠ 0 → exec (.cancel h) s = .next (s.answered 0x02#8 0xFF#8 0#16)) ∧
    (eid.rsv15 = true ∨ eid.rsvHi ≠ 0#5 →
      exec (.epTeardown eid) s = .next (s.answered 0x03#8 0xFF#8 0#16) ∧
      exec (.epClearHalt eid) s = .next (s.answered 0x04#8 0xFF#8 0#16)))

/-- Illegal events (R126): an opcode byte not one of `0x10 .. 0x14`, a reserved bit set, or a `status` above 8. The
block sets `DIAG.ILLEGAL_EVENT`, takes two words for an opcode byte `0x12` and one otherwise, and changes nothing
else. That nothing else changes even where a dying ED waits, so that no `reap()` ends the pass in spite of R161, is
the model's reading of R126 (log entry 18, DEDUCED). -/
def Obligations.IllegalEventsOnlySetDiag : Prop :=
  ∀ (s : State) (w0 : Word) (ws : List Word) (later : List Source),
    s.attached = true → s.env.sched = .event :: later →
    ((¬ (0x10 ≤ (opcodeOf w0).toNat ∧ (opcodeOf w0).toNat ≤ 0x14) ∨
      ((opcodeOf w0 = 0x10#8 ∨ opcodeOf w0 = 0x14#8) ∧ belowOpcode w0 ≠ 0#24) ∨
      (opcodeOf w0 = 0x13#8 ∧ w0.extractLsb' 1 23 ≠ 0#23) ∨
      (opcodeOf w0 = 0x11#8 ∧ 8 < (w0.extractLsb' 16 8).toNat)) →
      s.evtPort = w0 :: ws →
      step s = .next { s with evtPort := ws, env := { s.env with sched := later }, lock := .free,
                              diag := { s.diag with illegalEvent := true } }) ∧
    (opcodeOf w0 = 0x12#8 ∧ 8 < (w0.extractLsb' 16 8).toNat → ∀ w1 : Word, s.evtPort = w0 :: w1 :: ws →
      step s = .next { s with evtPort := ws, env := { s.env with sched := later }, lock := .free,
                              diag := { s.diag with illegalEvent := true } })

/-- Detaching discards the block's state and puts nothing out; a detached block runs nothing (R320). That a detached
block is refused by name is the model's answer to U25. What the state is after a detach is the model's choice (log
entry 13, DESIGN CHOICE): every element of the block is back at its reset value and the ports are empty, while the
configuration, host memory, the scripts and the output record are kept. -/
def Obligations.DetachedBlockRunsNothing : Prop :=
  (∀ s : State, s.attached = false → step s = .refused .detached) ∧
  (∀ (s : State) (later : List Source), s.attached = true → s.env.sched = .detach :: later →
    step s = .next { State.resetOf s.cfg with
      attached := false, mem := s.mem, out := s.out, env := { s.env with sched := later } })

/-! ## Host commands -/

/-- GET_FRAME answers `OK` with `FRNUM` and writes nothing (R193). -/
def Obligations.GetFrameAnswersFrnum : Prop :=
  ∀ s : State, exec .getFrame s = .next (s.answered 0x05#8 0x00#8 s.frnum)

/-- CANCEL (R183), two words: `ILLEGAL` for a handle that is not a multiple of 4; `NOT_FOUND` when no TD of the request is
queued or active; else the ED that all such TDs have becomes `PendingDelete`, nothing else changes, and the
answer is `OK`. -/
def Obligations.CancelMarksThePipeDying : Prop :=
  ∀ (s : State) (h : Word),
    encode (.cancel h) = [0x02000000#32, h] ∧
    (h.toNat % 4 ≠ 0 → exec (.cancel h) s = .next (s.answered 0x02#8 0xFF#8 0#16)) ∧
    (h.toNat % 4 = 0 → (∀ d, ¬ s.liveTdOf (s.handle h) d) →
      exec (.cancel h) s = .next (s.answered 0x02#8 0x02#8 0#16)) ∧
    (∀ d e, h.toNat % 4 = 0 → s.liveTdOf (s.handle h) d →
      (∀ i, s.liveTdOf (s.handle h) i → (s.td i).ed = some e) →
      exec (.cancel h) s =
        .next (({ s with eds := s.eds.modify e (fun x => { x with state := .pendingDelete }) } : State).answered
          0x02#8 0x00#8 0#16))

/-- EP_CLEAR_HALT (R191), two words: `ILLEGAL` for a reserved bit, `NOT_FOUND` for an unknown pipe; a halted ED becomes
`Skip` when its queue is empty and `Operational` otherwise; on any other ED it answers `OK` and changes nothing. -/
def Obligations.ClearHaltReleasesAHaltedPipe : Prop :=
  ∀ (s : State) (eid : EndpointId),
    encode (.epClearHalt eid) = [0x04000000#32, eid.toWord] ∧
    (eid.rsv15 = true ∨ eid.rsvHi ≠ 0#5 → exec (.epClearHalt eid) s = .next (s.answered 0x04#8 0xFF#8 0#16)) ∧
    (eid.rsv15 = false → eid.rsvHi = 0#5 → s.noPipe (pipeKey eid) →
      exec (.epClearHalt eid) s = .next (s.answered 0x04#8 0x02#8 0#16)) ∧
    (∀ e, eid.rsv15 = false → eid.rsvHi = 0#5 → s.onlyPipe e (pipeKey eid) →
      ((s.ed e).state = .halted →
        exec (.epClearHalt eid) s =
          .next (({ s with eds := s.eds.modify e (fun x =>
            { x with state := if x.queue = [] then .skip else .operational }) } : State).answered
            0x04#8 0x00#8 0#16)) ∧
      ((s.ed e).state ≠ .halted → exec (.epClearHalt eid) s = .next (s.answered 0x04#8 0x00#8 0#16)))

/-- SUBMIT to a pipe whose ED is `Halted` or `PendingDelete` answers `BUSY` reason 2 and changes nothing (R180). -/
def Obligations.SubmitToAHaltedPipeIsBusy : Prop :=
  ∀ (s : State) (eid : EndpointId) (h : Word) (e : Nat),
    submitValid s eid h = true → s.onlyPipe e (pipeKey eid) →
    ((s.ed e).state = .halted ∨ (s.ed e).state = .pendingDelete) →
    exec (.submit eid h) s = .next (s.answered 0x01#8 0x01#8 2#16)

/-- SUBMIT rejects a malformed command with `ILLEGAL` and changes nothing: a reserved bit of the `endpoint_id`, a
`max_packet` of 0, a handle that is not a multiple of 4, a handle that an allocated TD has already (R171). -/
def Obligations.SubmitValidatesItsOperands : Prop :=
  ∀ (s : State) (eid : EndpointId) (h : Word),
    (eid.rsv15 = true ∨ eid.rsvHi ≠ 0#5 ∨ eid.maxPacket = 0#11 ∨ h.toNat % 4 ≠ 0 ∨
      ∃ d < s.tds.length, (s.td d).alloc = true ∧ (s.td d).request = s.handle h) →
    exec (.submit eid h) s = .next (s.answered 0x01#8 0xFF#8 0#16)

/-- SUBMIT on a pipe that takes transfers: reserved request flags, or an isochronous request with no sub-packet,
are `ILLEGAL`; a request that needs more TDs, Tokens or EDs than are free is `BUSY` reason 1; each without any
change (R170, R173, R179, R299). -/
def Obligations.SubmitRefusesWithoutEffect : Prop :=
  ∀ (s : State) (eid : EndpointId) (h : Word) (e : Option Nat),
    submitValid s eid h = true →
    (e = none ∧ s.noPipe (pipeKey eid) ∨ ∃ k, e = some k ∧ s.onlyPipe k (pipeKey eid) ∧
      (s.ed k).state ≠ .halted ∧ (s.ed k).state ≠ .pendingDelete) →
    let n := tdCount s (pipeOf s eid e).mode (s.handle h)
    ((s.field (s.handle h) 0x08).extractLsb' 2 30 ≠ 0#30 →
      exec (.submit eid h) s = .next (s.answered 0x01#8 0xFF#8 0#16)) ∧
    ((pipeOf s eid e).mode = .iso → s.field (s.handle h) 0x14 = 0#32 →
      exec (.submit eid h) s = .next (s.answered 0x01#8 0xFF#8 0#16)) ∧
    ((s.field (s.handle h) 0x08).extractLsb' 2 30 = 0#30 → n ≠ 0 →
      (s.tfree.length < n ∨ s.kfree.length < n ∨ (e = none ∧ s.efree = [])) →
      exec (.submit eid h) s = .next (s.answered 0x01#8 0x01#8 1#16))

/-- An accepted SUBMIT on a known pipe (R170, R176, R178, R179): it completes; it answers `OK`; `actual_length` and
`status` of the request are 0 and no other byte of memory has changed; it has taken one TD and one Token for each
part of the request from the heads of the free-lists and put the TDs behind those the pipe had; the ED is
`Operational`; each new TD is queued, belongs to the request and the pipe, and carries the token for its
direction and the pipe's address; and no other field, ED, TD or Token has changed. -/
def Obligations.SubmitQueuesTheRequest : Prop :=
  ∀ (s : State) (eid : EndpointId) (h : Word) (e : Nat),
    s.poolsOk → Memory.wf s.mem → 6 ≤ s.cfg.addrBits →
    submitValid s eid h = true → s.onlyPipe e (pipeKey eid) →
    (s.ed e).state ≠ .halted → (s.ed e).state ≠ .pendingDelete →
    (s.field (s.handle h) 0x08).extractLsb' 2 30 = 0#30 →
    let specs := tdSpecs s (pipeOf s eid (some e)) (s.handle h)
    let n := specs.length
    n ≠ 0 → n ≤ s.tfree.length → n ≤ s.kfree.length →
    ∃ t, exec (.submit eid h) s = .next t ∧
      t.out = s.out ++ [.memWrite (wrapAddr s.cfg (s.handle h + 0x18)) 0#32,
        .memWrite (wrapAddr s.cfg (s.handle h + 0x1C)) 0#32, .response 0x01000000#32] ∧
      t.field (s.handle h) 0x18 = 0#32 ∧ t.field (s.handle h) 0x1C = 0#32 ∧
      (∀ a, (∀ j < 8, a ≠ wrapAddr s.cfg (s.handle h + 0x18 + j)) → t.mem.read a = s.mem.read a) ∧
      t.tfree = s.tfree.drop n ∧ t.kfree = s.kfree.drop n ∧
      t.ed e = { s.ed e with state := .operational, queue := (s.ed e).queue ++ s.tfree.take n } ∧
      (∀ i, i ≠ e → t.ed i = s.ed i) ∧
      (∀ (j : Nat) (sp : TdSpec) (d k : Nat), specs[j]? = some sp → s.tfree[j]? = some d → s.kfree[j]? = some k →
        t.td d = { alloc := true, place := .queued, request := s.handle h, ed := some e, dir := sp.dir,
                   data := sp.data, length := sp.length, transferred := 0, toggle := sp.toggle, errorCount := 0,
                   nakCount := 0, startFrame := sp.startFrame.getD s.frnum, interval := sp.interval, status := .ok,
                   ioc := decide (j + 1 = n), zlpPending := sp.zlpPending, token := some k, txn := none } ∧
        t.tok k = { alloc := true, bytes := tokenBytes sp.dir (s.ed e).devAddr (s.ed e).epNum, td := some d }) ∧
      (∀ d, d ∉ s.tfree.take n → t.td d = s.td d) ∧ (∀ k, k ∉ s.kfree.take n → t.tok k = s.tok k) ∧
      Framed [.tfree, .tds, .kfree, .toks, .eds, .mem, .out, .lock] s t

/-- A SUBMIT for a pipe not yet known creates its ED first (R170, R172): the head of the ED free-list, with the
fields of the `endpoint_id`, toggle 0 and the new TDs as its queue, at the tail of its class list. The rest is as on
a known pipe (R176, R178, R179): `actual_length` and `status` of the request are 0 and no other byte of memory has
changed; each new TD is queued, belongs to the request and the new ED, and carries the token for its direction and
the address of the `endpoint_id`; no other field, ED, TD or Token has changed. -/
def Obligations.SubmitCreatesTheFirstPipe : Prop :=
  ∀ (s : State) (eid : EndpointId) (h : Word) (e : Nat) (efree : List Nat),
    s.poolsOk → Memory.wf s.mem → 6 ≤ s.cfg.addrBits →
    submitValid s eid h = true → s.noPipe (pipeKey eid) → s.efree = e :: efree →
    (s.field (s.handle h) 0x08).extractLsb' 2 30 = 0#30 →
    let specs := tdSpecs s (pipeOf s eid none) (s.handle h)
    let n := specs.length
    n ≠ 0 → n ≤ s.tfree.length → n ≤ s.kfree.length →
    ∃ t, exec (.submit eid h) s = .next t ∧
      t.out = s.out ++ [.memWrite (wrapAddr s.cfg (s.handle h + 0x18)) 0#32,
        .memWrite (wrapAddr s.cfg (s.handle h + 0x1C)) 0#32, .response 0x01000000#32] ∧
      t.field (s.handle h) 0x18 = 0#32 ∧ t.field (s.handle h) 0x1C = 0#32 ∧
      (∀ a, (∀ j < 8, a ≠ wrapAddr s.cfg (s.handle h + 0x18 + j)) → t.mem.read a = s.mem.read a) ∧
      t.efree = efree ∧
      t.ed e = { alloc := true, state := .operational, devAddr := eid.devAddr, epNum := eid.epNum,
                 dirIn := if eid.mode = .ctrl then false else eid.dirIn, mode := eid.mode, speed := eid.speed,
                 maxPacket := eid.maxPacket, toggleCarry := false, queue := s.tfree.take n } ∧
      (∀ i, i ≠ e → t.ed i = s.ed i) ∧
      t.cls = s.cls.set eid.mode (s.cls.get eid.mode ++ [e]) ∧
      t.tfree = s.tfree.drop n ∧ t.kfree = s.kfree.drop n ∧
      (∀ (j : Nat) (sp : TdSpec) (d k : Nat), specs[j]? = some sp → s.tfree[j]? = some d → s.kfree[j]? = some k →
        t.td d = { alloc := true, place := .queued, request := s.handle h, ed := some e, dir := sp.dir,
                   data := sp.data, length := sp.length, transferred := 0, toggle := sp.toggle, errorCount := 0,
                   nakCount := 0, startFrame := sp.startFrame.getD s.frnum, interval := sp.interval, status := .ok,
                   ioc := decide (j + 1 = n), zlpPending := sp.zlpPending, token := some k, txn := none } ∧
        t.tok k = { alloc := true, bytes := tokenBytes sp.dir eid.devAddr eid.epNum, td := some d }) ∧
      (∀ d, d ∉ s.tfree.take n → t.td d = s.td d) ∧ (∀ k, k ∉ s.kfree.take n → t.tok k = s.tok k) ∧
      Framed [.efree, .cls, .tfree, .tds, .kfree, .toks, .eds, .mem, .out, .lock] s t

/-- The parts of a control request (R173, R174): SETUP with toggle 0 and the 8 bytes at the request's setup pointer; a
data stage, only when there are data, over the request's whole buffer, in the direction the request asks for, with
the toggle carried; STATUS with toggle 1 and no data, in the other direction, IN when there is no data stage. None
has an interval, a frame of its own or a terminator. -/
def Obligations.ControlRequestStages : Prop :=
  ∀ (s : State) (pipe : Pipe) (h : Addr), pipe.mode = .ctrl →
    let length := s.field h 0x00
    let dirIn := (s.field h 0x08).getLsbD 0
    let part := fun (dir : Dir) (data : Addr) (len : BitVec 32) (tg : Toggle) =>
      ({ dir := dir, data := data, length := len, toggle := tg, startFrame := none, interval := 0#16,
         zlpPending := false } : TdSpec)
    let setup := part .setup (wrapAddr s.cfg (s.field h 0x0C).toNat) 8#32 (.val false)
    tdSpecs s pipe h =
      if length = 0#32 then [setup, part .inn 0 0#32 (.val true)]
      else [setup, part (if dirIn then .inn else .out) (wrapAddr s.cfg (s.field h 0x04).toNat) length .carry,
            part (if dirIn then .out else .inn) 0 0#32 (.val true)]

/-- The parts of a bulk or interrupt request (R173): `max(1, ceil(length / CHUNK_SIZE))` of them, their lengths adding
up to the request's. Part `i` starts at `buffer + i * CHUNK_SIZE` and has `CHUNK_SIZE` bytes or what is left; it has
the pipe's direction, the toggle carried, the request's interval on an interrupt pipe and 0 on a bulk one, and no
frame of its own. A terminator is pending on the last part alone, and exactly when the request asks for one, the pipe
is OUT, and the length is a multiple of `max_packet` other than 0. -/
def Obligations.ChunksCoverTheRequest : Prop :=
  ∀ (s : State) (pipe : Pipe) (h : Addr), s.cfg.valid → (pipe.mode = .bulk ∨ pipe.mode = .intr) →
    let specs := tdSpecs s pipe h
    let len := (s.field h 0x00).toNat
    let buffer := (s.field h 0x04).toNat
    let size := s.cfg.chunkSize
    specs.length = max 1 ((len + size - 1) / size) ∧
    (specs.map (fun sp => sp.length.toNat)).sum = len ∧
    ∀ (i : Nat) (sp : TdSpec), specs[i]? = some sp →
      sp.data = wrapAddr s.cfg (buffer + i * size) ∧ sp.length.toNat = min size (len - i * size) ∧
      sp.dir = (if pipe.dirIn then .inn else .out) ∧ sp.toggle = .carry ∧ sp.startFrame = none ∧
      sp.interval = (if pipe.mode = .intr then (s.field h 0x10).extractLsb' 0 16 else 0#16) ∧
      (sp.zlpPending = true ↔ i + 1 = specs.length ∧ (s.field h 0x08).getLsbD 1 = true ∧ pipe.dirIn = false ∧
        0 < len ∧ len % pipe.maxPacket.toNat = 0)

/-- The parts of an isochronous request (R173, R175): one for each sub-packet, in order. Sub-packet `i` is meant for
frame `(base + i * interval) mod FRAME_WRAP`; its data start at `buffer` plus the offset that the request gives for it
and have the length that the request gives for it; it has the pipe's direction and toggle 0. -/
def Obligations.IsochronousTargetFrames : Prop :=
  ∀ (s : State) (pipe : Pipe) (h : Addr), s.cfg.valid → pipe.mode = .iso →
    (tdSpecs s pipe h).length = (s.field h 0x14).toNat ∧
    ∀ (i : Nat) (sp : TdSpec), (tdSpecs s pipe h)[i]? = some sp →
      sp.toggle = .val false ∧ sp.interval = (s.field h 0x10).extractLsb' 0 16 ∧
      sp.data = wrapAddr s.cfg ((s.field h 0x04).toNat + (s.field h (0x20 + 8 * i)).toNat) ∧
      sp.length = s.field h (0x24 + 8 * i) ∧ sp.dir = (if pipe.dirIn then .inn else .out) ∧ sp.zlpPending = false ∧
      ∃ f, sp.startFrame = some f ∧
        f.toNat = (((s.field h 0x10).extractLsb' 16 16).toNat + i * sp.interval.toNat) % s.cfg.frameWrap

/-- EP_TEARDOWN (R188, R189) of an unknown pipe answers `NOT_FOUND` and changes nothing; of a known one it completes:
the answer `OK` is the last output, the pipe's ED is free, at the head of the ED free-list, off its class list and
without TDs, every TD it had and every TD of the done list is free, the done list is empty and no drain is
outstanding. In host memory only the words at 18H and 1CH of the requests of those TDs may change, and every callback
names one of those requests. A transaction in flight at the head is aborted (R215): its Packet, record and dummy
buffer are back in their pools and the TD is off the active list, the frame's bytes and time as they were; with none
in flight those pools and the frame are as they were. When the done list was empty and the pipe's TDs are those of one
request that had not failed, that request ends with `CS_CANCELLED`, its `actual_length` grown by the bytes its TDs had
moved (not the SETUP TD's), and one callback says so just before the answer. -/
def Obligations.TeardownFreesThePipe : Prop :=
  ∀ (s : State) (eid : EndpointId), eid.rsv15 = false → eid.rsvHi = 0#5 →
    (s.noPipe (pipeKey eid) → exec (.epTeardown eid) s = .next (s.answered 0x03#8 0x02#8 0#16)) ∧
    (∀ e, s.onlyPipe e (pipeKey eid) → e < s.cfg.maxEds →
      (∀ d ∈ (s.ed e).queue, (s.td d).ed = some e ∧ d < s.cfg.maxTds) →
      let drained := s.done ++ (s.ed e).queue
      ∃ t, exec (.epTeardown eid) s = .next t ∧
        t.out.getLast? = some (.response 0x03000000#32) ∧
        (t.ed e).alloc = false ∧ (t.ed e).queue = [] ∧ t.efree = e :: s.efree ∧
        (∀ i, i ≠ e → t.ed i = s.ed i) ∧
        t.cls = s.cls.set (s.ed e).mode ((s.cls.get (s.ed e).mode).erase e) ∧
        (∀ d ∈ drained, d < s.cfg.maxTds → (t.td d).alloc = false) ∧
        (s.Paired → ∀ d, d ∉ drained → t.td d = s.td d) ∧
        t.done = [] ∧ t.drainp = false ∧
        (∀ a, (∀ d ∈ drained, ∀ j < 8, a ≠ wrapAddr s.cfg ((s.td d).request + 0x18 + j)) →
          t.mem.read a = s.mem.read a) ∧
        (∀ w0 w1 w2, Output.callback w0 w1 w2 ∈ t.out →
          Output.callback w0 w1 w2 ∈ s.out ∨ ∃ d ∈ drained, w1 = BitVec.ofNat 32 (s.td d).request) ∧
        (∀ x p d ds, (s.ed e).queue = d :: ds → (s.td d).txn = some x → s.liveTxn x p d →
          t.dfree = (s.txn x).dummy.toList ++ s.dfree ∧ t.pkts = s.pkts.modify p (fun _ => Pkt.initial) ∧
          t.ring = { slots := s.ring.slots.set ((s.ring.rd + s.ring.cnt) % s.cfg.pktPoolCap) p, rd := s.ring.rd,
                     cnt := s.ring.cnt + 1 } ∧
          t.txns = s.txns.modify x (fun r => { r with alloc := false }) ∧ t.xfree = x :: s.xfree ∧
          t.frame = { s.frame with active := s.frame.active.erase d }) ∧
        ((∀ d ds, (s.ed e).queue = d :: ds → (s.td d).txn = none) →
          t.dfree = s.dfree ∧ t.pkts = s.pkts ∧ t.ring = s.ring ∧ t.txns = s.txns ∧ t.xfree = s.xfree ∧
          t.frame = s.frame) ∧
        (∀ h, s.poolsOk → s.Paired → Memory.wf s.mem → 6 ≤ s.cfg.addrBits → s.done = [] →
          (s.ed e).queue ≠ [] →
          (∀ d < s.tds.length, (s.td d).alloc = true → ((s.td d).request = h ↔ d ∈ (s.ed e).queue)) →
          (∀ d ∈ (s.ed e).queue, (s.td d).request = h) → s.field h 0x1C = 0#32 →
          let a := s.field h 0x18 + (((s.ed e).queue.filter (fun d => decide ((s.td d).dir ≠ .setup))).map
            (fun d => (s.td d).transferred)).sum
          t.field h 0x1C = 5#32 ∧ t.field h 0x18 = a ∧
          ∃ os, t.out = s.out ++ os ++ [.callback 0xC0000005#32 (BitVec.ofNat 32 h) a, .response 0x03000000#32] ∧
            ∀ w0 w1 w2, Output.callback w0 w1 w2 ∉ os) ∧
        Framed (mayChange (.epTeardown eid)) s t)

/-! ## Bus events -/

/-- EV_CONNECT writes both bits of `BUSSTS`, EV_DISCONNECT clears `CONNECTED` and keeps `SPEED` (R275, R276); with
nothing to reap (R277) nothing else changes. -/
def Obligations.BusEventsWriteBussts : Prop :=
  ∀ (s : State) (speed : Speed), s.nothingToReap →
    exec (.evConnect speed) s =
      .next { s with bussts := { connected := true, speed := speed }, lock := .free } ∧
    exec .evDisconnect s =
      .next { s with bussts := { connected := false, speed := s.bussts.speed }, lock := .free }

/-- Reaping (R161, R184, R186). With nothing to reap, `reap()` changes nothing. Otherwise every dying ED whose head TD
is not mid-transaction is free, in index order, and off its class list; every TD they had is on the done list, in that
order, with `TS_CANCELLED`, and a drain is outstanding if there was one; nothing else changes. The two bus events
write `BUSSTS` and then reap. After every event that is not illegal, the frame start and the confirms included, no ED
is left to reap. (The other statements about events say, by `reap`, what the event did before it.) -/
def Obligations.DyingPipeIsReaped : Prop :=
  (∀ s : State, s.nothingToReap → reap s = s) ∧
  (∀ s : State, s.sized → (∀ m, (s.cls.get m).Nodup) →
    (∀ e < s.cfg.maxEds, s.toReap e = true → ∀ d ∈ (s.ed e).queue, (s.td d).ed = some e ∧ d < s.cfg.maxTds) →
    let dying := (List.range s.cfg.maxEds).filter s.toReap
    let gone := dying.flatMap (fun e => (s.ed e).queue)
    let t := reap s
    (∀ e ∈ dying, t.ed e = { s.ed e with alloc := false, queue := [], toggleCarry := (t.ed e).toggleCarry }) ∧
    (∀ e, e ∉ dying → t.ed e = s.ed e) ∧
    t.efree = dying.reverse ++ s.efree ∧
    (∀ m, t.cls.get m = (s.cls.get m).filter (fun e => !(decide (e ∈ dying) && decide ((s.ed e).mode = m)))) ∧
    t.done = s.done ++ gone ∧ t.drainp = (s.drainp || decide (gone ≠ [])) ∧
    (∀ d ∈ gone, t.td d = { s.td d with status := .cancelled, place := .done }) ∧
    (∀ d, d ∉ gone → t.td d = s.td d) ∧
    Framed [.eds, .efree, .cls, .tds, .done, .drainp] s t) ∧
  (∀ (s : State) (speed : Speed),
    exec (.evConnect speed) s =
      .next { reap { s with bussts := { connected := true, speed := speed } } with lock := .free } ∧
    exec .evDisconnect s =
      .next { reap { s with bussts := { connected := false, speed := s.bussts.speed } } with lock := .free }) ∧
  (∀ (s t : State) (i : Instr), s.poolsOk → s.classesOk → s.Paired →
    (i = .evFrameStart ∨ i = .evDisconnect ∨ (∃ speed, i = .evConnect speed) ∨
      (∃ st p, i = .evTxConfirm st p ∧ st.toNat ≤ 8) ∨ ∃ st p n, i = .evRxConfirm st p n ∧ st.toNat ≤ 8) →
    exec i s = .next t → t.nothingToReap)

/-! ## EV_FRAME_START -/

/-- Every EV_FRAME_START completes and counts the frame: `FRNUM <- (FRNUM + 1) mod FRAME_WRAP` (R141); it never
writes host memory, the bus status or the command and event ports, and takes or makes no TD or Token (R140). -/
def Obligations.FrameStartCountsTheFrame : Prop :=
  ∀ s : State, s.cfg.valid →
    ∃ t, exec .evFrameStart s = .next t ∧ t.frnum.toNat = (s.frnum.toNat + 1) % s.cfg.frameWrap ∧
      Framed (mayChange .evFrameStart) s t

/-- A blocked frame (R144, R161): while the frame has an unfinished TD and no more than `FLUSH_THRESHOLD` frame-counts
have elapsed, EV_FRAME_START only counts the frame, and reaps. -/
def Obligations.BlockedFrameOnlyCounts : Prop :=
  ∀ s : State, s.frame.active ≠ [] →
    modDiff (nextFrnum s.cfg s.frnum) s.frame.number s.cfg.frameWrap ≤ s.cfg.flushThreshold →
    exec .evFrameStart s = .next { reap { s with frnum := nextFrnum s.cfg s.frnum } with lock := .free }

/-- A frame start with no device connected and no unfinished TD opens an empty frame, admits nothing, and reaps (R143,
R147, R161). -/
def Obligations.DisconnectedFrameAdmitsNothing : Prop :=
  ∀ s : State, s.frame.active = [] → s.bussts.connected = false →
    exec .evFrameStart s = .next { reap { s with
      frnum := nextFrnum s.cfg s.frnum
      frame := { bytes := 0, status := .prepared, active := [], number := nextFrnum s.cfg s.frnum, timeUs := 0 } } with
      lock := .free }

/-- A frame start on a connected bus where no ED is ready opens an empty frame, rotates all four class lists, reaps, and
changes nothing else (R147, R148, R150, R151, R159, R161). An ED is passed over when it is not `Operational`, when its
queue is empty, when its head TD is mid-transaction, and in a periodic class when its `interval` has not elapsed. -/
def Obligations.IdleFrameRotatesTheClasses : Prop :=
  ∀ s : State, s.frame.active = [] → s.bussts.connected = true →
    let n := nextFrnum s.cfg s.frnum
    (∀ m, ∀ e ∈ s.cls.get m, (s.ed e).state ≠ .operational ∨ (s.ed e).queue = [] ∨
      ∃ d ds, (s.ed e).queue = d :: ds ∧ ((s.td d).txn ≠ none ∨
        ((m = .iso ∨ m = .intr) ∧ modDiff n (s.td d).startFrame s.cfg.frameWrap < (s.td d).interval.toNat))) →
    exec .evFrameStart s = .next { reap { s with
      frnum := n
      frame := { bytes := 0, status := .prepared, active := [], number := n, timeUs := 0 }
      cls := { iso := rotateList s.cls.iso, intr := rotateList s.cls.intr, ctrl := rotateList s.cls.ctrl,
               bulk := rotateList s.cls.bulk } } with
      lock := .free }

/-- The scans of a frame start (R148, R149, R153, R155, R158, R159, R163). On a connected bus with no unfinished TD, a
frame start opens an empty frame and scans the isochronous, interrupt and control classes in this order, then the bulk
class unless the frame has closed, and reaps. A scan walks its class list as it stood, head to tail, makes one admission
attempt for each ED that has a ready TD when its turn comes, and rotates the list; in a closed frame it only rotates.
In an open frame with the resources for them, the ready TDs are admitted in the order of the list until one of them does
not fit: the frame is charged with the bytes and the times of those before it, each of these is active in this frame
with a record of its own from the head of the record free-list, the Packets come from the head of the ring in the same
order, and one token descriptor is handed over for each, with the Packet and the TD's token in it. The first that fails
the byte test closes the frame with `END_OF_TRANSMISSION`, the first that fails the time test with `TIMER_FORCED_END`;
neither it nor any TD after it is admitted, one that would fit included (the sums before it within the 32 bits of
`FRAME.bytes` and `FRAME.time_us`, R51). -/
def Obligations.ScansServeTheClassesInOrder : Prop :=
  (∀ s : State, s.frame.active = [] → s.bussts.connected = true →
    let n := nextFrnum s.cfg s.frnum
    let s0 : State := { s with
      frnum := n
      frame := { bytes := 0, status := .prepared, active := [], number := n, timeUs := 0 }
      lock := .heldA }
    let s3 := scan .ctrl (scan .intr (scan .iso s0))
    exec .evFrameStart s = .next { reap (
      if s3.frame.status = .endOfTransmission ∨ s3.frame.status = .timerForcedEnd then s3 else scan .bulk s3) with
      lock := .free }) ∧
  (∀ (s : State) (c : Mode),
    let t := (s.cls.get c).foldl (fun u e => match u.readyHead c e with
      | none => u
      | some d => tryAdmit e d u) s
    scan c s = { t with cls := t.cls.set c (rotateList (t.cls.get c)) }) ∧
  (∀ (s : State) (c : Mode), (s.frame.status = .endOfTransmission ∨ s.frame.status = .timerForcedEnd) →
    scan c s = { s with cls := s.cls.set c (rotateList (s.cls.get c)) }) ∧
  (∀ (s : State) (c : Mode) (served refused : List (Nat × Nat)) (rems sofs sofs' : List Nat) (answers : List Bool)
      (st : FrameStatus),
    s.poolsOk → (s.frame.status = .prepared ∨ s.frame.status = .transmitted) →
    let ready : List (Nat × Nat) := (s.cls.get c).filterMap (fun e => (s.readyHead c e).map (fun d => (e, d)))
    let n := served.length
    let cost := fun r : Nat × Nat => nextLen s r.1 r.2 + s.cfg.pktOverhead
    let us := fun r : Nat × Nat => match s.bussts.speed with
      | .full => cost r * s.cfg.kFullN / s.cfg.kFullD
      | .low => cost r * s.cfg.kLowN / s.cfg.kLowD
    let bytes := s.frame.bytes.toNat + (served.map cost).sum
    let time := s.frame.timeUs.toNat + (served.map us).sum
    ready = served ++ refused → (ready.map Prod.snd).Nodup → (∀ r ∈ ready, r.2 < s.tds.length) →
    bytes ≤ s.cfg.maxBytesPerFrame →
    s.env.sofAnswers = rems ++ sofs → rems.length = n → (∀ rem ∈ rems, time ≤ rem) →
    s.env.ringAnswers = List.replicate n true ++ answers →
    n ≤ s.ring.cnt → n ≤ s.xfree.length →
    (served.filter (fun r => decide (nextLen s r.1 r.2 = 0))).length ≤ s.dfree.length →
    ((refused = [] ∧ st = (if served = [] then s.frame.status else .transmitted) ∧ sofs' = sofs) ∨
      (bytes < 2 ^ 32 ∧ ∃ r more, refused = r :: more ∧ s.cfg.maxBytesPerFrame < bytes + cost r ∧
        st = .endOfTransmission ∧ sofs' = sofs) ∨
      (bytes < 2 ^ 32 ∧ time < 2 ^ 32 ∧ ∃ r more rem, refused = r :: more ∧
        bytes + cost r ≤ s.cfg.maxBytesPerFrame ∧ sofs = rem :: sofs' ∧ rem < time + us r ∧
        st = .timerForcedEnd)) →
    let t := scan c s
    t.frame = { bytes := BitVec.ofNat 32 bytes, status := st, active := s.frame.active ++ served.map Prod.snd,
                number := s.frame.number, timeUs := BitVec.ofNat 32 time } ∧
    (∀ (j e d x p : Nat), served[j]? = some (e, d) → s.xfree[j]? = some x → s.ringHandles[j]? = some p →
      (∃ b, t.td d = { s.td d with place := .active, startFrame := s.frame.number, toggle := .val b, txn := some x }) ∧
      (t.txn x).alloc = true ∧ (t.txn x).phase = .tokenWait ∧ (t.txn x).td = some d ∧ (t.txn x).pkt = some p ∧
      (t.txn x).len = BitVec.ofNat 11 (nextLen s e d) ∧ (t.pkt p).out = true ∧
      ∃ desc, t.out[s.out.length + j]? = some (.ringSubmit desc true) ∧ desc.w0.extractLsb' 0 16 = BitVec.ofNat 16 p ∧
        desc.w3 = BitVec.ofNat 32 (s.tok ((s.td d).token.getD s.cfg.maxTokens)).bytes.toNat) ∧
    (∀ d, d ∉ served.map Prod.snd → t.td d = s.td d) ∧
    t.xfree = s.xfree.drop n ∧ t.ringHandles = s.ringHandles.drop n ∧
    t.out.length = s.out.length + n ∧ t.out.take s.out.length = s.out ∧
    t.env = { s.env with sofAnswers := sofs', ringAnswers := answers } ∧
    t.cls = s.cls.set c (rotateList (s.cls.get c)) ∧
    Framed [.cls, .frame, .ring, .pkts, .xfree, .txns, .dfree, .tds, .env, .out] s t)

/-- A frame start that admits one transaction (R140, R151, R152, R153, R156, R204, R205, R207, R42): on a connected bus
with one pipe ready, of any class (a periodic one when its interval has passed), both budgets allowing it, a Packet, a
record and (for a zero-length transaction) a dummy buffer free, and the transceiver accepting, the TD is active, its
toggle resolved, its transaction in `TOKEN_WAIT`, the frame charged with its bytes and with its time by the speed of
the bus, rounded down, the Packet filled, the data descriptor of R205 prepared and the token descriptor handed over;
then the pass reaps (R161). -/
def Obligations.FrameStartAdmitsTheReadyPipe : Prop :=
  ∀ (s : State) (m : Mode) (e d x : Nat) (ds xs : List Nat) (rem : Nat) (sofs : List Nat) (answers : List Bool),
    s.poolsOk → s.frame.active = [] → s.bussts.connected = true →
    s.cls = ({ iso := [], intr := [], ctrl := [], bulk := [] } : Classes).set m [e] →
    (s.ed e).state = .operational → (s.ed e).mode = m → (s.ed e).queue = d :: ds → d < s.tds.length →
    (s.td d).txn = none →
    (m = .iso ∨ m = .intr →
      (s.td d).interval.toNat ≤ modDiff (nextFrnum s.cfg s.frnum) (s.td d).startFrame s.cfg.frameWrap) →
    let len := nextLen s e d
    let cost := len + s.cfg.pktOverhead
    let us := match s.bussts.speed with
      | .full => cost * s.cfg.kFullN / s.cfg.kFullD
      | .low => cost * s.cfg.kLowN / s.cfg.kLowD
    let n := nextFrnum s.cfg s.frnum
    let p := s.ring.slots.getD s.ring.rd 0
    let u := if len = 0 then s.dfree.head? else none
    let addr := match u with
      | some u => s.cfg.dummyAddrs.getD u 0
      | none => wrapAddr s.cfg ((s.td d).data + (s.td d).transferred.toNat)
    let isIn := decide ((s.td d).dir = .inn)
    let tg := if m = .iso then false
      else match (s.td d).toggle with
        | .val b => b
        | .carry => (s.ed e).toggleCarry
    let pre := if (s.ed e).speed = .low then 1 else 0
    let iso := if m = .iso then 1 else 0
    let dm := if u = none then 0 else 1
    let desc : TxDesc :=
      { w0 := BitVec.ofNat 32 (0 * 2 ^ 31 + pre * 2 ^ 30 + (if isIn then tg.toNat else 0) * 2 ^ 29 + isIn.toNat * 2 ^ 28 +
          (if isIn then dm else 0) * 2 ^ 27 + iso * 2 ^ 26 + p)
        w1 := BitVec.ofNat 32 (3 + (if isIn then len else 0) * 2 ^ 16)
        w2 := if isIn then BitVec.ofNat 32 addr else 0#32
        w3 := BitVec.ofNat 32 (s.tok ((s.td d).token.getD s.cfg.maxTokens)).bytes.toNat }
    let dataDesc : TxDesc :=
      if isIn then { w0 := 0, w1 := 0, w2 := 0, w3 := 0 }
      else
        { w0 := BitVec.ofNat 32 (1 * 2 ^ 31 + pre * 2 ^ 30 + tg.toNat * 2 ^ 29 + 0 * 2 ^ 28 + dm * 2 ^ 27 + iso * 2 ^ 26 + p)
          w1 := BitVec.ofNat 32 len
          w2 := BitVec.ofNat 32 addr
          w3 := 0 }
    cost ≤ s.cfg.maxBytesPerFrame → us ≤ rem →
    s.env.sofAnswers = rem :: sofs → s.env.ringAnswers = true :: answers →
    s.ring.cnt ≠ 0 → s.xfree = x :: xs → (len = 0 → s.dfree ≠ []) →
    ∃ t, exec .evFrameStart s = .next { reap t with lock := .free } ∧
      t.frnum = n ∧
      t.frame = { bytes := BitVec.ofNat 32 cost, status := .transmitted, active := [d], number := n,
                  timeUs := BitVec.ofNat 32 us } ∧
      t.td d = { s.td d with place := .active, startFrame := n, toggle := .val tg, txn := some x } ∧
      (∀ i, i ≠ d → t.td i = s.td i) ∧
      t.txn x = { alloc := true, phase := .tokenWait, td := some d, pkt := some p, token := (s.td d).token,
                  len := BitVec.ofNat 11 len, dummy := u, dataDesc := dataDesc } ∧
      (∀ i, i ≠ x → t.txn i = s.txn i) ∧ t.xfree = xs ∧
      t.pkt p = { pointer := addr, length := BitVec.ofNat 16 len, status := .ok,
                  info := BitVec.ofNat 8 (isIn.toNat + 2 * pre + 4 * tg.toNat + 8 * dm), out := true } ∧
      (∀ i, i ≠ p → t.pkt i = s.pkt i) ∧
      t.ring = { slots := s.ring.slots, rd := (s.ring.rd + 1) % s.cfg.pktPoolCap, cnt := s.ring.cnt - 1 } ∧
      t.dfree = (if len = 0 then s.dfree.tail else s.dfree) ∧
      t.env = { s.env with sofAnswers := sofs, ringAnswers := answers } ∧
      t.out = s.out ++ [.ringSubmit desc true] ∧
      Framed [.frnum, .frame, .tds, .txns, .xfree, .pkts, .ring, .dfree, .env, .out] s t

/-- The force-flush (R140, R142, R145, R146, R226). When the frame has unfinished TDs and has outlived the threshold,
every TD on the active list fails, in admission order: its transaction's resources are back in their pools, it is on the
done list with `TS_TIMEOUT`, the TDs of its request behind it on its queue are on the list after it as cancelled, its ED
is `Halted`, unless it is dying, and keeps the toggle; and an empty frame is open. On a connected bus the class scans
then run as on any frame start; with no device connected nothing is admitted; then the pass reaps (R161). The second
part gives the one TD, with no device connected, without assuming the invariants. -/
def Obligations.StaleFrameIsFlushed : Prop :=
  (∀ s : State, s.poolsOk → s.Paired → s.frame.active ≠ [] →
    s.cfg.flushThreshold < modDiff (nextFrnum s.cfg s.frnum) s.frame.number s.cfg.frameWrap →
    let n := nextFrnum s.cfg s.frnum
    let queueOf := fun d => match (s.td d).ed with
      | none => []
      | some e => (s.ed e).queue
    let swept := fun d => (queueOf d).tail.filter (fun i => decide ((s.td i).request = (s.td d).request))
    let gone := s.frame.active.flatMap (fun d => d :: swept d)
    ∃ u : State,
      exec .evFrameStart s = .next { reap (
        if u.bussts.connected then
          (let s3 := scan .ctrl (scan .intr (scan .iso u))
           if s3.frame.status = .endOfTransmission ∨ s3.frame.status = .timerForcedEnd then s3 else scan .bulk s3)
        else u) with
        lock := .free } ∧
      u.poolsOk ∧ u.Paired ∧ u.frnum = n ∧
      u.frame = { bytes := 0, status := .prepared, active := [], number := n, timeUs := 0 } ∧
      (∀ d ∈ s.frame.active, u.td d = { s.td d with txn := none, place := .done, status := .timeout }) ∧
      (∀ d ∈ s.frame.active, ∀ i ∈ swept d, u.td i = { s.td i with place := .done, status := .cancelled }) ∧
      (∀ i, i ∉ gone → u.td i = s.td i) ∧ u.done = s.done ++ gone ∧ u.drainp = true ∧
      (∀ d ∈ s.frame.active, ∀ e, (s.td d).ed = some e →
        u.ed e = { s.ed e with
          state := if (s.ed e).state = .pendingDelete then .pendingDelete else .halted
          queue := (s.ed e).queue.tail.filter (fun i => decide ((s.td i).request ≠ (s.td d).request))
          toggleCarry := (u.ed e).toggleCarry } ∧
        ∀ b, (s.td d).toggle = .val b → (∀ i ∈ swept d, (s.td i).toggle = .carry) →
          (u.ed e).toggleCarry = if (s.ed e).mode = .iso then (s.ed e).toggleCarry else b) ∧
      (∀ e, (∀ d ∈ s.frame.active, (s.td d).ed ≠ some e) → u.ed e = s.ed e) ∧
      u.xfree = (s.frame.active.filterMap (fun d => (s.td d).txn)).reverse ++ s.xfree ∧
      (∀ x, (u.txn x).alloc = false) ∧ (∀ p, (u.pkt p).out = false) ∧
      (∀ k < s.cfg.nDummy, k ∈ u.dfree) ∧
      Framed [.frnum, .frame, .tds, .eds, .done, .drainp, .txns, .xfree, .pkts, .ring, .dfree, .lock] s u) ∧
  (∀ (s : State) (x p d e : Nat) (b : Bool) (ds : List Nat),
    s.sized → s.bussts.connected = false → s.frame.active = [d] → s.liveTxn x p d →
    s.cfg.flushThreshold < modDiff (nextFrnum s.cfg s.frnum) s.frame.number s.cfg.frameWrap →
    (s.td d).txn = some x → (s.td d).ed = some e → e < s.cfg.maxEds → (s.ed e).alloc = true →
    (s.ed e).queue = d :: ds → (d :: ds).Nodup → (∀ i ∈ ds, i < s.tds.length ∧ (s.td i).toggle = .carry) →
    (s.td d).toggle = .val b → (s.ed e).mode ≠ .iso →
    let swept := ds.filter (fun i => decide ((s.td i).request = (s.td d).request))
    ∃ t, exec .evFrameStart s = .next { reap t with lock := .free } ∧
      t.frame = { bytes := 0, status := .prepared, active := [], number := nextFrnum s.cfg s.frnum, timeUs := 0 } ∧
      t.td d = { s.td d with txn := none, place := .done, status := .timeout } ∧
      (∀ i ∈ swept, t.td i = { s.td i with place := .done, status := .cancelled }) ∧
      (∀ i, i ≠ d → i ∉ swept → t.td i = s.td i) ∧
      t.done = s.done ++ d :: swept ∧ t.drainp = true ∧
      t.ed e = { s.ed e with state := if (s.ed e).state = .pendingDelete then .pendingDelete else .halted, toggleCarry := b,
                             queue := ds.filter (fun i => decide ((s.td i).request ≠ (s.td d).request)) } ∧
      (∀ i, i ≠ e → t.ed i = s.ed i) ∧
      t.xfree = x :: s.xfree ∧ (t.txn x).alloc = false ∧ (t.pkt p).out = false ∧
      t.dfree = (s.txn x).dummy.toList ++ s.dfree ∧
      Framed [.frnum, .frame, .tds, .eds, .done, .drainp, .txns, .xfree, .pkts, .ring, .dfree] s t)

/-- Rotation (R159): a scan leaves its class list rotated by one, whatever it admitted, and every other class list as
it was; on an empty or one-element list the rotation does nothing; `[a, b, c]` becomes `[b, c, a]`. -/
def Obligations.ScanRotatesItsClass : Prop :=
  (∀ (s : State) (c m : Mode),
    (scan c s).cls.get m = if m = c then rotateList (s.cls.get c) else s.cls.get m) ∧
  rotateList [] = [] ∧ (∀ a, rotateList [a] = [a]) ∧ ∀ a b c, rotateList [a, b, c] = [b, c, a]

/-- Fairness of the rotation (R160): an ED at position `p` of a class list is at its head after `p` scans of the
class. -/
def Obligations.RotationBringsEveryoneToTheHead : Prop :=
  ∀ (c : Mode) (s : State) (p : Nat), p < (s.cls.get c).length →
    (((scan c)^[p] s).cls.get c).head? = (s.cls.get c)[p]?

/-- The length of a TD's next transaction (R202): what is left of the TD, capped at the endpoint's `max_packet`; 0
when nothing is left. -/
def Obligations.NextLengthIsCapped : Prop :=
  ∀ (s : State) (e d : Nat),
    let rem : Int := (s.td d).length.toNat - (s.td d).transferred.toNat
    (0 < rem → (nextLen s e d : Int) = min rem (s.ed e).maxPacket.toNat) ∧ (rem ≤ 0 → nextLen s e d = 0)

/-- An admission attempt that the frame has no room for (R152, R155, R158): a closed frame changes nothing; a failed
byte test closes the frame with `END_OF_TRANSMISSION`, a failed time test (by the factor of the bus speed, rounded
down, R153) with `TIMER_FORCED_END` after asking for the time left; no TD, ED, counter or output changes. -/
def Obligations.RejectedAdmissionDefersTheTd : Prop :=
  ∀ (s : State) (e d rem : Nat) (sofs : List Nat),
    let cost := nextLen s e d + s.cfg.pktOverhead
    let us := match s.bussts.speed with
      | .full => cost * s.cfg.kFullN / s.cfg.kFullD
      | .low => cost * s.cfg.kLowN / s.cfg.kLowD
    ((s.frame.status = .endOfTransmission ∨ s.frame.status = .timerForcedEnd) → tryAdmit e d s = s) ∧
    ((s.frame.status = .prepared ∨ s.frame.status = .transmitted) →
      s.cfg.maxBytesPerFrame < s.frame.bytes.toNat + cost →
      tryAdmit e d s = { s with frame := { s.frame with status := .endOfTransmission } }) ∧
    ((s.frame.status = .prepared ∨ s.frame.status = .transmitted) →
      s.frame.bytes.toNat + cost ≤ s.cfg.maxBytesPerFrame → s.env.sofAnswers = rem :: sofs →
      rem < s.frame.timeUs.toNat + us →
      tryAdmit e d s = { s with frame := { s.frame with status := .timerForcedEnd },
                                env := { s.env with sofAnswers := sofs } })

/-- Deferral (R157, R204, R206). A dispatch is deferred exactly when the Packet ring is empty, no record is free, no
dummy buffer is free for a zero-length transaction, or the transceiver refuses; it is asked once when all the resources
are there, and not at all otherwise. A deferred dispatch puts back everything it took: the free-lists, the dummy list,
every TD and every record that was in use are as before; the Packet it took, if it got one, has moved from the head of
the ring to the tail with its fields reset. An admission attempt that both budgets allow and whose dispatch is deferred
leaves the frame as it was, its bytes, time, status and active list, and every TD as it was, `start_frame` and `place`
included; only the answer about the time left is used up beside what the dispatch did. -/
def Obligations.DeferredDispatchPutsBack : Prop :=
  (∀ (s : State) (e d len : Nat) (accepted : Bool) (answers : List Bool),
    s.env.ringAnswers = accepted :: answers →
    let ready := s.ring.cnt ≠ 0 ∧ s.xfree ≠ [] ∧ (len = 0 → s.dfree ≠ [])
    let r := dispatch e d len s
    (r.1 = false ↔
      s.ring.cnt = 0 ∨ s.xfree = [] ∨ (len = 0 ∧ s.dfree = []) ∨ accepted = false) ∧
    (¬ ready → r.2.env = s.env ∧ r.2.out = s.out) ∧
    (ready → r.2.env = { s.env with ringAnswers := answers } ∧
      ∃ desc, r.2.out = s.out ++ [.ringSubmit desc accepted])) ∧
  (∀ (s t : State) (e d len : Nat), s.poolsOk → dispatch e d len s = (false, t) →
    t.xfree = s.xfree ∧ t.dfree = s.dfree ∧ t.tds = s.tds ∧ t.diag = s.diag ∧
    (∀ i, (s.txn i).alloc = true → t.txn i = s.txn i) ∧ (∀ i, (t.txn i).alloc = (s.txn i).alloc) ∧
    t.ringHandles = rotateList s.ringHandles ∧
    (∀ p, s.ringHandles.head? = some p → t.pkt p = Pkt.initial) ∧
    (∀ p, s.ringHandles.head? ≠ some p → t.pkt p = s.pkt p) ∧
    Framed [.ring, .pkts, .txns, .env, .out] s t) ∧
  (∀ (s : State) (e d rem : Nat) (sofs : List Nat) (accepted : Bool) (answers : List Bool),
    let len := nextLen s e d
    let cost := len + s.cfg.pktOverhead
    let us := match s.bussts.speed with
      | .full => cost * s.cfg.kFullN / s.cfg.kFullD
      | .low => cost * s.cfg.kLowN / s.cfg.kLowD
    s.poolsOk → (s.frame.status = .prepared ∨ s.frame.status = .transmitted) →
    s.frame.bytes.toNat + cost ≤ s.cfg.maxBytesPerFrame → s.env.sofAnswers = rem :: sofs →
    s.frame.timeUs.toNat + us ≤ rem → s.env.ringAnswers = accepted :: answers →
    (s.ring.cnt = 0 ∨ s.xfree = [] ∨ (len = 0 ∧ s.dfree = []) ∨ accepted = false) →
    let t := tryAdmit e d s
    t.frame = s.frame ∧ t.tds = s.tds ∧ t.eds = s.eds ∧ t.xfree = s.xfree ∧ t.dfree = s.dfree ∧
    (∀ i, (s.txn i).alloc = true → t.txn i = s.txn i) ∧ (∀ i, (t.txn i).alloc = (s.txn i).alloc) ∧
    t.ringHandles = rotateList s.ringHandles ∧
    (∀ p, s.ringHandles.head? = some p → t.pkt p = Pkt.initial) ∧
    (∀ p, s.ringHandles.head? ≠ some p → t.pkt p = s.pkt p) ∧
    t.env.sofAnswers = sofs ∧
    t.env.ringAnswers = (if s.ring.cnt = 0 ∨ s.xfree = [] ∨ (len = 0 ∧ s.dfree = []) then s.env.ringAnswers
      else answers) ∧
    Framed [.ring, .pkts, .txns, .env, .out] s t)

/-- Periodic eligibility (R151): the head TD of a periodic pipe is eligible when `interval` frames have passed since
its `start_frame`, counted modulo `FRAME_WRAP`; `interval = 0` is always eligible, `interval >= FRAME_WRAP` never. -/
def Obligations.PeriodicEligibilityIsModular : Prop :=
  ∀ (s : State) (t : Td), s.cfg.valid → t.startFrame.toNat < s.cfg.frameWrap →
    s.frame.number.toNat < s.cfg.frameWrap →
    (periodicEligible s t = true ↔
      t.interval.toNat ≤
        if t.startFrame.toNat ≤ s.frame.number.toNat then s.frame.number.toNat - t.startFrame.toNat
        else s.frame.number.toNat + s.cfg.frameWrap - t.startFrame.toNat) ∧
    (t.interval = 0#16 → periodicEligible s t = true) ∧
    (s.cfg.frameWrap ≤ t.interval.toNat → periodicEligible s t = false)

/-! ## Confirm events -/

/-- A spurious confirm (R209): a Packet bound to no live record, an EV_TX_CONFIRM for an IN transaction in
`DATA_WAIT`, or an EV_RX_CONFIRM for anything but an IN transaction in `DATA_WAIT`, sets `DIAG.SPURIOUS_CONFIRM`,
reaps (R161), and changes nothing else. -/
def Obligations.SpuriousConfirmOnlySetsDiag : Prop :=
  ∀ (s : State) (st : BitVec 8) (p : BitVec 16) (n : Word), st.toNat ≤ 8 →
    let t := { reap { s with diag := { s.diag with spuriousConfirm := true } } with lock := .free }
    (s.noTxn p.toNat → exec (.evTxConfirm st p) s = .next t ∧ exec (.evRxConfirm st p n) s = .next t) ∧
    (∀ x d, s.onlyTxn x p.toNat d → (s.txn x).phase = .dataWait → (s.td d).dir = .inn →
      exec (.evTxConfirm st p) s = .next t) ∧
    (∀ x d, s.onlyTxn x p.toNat d → ((s.txn x).phase ≠ .dataWait ∨ (s.td d).dir ≠ .inn) →
      exec (.evRxConfirm st p n) s = .next t)

/-- A good token phase (R210, R211): an IN transaction awaits its data; an OUT or SETUP transaction hands over the
prepared data descriptor and awaits its confirm when the transceiver accepts it; when it is refused the transaction
ends, and the TD, its counters and its toggle as before, is queued again; then the pass reaps (R161). -/
def Obligations.GoodTokenPhaseStartsTheDataPhase : Prop :=
  ∀ (s : State) (p : BitVec 16) (x d : Nat), s.liveTxn x p.toNat d → (s.txn x).phase = .tokenWait →
    ((s.td d).dir = .inn →
      exec (.evTxConfirm 0#8 p) s = .next { reap { s with
        pkts := s.pkts.modify p.toNat (fun k => { k with status := .ok })
        txns := s.txns.modify x (fun t => { t with phase := .dataWait }) } with
        lock := .free }) ∧
    (∀ answers, (s.td d).dir ≠ .inn → s.env.ringAnswers = true :: answers →
      exec (.evTxConfirm 0#8 p) s = .next { reap { s with
        pkts := s.pkts.modify p.toNat (fun k => { k with status := .ok })
        txns := s.txns.modify x (fun t => { t with phase := .dataWait })
        env := { s.env with ringAnswers := answers }
        out := s.out ++ [.ringSubmit (s.txn x).dataDesc true] } with
        lock := .free }) ∧
    (∀ answers, (s.td d).dir ≠ .inn → s.env.ringAnswers = false :: answers →
      exec (.evTxConfirm 0#8 p) s = .next { reap { s.ended x p.toNat d with
        env := { s.env with ringAnswers := answers }
        out := s.out ++ [.ringSubmit (s.txn x).dataDesc false] } with
        lock := .free })

/-- A failed token phase (R118, R210, R221, R225): a NAK (code 1) ends the transaction, counts a NAK and clears the
error count; any other status, by its code, ends the TD at once, its `error_count` neither consulted nor changed, and
halts the ED for a stall, an underrun and a timeout, and for the CRC class when `EXHAUST_HALTS_ED` says so; then the
pass reaps (R161). -/
def Obligations.FailedTokenPhaseFailsTheTd : Prop :=
  ∀ (s : State) (p : BitVec 16) (x d : Nat), s.liveTxn x p.toNat d → (s.txn x).phase = .tokenWait →
    let exhausted := s.cfg.exhaustHaltsEd
    let table : List (BitVec 8 × Ts × Bool) :=
      [(2#8, .stall, true), (3#8, .crc, exhausted), (4#8, .bitstuff, exhausted), (5#8, .overrun, exhausted),
       (6#8, .underrun, true), (7#8, .piderr, exhausted), (8#8, .timeout, true)]
    exec (.evTxConfirm 1#8 p) s = .next { reap { s.ended x p.toNat d with
      tds := (s.ended x p.toNat d).tds.modify d (fun t => { t with
        errorCount := 0#8
        nakCount := if t.nakCount = 65535#16 then 65535#16 else t.nakCount + 1 }) } with
      lock := .free } ∧
    ∀ (code : BitVec 8) (st : Ts) (halt : Bool), (code, st, halt) ∈ table →
      exec (.evTxConfirm code p) s =
        .next { reap (terminate d st halt (s.ended x p.toNat d)) with lock := .free }

/-- A good data phase of an OUT or SETUP transaction (R214, R216, R218, R219): the TD's count grows by the
transaction's length, its toggle flips (not of an isochronous pipe), a zero-length one clears the pending terminator;
with bytes left or a terminator pending the TD is queued again, still the head; else it is terminal with `TS_OK`; then
the pass reaps (R161). -/
def Obligations.GoodTransmissionAdvancesTheTd : Prop :=
  ∀ (s : State) (p : BitVec 16) (x d e : Nat) (b : Bool), s.liveTxn x p.toNat d →
    (s.txn x).phase = .dataWait → (s.td d).dir ≠ .inn → (s.td d).ed = some e → (s.td d).toggle = .val b →
    let len := (s.txn x).len.toNat
    let td' : Td := { s.td d with
      txn := none, place := .queued
      transferred := (s.td d).transferred + BitVec.ofNat 32 len
      toggle := .val (if (s.ed e).mode = .iso then b else !b)
      zlpPending := if len = 0 then false else (s.td d).zlpPending }
    let freed := s.txns.modify x (fun t => { t with phase := .confirmed, alloc := false })
    let after : State := { s.ended x p.toNat d with
      tds := s.tds.modify d (fun _ => td')
      txns := freed }
    ((td'.transferred ≠ td'.length ∨ td'.zlpPending = true) →
      exec (.evTxConfirm 0#8 p) s = .next { reap after with lock := .free }) ∧
    (td'.transferred = td'.length → td'.zlpPending = false →
      exec (.evTxConfirm 0#8 p) s = .next { reap (terminate d .ok false after) with lock := .free })

/-- A good reception (R214, R217, R218, R219): the TD's count grows by the bytes received, its toggle flips (not of an
isochronous pipe); when it has them all, or the packet was short, it is terminal with `TS_OK`; else it is queued
again; then the pass reaps (R161). -/
def Obligations.GoodReceptionAdvancesTheTd : Prop :=
  ∀ (s : State) (p : BitVec 16) (n : Word) (x d e : Nat) (b : Bool), s.liveTxn x p.toNat d →
    (s.txn x).phase = .dataWait → (s.td d).dir = .inn → (s.td d).ed = some e → (s.td d).toggle = .val b →
    n.toNat ≤ (s.txn x).len.toNat →
    let td' : Td := { s.td d with
      txn := none, place := .queued
      transferred := (s.td d).transferred + n
      toggle := .val (if (s.ed e).mode = .iso then b else !b)
      zlpPending := if (s.txn x).len = 0#11 then false else (s.td d).zlpPending }
    let freed := s.txns.modify x (fun t => { t with phase := .confirmed, alloc := false })
    let after : State := { s.ended x p.toNat d with
      tds := s.tds.modify d (fun _ => td')
      txns := freed }
    ((td'.transferred ≠ td'.length ∨ td'.zlpPending = true) → n.toNat = (s.txn x).len.toNat →
      exec (.evRxConfirm 0#8 p n) s = .next { reap after with lock := .free }) ∧
    (((td'.transferred = td'.length ∧ td'.zlpPending = false) ∨ n.toNat < (s.txn x).len.toNat) →
      exec (.evRxConfirm 0#8 p n) s = .next { reap (terminate d .ok false after) with lock := .free })

/-- A reception reported good but longer than was asked for is treated as `TS_OVERRUN` (the code 5) and sets
`DIAG.RX_OVERLEN` (R213). -/
def Obligations.OverlongReceptionIsAnOverrun : Prop :=
  ∀ (s : State) (p : BitVec 16) (n m : Word) (x d : Nat), s.onlyTxn x p.toNat d →
    (s.txn x).phase = .dataWait → (s.td d).dir = .inn → (s.txn x).len.toNat < n.toNat →
    exec (.evRxConfirm 0#8 p n) s =
      exec (.evRxConfirm 5#8 p m) { s with diag := { s.diag with rxOverlen := true } }

/-- A failed data phase (R118, R214, R220, R221, R222, R223, R224, R225), in either direction: the transaction ends
with nothing counted and the toggle as it was; a NAK (code 1) counts as a NAK and clears the error count; an error
(codes 3 to 7) below the retry limit adds one to the error count, and the TD is queued again; the error that reaches
the limit ends the TD, and halts the ED for an underrun, and for the CRC class when `EXHAUST_HALTS_ED` says so; a stall
(code 2) and a timeout (code 8) end the TD at once and halt the ED; then the pass reaps (R161). -/
def Obligations.FailedDataPhaseRetriesOrEnds : Prop :=
  ∀ (s : State) (p : BitVec 16) (n : Word) (x d : Nat),
    s.cfg.valid → s.liveTxn x p.toNat d → (s.txn x).phase = .dataWait →
    let confirm := fun code : BitVec 8 =>
      if (s.td d).dir = .inn then Instr.evRxConfirm code p n else Instr.evTxConfirm code p
    let ended := s.ended x p.toNat d
    let counted : State := { ended with tds := ended.tds.modify d (fun t => { t with errorCount := t.errorCount + 1 }) }
    let exhausted := s.cfg.exhaustHaltsEd
    let errors : List (BitVec 8 × Ts × Bool) :=
      [(3#8, .crc, exhausted), (4#8, .bitstuff, exhausted), (5#8, .overrun, exhausted), (6#8, .underrun, true),
       (7#8, .piderr, exhausted)]
    exec (confirm 1#8) s = .next { reap { ended with
      tds := ended.tds.modify d (fun t => { t with
        errorCount := 0#8
        nakCount := if t.nakCount = 65535#16 then 65535#16 else t.nakCount + 1 }) } with
      lock := .free } ∧
    exec (confirm 2#8) s = .next { reap (terminate d .stall true ended) with lock := .free } ∧
    exec (confirm 8#8) s = .next { reap (terminate d .timeout true ended) with lock := .free } ∧
    ∀ (code : BitVec 8) (st : Ts) (halt : Bool), (code, st, halt) ∈ errors →
      ((s.td d).errorCount.toNat + 1 < s.cfg.retryLimit →
        exec (confirm code) s = .next { reap counted with lock := .free }) ∧
      ((s.td d).errorCount.toNat + 1 = s.cfg.retryLimit →
        exec (confirm code) s = .next { reap (terminate d st halt counted) with lock := .free })

/-- What a TD's becoming terminal does (R226, R227, R228): it leaves the queue and joins the done list with its
status; after a failing status the queued TDs of the same request follow it as cancelled, in queue order; the ED
keeps a resolved toggle (not of an isochronous pipe); it halts if asked to, unless it is dying, and otherwise an
`Operational` ED whose queue ran empty becomes `Skip`; nothing else changes. -/
def Obligations.TerminalTdJoinsTheDoneList : Prop :=
  ∀ (s : State) (d e : Nat) (st : Ts) (halt : Bool),
    (s.td d).ed = some e → e < s.eds.length → d < s.tds.length → (s.ed e).queue.Nodup →
    (∀ i ∈ (s.ed e).queue, i < s.tds.length) →
    let h := (s.td d).request
    let rest := (s.ed e).queue.erase d
    let fails := decide (st ≠ .ok ∧ st ≠ .cancelled)
    let swept := if fails then rest.filter (fun i => decide ((s.td i).request = h)) else []
    let left := if fails then rest.filter (fun i => decide ((s.td i).request ≠ h)) else rest
    let t := terminate d st halt s
    t.done = s.done ++ d :: swept ∧ t.drainp = true ∧
    t.td d = { s.td d with status := st, place := .done } ∧
    (∀ i ∈ swept, t.td i = { s.td i with status := .cancelled, place := .done }) ∧
    (∀ i, i ≠ d → i ∉ swept → t.td i = s.td i) ∧
    (t.ed e).queue = left ∧
    (t.ed e).state = (if halt then (if (s.ed e).state = .pendingDelete then .pendingDelete else .halted)
      else if left = [] ∧ (s.ed e).state = .operational then .skip else (s.ed e).state) ∧
    ((∀ i ∈ swept, (s.td i).toggle = .carry) →
      (t.ed e).toggleCarry = match (s.td d).toggle with
        | .val b => if (s.ed e).mode = .iso then (s.ed e).toggleCarry else b
        | .carry => (s.ed e).toggleCarry) ∧
    t.ed e = { s.ed e with queue := (t.ed e).queue, state := (t.ed e).state, toggleCarry := (t.ed e).toggleCarry } ∧
    (∀ i, i ≠ e → t.ed i = s.ed i) ∧ Framed [.eds, .tds, .done, .drainp] s t

/-! ## DRAIN -/

/-- A DRAIN with work empties the done list, clears `DRAINP` and frees every TD that was on the list, oldest first (R261):
draining `d` and then the rest is draining `d` alone, as DrainRetiresTheRequest says, and then the rest; the freed TDs
are put back in this order (R253); and the callbacks it puts out are one for each request of which it drains the last
TD, in the order in which these last TDs stand on the list (R264, R267(a)). It writes no byte of host memory but the
words at 18H and 1CH of their requests, and no ED, frame, record or Packet (R262). A DRAIN with none outstanding changes
nothing (R260). -/
def Obligations.DrainEmptiesTheDoneList : Prop :=
  ∀ s : State,
    (s.drainp = false → exec .drain s = .next { s with lock := .free }) ∧
    (s.drainp = true →
      (∀ d rest, s.done = d :: rest →
        ∃ t, exec .drain { s with done := [d] } = .next t ∧
          exec .drain s = exec .drain { t with done := rest, drainp := true }) ∧
      ∃ t, exec .drain s = .next t ∧ t.done = [] ∧ t.drainp = false ∧
        (∀ d ∈ s.done, d < s.cfg.maxTds → (t.td d).alloc = false) ∧
        (s.done.Nodup → (∀ d ∈ s.done, d < s.cfg.maxTds ∧ (s.td d).alloc = true) →
          t.tfree = s.done.reverse ++ s.tfree) ∧
        ((∀ d ∈ s.done, d < s.cfg.maxTds) →
          let request := fun j => (s.td (s.done.getD j 0)).request
          let isLast := fun j => decide (∀ i < s.tds.length, (s.td i).alloc = true → (s.td i).request = request j →
            i ∈ s.done.take (j + 1))
          ∃ os, t.out = s.out ++ os ∧
            os.filterMap (fun o => match o with
              | .callback _ h _ => some h
              | .memWrite _ _ => none
              | .response _ => none
              | .ringSubmit _ _ => none) =
            ((List.range s.done.length).filter isLast).map (fun j => BitVec.ofNat 32 (request j))) ∧
        (∀ a, (∀ d ∈ s.done, ∀ j < 8, a ≠ wrapAddr s.cfg ((s.td d).request + 0x18 + j)) →
          t.mem.read a = s.mem.read a) ∧
        Framed [.mem, .out, .kfree, .toks, .tfree, .tds, .done, .drainp, .diag, .lock] s t)

/-- The drain of one TD (R119, R261, R263, R264, R265, R266): its bytes are added to the request's `actual_length` (not
the SETUP TD's), its status is noted, as a completion status, if it is the first failure; if it is the last TD of the
request, a request short of its `length` without a failure becomes `CS_SHORT` and the completion callback follows;
then the TD and its Token are free. -/
def Obligations.DrainRetiresTheRequest : Prop :=
  ∀ (s : State) (d k : Nat),
    s.poolsOk → Memory.wf s.mem → 6 ≤ s.cfg.addrBits → s.drainp = true → s.done = [d] → d < s.cfg.maxTds →
    (s.td d).alloc = true → (s.td d).token = some k → k < s.cfg.maxTokens → (s.tok k).alloc = true →
    let h := (s.td d).request
    let a := if (s.td d).dir = .setup then s.field h 0x18 else s.field h 0x18 + (s.td d).transferred
    let noted : Word := match (s.td d).status with
      | .ok => 0#32
      | .stall => 2#32
      | .crc => 3#32
      | .bitstuff => 3#32
      | .overrun => 3#32
      | .underrun => 3#32
      | .piderr => 3#32
      | .timeout => 4#32
      | .nak => 4#32
      | .cancelled => 5#32
    let st := if s.field h 0x1C = 0#32 ∧ (s.td d).status ≠ .ok then noted else s.field h 0x1C
    let final := if st = 0#32 ∧ a.toNat < (s.field h 0x00).toNat then 1#32 else st
    ∃ t, exec .drain s = .next t ∧ t.done = [] ∧ t.drainp = false ∧
      t.field h 0x18 = a ∧
      (∀ b, (∀ j < 8, b ≠ wrapAddr s.cfg (h + 0x18 + j)) → t.mem.read b = s.mem.read b) ∧
      ((∃ i, i ≠ d ∧ i < s.tds.length ∧ (s.td i).alloc = true ∧ (s.td i).request = h) →
        t.field h 0x1C = st ∧ ∀ w0 w1 w2, Output.callback w0 w1 w2 ∈ t.out → Output.callback w0 w1 w2 ∈ s.out) ∧
      ((∀ i < s.tds.length, i ≠ d → (s.td i).alloc = true → (s.td i).request ≠ h) →
        t.field h 0x1C = final ∧
        t.out.getLast? = some (.callback (0xC00000#24 ++ final.extractLsb' 0 8) (BitVec.ofNat 32 h) a)) ∧
      t.td d = { s.td d with alloc := false, place := .free, token := none } ∧
      t.tok k = { s.tok k with alloc := false } ∧
      t.tfree = d :: s.tfree ∧ t.kfree = k :: s.kfree ∧
      (∀ i, i ≠ d → t.td i = s.td i) ∧ (∀ i, i ≠ k → t.tok i = s.tok i) ∧
      Framed [.mem, .out, .kfree, .toks, .tfree, .tds, .done, .drainp, .lock] s t

/-! ## Token rows -/

/-- A token packet given to the block as a word is no command: its opcode byte is 0, so it is answered `ILLEGAL` and
changes nothing (R125, R127; that the word counts as one on the command port is log entry 6, DEDUCED). -/
def Obligations.TokenRowsAnswerIllegal : Prop :=
  ∀ (s : State) (dev : BitVec 7) (ep : BitVec 4) (crc : BitVec 5),
    exec (.tokenOut dev ep crc) s = .next (s.answered 0x00#8 0xFF#8 0#16) ∧
    exec (.tokenIn dev ep crc) s = .next (s.answered 0x00#8 0xFF#8 0#16) ∧
    exec (.tokenSetup dev ep crc) s = .next (s.answered 0x00#8 0xFF#8 0#16)

/-! ## Pools and memory -/

/-- Acquiring and releasing Packets (R250, R251) with sound pools: the handles in the ring behave as a first in,
first out queue. -/
def Obligations.PacketRingIsFirstInFirstOut : Prop :=
  ∀ s : State, s.poolsOk →
    (∀ p rest, s.ringHandles = p :: rest →
      (pktAcquire s).1 = some p ∧ (pktAcquire s).2.ringHandles = rest ∧ ((pktAcquire s).2.pkt p).out = true) ∧
    (s.ringHandles = [] → pktAcquire s = (none, s)) ∧
    (∀ p, p < s.cfg.pktPoolCap → (s.pkt p).out = true →
      (pktRelease p s).ringHandles = s.ringHandles ++ [p] ∧ (pktRelease p s).pkt p = Pkt.initial)

/-- Releasing twice (R252): the second release of a Packet, ED, TD, Token, record or dummy buffer sets
`DIAG.DOUBLE_RELEASE` and changes nothing else. -/
def Obligations.SecondReleaseChangesNothing : Prop :=
  ∀ (s : State) (i : Nat),
    pktRelease i (pktRelease i s) = (pktRelease i s).flagDoubleRelease ∧
    edFree i (edFree i s) = (edFree i s).flagDoubleRelease ∧
    tdFree i (tdFree i s) = (tdFree i s).flagDoubleRelease ∧
    tokenFree i (tokenFree i s) = (tokenFree i s).flagDoubleRelease ∧
    txnFree i (txnFree i s) = (txnFree i s).flagDoubleRelease ∧
    dummyRelease i (dummyRelease i s) = (dummyRelease i s).flagDoubleRelease

/-- Conservation (R256): in sound pools the free entries and the entries in use add up to the capacity, for the four
free-list pools and for the Packet ring. -/
def Obligations.PoolsConserveTheirEntries : Prop :=
  ∀ s : State, s.poolsOk →
    s.efree.length + ((List.range s.cfg.maxEds).filter (fun i => (s.ed i).alloc)).length = s.cfg.maxEds ∧
    s.tfree.length + ((List.range s.cfg.maxTds).filter (fun i => (s.td i).alloc)).length = s.cfg.maxTds ∧
    s.kfree.length + ((List.range s.cfg.maxTokens).filter (fun i => (s.tok i).alloc)).length = s.cfg.maxTokens ∧
    s.xfree.length + ((List.range s.cfg.maxTxns).filter (fun i => (s.txn i).alloc)).length = s.cfg.maxTxns ∧
    s.ring.cnt + ((List.range s.cfg.pktPoolCap).filter (fun i => (s.pkt i).out)).length = s.cfg.pktPoolCap

/-- Host memory (R72, R74): a word written is read back, least significant byte at the lowest address, addresses
wrapping; every byte outside it is as before; the memory keeps its canonical form. -/
def Obligations.MemoryReadsBackWhatIsWritten : Prop :=
  ∀ (s : State) (a : Addr) (v : Word), Memory.wf s.mem → 2 ≤ s.cfg.addrBits →
    (s.memWrite a v).memRead a = v ∧
    (∀ j < 4, (s.memWrite a v).mem.read (wrapAddr s.cfg (a + j)) = v.extractLsb' (8 * j) 8) ∧
    (∀ b, (∀ j < 4, b ≠ wrapAddr s.cfg (a + j)) → (s.memWrite a v).mem.read b = s.mem.read b) ∧
    Memory.wf (s.memWrite a v).mem

/-! ## Rules of the whole machine -/

/-- Every operation completes, in every state, and changes only the fields listed for it: in particular only the bus
events write `BUSSTS`, only EV_FRAME_START writes `FRNUM`, only SUBMIT, EP_TEARDOWN and DRAIN write host memory, and
nothing writes the configuration (R10, R55, R56, R70, R285, R300). -/
def Obligations.EveryOperationCompletesInItsFrame : Prop :=
  ∀ (i : Instr) (s : State), ∃ t, exec i s = .next t ∧ t.lock = .free ∧ Framed (mayChange i) s t

/-- The `DIAG` flags are sticky (R59): no operation clears one. -/
def Obligations.DiagFlagsAreSticky : Prop :=
  ∀ (i : Instr) (s t : State), exec i s = .next t →
    (s.diag.doubleRelease = true → t.diag.doubleRelease = true) ∧
    (s.diag.spuriousConfirm = true → t.diag.spuriousConfirm = true) ∧
    (s.diag.illegalEvent = true → t.diag.illegalEvent = true) ∧
    (s.diag.rxOverlen = true → t.diag.rxOverlen = true)

/-- A host command ends with exactly one response word, its last output; with any code other than `OK` it has changed
no state of the block and made no write to host memory; events and DRAIN have no response (R285). -/
def Obligations.CommandsAnswerExactlyOnce : Prop :=
  ∀ (i : Instr) (s t : State), exec i s = .next t →
    (isCommand i = true → ∃ (os : List Output) (w : Word), t.out = s.out ++ os ++ [.response w] ∧
      (∀ o ∈ os, o.isResponse = false) ∧ w.extractLsb' 24 8 = opcodeOf ((encode i).headD 0#32) ∧
      (w.extractLsb' 16 8 ≠ 0#8 → t = { s with lock := .free, out := s.out ++ [.response w] })) ∧
    (isCommand i = false → opcodeOf ((encode i).headD 0#32) ≠ 0#8 →
      ∃ os : List Output, t.out = s.out ++ os ∧ ∀ o ∈ os, o.isResponse = false)

/-- Every step keeps the bounds: a frame never exceeds its byte budget (R52, R154), the frame counter stays below
`FRAME_WRAP` (R55), the exclusion region is free between passes (R58), host memory keeps its canonical form, and a
drain is outstanding whenever the done list is not empty (R57). -/
def Obligations.StepKeepsTheBounds : Prop :=
  ∀ s t : State, s.boundsOk → step s = .next t → t.boundsOk

/-- Every step keeps the pools sound (R43, R44, R46, R48, R256): the free-lists and the Packet ring hold exactly the
free entries, once each. -/
def Obligations.StepKeepsThePoolsSound : Prop :=
  ∀ s t : State, s.poolsOk → step s = .next t → t.poolsOk

/-- Every step keeps the class lists (R50): every allocated ED is on the list of its mode, once, and nothing else
is. -/
def Obligations.StepKeepsTheClassLists : Prop :=
  ∀ s t : State, s.poolsOk → s.classesOk → step s = .next t → t.classesOk

/-- Every step keeps the correspondence of TDs, active list, Transaction records, Packets, dummy buffers and Tokens: a
TD is in the one container its `place` names (R29, R52, R53); the TDs mid-transaction are those on the frame's active
list, each the head of its ED's queue (R45), and each has a live record of its own, in `TOKEN_WAIT` or `DATA_WAIT`
(R39, R40), bound to a Packet of its own (R44) and, in a zero-length one, to a dummy buffer of its own (R46); no other
Packet is out and no other buffer in use; each allocated TD has a Token of its own, and no other Token is in use
(R35); and nothing is released twice (R65, R341). -/
def Obligations.StepKeepsTheTransactionsPaired : Prop :=
  ∀ s t : State, s.poolsOk → s.Paired → step s = .next t → t.Paired

/-- Reset (R43, R46, R48, R50, R321), for any valid parameters: the value that R321 lists for every element, the fields
of every ED, TD, Token, Transaction record and Packet among them, and the four invariants. -/
def Obligations.ResetIsSound : Prop :=
  ∀ c : Config, c.valid →
    let s := State.resetOf c
    s.poolsOk ∧ s.boundsOk ∧ s.classesOk ∧ s.Paired ∧
    s.frnum = 0#16 ∧ s.bussts.bits = 0#2 ∧ s.drainp = false ∧ s.lock = .free ∧ s.diag.bits = 0#8 ∧ s.done = [] ∧
    s.frame = { bytes := 0, status := .prepared, active := [], number := 0, timeUs := 0 } ∧
    s.cls = { iso := [], intr := [], ctrl := [], bulk := [] } ∧
    s.eds = List.replicate c.maxEds
      { alloc := false, state := .operational, devAddr := 0, epNum := 0, dirIn := false, mode := .iso, speed := .full,
        maxPacket := 0, toggleCarry := false, queue := [] } ∧
    s.tds = List.replicate c.maxTds
      { alloc := false, place := .free, request := 0, ed := none, dir := .out, data := 0, length := 0, transferred := 0,
        toggle := .val false, errorCount := 0, nakCount := 0, startFrame := 0, interval := 0, status := .ok, ioc := false,
        zlpPending := false, token := none, txn := none } ∧
    s.toks = List.replicate c.maxTokens { alloc := false, bytes := 0, td := none } ∧
    s.txns = List.replicate c.maxTxns
      { alloc := false, phase := .idle, td := none, pkt := none, token := none, len := 0, dummy := none,
        dataDesc := { w0 := 0, w1 := 0, w2 := 0, w3 := 0 } } ∧
    s.pkts = List.replicate (c.txRingLen + 3) { pointer := 0, length := 0, status := .ok, info := 0, out := false } ∧
    s.ring = { slots := List.range (c.txRingLen + 3), rd := 0, cnt := c.txRingLen + 3 } ∧
    s.ringHandles = List.range (c.txRingLen + 3) ∧ s.dfree = List.range c.nDummy ∧ s.efree = List.range c.maxEds ∧
    s.tfree = List.range c.maxTds ∧ s.kfree = List.range c.maxTokens ∧ s.xfree = List.range c.maxTxns ∧
    s.cmdPort = [] ∧ s.evtPort = []
end

