-- ==== Sys2Proof/Laws/State.lean ====
section
/-! SUPPORT. Laws/State.lean: what each field is after each update of Machine/Ops.lean, one lemma per field
per update, true by `rfl`; and the pool entries and class lists after an update. -/

namespace Sys2Proof.Machine.State

@[simp] theorem setAttached_cfg (v : Bool) (s : State) : (s.setAttached v).cfg = s.cfg := rfl
@[simp] theorem setAttached_attached (v : Bool) (s : State) : (s.setAttached v).attached = v := rfl
@[simp] theorem setAttached_eds (v : Bool) (s : State) : (s.setAttached v).eds = s.eds := rfl
@[simp] theorem setAttached_tds (v : Bool) (s : State) : (s.setAttached v).tds = s.tds := rfl
@[simp] theorem setAttached_toks (v : Bool) (s : State) : (s.setAttached v).toks = s.toks := rfl
@[simp] theorem setAttached_txns (v : Bool) (s : State) : (s.setAttached v).txns = s.txns := rfl
@[simp] theorem setAttached_pkts (v : Bool) (s : State) : (s.setAttached v).pkts = s.pkts := rfl
@[simp] theorem setAttached_ring (v : Bool) (s : State) : (s.setAttached v).ring = s.ring := rfl
@[simp] theorem setAttached_dfree (v : Bool) (s : State) : (s.setAttached v).dfree = s.dfree := rfl
@[simp] theorem setAttached_efree (v : Bool) (s : State) : (s.setAttached v).efree = s.efree := rfl
@[simp] theorem setAttached_tfree (v : Bool) (s : State) : (s.setAttached v).tfree = s.tfree := rfl
@[simp] theorem setAttached_kfree (v : Bool) (s : State) : (s.setAttached v).kfree = s.kfree := rfl
@[simp] theorem setAttached_xfree (v : Bool) (s : State) : (s.setAttached v).xfree = s.xfree := rfl
@[simp] theorem setAttached_cls (v : Bool) (s : State) : (s.setAttached v).cls = s.cls := rfl
@[simp] theorem setAttached_frame (v : Bool) (s : State) : (s.setAttached v).frame = s.frame := rfl
@[simp] theorem setAttached_done (v : Bool) (s : State) : (s.setAttached v).done = s.done := rfl
@[simp] theorem setAttached_frnum (v : Bool) (s : State) : (s.setAttached v).frnum = s.frnum := rfl
@[simp] theorem setAttached_bussts (v : Bool) (s : State) : (s.setAttached v).bussts = s.bussts := rfl
@[simp] theorem setAttached_drainp (v : Bool) (s : State) : (s.setAttached v).drainp = s.drainp := rfl
@[simp] theorem setAttached_lock (v : Bool) (s : State) : (s.setAttached v).lock = s.lock := rfl
@[simp] theorem setAttached_diag (v : Bool) (s : State) : (s.setAttached v).diag = s.diag := rfl
@[simp] theorem setAttached_mem (v : Bool) (s : State) : (s.setAttached v).mem = s.mem := rfl
@[simp] theorem setAttached_cmdPort (v : Bool) (s : State) : (s.setAttached v).cmdPort = s.cmdPort := rfl
@[simp] theorem setAttached_evtPort (v : Bool) (s : State) : (s.setAttached v).evtPort = s.evtPort := rfl
@[simp] theorem setAttached_env (v : Bool) (s : State) : (s.setAttached v).env = s.env := rfl
@[simp] theorem setAttached_out (v : Bool) (s : State) : (s.setAttached v).out = s.out := rfl

@[simp] theorem setEds_cfg (v : List Ed) (s : State) : (s.setEds v).cfg = s.cfg := rfl
@[simp] theorem setEds_attached (v : List Ed) (s : State) : (s.setEds v).attached = s.attached := rfl
@[simp] theorem setEds_eds (v : List Ed) (s : State) : (s.setEds v).eds = v := rfl
@[simp] theorem setEds_tds (v : List Ed) (s : State) : (s.setEds v).tds = s.tds := rfl
@[simp] theorem setEds_toks (v : List Ed) (s : State) : (s.setEds v).toks = s.toks := rfl
@[simp] theorem setEds_txns (v : List Ed) (s : State) : (s.setEds v).txns = s.txns := rfl
@[simp] theorem setEds_pkts (v : List Ed) (s : State) : (s.setEds v).pkts = s.pkts := rfl
@[simp] theorem setEds_ring (v : List Ed) (s : State) : (s.setEds v).ring = s.ring := rfl
@[simp] theorem setEds_dfree (v : List Ed) (s : State) : (s.setEds v).dfree = s.dfree := rfl
@[simp] theorem setEds_efree (v : List Ed) (s : State) : (s.setEds v).efree = s.efree := rfl
@[simp] theorem setEds_tfree (v : List Ed) (s : State) : (s.setEds v).tfree = s.tfree := rfl
@[simp] theorem setEds_kfree (v : List Ed) (s : State) : (s.setEds v).kfree = s.kfree := rfl
@[simp] theorem setEds_xfree (v : List Ed) (s : State) : (s.setEds v).xfree = s.xfree := rfl
@[simp] theorem setEds_cls (v : List Ed) (s : State) : (s.setEds v).cls = s.cls := rfl
@[simp] theorem setEds_frame (v : List Ed) (s : State) : (s.setEds v).frame = s.frame := rfl
@[simp] theorem setEds_done (v : List Ed) (s : State) : (s.setEds v).done = s.done := rfl
@[simp] theorem setEds_frnum (v : List Ed) (s : State) : (s.setEds v).frnum = s.frnum := rfl
@[simp] theorem setEds_bussts (v : List Ed) (s : State) : (s.setEds v).bussts = s.bussts := rfl
@[simp] theorem setEds_drainp (v : List Ed) (s : State) : (s.setEds v).drainp = s.drainp := rfl
@[simp] theorem setEds_lock (v : List Ed) (s : State) : (s.setEds v).lock = s.lock := rfl
@[simp] theorem setEds_diag (v : List Ed) (s : State) : (s.setEds v).diag = s.diag := rfl
@[simp] theorem setEds_mem (v : List Ed) (s : State) : (s.setEds v).mem = s.mem := rfl
@[simp] theorem setEds_cmdPort (v : List Ed) (s : State) : (s.setEds v).cmdPort = s.cmdPort := rfl
@[simp] theorem setEds_evtPort (v : List Ed) (s : State) : (s.setEds v).evtPort = s.evtPort := rfl
@[simp] theorem setEds_env (v : List Ed) (s : State) : (s.setEds v).env = s.env := rfl
@[simp] theorem setEds_out (v : List Ed) (s : State) : (s.setEds v).out = s.out := rfl

@[simp] theorem setTds_cfg (v : List Td) (s : State) : (s.setTds v).cfg = s.cfg := rfl
@[simp] theorem setTds_attached (v : List Td) (s : State) : (s.setTds v).attached = s.attached := rfl
@[simp] theorem setTds_eds (v : List Td) (s : State) : (s.setTds v).eds = s.eds := rfl
@[simp] theorem setTds_tds (v : List Td) (s : State) : (s.setTds v).tds = v := rfl
@[simp] theorem setTds_toks (v : List Td) (s : State) : (s.setTds v).toks = s.toks := rfl
@[simp] theorem setTds_txns (v : List Td) (s : State) : (s.setTds v).txns = s.txns := rfl
@[simp] theorem setTds_pkts (v : List Td) (s : State) : (s.setTds v).pkts = s.pkts := rfl
@[simp] theorem setTds_ring (v : List Td) (s : State) : (s.setTds v).ring = s.ring := rfl
@[simp] theorem setTds_dfree (v : List Td) (s : State) : (s.setTds v).dfree = s.dfree := rfl
@[simp] theorem setTds_efree (v : List Td) (s : State) : (s.setTds v).efree = s.efree := rfl
@[simp] theorem setTds_tfree (v : List Td) (s : State) : (s.setTds v).tfree = s.tfree := rfl
@[simp] theorem setTds_kfree (v : List Td) (s : State) : (s.setTds v).kfree = s.kfree := rfl
@[simp] theorem setTds_xfree (v : List Td) (s : State) : (s.setTds v).xfree = s.xfree := rfl
@[simp] theorem setTds_cls (v : List Td) (s : State) : (s.setTds v).cls = s.cls := rfl
@[simp] theorem setTds_frame (v : List Td) (s : State) : (s.setTds v).frame = s.frame := rfl
@[simp] theorem setTds_done (v : List Td) (s : State) : (s.setTds v).done = s.done := rfl
@[simp] theorem setTds_frnum (v : List Td) (s : State) : (s.setTds v).frnum = s.frnum := rfl
@[simp] theorem setTds_bussts (v : List Td) (s : State) : (s.setTds v).bussts = s.bussts := rfl
@[simp] theorem setTds_drainp (v : List Td) (s : State) : (s.setTds v).drainp = s.drainp := rfl
@[simp] theorem setTds_lock (v : List Td) (s : State) : (s.setTds v).lock = s.lock := rfl
@[simp] theorem setTds_diag (v : List Td) (s : State) : (s.setTds v).diag = s.diag := rfl
@[simp] theorem setTds_mem (v : List Td) (s : State) : (s.setTds v).mem = s.mem := rfl
@[simp] theorem setTds_cmdPort (v : List Td) (s : State) : (s.setTds v).cmdPort = s.cmdPort := rfl
@[simp] theorem setTds_evtPort (v : List Td) (s : State) : (s.setTds v).evtPort = s.evtPort := rfl
@[simp] theorem setTds_env (v : List Td) (s : State) : (s.setTds v).env = s.env := rfl
@[simp] theorem setTds_out (v : List Td) (s : State) : (s.setTds v).out = s.out := rfl

@[simp] theorem setToks_cfg (v : List Tok) (s : State) : (s.setToks v).cfg = s.cfg := rfl
@[simp] theorem setToks_attached (v : List Tok) (s : State) : (s.setToks v).attached = s.attached := rfl
@[simp] theorem setToks_eds (v : List Tok) (s : State) : (s.setToks v).eds = s.eds := rfl
@[simp] theorem setToks_tds (v : List Tok) (s : State) : (s.setToks v).tds = s.tds := rfl
@[simp] theorem setToks_toks (v : List Tok) (s : State) : (s.setToks v).toks = v := rfl
@[simp] theorem setToks_txns (v : List Tok) (s : State) : (s.setToks v).txns = s.txns := rfl
@[simp] theorem setToks_pkts (v : List Tok) (s : State) : (s.setToks v).pkts = s.pkts := rfl
@[simp] theorem setToks_ring (v : List Tok) (s : State) : (s.setToks v).ring = s.ring := rfl
@[simp] theorem setToks_dfree (v : List Tok) (s : State) : (s.setToks v).dfree = s.dfree := rfl
@[simp] theorem setToks_efree (v : List Tok) (s : State) : (s.setToks v).efree = s.efree := rfl
@[simp] theorem setToks_tfree (v : List Tok) (s : State) : (s.setToks v).tfree = s.tfree := rfl
@[simp] theorem setToks_kfree (v : List Tok) (s : State) : (s.setToks v).kfree = s.kfree := rfl
@[simp] theorem setToks_xfree (v : List Tok) (s : State) : (s.setToks v).xfree = s.xfree := rfl
@[simp] theorem setToks_cls (v : List Tok) (s : State) : (s.setToks v).cls = s.cls := rfl
@[simp] theorem setToks_frame (v : List Tok) (s : State) : (s.setToks v).frame = s.frame := rfl
@[simp] theorem setToks_done (v : List Tok) (s : State) : (s.setToks v).done = s.done := rfl
@[simp] theorem setToks_frnum (v : List Tok) (s : State) : (s.setToks v).frnum = s.frnum := rfl
@[simp] theorem setToks_bussts (v : List Tok) (s : State) : (s.setToks v).bussts = s.bussts := rfl
@[simp] theorem setToks_drainp (v : List Tok) (s : State) : (s.setToks v).drainp = s.drainp := rfl
@[simp] theorem setToks_lock (v : List Tok) (s : State) : (s.setToks v).lock = s.lock := rfl
@[simp] theorem setToks_diag (v : List Tok) (s : State) : (s.setToks v).diag = s.diag := rfl
@[simp] theorem setToks_mem (v : List Tok) (s : State) : (s.setToks v).mem = s.mem := rfl
@[simp] theorem setToks_cmdPort (v : List Tok) (s : State) : (s.setToks v).cmdPort = s.cmdPort := rfl
@[simp] theorem setToks_evtPort (v : List Tok) (s : State) : (s.setToks v).evtPort = s.evtPort := rfl
@[simp] theorem setToks_env (v : List Tok) (s : State) : (s.setToks v).env = s.env := rfl
@[simp] theorem setToks_out (v : List Tok) (s : State) : (s.setToks v).out = s.out := rfl

@[simp] theorem setTxns_cfg (v : List Txn) (s : State) : (s.setTxns v).cfg = s.cfg := rfl
@[simp] theorem setTxns_attached (v : List Txn) (s : State) : (s.setTxns v).attached = s.attached := rfl
@[simp] theorem setTxns_eds (v : List Txn) (s : State) : (s.setTxns v).eds = s.eds := rfl
@[simp] theorem setTxns_tds (v : List Txn) (s : State) : (s.setTxns v).tds = s.tds := rfl
@[simp] theorem setTxns_toks (v : List Txn) (s : State) : (s.setTxns v).toks = s.toks := rfl
@[simp] theorem setTxns_txns (v : List Txn) (s : State) : (s.setTxns v).txns = v := rfl
@[simp] theorem setTxns_pkts (v : List Txn) (s : State) : (s.setTxns v).pkts = s.pkts := rfl
@[simp] theorem setTxns_ring (v : List Txn) (s : State) : (s.setTxns v).ring = s.ring := rfl
@[simp] theorem setTxns_dfree (v : List Txn) (s : State) : (s.setTxns v).dfree = s.dfree := rfl
@[simp] theorem setTxns_efree (v : List Txn) (s : State) : (s.setTxns v).efree = s.efree := rfl
@[simp] theorem setTxns_tfree (v : List Txn) (s : State) : (s.setTxns v).tfree = s.tfree := rfl
@[simp] theorem setTxns_kfree (v : List Txn) (s : State) : (s.setTxns v).kfree = s.kfree := rfl
@[simp] theorem setTxns_xfree (v : List Txn) (s : State) : (s.setTxns v).xfree = s.xfree := rfl
@[simp] theorem setTxns_cls (v : List Txn) (s : State) : (s.setTxns v).cls = s.cls := rfl
@[simp] theorem setTxns_frame (v : List Txn) (s : State) : (s.setTxns v).frame = s.frame := rfl
@[simp] theorem setTxns_done (v : List Txn) (s : State) : (s.setTxns v).done = s.done := rfl
@[simp] theorem setTxns_frnum (v : List Txn) (s : State) : (s.setTxns v).frnum = s.frnum := rfl
@[simp] theorem setTxns_bussts (v : List Txn) (s : State) : (s.setTxns v).bussts = s.bussts := rfl
@[simp] theorem setTxns_drainp (v : List Txn) (s : State) : (s.setTxns v).drainp = s.drainp := rfl
@[simp] theorem setTxns_lock (v : List Txn) (s : State) : (s.setTxns v).lock = s.lock := rfl
@[simp] theorem setTxns_diag (v : List Txn) (s : State) : (s.setTxns v).diag = s.diag := rfl
@[simp] theorem setTxns_mem (v : List Txn) (s : State) : (s.setTxns v).mem = s.mem := rfl
@[simp] theorem setTxns_cmdPort (v : List Txn) (s : State) : (s.setTxns v).cmdPort = s.cmdPort := rfl
@[simp] theorem setTxns_evtPort (v : List Txn) (s : State) : (s.setTxns v).evtPort = s.evtPort := rfl
@[simp] theorem setTxns_env (v : List Txn) (s : State) : (s.setTxns v).env = s.env := rfl
@[simp] theorem setTxns_out (v : List Txn) (s : State) : (s.setTxns v).out = s.out := rfl

@[simp] theorem setPkts_cfg (v : List Pkt) (s : State) : (s.setPkts v).cfg = s.cfg := rfl
@[simp] theorem setPkts_attached (v : List Pkt) (s : State) : (s.setPkts v).attached = s.attached := rfl
@[simp] theorem setPkts_eds (v : List Pkt) (s : State) : (s.setPkts v).eds = s.eds := rfl
@[simp] theorem setPkts_tds (v : List Pkt) (s : State) : (s.setPkts v).tds = s.tds := rfl
@[simp] theorem setPkts_toks (v : List Pkt) (s : State) : (s.setPkts v).toks = s.toks := rfl
@[simp] theorem setPkts_txns (v : List Pkt) (s : State) : (s.setPkts v).txns = s.txns := rfl
@[simp] theorem setPkts_pkts (v : List Pkt) (s : State) : (s.setPkts v).pkts = v := rfl
@[simp] theorem setPkts_ring (v : List Pkt) (s : State) : (s.setPkts v).ring = s.ring := rfl
@[simp] theorem setPkts_dfree (v : List Pkt) (s : State) : (s.setPkts v).dfree = s.dfree := rfl
@[simp] theorem setPkts_efree (v : List Pkt) (s : State) : (s.setPkts v).efree = s.efree := rfl
@[simp] theorem setPkts_tfree (v : List Pkt) (s : State) : (s.setPkts v).tfree = s.tfree := rfl
@[simp] theorem setPkts_kfree (v : List Pkt) (s : State) : (s.setPkts v).kfree = s.kfree := rfl
@[simp] theorem setPkts_xfree (v : List Pkt) (s : State) : (s.setPkts v).xfree = s.xfree := rfl
@[simp] theorem setPkts_cls (v : List Pkt) (s : State) : (s.setPkts v).cls = s.cls := rfl
@[simp] theorem setPkts_frame (v : List Pkt) (s : State) : (s.setPkts v).frame = s.frame := rfl
@[simp] theorem setPkts_done (v : List Pkt) (s : State) : (s.setPkts v).done = s.done := rfl
@[simp] theorem setPkts_frnum (v : List Pkt) (s : State) : (s.setPkts v).frnum = s.frnum := rfl
@[simp] theorem setPkts_bussts (v : List Pkt) (s : State) : (s.setPkts v).bussts = s.bussts := rfl
@[simp] theorem setPkts_drainp (v : List Pkt) (s : State) : (s.setPkts v).drainp = s.drainp := rfl
@[simp] theorem setPkts_lock (v : List Pkt) (s : State) : (s.setPkts v).lock = s.lock := rfl
@[simp] theorem setPkts_diag (v : List Pkt) (s : State) : (s.setPkts v).diag = s.diag := rfl
@[simp] theorem setPkts_mem (v : List Pkt) (s : State) : (s.setPkts v).mem = s.mem := rfl
@[simp] theorem setPkts_cmdPort (v : List Pkt) (s : State) : (s.setPkts v).cmdPort = s.cmdPort := rfl
@[simp] theorem setPkts_evtPort (v : List Pkt) (s : State) : (s.setPkts v).evtPort = s.evtPort := rfl
@[simp] theorem setPkts_env (v : List Pkt) (s : State) : (s.setPkts v).env = s.env := rfl
@[simp] theorem setPkts_out (v : List Pkt) (s : State) : (s.setPkts v).out = s.out := rfl

@[simp] theorem setRing_cfg (v : PktRing) (s : State) : (s.setRing v).cfg = s.cfg := rfl
@[simp] theorem setRing_attached (v : PktRing) (s : State) : (s.setRing v).attached = s.attached := rfl
@[simp] theorem setRing_eds (v : PktRing) (s : State) : (s.setRing v).eds = s.eds := rfl
@[simp] theorem setRing_tds (v : PktRing) (s : State) : (s.setRing v).tds = s.tds := rfl
@[simp] theorem setRing_toks (v : PktRing) (s : State) : (s.setRing v).toks = s.toks := rfl
@[simp] theorem setRing_txns (v : PktRing) (s : State) : (s.setRing v).txns = s.txns := rfl
@[simp] theorem setRing_pkts (v : PktRing) (s : State) : (s.setRing v).pkts = s.pkts := rfl
@[simp] theorem setRing_ring (v : PktRing) (s : State) : (s.setRing v).ring = v := rfl
@[simp] theorem setRing_dfree (v : PktRing) (s : State) : (s.setRing v).dfree = s.dfree := rfl
@[simp] theorem setRing_efree (v : PktRing) (s : State) : (s.setRing v).efree = s.efree := rfl
@[simp] theorem setRing_tfree (v : PktRing) (s : State) : (s.setRing v).tfree = s.tfree := rfl
@[simp] theorem setRing_kfree (v : PktRing) (s : State) : (s.setRing v).kfree = s.kfree := rfl
@[simp] theorem setRing_xfree (v : PktRing) (s : State) : (s.setRing v).xfree = s.xfree := rfl
@[simp] theorem setRing_cls (v : PktRing) (s : State) : (s.setRing v).cls = s.cls := rfl
@[simp] theorem setRing_frame (v : PktRing) (s : State) : (s.setRing v).frame = s.frame := rfl
@[simp] theorem setRing_done (v : PktRing) (s : State) : (s.setRing v).done = s.done := rfl
@[simp] theorem setRing_frnum (v : PktRing) (s : State) : (s.setRing v).frnum = s.frnum := rfl
@[simp] theorem setRing_bussts (v : PktRing) (s : State) : (s.setRing v).bussts = s.bussts := rfl
@[simp] theorem setRing_drainp (v : PktRing) (s : State) : (s.setRing v).drainp = s.drainp := rfl
@[simp] theorem setRing_lock (v : PktRing) (s : State) : (s.setRing v).lock = s.lock := rfl
@[simp] theorem setRing_diag (v : PktRing) (s : State) : (s.setRing v).diag = s.diag := rfl
@[simp] theorem setRing_mem (v : PktRing) (s : State) : (s.setRing v).mem = s.mem := rfl
@[simp] theorem setRing_cmdPort (v : PktRing) (s : State) : (s.setRing v).cmdPort = s.cmdPort := rfl
@[simp] theorem setRing_evtPort (v : PktRing) (s : State) : (s.setRing v).evtPort = s.evtPort := rfl
@[simp] theorem setRing_env (v : PktRing) (s : State) : (s.setRing v).env = s.env := rfl
@[simp] theorem setRing_out (v : PktRing) (s : State) : (s.setRing v).out = s.out := rfl

@[simp] theorem setDfree_cfg (v : List Nat) (s : State) : (s.setDfree v).cfg = s.cfg := rfl
@[simp] theorem setDfree_attached (v : List Nat) (s : State) : (s.setDfree v).attached = s.attached := rfl
@[simp] theorem setDfree_eds (v : List Nat) (s : State) : (s.setDfree v).eds = s.eds := rfl
@[simp] theorem setDfree_tds (v : List Nat) (s : State) : (s.setDfree v).tds = s.tds := rfl
@[simp] theorem setDfree_toks (v : List Nat) (s : State) : (s.setDfree v).toks = s.toks := rfl
@[simp] theorem setDfree_txns (v : List Nat) (s : State) : (s.setDfree v).txns = s.txns := rfl
@[simp] theorem setDfree_pkts (v : List Nat) (s : State) : (s.setDfree v).pkts = s.pkts := rfl
@[simp] theorem setDfree_ring (v : List Nat) (s : State) : (s.setDfree v).ring = s.ring := rfl
@[simp] theorem setDfree_dfree (v : List Nat) (s : State) : (s.setDfree v).dfree = v := rfl
@[simp] theorem setDfree_efree (v : List Nat) (s : State) : (s.setDfree v).efree = s.efree := rfl
@[simp] theorem setDfree_tfree (v : List Nat) (s : State) : (s.setDfree v).tfree = s.tfree := rfl
@[simp] theorem setDfree_kfree (v : List Nat) (s : State) : (s.setDfree v).kfree = s.kfree := rfl
@[simp] theorem setDfree_xfree (v : List Nat) (s : State) : (s.setDfree v).xfree = s.xfree := rfl
@[simp] theorem setDfree_cls (v : List Nat) (s : State) : (s.setDfree v).cls = s.cls := rfl
@[simp] theorem setDfree_frame (v : List Nat) (s : State) : (s.setDfree v).frame = s.frame := rfl
@[simp] theorem setDfree_done (v : List Nat) (s : State) : (s.setDfree v).done = s.done := rfl
@[simp] theorem setDfree_frnum (v : List Nat) (s : State) : (s.setDfree v).frnum = s.frnum := rfl
@[simp] theorem setDfree_bussts (v : List Nat) (s : State) : (s.setDfree v).bussts = s.bussts := rfl
@[simp] theorem setDfree_drainp (v : List Nat) (s : State) : (s.setDfree v).drainp = s.drainp := rfl
@[simp] theorem setDfree_lock (v : List Nat) (s : State) : (s.setDfree v).lock = s.lock := rfl
@[simp] theorem setDfree_diag (v : List Nat) (s : State) : (s.setDfree v).diag = s.diag := rfl
@[simp] theorem setDfree_mem (v : List Nat) (s : State) : (s.setDfree v).mem = s.mem := rfl
@[simp] theorem setDfree_cmdPort (v : List Nat) (s : State) : (s.setDfree v).cmdPort = s.cmdPort := rfl
@[simp] theorem setDfree_evtPort (v : List Nat) (s : State) : (s.setDfree v).evtPort = s.evtPort := rfl
@[simp] theorem setDfree_env (v : List Nat) (s : State) : (s.setDfree v).env = s.env := rfl
@[simp] theorem setDfree_out (v : List Nat) (s : State) : (s.setDfree v).out = s.out := rfl

@[simp] theorem setEfree_cfg (v : List Nat) (s : State) : (s.setEfree v).cfg = s.cfg := rfl
@[simp] theorem setEfree_attached (v : List Nat) (s : State) : (s.setEfree v).attached = s.attached := rfl
@[simp] theorem setEfree_eds (v : List Nat) (s : State) : (s.setEfree v).eds = s.eds := rfl
@[simp] theorem setEfree_tds (v : List Nat) (s : State) : (s.setEfree v).tds = s.tds := rfl
@[simp] theorem setEfree_toks (v : List Nat) (s : State) : (s.setEfree v).toks = s.toks := rfl
@[simp] theorem setEfree_txns (v : List Nat) (s : State) : (s.setEfree v).txns = s.txns := rfl
@[simp] theorem setEfree_pkts (v : List Nat) (s : State) : (s.setEfree v).pkts = s.pkts := rfl
@[simp] theorem setEfree_ring (v : List Nat) (s : State) : (s.setEfree v).ring = s.ring := rfl
@[simp] theorem setEfree_dfree (v : List Nat) (s : State) : (s.setEfree v).dfree = s.dfree := rfl
@[simp] theorem setEfree_efree (v : List Nat) (s : State) : (s.setEfree v).efree = v := rfl
@[simp] theorem setEfree_tfree (v : List Nat) (s : State) : (s.setEfree v).tfree = s.tfree := rfl
@[simp] theorem setEfree_kfree (v : List Nat) (s : State) : (s.setEfree v).kfree = s.kfree := rfl
@[simp] theorem setEfree_xfree (v : List Nat) (s : State) : (s.setEfree v).xfree = s.xfree := rfl
@[simp] theorem setEfree_cls (v : List Nat) (s : State) : (s.setEfree v).cls = s.cls := rfl
@[simp] theorem setEfree_frame (v : List Nat) (s : State) : (s.setEfree v).frame = s.frame := rfl
@[simp] theorem setEfree_done (v : List Nat) (s : State) : (s.setEfree v).done = s.done := rfl
@[simp] theorem setEfree_frnum (v : List Nat) (s : State) : (s.setEfree v).frnum = s.frnum := rfl
@[simp] theorem setEfree_bussts (v : List Nat) (s : State) : (s.setEfree v).bussts = s.bussts := rfl
@[simp] theorem setEfree_drainp (v : List Nat) (s : State) : (s.setEfree v).drainp = s.drainp := rfl
@[simp] theorem setEfree_lock (v : List Nat) (s : State) : (s.setEfree v).lock = s.lock := rfl
@[simp] theorem setEfree_diag (v : List Nat) (s : State) : (s.setEfree v).diag = s.diag := rfl
@[simp] theorem setEfree_mem (v : List Nat) (s : State) : (s.setEfree v).mem = s.mem := rfl
@[simp] theorem setEfree_cmdPort (v : List Nat) (s : State) : (s.setEfree v).cmdPort = s.cmdPort := rfl
@[simp] theorem setEfree_evtPort (v : List Nat) (s : State) : (s.setEfree v).evtPort = s.evtPort := rfl
@[simp] theorem setEfree_env (v : List Nat) (s : State) : (s.setEfree v).env = s.env := rfl
@[simp] theorem setEfree_out (v : List Nat) (s : State) : (s.setEfree v).out = s.out := rfl

@[simp] theorem setTfree_cfg (v : List Nat) (s : State) : (s.setTfree v).cfg = s.cfg := rfl
@[simp] theorem setTfree_attached (v : List Nat) (s : State) : (s.setTfree v).attached = s.attached := rfl
@[simp] theorem setTfree_eds (v : List Nat) (s : State) : (s.setTfree v).eds = s.eds := rfl
@[simp] theorem setTfree_tds (v : List Nat) (s : State) : (s.setTfree v).tds = s.tds := rfl
@[simp] theorem setTfree_toks (v : List Nat) (s : State) : (s.setTfree v).toks = s.toks := rfl
@[simp] theorem setTfree_txns (v : List Nat) (s : State) : (s.setTfree v).txns = s.txns := rfl
@[simp] theorem setTfree_pkts (v : List Nat) (s : State) : (s.setTfree v).pkts = s.pkts := rfl
@[simp] theorem setTfree_ring (v : List Nat) (s : State) : (s.setTfree v).ring = s.ring := rfl
@[simp] theorem setTfree_dfree (v : List Nat) (s : State) : (s.setTfree v).dfree = s.dfree := rfl
@[simp] theorem setTfree_efree (v : List Nat) (s : State) : (s.setTfree v).efree = s.efree := rfl
@[simp] theorem setTfree_tfree (v : List Nat) (s : State) : (s.setTfree v).tfree = v := rfl
@[simp] theorem setTfree_kfree (v : List Nat) (s : State) : (s.setTfree v).kfree = s.kfree := rfl
@[simp] theorem setTfree_xfree (v : List Nat) (s : State) : (s.setTfree v).xfree = s.xfree := rfl
@[simp] theorem setTfree_cls (v : List Nat) (s : State) : (s.setTfree v).cls = s.cls := rfl
@[simp] theorem setTfree_frame (v : List Nat) (s : State) : (s.setTfree v).frame = s.frame := rfl
@[simp] theorem setTfree_done (v : List Nat) (s : State) : (s.setTfree v).done = s.done := rfl
@[simp] theorem setTfree_frnum (v : List Nat) (s : State) : (s.setTfree v).frnum = s.frnum := rfl
@[simp] theorem setTfree_bussts (v : List Nat) (s : State) : (s.setTfree v).bussts = s.bussts := rfl
@[simp] theorem setTfree_drainp (v : List Nat) (s : State) : (s.setTfree v).drainp = s.drainp := rfl
@[simp] theorem setTfree_lock (v : List Nat) (s : State) : (s.setTfree v).lock = s.lock := rfl
@[simp] theorem setTfree_diag (v : List Nat) (s : State) : (s.setTfree v).diag = s.diag := rfl
@[simp] theorem setTfree_mem (v : List Nat) (s : State) : (s.setTfree v).mem = s.mem := rfl
@[simp] theorem setTfree_cmdPort (v : List Nat) (s : State) : (s.setTfree v).cmdPort = s.cmdPort := rfl
@[simp] theorem setTfree_evtPort (v : List Nat) (s : State) : (s.setTfree v).evtPort = s.evtPort := rfl
@[simp] theorem setTfree_env (v : List Nat) (s : State) : (s.setTfree v).env = s.env := rfl
@[simp] theorem setTfree_out (v : List Nat) (s : State) : (s.setTfree v).out = s.out := rfl

@[simp] theorem setKfree_cfg (v : List Nat) (s : State) : (s.setKfree v).cfg = s.cfg := rfl
@[simp] theorem setKfree_attached (v : List Nat) (s : State) : (s.setKfree v).attached = s.attached := rfl
@[simp] theorem setKfree_eds (v : List Nat) (s : State) : (s.setKfree v).eds = s.eds := rfl
@[simp] theorem setKfree_tds (v : List Nat) (s : State) : (s.setKfree v).tds = s.tds := rfl
@[simp] theorem setKfree_toks (v : List Nat) (s : State) : (s.setKfree v).toks = s.toks := rfl
@[simp] theorem setKfree_txns (v : List Nat) (s : State) : (s.setKfree v).txns = s.txns := rfl
@[simp] theorem setKfree_pkts (v : List Nat) (s : State) : (s.setKfree v).pkts = s.pkts := rfl
@[simp] theorem setKfree_ring (v : List Nat) (s : State) : (s.setKfree v).ring = s.ring := rfl
@[simp] theorem setKfree_dfree (v : List Nat) (s : State) : (s.setKfree v).dfree = s.dfree := rfl
@[simp] theorem setKfree_efree (v : List Nat) (s : State) : (s.setKfree v).efree = s.efree := rfl
@[simp] theorem setKfree_tfree (v : List Nat) (s : State) : (s.setKfree v).tfree = s.tfree := rfl
@[simp] theorem setKfree_kfree (v : List Nat) (s : State) : (s.setKfree v).kfree = v := rfl
@[simp] theorem setKfree_xfree (v : List Nat) (s : State) : (s.setKfree v).xfree = s.xfree := rfl
@[simp] theorem setKfree_cls (v : List Nat) (s : State) : (s.setKfree v).cls = s.cls := rfl
@[simp] theorem setKfree_frame (v : List Nat) (s : State) : (s.setKfree v).frame = s.frame := rfl
@[simp] theorem setKfree_done (v : List Nat) (s : State) : (s.setKfree v).done = s.done := rfl
@[simp] theorem setKfree_frnum (v : List Nat) (s : State) : (s.setKfree v).frnum = s.frnum := rfl
@[simp] theorem setKfree_bussts (v : List Nat) (s : State) : (s.setKfree v).bussts = s.bussts := rfl
@[simp] theorem setKfree_drainp (v : List Nat) (s : State) : (s.setKfree v).drainp = s.drainp := rfl
@[simp] theorem setKfree_lock (v : List Nat) (s : State) : (s.setKfree v).lock = s.lock := rfl
@[simp] theorem setKfree_diag (v : List Nat) (s : State) : (s.setKfree v).diag = s.diag := rfl
@[simp] theorem setKfree_mem (v : List Nat) (s : State) : (s.setKfree v).mem = s.mem := rfl
@[simp] theorem setKfree_cmdPort (v : List Nat) (s : State) : (s.setKfree v).cmdPort = s.cmdPort := rfl
@[simp] theorem setKfree_evtPort (v : List Nat) (s : State) : (s.setKfree v).evtPort = s.evtPort := rfl
@[simp] theorem setKfree_env (v : List Nat) (s : State) : (s.setKfree v).env = s.env := rfl
@[simp] theorem setKfree_out (v : List Nat) (s : State) : (s.setKfree v).out = s.out := rfl

@[simp] theorem setXfree_cfg (v : List Nat) (s : State) : (s.setXfree v).cfg = s.cfg := rfl
@[simp] theorem setXfree_attached (v : List Nat) (s : State) : (s.setXfree v).attached = s.attached := rfl
@[simp] theorem setXfree_eds (v : List Nat) (s : State) : (s.setXfree v).eds = s.eds := rfl
@[simp] theorem setXfree_tds (v : List Nat) (s : State) : (s.setXfree v).tds = s.tds := rfl
@[simp] theorem setXfree_toks (v : List Nat) (s : State) : (s.setXfree v).toks = s.toks := rfl
@[simp] theorem setXfree_txns (v : List Nat) (s : State) : (s.setXfree v).txns = s.txns := rfl
@[simp] theorem setXfree_pkts (v : List Nat) (s : State) : (s.setXfree v).pkts = s.pkts := rfl
@[simp] theorem setXfree_ring (v : List Nat) (s : State) : (s.setXfree v).ring = s.ring := rfl
@[simp] theorem setXfree_dfree (v : List Nat) (s : State) : (s.setXfree v).dfree = s.dfree := rfl
@[simp] theorem setXfree_efree (v : List Nat) (s : State) : (s.setXfree v).efree = s.efree := rfl
@[simp] theorem setXfree_tfree (v : List Nat) (s : State) : (s.setXfree v).tfree = s.tfree := rfl
@[simp] theorem setXfree_kfree (v : List Nat) (s : State) : (s.setXfree v).kfree = s.kfree := rfl
@[simp] theorem setXfree_xfree (v : List Nat) (s : State) : (s.setXfree v).xfree = v := rfl
@[simp] theorem setXfree_cls (v : List Nat) (s : State) : (s.setXfree v).cls = s.cls := rfl
@[simp] theorem setXfree_frame (v : List Nat) (s : State) : (s.setXfree v).frame = s.frame := rfl
@[simp] theorem setXfree_done (v : List Nat) (s : State) : (s.setXfree v).done = s.done := rfl
@[simp] theorem setXfree_frnum (v : List Nat) (s : State) : (s.setXfree v).frnum = s.frnum := rfl
@[simp] theorem setXfree_bussts (v : List Nat) (s : State) : (s.setXfree v).bussts = s.bussts := rfl
@[simp] theorem setXfree_drainp (v : List Nat) (s : State) : (s.setXfree v).drainp = s.drainp := rfl
@[simp] theorem setXfree_lock (v : List Nat) (s : State) : (s.setXfree v).lock = s.lock := rfl
@[simp] theorem setXfree_diag (v : List Nat) (s : State) : (s.setXfree v).diag = s.diag := rfl
@[simp] theorem setXfree_mem (v : List Nat) (s : State) : (s.setXfree v).mem = s.mem := rfl
@[simp] theorem setXfree_cmdPort (v : List Nat) (s : State) : (s.setXfree v).cmdPort = s.cmdPort := rfl
@[simp] theorem setXfree_evtPort (v : List Nat) (s : State) : (s.setXfree v).evtPort = s.evtPort := rfl
@[simp] theorem setXfree_env (v : List Nat) (s : State) : (s.setXfree v).env = s.env := rfl
@[simp] theorem setXfree_out (v : List Nat) (s : State) : (s.setXfree v).out = s.out := rfl

@[simp] theorem setCls_cfg (v : Classes) (s : State) : (s.setCls v).cfg = s.cfg := rfl
@[simp] theorem setCls_attached (v : Classes) (s : State) : (s.setCls v).attached = s.attached := rfl
@[simp] theorem setCls_eds (v : Classes) (s : State) : (s.setCls v).eds = s.eds := rfl
@[simp] theorem setCls_tds (v : Classes) (s : State) : (s.setCls v).tds = s.tds := rfl
@[simp] theorem setCls_toks (v : Classes) (s : State) : (s.setCls v).toks = s.toks := rfl
@[simp] theorem setCls_txns (v : Classes) (s : State) : (s.setCls v).txns = s.txns := rfl
@[simp] theorem setCls_pkts (v : Classes) (s : State) : (s.setCls v).pkts = s.pkts := rfl
@[simp] theorem setCls_ring (v : Classes) (s : State) : (s.setCls v).ring = s.ring := rfl
@[simp] theorem setCls_dfree (v : Classes) (s : State) : (s.setCls v).dfree = s.dfree := rfl
@[simp] theorem setCls_efree (v : Classes) (s : State) : (s.setCls v).efree = s.efree := rfl
@[simp] theorem setCls_tfree (v : Classes) (s : State) : (s.setCls v).tfree = s.tfree := rfl
@[simp] theorem setCls_kfree (v : Classes) (s : State) : (s.setCls v).kfree = s.kfree := rfl
@[simp] theorem setCls_xfree (v : Classes) (s : State) : (s.setCls v).xfree = s.xfree := rfl
@[simp] theorem setCls_cls (v : Classes) (s : State) : (s.setCls v).cls = v := rfl
@[simp] theorem setCls_frame (v : Classes) (s : State) : (s.setCls v).frame = s.frame := rfl
@[simp] theorem setCls_done (v : Classes) (s : State) : (s.setCls v).done = s.done := rfl
@[simp] theorem setCls_frnum (v : Classes) (s : State) : (s.setCls v).frnum = s.frnum := rfl
@[simp] theorem setCls_bussts (v : Classes) (s : State) : (s.setCls v).bussts = s.bussts := rfl
@[simp] theorem setCls_drainp (v : Classes) (s : State) : (s.setCls v).drainp = s.drainp := rfl
@[simp] theorem setCls_lock (v : Classes) (s : State) : (s.setCls v).lock = s.lock := rfl
@[simp] theorem setCls_diag (v : Classes) (s : State) : (s.setCls v).diag = s.diag := rfl
@[simp] theorem setCls_mem (v : Classes) (s : State) : (s.setCls v).mem = s.mem := rfl
@[simp] theorem setCls_cmdPort (v : Classes) (s : State) : (s.setCls v).cmdPort = s.cmdPort := rfl
@[simp] theorem setCls_evtPort (v : Classes) (s : State) : (s.setCls v).evtPort = s.evtPort := rfl
@[simp] theorem setCls_env (v : Classes) (s : State) : (s.setCls v).env = s.env := rfl
@[simp] theorem setCls_out (v : Classes) (s : State) : (s.setCls v).out = s.out := rfl

@[simp] theorem setFrame_cfg (v : Frame) (s : State) : (s.setFrame v).cfg = s.cfg := rfl
@[simp] theorem setFrame_attached (v : Frame) (s : State) : (s.setFrame v).attached = s.attached := rfl
@[simp] theorem setFrame_eds (v : Frame) (s : State) : (s.setFrame v).eds = s.eds := rfl
@[simp] theorem setFrame_tds (v : Frame) (s : State) : (s.setFrame v).tds = s.tds := rfl
@[simp] theorem setFrame_toks (v : Frame) (s : State) : (s.setFrame v).toks = s.toks := rfl
@[simp] theorem setFrame_txns (v : Frame) (s : State) : (s.setFrame v).txns = s.txns := rfl
@[simp] theorem setFrame_pkts (v : Frame) (s : State) : (s.setFrame v).pkts = s.pkts := rfl
@[simp] theorem setFrame_ring (v : Frame) (s : State) : (s.setFrame v).ring = s.ring := rfl
@[simp] theorem setFrame_dfree (v : Frame) (s : State) : (s.setFrame v).dfree = s.dfree := rfl
@[simp] theorem setFrame_efree (v : Frame) (s : State) : (s.setFrame v).efree = s.efree := rfl
@[simp] theorem setFrame_tfree (v : Frame) (s : State) : (s.setFrame v).tfree = s.tfree := rfl
@[simp] theorem setFrame_kfree (v : Frame) (s : State) : (s.setFrame v).kfree = s.kfree := rfl
@[simp] theorem setFrame_xfree (v : Frame) (s : State) : (s.setFrame v).xfree = s.xfree := rfl
@[simp] theorem setFrame_cls (v : Frame) (s : State) : (s.setFrame v).cls = s.cls := rfl
@[simp] theorem setFrame_frame (v : Frame) (s : State) : (s.setFrame v).frame = v := rfl
@[simp] theorem setFrame_done (v : Frame) (s : State) : (s.setFrame v).done = s.done := rfl
@[simp] theorem setFrame_frnum (v : Frame) (s : State) : (s.setFrame v).frnum = s.frnum := rfl
@[simp] theorem setFrame_bussts (v : Frame) (s : State) : (s.setFrame v).bussts = s.bussts := rfl
@[simp] theorem setFrame_drainp (v : Frame) (s : State) : (s.setFrame v).drainp = s.drainp := rfl
@[simp] theorem setFrame_lock (v : Frame) (s : State) : (s.setFrame v).lock = s.lock := rfl
@[simp] theorem setFrame_diag (v : Frame) (s : State) : (s.setFrame v).diag = s.diag := rfl
@[simp] theorem setFrame_mem (v : Frame) (s : State) : (s.setFrame v).mem = s.mem := rfl
@[simp] theorem setFrame_cmdPort (v : Frame) (s : State) : (s.setFrame v).cmdPort = s.cmdPort := rfl
@[simp] theorem setFrame_evtPort (v : Frame) (s : State) : (s.setFrame v).evtPort = s.evtPort := rfl
@[simp] theorem setFrame_env (v : Frame) (s : State) : (s.setFrame v).env = s.env := rfl
@[simp] theorem setFrame_out (v : Frame) (s : State) : (s.setFrame v).out = s.out := rfl

@[simp] theorem setDone_cfg (v : List Nat) (s : State) : (s.setDone v).cfg = s.cfg := rfl
@[simp] theorem setDone_attached (v : List Nat) (s : State) : (s.setDone v).attached = s.attached := rfl
@[simp] theorem setDone_eds (v : List Nat) (s : State) : (s.setDone v).eds = s.eds := rfl
@[simp] theorem setDone_tds (v : List Nat) (s : State) : (s.setDone v).tds = s.tds := rfl
@[simp] theorem setDone_toks (v : List Nat) (s : State) : (s.setDone v).toks = s.toks := rfl
@[simp] theorem setDone_txns (v : List Nat) (s : State) : (s.setDone v).txns = s.txns := rfl
@[simp] theorem setDone_pkts (v : List Nat) (s : State) : (s.setDone v).pkts = s.pkts := rfl
@[simp] theorem setDone_ring (v : List Nat) (s : State) : (s.setDone v).ring = s.ring := rfl
@[simp] theorem setDone_dfree (v : List Nat) (s : State) : (s.setDone v).dfree = s.dfree := rfl
@[simp] theorem setDone_efree (v : List Nat) (s : State) : (s.setDone v).efree = s.efree := rfl
@[simp] theorem setDone_tfree (v : List Nat) (s : State) : (s.setDone v).tfree = s.tfree := rfl
@[simp] theorem setDone_kfree (v : List Nat) (s : State) : (s.setDone v).kfree = s.kfree := rfl
@[simp] theorem setDone_xfree (v : List Nat) (s : State) : (s.setDone v).xfree = s.xfree := rfl
@[simp] theorem setDone_cls (v : List Nat) (s : State) : (s.setDone v).cls = s.cls := rfl
@[simp] theorem setDone_frame (v : List Nat) (s : State) : (s.setDone v).frame = s.frame := rfl
@[simp] theorem setDone_done (v : List Nat) (s : State) : (s.setDone v).done = v := rfl
@[simp] theorem setDone_frnum (v : List Nat) (s : State) : (s.setDone v).frnum = s.frnum := rfl
@[simp] theorem setDone_bussts (v : List Nat) (s : State) : (s.setDone v).bussts = s.bussts := rfl
@[simp] theorem setDone_drainp (v : List Nat) (s : State) : (s.setDone v).drainp = s.drainp := rfl
@[simp] theorem setDone_lock (v : List Nat) (s : State) : (s.setDone v).lock = s.lock := rfl
@[simp] theorem setDone_diag (v : List Nat) (s : State) : (s.setDone v).diag = s.diag := rfl
@[simp] theorem setDone_mem (v : List Nat) (s : State) : (s.setDone v).mem = s.mem := rfl
@[simp] theorem setDone_cmdPort (v : List Nat) (s : State) : (s.setDone v).cmdPort = s.cmdPort := rfl
@[simp] theorem setDone_evtPort (v : List Nat) (s : State) : (s.setDone v).evtPort = s.evtPort := rfl
@[simp] theorem setDone_env (v : List Nat) (s : State) : (s.setDone v).env = s.env := rfl
@[simp] theorem setDone_out (v : List Nat) (s : State) : (s.setDone v).out = s.out := rfl

@[simp] theorem setFrnum_cfg (v : BitVec 16) (s : State) : (s.setFrnum v).cfg = s.cfg := rfl
@[simp] theorem setFrnum_attached (v : BitVec 16) (s : State) : (s.setFrnum v).attached = s.attached := rfl
@[simp] theorem setFrnum_eds (v : BitVec 16) (s : State) : (s.setFrnum v).eds = s.eds := rfl
@[simp] theorem setFrnum_tds (v : BitVec 16) (s : State) : (s.setFrnum v).tds = s.tds := rfl
@[simp] theorem setFrnum_toks (v : BitVec 16) (s : State) : (s.setFrnum v).toks = s.toks := rfl
@[simp] theorem setFrnum_txns (v : BitVec 16) (s : State) : (s.setFrnum v).txns = s.txns := rfl
@[simp] theorem setFrnum_pkts (v : BitVec 16) (s : State) : (s.setFrnum v).pkts = s.pkts := rfl
@[simp] theorem setFrnum_ring (v : BitVec 16) (s : State) : (s.setFrnum v).ring = s.ring := rfl
@[simp] theorem setFrnum_dfree (v : BitVec 16) (s : State) : (s.setFrnum v).dfree = s.dfree := rfl
@[simp] theorem setFrnum_efree (v : BitVec 16) (s : State) : (s.setFrnum v).efree = s.efree := rfl
@[simp] theorem setFrnum_tfree (v : BitVec 16) (s : State) : (s.setFrnum v).tfree = s.tfree := rfl
@[simp] theorem setFrnum_kfree (v : BitVec 16) (s : State) : (s.setFrnum v).kfree = s.kfree := rfl
@[simp] theorem setFrnum_xfree (v : BitVec 16) (s : State) : (s.setFrnum v).xfree = s.xfree := rfl
@[simp] theorem setFrnum_cls (v : BitVec 16) (s : State) : (s.setFrnum v).cls = s.cls := rfl
@[simp] theorem setFrnum_frame (v : BitVec 16) (s : State) : (s.setFrnum v).frame = s.frame := rfl
@[simp] theorem setFrnum_done (v : BitVec 16) (s : State) : (s.setFrnum v).done = s.done := rfl
@[simp] theorem setFrnum_frnum (v : BitVec 16) (s : State) : (s.setFrnum v).frnum = v := rfl
@[simp] theorem setFrnum_bussts (v : BitVec 16) (s : State) : (s.setFrnum v).bussts = s.bussts := rfl
@[simp] theorem setFrnum_drainp (v : BitVec 16) (s : State) : (s.setFrnum v).drainp = s.drainp := rfl
@[simp] theorem setFrnum_lock (v : BitVec 16) (s : State) : (s.setFrnum v).lock = s.lock := rfl
@[simp] theorem setFrnum_diag (v : BitVec 16) (s : State) : (s.setFrnum v).diag = s.diag := rfl
@[simp] theorem setFrnum_mem (v : BitVec 16) (s : State) : (s.setFrnum v).mem = s.mem := rfl
@[simp] theorem setFrnum_cmdPort (v : BitVec 16) (s : State) : (s.setFrnum v).cmdPort = s.cmdPort := rfl
@[simp] theorem setFrnum_evtPort (v : BitVec 16) (s : State) : (s.setFrnum v).evtPort = s.evtPort := rfl
@[simp] theorem setFrnum_env (v : BitVec 16) (s : State) : (s.setFrnum v).env = s.env := rfl
@[simp] theorem setFrnum_out (v : BitVec 16) (s : State) : (s.setFrnum v).out = s.out := rfl

@[simp] theorem setBussts_cfg (v : BusSts) (s : State) : (s.setBussts v).cfg = s.cfg := rfl
@[simp] theorem setBussts_attached (v : BusSts) (s : State) : (s.setBussts v).attached = s.attached := rfl
@[simp] theorem setBussts_eds (v : BusSts) (s : State) : (s.setBussts v).eds = s.eds := rfl
@[simp] theorem setBussts_tds (v : BusSts) (s : State) : (s.setBussts v).tds = s.tds := rfl
@[simp] theorem setBussts_toks (v : BusSts) (s : State) : (s.setBussts v).toks = s.toks := rfl
@[simp] theorem setBussts_txns (v : BusSts) (s : State) : (s.setBussts v).txns = s.txns := rfl
@[simp] theorem setBussts_pkts (v : BusSts) (s : State) : (s.setBussts v).pkts = s.pkts := rfl
@[simp] theorem setBussts_ring (v : BusSts) (s : State) : (s.setBussts v).ring = s.ring := rfl
@[simp] theorem setBussts_dfree (v : BusSts) (s : State) : (s.setBussts v).dfree = s.dfree := rfl
@[simp] theorem setBussts_efree (v : BusSts) (s : State) : (s.setBussts v).efree = s.efree := rfl
@[simp] theorem setBussts_tfree (v : BusSts) (s : State) : (s.setBussts v).tfree = s.tfree := rfl
@[simp] theorem setBussts_kfree (v : BusSts) (s : State) : (s.setBussts v).kfree = s.kfree := rfl
@[simp] theorem setBussts_xfree (v : BusSts) (s : State) : (s.setBussts v).xfree = s.xfree := rfl
@[simp] theorem setBussts_cls (v : BusSts) (s : State) : (s.setBussts v).cls = s.cls := rfl
@[simp] theorem setBussts_frame (v : BusSts) (s : State) : (s.setBussts v).frame = s.frame := rfl
@[simp] theorem setBussts_done (v : BusSts) (s : State) : (s.setBussts v).done = s.done := rfl
@[simp] theorem setBussts_frnum (v : BusSts) (s : State) : (s.setBussts v).frnum = s.frnum := rfl
@[simp] theorem setBussts_bussts (v : BusSts) (s : State) : (s.setBussts v).bussts = v := rfl
@[simp] theorem setBussts_drainp (v : BusSts) (s : State) : (s.setBussts v).drainp = s.drainp := rfl
@[simp] theorem setBussts_lock (v : BusSts) (s : State) : (s.setBussts v).lock = s.lock := rfl
@[simp] theorem setBussts_diag (v : BusSts) (s : State) : (s.setBussts v).diag = s.diag := rfl
@[simp] theorem setBussts_mem (v : BusSts) (s : State) : (s.setBussts v).mem = s.mem := rfl
@[simp] theorem setBussts_cmdPort (v : BusSts) (s : State) : (s.setBussts v).cmdPort = s.cmdPort := rfl
@[simp] theorem setBussts_evtPort (v : BusSts) (s : State) : (s.setBussts v).evtPort = s.evtPort := rfl
@[simp] theorem setBussts_env (v : BusSts) (s : State) : (s.setBussts v).env = s.env := rfl
@[simp] theorem setBussts_out (v : BusSts) (s : State) : (s.setBussts v).out = s.out := rfl

@[simp] theorem setDrainp_cfg (v : Bool) (s : State) : (s.setDrainp v).cfg = s.cfg := rfl
@[simp] theorem setDrainp_attached (v : Bool) (s : State) : (s.setDrainp v).attached = s.attached := rfl
@[simp] theorem setDrainp_eds (v : Bool) (s : State) : (s.setDrainp v).eds = s.eds := rfl
@[simp] theorem setDrainp_tds (v : Bool) (s : State) : (s.setDrainp v).tds = s.tds := rfl
@[simp] theorem setDrainp_toks (v : Bool) (s : State) : (s.setDrainp v).toks = s.toks := rfl
@[simp] theorem setDrainp_txns (v : Bool) (s : State) : (s.setDrainp v).txns = s.txns := rfl
@[simp] theorem setDrainp_pkts (v : Bool) (s : State) : (s.setDrainp v).pkts = s.pkts := rfl
@[simp] theorem setDrainp_ring (v : Bool) (s : State) : (s.setDrainp v).ring = s.ring := rfl
@[simp] theorem setDrainp_dfree (v : Bool) (s : State) : (s.setDrainp v).dfree = s.dfree := rfl
@[simp] theorem setDrainp_efree (v : Bool) (s : State) : (s.setDrainp v).efree = s.efree := rfl
@[simp] theorem setDrainp_tfree (v : Bool) (s : State) : (s.setDrainp v).tfree = s.tfree := rfl
@[simp] theorem setDrainp_kfree (v : Bool) (s : State) : (s.setDrainp v).kfree = s.kfree := rfl
@[simp] theorem setDrainp_xfree (v : Bool) (s : State) : (s.setDrainp v).xfree = s.xfree := rfl
@[simp] theorem setDrainp_cls (v : Bool) (s : State) : (s.setDrainp v).cls = s.cls := rfl
@[simp] theorem setDrainp_frame (v : Bool) (s : State) : (s.setDrainp v).frame = s.frame := rfl
@[simp] theorem setDrainp_done (v : Bool) (s : State) : (s.setDrainp v).done = s.done := rfl
@[simp] theorem setDrainp_frnum (v : Bool) (s : State) : (s.setDrainp v).frnum = s.frnum := rfl
@[simp] theorem setDrainp_bussts (v : Bool) (s : State) : (s.setDrainp v).bussts = s.bussts := rfl
@[simp] theorem setDrainp_drainp (v : Bool) (s : State) : (s.setDrainp v).drainp = v := rfl
@[simp] theorem setDrainp_lock (v : Bool) (s : State) : (s.setDrainp v).lock = s.lock := rfl
@[simp] theorem setDrainp_diag (v : Bool) (s : State) : (s.setDrainp v).diag = s.diag := rfl
@[simp] theorem setDrainp_mem (v : Bool) (s : State) : (s.setDrainp v).mem = s.mem := rfl
@[simp] theorem setDrainp_cmdPort (v : Bool) (s : State) : (s.setDrainp v).cmdPort = s.cmdPort := rfl
@[simp] theorem setDrainp_evtPort (v : Bool) (s : State) : (s.setDrainp v).evtPort = s.evtPort := rfl
@[simp] theorem setDrainp_env (v : Bool) (s : State) : (s.setDrainp v).env = s.env := rfl
@[simp] theorem setDrainp_out (v : Bool) (s : State) : (s.setDrainp v).out = s.out := rfl

@[simp] theorem setLock_cfg (v : Lock) (s : State) : (s.setLock v).cfg = s.cfg := rfl
@[simp] theorem setLock_attached (v : Lock) (s : State) : (s.setLock v).attached = s.attached := rfl
@[simp] theorem setLock_eds (v : Lock) (s : State) : (s.setLock v).eds = s.eds := rfl
@[simp] theorem setLock_tds (v : Lock) (s : State) : (s.setLock v).tds = s.tds := rfl
@[simp] theorem setLock_toks (v : Lock) (s : State) : (s.setLock v).toks = s.toks := rfl
@[simp] theorem setLock_txns (v : Lock) (s : State) : (s.setLock v).txns = s.txns := rfl
@[simp] theorem setLock_pkts (v : Lock) (s : State) : (s.setLock v).pkts = s.pkts := rfl
@[simp] theorem setLock_ring (v : Lock) (s : State) : (s.setLock v).ring = s.ring := rfl
@[simp] theorem setLock_dfree (v : Lock) (s : State) : (s.setLock v).dfree = s.dfree := rfl
@[simp] theorem setLock_efree (v : Lock) (s : State) : (s.setLock v).efree = s.efree := rfl
@[simp] theorem setLock_tfree (v : Lock) (s : State) : (s.setLock v).tfree = s.tfree := rfl
@[simp] theorem setLock_kfree (v : Lock) (s : State) : (s.setLock v).kfree = s.kfree := rfl
@[simp] theorem setLock_xfree (v : Lock) (s : State) : (s.setLock v).xfree = s.xfree := rfl
@[simp] theorem setLock_cls (v : Lock) (s : State) : (s.setLock v).cls = s.cls := rfl
@[simp] theorem setLock_frame (v : Lock) (s : State) : (s.setLock v).frame = s.frame := rfl
@[simp] theorem setLock_done (v : Lock) (s : State) : (s.setLock v).done = s.done := rfl
@[simp] theorem setLock_frnum (v : Lock) (s : State) : (s.setLock v).frnum = s.frnum := rfl
@[simp] theorem setLock_bussts (v : Lock) (s : State) : (s.setLock v).bussts = s.bussts := rfl
@[simp] theorem setLock_drainp (v : Lock) (s : State) : (s.setLock v).drainp = s.drainp := rfl
@[simp] theorem setLock_lock (v : Lock) (s : State) : (s.setLock v).lock = v := rfl
@[simp] theorem setLock_diag (v : Lock) (s : State) : (s.setLock v).diag = s.diag := rfl
@[simp] theorem setLock_mem (v : Lock) (s : State) : (s.setLock v).mem = s.mem := rfl
@[simp] theorem setLock_cmdPort (v : Lock) (s : State) : (s.setLock v).cmdPort = s.cmdPort := rfl
@[simp] theorem setLock_evtPort (v : Lock) (s : State) : (s.setLock v).evtPort = s.evtPort := rfl
@[simp] theorem setLock_env (v : Lock) (s : State) : (s.setLock v).env = s.env := rfl
@[simp] theorem setLock_out (v : Lock) (s : State) : (s.setLock v).out = s.out := rfl

@[simp] theorem setDiag_cfg (v : Diag) (s : State) : (s.setDiag v).cfg = s.cfg := rfl
@[simp] theorem setDiag_attached (v : Diag) (s : State) : (s.setDiag v).attached = s.attached := rfl
@[simp] theorem setDiag_eds (v : Diag) (s : State) : (s.setDiag v).eds = s.eds := rfl
@[simp] theorem setDiag_tds (v : Diag) (s : State) : (s.setDiag v).tds = s.tds := rfl
@[simp] theorem setDiag_toks (v : Diag) (s : State) : (s.setDiag v).toks = s.toks := rfl
@[simp] theorem setDiag_txns (v : Diag) (s : State) : (s.setDiag v).txns = s.txns := rfl
@[simp] theorem setDiag_pkts (v : Diag) (s : State) : (s.setDiag v).pkts = s.pkts := rfl
@[simp] theorem setDiag_ring (v : Diag) (s : State) : (s.setDiag v).ring = s.ring := rfl
@[simp] theorem setDiag_dfree (v : Diag) (s : State) : (s.setDiag v).dfree = s.dfree := rfl
@[simp] theorem setDiag_efree (v : Diag) (s : State) : (s.setDiag v).efree = s.efree := rfl
@[simp] theorem setDiag_tfree (v : Diag) (s : State) : (s.setDiag v).tfree = s.tfree := rfl
@[simp] theorem setDiag_kfree (v : Diag) (s : State) : (s.setDiag v).kfree = s.kfree := rfl
@[simp] theorem setDiag_xfree (v : Diag) (s : State) : (s.setDiag v).xfree = s.xfree := rfl
@[simp] theorem setDiag_cls (v : Diag) (s : State) : (s.setDiag v).cls = s.cls := rfl
@[simp] theorem setDiag_frame (v : Diag) (s : State) : (s.setDiag v).frame = s.frame := rfl
@[simp] theorem setDiag_done (v : Diag) (s : State) : (s.setDiag v).done = s.done := rfl
@[simp] theorem setDiag_frnum (v : Diag) (s : State) : (s.setDiag v).frnum = s.frnum := rfl
@[simp] theorem setDiag_bussts (v : Diag) (s : State) : (s.setDiag v).bussts = s.bussts := rfl
@[simp] theorem setDiag_drainp (v : Diag) (s : State) : (s.setDiag v).drainp = s.drainp := rfl
@[simp] theorem setDiag_lock (v : Diag) (s : State) : (s.setDiag v).lock = s.lock := rfl
@[simp] theorem setDiag_diag (v : Diag) (s : State) : (s.setDiag v).diag = v := rfl
@[simp] theorem setDiag_mem (v : Diag) (s : State) : (s.setDiag v).mem = s.mem := rfl
@[simp] theorem setDiag_cmdPort (v : Diag) (s : State) : (s.setDiag v).cmdPort = s.cmdPort := rfl
@[simp] theorem setDiag_evtPort (v : Diag) (s : State) : (s.setDiag v).evtPort = s.evtPort := rfl
@[simp] theorem setDiag_env (v : Diag) (s : State) : (s.setDiag v).env = s.env := rfl
@[simp] theorem setDiag_out (v : Diag) (s : State) : (s.setDiag v).out = s.out := rfl

@[simp] theorem setMem_cfg (v : Memory) (s : State) : (s.setMem v).cfg = s.cfg := rfl
@[simp] theorem setMem_attached (v : Memory) (s : State) : (s.setMem v).attached = s.attached := rfl
@[simp] theorem setMem_eds (v : Memory) (s : State) : (s.setMem v).eds = s.eds := rfl
@[simp] theorem setMem_tds (v : Memory) (s : State) : (s.setMem v).tds = s.tds := rfl
@[simp] theorem setMem_toks (v : Memory) (s : State) : (s.setMem v).toks = s.toks := rfl
@[simp] theorem setMem_txns (v : Memory) (s : State) : (s.setMem v).txns = s.txns := rfl
@[simp] theorem setMem_pkts (v : Memory) (s : State) : (s.setMem v).pkts = s.pkts := rfl
@[simp] theorem setMem_ring (v : Memory) (s : State) : (s.setMem v).ring = s.ring := rfl
@[simp] theorem setMem_dfree (v : Memory) (s : State) : (s.setMem v).dfree = s.dfree := rfl
@[simp] theorem setMem_efree (v : Memory) (s : State) : (s.setMem v).efree = s.efree := rfl
@[simp] theorem setMem_tfree (v : Memory) (s : State) : (s.setMem v).tfree = s.tfree := rfl
@[simp] theorem setMem_kfree (v : Memory) (s : State) : (s.setMem v).kfree = s.kfree := rfl
@[simp] theorem setMem_xfree (v : Memory) (s : State) : (s.setMem v).xfree = s.xfree := rfl
@[simp] theorem setMem_cls (v : Memory) (s : State) : (s.setMem v).cls = s.cls := rfl
@[simp] theorem setMem_frame (v : Memory) (s : State) : (s.setMem v).frame = s.frame := rfl
@[simp] theorem setMem_done (v : Memory) (s : State) : (s.setMem v).done = s.done := rfl
@[simp] theorem setMem_frnum (v : Memory) (s : State) : (s.setMem v).frnum = s.frnum := rfl
@[simp] theorem setMem_bussts (v : Memory) (s : State) : (s.setMem v).bussts = s.bussts := rfl
@[simp] theorem setMem_drainp (v : Memory) (s : State) : (s.setMem v).drainp = s.drainp := rfl
@[simp] theorem setMem_lock (v : Memory) (s : State) : (s.setMem v).lock = s.lock := rfl
@[simp] theorem setMem_diag (v : Memory) (s : State) : (s.setMem v).diag = s.diag := rfl
@[simp] theorem setMem_mem (v : Memory) (s : State) : (s.setMem v).mem = v := rfl
@[simp] theorem setMem_cmdPort (v : Memory) (s : State) : (s.setMem v).cmdPort = s.cmdPort := rfl
@[simp] theorem setMem_evtPort (v : Memory) (s : State) : (s.setMem v).evtPort = s.evtPort := rfl
@[simp] theorem setMem_env (v : Memory) (s : State) : (s.setMem v).env = s.env := rfl
@[simp] theorem setMem_out (v : Memory) (s : State) : (s.setMem v).out = s.out := rfl

@[simp] theorem setCmdPort_cfg (v : List Word) (s : State) : (s.setCmdPort v).cfg = s.cfg := rfl
@[simp] theorem setCmdPort_attached (v : List Word) (s : State) : (s.setCmdPort v).attached = s.attached := rfl
@[simp] theorem setCmdPort_eds (v : List Word) (s : State) : (s.setCmdPort v).eds = s.eds := rfl
@[simp] theorem setCmdPort_tds (v : List Word) (s : State) : (s.setCmdPort v).tds = s.tds := rfl
@[simp] theorem setCmdPort_toks (v : List Word) (s : State) : (s.setCmdPort v).toks = s.toks := rfl
@[simp] theorem setCmdPort_txns (v : List Word) (s : State) : (s.setCmdPort v).txns = s.txns := rfl
@[simp] theorem setCmdPort_pkts (v : List Word) (s : State) : (s.setCmdPort v).pkts = s.pkts := rfl
@[simp] theorem setCmdPort_ring (v : List Word) (s : State) : (s.setCmdPort v).ring = s.ring := rfl
@[simp] theorem setCmdPort_dfree (v : List Word) (s : State) : (s.setCmdPort v).dfree = s.dfree := rfl
@[simp] theorem setCmdPort_efree (v : List Word) (s : State) : (s.setCmdPort v).efree = s.efree := rfl
@[simp] theorem setCmdPort_tfree (v : List Word) (s : State) : (s.setCmdPort v).tfree = s.tfree := rfl
@[simp] theorem setCmdPort_kfree (v : List Word) (s : State) : (s.setCmdPort v).kfree = s.kfree := rfl
@[simp] theorem setCmdPort_xfree (v : List Word) (s : State) : (s.setCmdPort v).xfree = s.xfree := rfl
@[simp] theorem setCmdPort_cls (v : List Word) (s : State) : (s.setCmdPort v).cls = s.cls := rfl
@[simp] theorem setCmdPort_frame (v : List Word) (s : State) : (s.setCmdPort v).frame = s.frame := rfl
@[simp] theorem setCmdPort_done (v : List Word) (s : State) : (s.setCmdPort v).done = s.done := rfl
@[simp] theorem setCmdPort_frnum (v : List Word) (s : State) : (s.setCmdPort v).frnum = s.frnum := rfl
@[simp] theorem setCmdPort_bussts (v : List Word) (s : State) : (s.setCmdPort v).bussts = s.bussts := rfl
@[simp] theorem setCmdPort_drainp (v : List Word) (s : State) : (s.setCmdPort v).drainp = s.drainp := rfl
@[simp] theorem setCmdPort_lock (v : List Word) (s : State) : (s.setCmdPort v).lock = s.lock := rfl
@[simp] theorem setCmdPort_diag (v : List Word) (s : State) : (s.setCmdPort v).diag = s.diag := rfl
@[simp] theorem setCmdPort_mem (v : List Word) (s : State) : (s.setCmdPort v).mem = s.mem := rfl
@[simp] theorem setCmdPort_cmdPort (v : List Word) (s : State) : (s.setCmdPort v).cmdPort = v := rfl
@[simp] theorem setCmdPort_evtPort (v : List Word) (s : State) : (s.setCmdPort v).evtPort = s.evtPort := rfl
@[simp] theorem setCmdPort_env (v : List Word) (s : State) : (s.setCmdPort v).env = s.env := rfl
@[simp] theorem setCmdPort_out (v : List Word) (s : State) : (s.setCmdPort v).out = s.out := rfl

@[simp] theorem setEvtPort_cfg (v : List Word) (s : State) : (s.setEvtPort v).cfg = s.cfg := rfl
@[simp] theorem setEvtPort_attached (v : List Word) (s : State) : (s.setEvtPort v).attached = s.attached := rfl
@[simp] theorem setEvtPort_eds (v : List Word) (s : State) : (s.setEvtPort v).eds = s.eds := rfl
@[simp] theorem setEvtPort_tds (v : List Word) (s : State) : (s.setEvtPort v).tds = s.tds := rfl
@[simp] theorem setEvtPort_toks (v : List Word) (s : State) : (s.setEvtPort v).toks = s.toks := rfl
@[simp] theorem setEvtPort_txns (v : List Word) (s : State) : (s.setEvtPort v).txns = s.txns := rfl
@[simp] theorem setEvtPort_pkts (v : List Word) (s : State) : (s.setEvtPort v).pkts = s.pkts := rfl
@[simp] theorem setEvtPort_ring (v : List Word) (s : State) : (s.setEvtPort v).ring = s.ring := rfl
@[simp] theorem setEvtPort_dfree (v : List Word) (s : State) : (s.setEvtPort v).dfree = s.dfree := rfl
@[simp] theorem setEvtPort_efree (v : List Word) (s : State) : (s.setEvtPort v).efree = s.efree := rfl
@[simp] theorem setEvtPort_tfree (v : List Word) (s : State) : (s.setEvtPort v).tfree = s.tfree := rfl
@[simp] theorem setEvtPort_kfree (v : List Word) (s : State) : (s.setEvtPort v).kfree = s.kfree := rfl
@[simp] theorem setEvtPort_xfree (v : List Word) (s : State) : (s.setEvtPort v).xfree = s.xfree := rfl
@[simp] theorem setEvtPort_cls (v : List Word) (s : State) : (s.setEvtPort v).cls = s.cls := rfl
@[simp] theorem setEvtPort_frame (v : List Word) (s : State) : (s.setEvtPort v).frame = s.frame := rfl
@[simp] theorem setEvtPort_done (v : List Word) (s : State) : (s.setEvtPort v).done = s.done := rfl
@[simp] theorem setEvtPort_frnum (v : List Word) (s : State) : (s.setEvtPort v).frnum = s.frnum := rfl
@[simp] theorem setEvtPort_bussts (v : List Word) (s : State) : (s.setEvtPort v).bussts = s.bussts := rfl
@[simp] theorem setEvtPort_drainp (v : List Word) (s : State) : (s.setEvtPort v).drainp = s.drainp := rfl
@[simp] theorem setEvtPort_lock (v : List Word) (s : State) : (s.setEvtPort v).lock = s.lock := rfl
@[simp] theorem setEvtPort_diag (v : List Word) (s : State) : (s.setEvtPort v).diag = s.diag := rfl
@[simp] theorem setEvtPort_mem (v : List Word) (s : State) : (s.setEvtPort v).mem = s.mem := rfl
@[simp] theorem setEvtPort_cmdPort (v : List Word) (s : State) : (s.setEvtPort v).cmdPort = s.cmdPort := rfl
@[simp] theorem setEvtPort_evtPort (v : List Word) (s : State) : (s.setEvtPort v).evtPort = v := rfl
@[simp] theorem setEvtPort_env (v : List Word) (s : State) : (s.setEvtPort v).env = s.env := rfl
@[simp] theorem setEvtPort_out (v : List Word) (s : State) : (s.setEvtPort v).out = s.out := rfl

@[simp] theorem setEnv_cfg (v : Env) (s : State) : (s.setEnv v).cfg = s.cfg := rfl
@[simp] theorem setEnv_attached (v : Env) (s : State) : (s.setEnv v).attached = s.attached := rfl
@[simp] theorem setEnv_eds (v : Env) (s : State) : (s.setEnv v).eds = s.eds := rfl
@[simp] theorem setEnv_tds (v : Env) (s : State) : (s.setEnv v).tds = s.tds := rfl
@[simp] theorem setEnv_toks (v : Env) (s : State) : (s.setEnv v).toks = s.toks := rfl
@[simp] theorem setEnv_txns (v : Env) (s : State) : (s.setEnv v).txns = s.txns := rfl
@[simp] theorem setEnv_pkts (v : Env) (s : State) : (s.setEnv v).pkts = s.pkts := rfl
@[simp] theorem setEnv_ring (v : Env) (s : State) : (s.setEnv v).ring = s.ring := rfl
@[simp] theorem setEnv_dfree (v : Env) (s : State) : (s.setEnv v).dfree = s.dfree := rfl
@[simp] theorem setEnv_efree (v : Env) (s : State) : (s.setEnv v).efree = s.efree := rfl
@[simp] theorem setEnv_tfree (v : Env) (s : State) : (s.setEnv v).tfree = s.tfree := rfl
@[simp] theorem setEnv_kfree (v : Env) (s : State) : (s.setEnv v).kfree = s.kfree := rfl
@[simp] theorem setEnv_xfree (v : Env) (s : State) : (s.setEnv v).xfree = s.xfree := rfl
@[simp] theorem setEnv_cls (v : Env) (s : State) : (s.setEnv v).cls = s.cls := rfl
@[simp] theorem setEnv_frame (v : Env) (s : State) : (s.setEnv v).frame = s.frame := rfl
@[simp] theorem setEnv_done (v : Env) (s : State) : (s.setEnv v).done = s.done := rfl
@[simp] theorem setEnv_frnum (v : Env) (s : State) : (s.setEnv v).frnum = s.frnum := rfl
@[simp] theorem setEnv_bussts (v : Env) (s : State) : (s.setEnv v).bussts = s.bussts := rfl
@[simp] theorem setEnv_drainp (v : Env) (s : State) : (s.setEnv v).drainp = s.drainp := rfl
@[simp] theorem setEnv_lock (v : Env) (s : State) : (s.setEnv v).lock = s.lock := rfl
@[simp] theorem setEnv_diag (v : Env) (s : State) : (s.setEnv v).diag = s.diag := rfl
@[simp] theorem setEnv_mem (v : Env) (s : State) : (s.setEnv v).mem = s.mem := rfl
@[simp] theorem setEnv_cmdPort (v : Env) (s : State) : (s.setEnv v).cmdPort = s.cmdPort := rfl
@[simp] theorem setEnv_evtPort (v : Env) (s : State) : (s.setEnv v).evtPort = s.evtPort := rfl
@[simp] theorem setEnv_env (v : Env) (s : State) : (s.setEnv v).env = v := rfl
@[simp] theorem setEnv_out (v : Env) (s : State) : (s.setEnv v).out = s.out := rfl

@[simp] theorem setOut_cfg (v : List Output) (s : State) : (s.setOut v).cfg = s.cfg := rfl
@[simp] theorem setOut_attached (v : List Output) (s : State) : (s.setOut v).attached = s.attached := rfl
@[simp] theorem setOut_eds (v : List Output) (s : State) : (s.setOut v).eds = s.eds := rfl
@[simp] theorem setOut_tds (v : List Output) (s : State) : (s.setOut v).tds = s.tds := rfl
@[simp] theorem setOut_toks (v : List Output) (s : State) : (s.setOut v).toks = s.toks := rfl
@[simp] theorem setOut_txns (v : List Output) (s : State) : (s.setOut v).txns = s.txns := rfl
@[simp] theorem setOut_pkts (v : List Output) (s : State) : (s.setOut v).pkts = s.pkts := rfl
@[simp] theorem setOut_ring (v : List Output) (s : State) : (s.setOut v).ring = s.ring := rfl
@[simp] theorem setOut_dfree (v : List Output) (s : State) : (s.setOut v).dfree = s.dfree := rfl
@[simp] theorem setOut_efree (v : List Output) (s : State) : (s.setOut v).efree = s.efree := rfl
@[simp] theorem setOut_tfree (v : List Output) (s : State) : (s.setOut v).tfree = s.tfree := rfl
@[simp] theorem setOut_kfree (v : List Output) (s : State) : (s.setOut v).kfree = s.kfree := rfl
@[simp] theorem setOut_xfree (v : List Output) (s : State) : (s.setOut v).xfree = s.xfree := rfl
@[simp] theorem setOut_cls (v : List Output) (s : State) : (s.setOut v).cls = s.cls := rfl
@[simp] theorem setOut_frame (v : List Output) (s : State) : (s.setOut v).frame = s.frame := rfl
@[simp] theorem setOut_done (v : List Output) (s : State) : (s.setOut v).done = s.done := rfl
@[simp] theorem setOut_frnum (v : List Output) (s : State) : (s.setOut v).frnum = s.frnum := rfl
@[simp] theorem setOut_bussts (v : List Output) (s : State) : (s.setOut v).bussts = s.bussts := rfl
@[simp] theorem setOut_drainp (v : List Output) (s : State) : (s.setOut v).drainp = s.drainp := rfl
@[simp] theorem setOut_lock (v : List Output) (s : State) : (s.setOut v).lock = s.lock := rfl
@[simp] theorem setOut_diag (v : List Output) (s : State) : (s.setOut v).diag = s.diag := rfl
@[simp] theorem setOut_mem (v : List Output) (s : State) : (s.setOut v).mem = s.mem := rfl
@[simp] theorem setOut_cmdPort (v : List Output) (s : State) : (s.setOut v).cmdPort = s.cmdPort := rfl
@[simp] theorem setOut_evtPort (v : List Output) (s : State) : (s.setOut v).evtPort = s.evtPort := rfl
@[simp] theorem setOut_env (v : List Output) (s : State) : (s.setOut v).env = s.env := rfl
@[simp] theorem setOut_out (v : List Output) (s : State) : (s.setOut v).out = v := rfl

@[simp] theorem modEd_cfg (i : Nat) (h : Ed → Ed) (s : State) : (s.modEd i h).cfg = s.cfg := rfl
@[simp] theorem modEd_attached (i : Nat) (h : Ed → Ed) (s : State) : (s.modEd i h).attached = s.attached := rfl
@[simp] theorem modEd_eds (i : Nat) (h : Ed → Ed) (s : State) : (s.modEd i h).eds = s.eds.modify i h := rfl
@[simp] theorem modEd_tds (i : Nat) (h : Ed → Ed) (s : State) : (s.modEd i h).tds = s.tds := rfl
@[simp] theorem modEd_toks (i : Nat) (h : Ed → Ed) (s : State) : (s.modEd i h).toks = s.toks := rfl
@[simp] theorem modEd_txns (i : Nat) (h : Ed → Ed) (s : State) : (s.modEd i h).txns = s.txns := rfl
@[simp] theorem modEd_pkts (i : Nat) (h : Ed → Ed) (s : State) : (s.modEd i h).pkts = s.pkts := rfl
@[simp] theorem modEd_ring (i : Nat) (h : Ed → Ed) (s : State) : (s.modEd i h).ring = s.ring := rfl
@[simp] theorem modEd_dfree (i : Nat) (h : Ed → Ed) (s : State) : (s.modEd i h).dfree = s.dfree := rfl
@[simp] theorem modEd_efree (i : Nat) (h : Ed → Ed) (s : State) : (s.modEd i h).efree = s.efree := rfl
@[simp] theorem modEd_tfree (i : Nat) (h : Ed → Ed) (s : State) : (s.modEd i h).tfree = s.tfree := rfl
@[simp] theorem modEd_kfree (i : Nat) (h : Ed → Ed) (s : State) : (s.modEd i h).kfree = s.kfree := rfl
@[simp] theorem modEd_xfree (i : Nat) (h : Ed → Ed) (s : State) : (s.modEd i h).xfree = s.xfree := rfl
@[simp] theorem modEd_cls (i : Nat) (h : Ed → Ed) (s : State) : (s.modEd i h).cls = s.cls := rfl
@[simp] theorem modEd_frame (i : Nat) (h : Ed → Ed) (s : State) : (s.modEd i h).frame = s.frame := rfl
@[simp] theorem modEd_done (i : Nat) (h : Ed → Ed) (s : State) : (s.modEd i h).done = s.done := rfl
@[simp] theorem modEd_frnum (i : Nat) (h : Ed → Ed) (s : State) : (s.modEd i h).frnum = s.frnum := rfl
@[simp] theorem modEd_bussts (i : Nat) (h : Ed → Ed) (s : State) : (s.modEd i h).bussts = s.bussts := rfl
@[simp] theorem modEd_drainp (i : Nat) (h : Ed → Ed) (s : State) : (s.modEd i h).drainp = s.drainp := rfl
@[simp] theorem modEd_lock (i : Nat) (h : Ed → Ed) (s : State) : (s.modEd i h).lock = s.lock := rfl
@[simp] theorem modEd_diag (i : Nat) (h : Ed → Ed) (s : State) : (s.modEd i h).diag = s.diag := rfl
@[simp] theorem modEd_mem (i : Nat) (h : Ed → Ed) (s : State) : (s.modEd i h).mem = s.mem := rfl
@[simp] theorem modEd_cmdPort (i : Nat) (h : Ed → Ed) (s : State) : (s.modEd i h).cmdPort = s.cmdPort := rfl
@[simp] theorem modEd_evtPort (i : Nat) (h : Ed → Ed) (s : State) : (s.modEd i h).evtPort = s.evtPort := rfl
@[simp] theorem modEd_env (i : Nat) (h : Ed → Ed) (s : State) : (s.modEd i h).env = s.env := rfl
@[simp] theorem modEd_out (i : Nat) (h : Ed → Ed) (s : State) : (s.modEd i h).out = s.out := rfl

@[simp] theorem modTd_cfg (i : Nat) (h : Td → Td) (s : State) : (s.modTd i h).cfg = s.cfg := rfl
@[simp] theorem modTd_attached (i : Nat) (h : Td → Td) (s : State) : (s.modTd i h).attached = s.attached := rfl
@[simp] theorem modTd_eds (i : Nat) (h : Td → Td) (s : State) : (s.modTd i h).eds = s.eds := rfl
@[simp] theorem modTd_tds (i : Nat) (h : Td → Td) (s : State) : (s.modTd i h).tds = s.tds.modify i h := rfl
@[simp] theorem modTd_toks (i : Nat) (h : Td → Td) (s : State) : (s.modTd i h).toks = s.toks := rfl
@[simp] theorem modTd_txns (i : Nat) (h : Td → Td) (s : State) : (s.modTd i h).txns = s.txns := rfl
@[simp] theorem modTd_pkts (i : Nat) (h : Td → Td) (s : State) : (s.modTd i h).pkts = s.pkts := rfl
@[simp] theorem modTd_ring (i : Nat) (h : Td → Td) (s : State) : (s.modTd i h).ring = s.ring := rfl
@[simp] theorem modTd_dfree (i : Nat) (h : Td → Td) (s : State) : (s.modTd i h).dfree = s.dfree := rfl
@[simp] theorem modTd_efree (i : Nat) (h : Td → Td) (s : State) : (s.modTd i h).efree = s.efree := rfl
@[simp] theorem modTd_tfree (i : Nat) (h : Td → Td) (s : State) : (s.modTd i h).tfree = s.tfree := rfl
@[simp] theorem modTd_kfree (i : Nat) (h : Td → Td) (s : State) : (s.modTd i h).kfree = s.kfree := rfl
@[simp] theorem modTd_xfree (i : Nat) (h : Td → Td) (s : State) : (s.modTd i h).xfree = s.xfree := rfl
@[simp] theorem modTd_cls (i : Nat) (h : Td → Td) (s : State) : (s.modTd i h).cls = s.cls := rfl
@[simp] theorem modTd_frame (i : Nat) (h : Td → Td) (s : State) : (s.modTd i h).frame = s.frame := rfl
@[simp] theorem modTd_done (i : Nat) (h : Td → Td) (s : State) : (s.modTd i h).done = s.done := rfl
@[simp] theorem modTd_frnum (i : Nat) (h : Td → Td) (s : State) : (s.modTd i h).frnum = s.frnum := rfl
@[simp] theorem modTd_bussts (i : Nat) (h : Td → Td) (s : State) : (s.modTd i h).bussts = s.bussts := rfl
@[simp] theorem modTd_drainp (i : Nat) (h : Td → Td) (s : State) : (s.modTd i h).drainp = s.drainp := rfl
@[simp] theorem modTd_lock (i : Nat) (h : Td → Td) (s : State) : (s.modTd i h).lock = s.lock := rfl
@[simp] theorem modTd_diag (i : Nat) (h : Td → Td) (s : State) : (s.modTd i h).diag = s.diag := rfl
@[simp] theorem modTd_mem (i : Nat) (h : Td → Td) (s : State) : (s.modTd i h).mem = s.mem := rfl
@[simp] theorem modTd_cmdPort (i : Nat) (h : Td → Td) (s : State) : (s.modTd i h).cmdPort = s.cmdPort := rfl
@[simp] theorem modTd_evtPort (i : Nat) (h : Td → Td) (s : State) : (s.modTd i h).evtPort = s.evtPort := rfl
@[simp] theorem modTd_env (i : Nat) (h : Td → Td) (s : State) : (s.modTd i h).env = s.env := rfl
@[simp] theorem modTd_out (i : Nat) (h : Td → Td) (s : State) : (s.modTd i h).out = s.out := rfl

@[simp] theorem modTok_cfg (i : Nat) (h : Tok → Tok) (s : State) : (s.modTok i h).cfg = s.cfg := rfl
@[simp] theorem modTok_attached (i : Nat) (h : Tok → Tok) (s : State) : (s.modTok i h).attached = s.attached := rfl
@[simp] theorem modTok_eds (i : Nat) (h : Tok → Tok) (s : State) : (s.modTok i h).eds = s.eds := rfl
@[simp] theorem modTok_tds (i : Nat) (h : Tok → Tok) (s : State) : (s.modTok i h).tds = s.tds := rfl
@[simp] theorem modTok_toks (i : Nat) (h : Tok → Tok) (s : State) : (s.modTok i h).toks = s.toks.modify i h := rfl
@[simp] theorem modTok_txns (i : Nat) (h : Tok → Tok) (s : State) : (s.modTok i h).txns = s.txns := rfl
@[simp] theorem modTok_pkts (i : Nat) (h : Tok → Tok) (s : State) : (s.modTok i h).pkts = s.pkts := rfl
@[simp] theorem modTok_ring (i : Nat) (h : Tok → Tok) (s : State) : (s.modTok i h).ring = s.ring := rfl
@[simp] theorem modTok_dfree (i : Nat) (h : Tok → Tok) (s : State) : (s.modTok i h).dfree = s.dfree := rfl
@[simp] theorem modTok_efree (i : Nat) (h : Tok → Tok) (s : State) : (s.modTok i h).efree = s.efree := rfl
@[simp] theorem modTok_tfree (i : Nat) (h : Tok → Tok) (s : State) : (s.modTok i h).tfree = s.tfree := rfl
@[simp] theorem modTok_kfree (i : Nat) (h : Tok → Tok) (s : State) : (s.modTok i h).kfree = s.kfree := rfl
@[simp] theorem modTok_xfree (i : Nat) (h : Tok → Tok) (s : State) : (s.modTok i h).xfree = s.xfree := rfl
@[simp] theorem modTok_cls (i : Nat) (h : Tok → Tok) (s : State) : (s.modTok i h).cls = s.cls := rfl
@[simp] theorem modTok_frame (i : Nat) (h : Tok → Tok) (s : State) : (s.modTok i h).frame = s.frame := rfl
@[simp] theorem modTok_done (i : Nat) (h : Tok → Tok) (s : State) : (s.modTok i h).done = s.done := rfl
@[simp] theorem modTok_frnum (i : Nat) (h : Tok → Tok) (s : State) : (s.modTok i h).frnum = s.frnum := rfl
@[simp] theorem modTok_bussts (i : Nat) (h : Tok → Tok) (s : State) : (s.modTok i h).bussts = s.bussts := rfl
@[simp] theorem modTok_drainp (i : Nat) (h : Tok → Tok) (s : State) : (s.modTok i h).drainp = s.drainp := rfl
@[simp] theorem modTok_lock (i : Nat) (h : Tok → Tok) (s : State) : (s.modTok i h).lock = s.lock := rfl
@[simp] theorem modTok_diag (i : Nat) (h : Tok → Tok) (s : State) : (s.modTok i h).diag = s.diag := rfl
@[simp] theorem modTok_mem (i : Nat) (h : Tok → Tok) (s : State) : (s.modTok i h).mem = s.mem := rfl
@[simp] theorem modTok_cmdPort (i : Nat) (h : Tok → Tok) (s : State) : (s.modTok i h).cmdPort = s.cmdPort := rfl
@[simp] theorem modTok_evtPort (i : Nat) (h : Tok → Tok) (s : State) : (s.modTok i h).evtPort = s.evtPort := rfl
@[simp] theorem modTok_env (i : Nat) (h : Tok → Tok) (s : State) : (s.modTok i h).env = s.env := rfl
@[simp] theorem modTok_out (i : Nat) (h : Tok → Tok) (s : State) : (s.modTok i h).out = s.out := rfl

@[simp] theorem modTxn_cfg (i : Nat) (h : Txn → Txn) (s : State) : (s.modTxn i h).cfg = s.cfg := rfl
@[simp] theorem modTxn_attached (i : Nat) (h : Txn → Txn) (s : State) : (s.modTxn i h).attached = s.attached := rfl
@[simp] theorem modTxn_eds (i : Nat) (h : Txn → Txn) (s : State) : (s.modTxn i h).eds = s.eds := rfl
@[simp] theorem modTxn_tds (i : Nat) (h : Txn → Txn) (s : State) : (s.modTxn i h).tds = s.tds := rfl
@[simp] theorem modTxn_toks (i : Nat) (h : Txn → Txn) (s : State) : (s.modTxn i h).toks = s.toks := rfl
@[simp] theorem modTxn_txns (i : Nat) (h : Txn → Txn) (s : State) : (s.modTxn i h).txns = s.txns.modify i h := rfl
@[simp] theorem modTxn_pkts (i : Nat) (h : Txn → Txn) (s : State) : (s.modTxn i h).pkts = s.pkts := rfl
@[simp] theorem modTxn_ring (i : Nat) (h : Txn → Txn) (s : State) : (s.modTxn i h).ring = s.ring := rfl
@[simp] theorem modTxn_dfree (i : Nat) (h : Txn → Txn) (s : State) : (s.modTxn i h).dfree = s.dfree := rfl
@[simp] theorem modTxn_efree (i : Nat) (h : Txn → Txn) (s : State) : (s.modTxn i h).efree = s.efree := rfl
@[simp] theorem modTxn_tfree (i : Nat) (h : Txn → Txn) (s : State) : (s.modTxn i h).tfree = s.tfree := rfl
@[simp] theorem modTxn_kfree (i : Nat) (h : Txn → Txn) (s : State) : (s.modTxn i h).kfree = s.kfree := rfl
@[simp] theorem modTxn_xfree (i : Nat) (h : Txn → Txn) (s : State) : (s.modTxn i h).xfree = s.xfree := rfl
@[simp] theorem modTxn_cls (i : Nat) (h : Txn → Txn) (s : State) : (s.modTxn i h).cls = s.cls := rfl
@[simp] theorem modTxn_frame (i : Nat) (h : Txn → Txn) (s : State) : (s.modTxn i h).frame = s.frame := rfl
@[simp] theorem modTxn_done (i : Nat) (h : Txn → Txn) (s : State) : (s.modTxn i h).done = s.done := rfl
@[simp] theorem modTxn_frnum (i : Nat) (h : Txn → Txn) (s : State) : (s.modTxn i h).frnum = s.frnum := rfl
@[simp] theorem modTxn_bussts (i : Nat) (h : Txn → Txn) (s : State) : (s.modTxn i h).bussts = s.bussts := rfl
@[simp] theorem modTxn_drainp (i : Nat) (h : Txn → Txn) (s : State) : (s.modTxn i h).drainp = s.drainp := rfl
@[simp] theorem modTxn_lock (i : Nat) (h : Txn → Txn) (s : State) : (s.modTxn i h).lock = s.lock := rfl
@[simp] theorem modTxn_diag (i : Nat) (h : Txn → Txn) (s : State) : (s.modTxn i h).diag = s.diag := rfl
@[simp] theorem modTxn_mem (i : Nat) (h : Txn → Txn) (s : State) : (s.modTxn i h).mem = s.mem := rfl
@[simp] theorem modTxn_cmdPort (i : Nat) (h : Txn → Txn) (s : State) : (s.modTxn i h).cmdPort = s.cmdPort := rfl
@[simp] theorem modTxn_evtPort (i : Nat) (h : Txn → Txn) (s : State) : (s.modTxn i h).evtPort = s.evtPort := rfl
@[simp] theorem modTxn_env (i : Nat) (h : Txn → Txn) (s : State) : (s.modTxn i h).env = s.env := rfl
@[simp] theorem modTxn_out (i : Nat) (h : Txn → Txn) (s : State) : (s.modTxn i h).out = s.out := rfl

@[simp] theorem modPkt_cfg (i : Nat) (h : Pkt → Pkt) (s : State) : (s.modPkt i h).cfg = s.cfg := rfl
@[simp] theorem modPkt_attached (i : Nat) (h : Pkt → Pkt) (s : State) : (s.modPkt i h).attached = s.attached := rfl
@[simp] theorem modPkt_eds (i : Nat) (h : Pkt → Pkt) (s : State) : (s.modPkt i h).eds = s.eds := rfl
@[simp] theorem modPkt_tds (i : Nat) (h : Pkt → Pkt) (s : State) : (s.modPkt i h).tds = s.tds := rfl
@[simp] theorem modPkt_toks (i : Nat) (h : Pkt → Pkt) (s : State) : (s.modPkt i h).toks = s.toks := rfl
@[simp] theorem modPkt_txns (i : Nat) (h : Pkt → Pkt) (s : State) : (s.modPkt i h).txns = s.txns := rfl
@[simp] theorem modPkt_pkts (i : Nat) (h : Pkt → Pkt) (s : State) : (s.modPkt i h).pkts = s.pkts.modify i h := rfl
@[simp] theorem modPkt_ring (i : Nat) (h : Pkt → Pkt) (s : State) : (s.modPkt i h).ring = s.ring := rfl
@[simp] theorem modPkt_dfree (i : Nat) (h : Pkt → Pkt) (s : State) : (s.modPkt i h).dfree = s.dfree := rfl
@[simp] theorem modPkt_efree (i : Nat) (h : Pkt → Pkt) (s : State) : (s.modPkt i h).efree = s.efree := rfl
@[simp] theorem modPkt_tfree (i : Nat) (h : Pkt → Pkt) (s : State) : (s.modPkt i h).tfree = s.tfree := rfl
@[simp] theorem modPkt_kfree (i : Nat) (h : Pkt → Pkt) (s : State) : (s.modPkt i h).kfree = s.kfree := rfl
@[simp] theorem modPkt_xfree (i : Nat) (h : Pkt → Pkt) (s : State) : (s.modPkt i h).xfree = s.xfree := rfl
@[simp] theorem modPkt_cls (i : Nat) (h : Pkt → Pkt) (s : State) : (s.modPkt i h).cls = s.cls := rfl
@[simp] theorem modPkt_frame (i : Nat) (h : Pkt → Pkt) (s : State) : (s.modPkt i h).frame = s.frame := rfl
@[simp] theorem modPkt_done (i : Nat) (h : Pkt → Pkt) (s : State) : (s.modPkt i h).done = s.done := rfl
@[simp] theorem modPkt_frnum (i : Nat) (h : Pkt → Pkt) (s : State) : (s.modPkt i h).frnum = s.frnum := rfl
@[simp] theorem modPkt_bussts (i : Nat) (h : Pkt → Pkt) (s : State) : (s.modPkt i h).bussts = s.bussts := rfl
@[simp] theorem modPkt_drainp (i : Nat) (h : Pkt → Pkt) (s : State) : (s.modPkt i h).drainp = s.drainp := rfl
@[simp] theorem modPkt_lock (i : Nat) (h : Pkt → Pkt) (s : State) : (s.modPkt i h).lock = s.lock := rfl
@[simp] theorem modPkt_diag (i : Nat) (h : Pkt → Pkt) (s : State) : (s.modPkt i h).diag = s.diag := rfl
@[simp] theorem modPkt_mem (i : Nat) (h : Pkt → Pkt) (s : State) : (s.modPkt i h).mem = s.mem := rfl
@[simp] theorem modPkt_cmdPort (i : Nat) (h : Pkt → Pkt) (s : State) : (s.modPkt i h).cmdPort = s.cmdPort := rfl
@[simp] theorem modPkt_evtPort (i : Nat) (h : Pkt → Pkt) (s : State) : (s.modPkt i h).evtPort = s.evtPort := rfl
@[simp] theorem modPkt_env (i : Nat) (h : Pkt → Pkt) (s : State) : (s.modPkt i h).env = s.env := rfl
@[simp] theorem modPkt_out (i : Nat) (h : Pkt → Pkt) (s : State) : (s.modPkt i h).out = s.out := rfl

@[simp] theorem flagDoubleRelease_cfg (s : State) : s.flagDoubleRelease.cfg = s.cfg := rfl
@[simp] theorem flagDoubleRelease_attached (s : State) : s.flagDoubleRelease.attached = s.attached := rfl
@[simp] theorem flagDoubleRelease_eds (s : State) : s.flagDoubleRelease.eds = s.eds := rfl
@[simp] theorem flagDoubleRelease_tds (s : State) : s.flagDoubleRelease.tds = s.tds := rfl
@[simp] theorem flagDoubleRelease_toks (s : State) : s.flagDoubleRelease.toks = s.toks := rfl
@[simp] theorem flagDoubleRelease_txns (s : State) : s.flagDoubleRelease.txns = s.txns := rfl
@[simp] theorem flagDoubleRelease_pkts (s : State) : s.flagDoubleRelease.pkts = s.pkts := rfl
@[simp] theorem flagDoubleRelease_ring (s : State) : s.flagDoubleRelease.ring = s.ring := rfl
@[simp] theorem flagDoubleRelease_dfree (s : State) : s.flagDoubleRelease.dfree = s.dfree := rfl
@[simp] theorem flagDoubleRelease_efree (s : State) : s.flagDoubleRelease.efree = s.efree := rfl
@[simp] theorem flagDoubleRelease_tfree (s : State) : s.flagDoubleRelease.tfree = s.tfree := rfl
@[simp] theorem flagDoubleRelease_kfree (s : State) : s.flagDoubleRelease.kfree = s.kfree := rfl
@[simp] theorem flagDoubleRelease_xfree (s : State) : s.flagDoubleRelease.xfree = s.xfree := rfl
@[simp] theorem flagDoubleRelease_cls (s : State) : s.flagDoubleRelease.cls = s.cls := rfl
@[simp] theorem flagDoubleRelease_frame (s : State) : s.flagDoubleRelease.frame = s.frame := rfl
@[simp] theorem flagDoubleRelease_done (s : State) : s.flagDoubleRelease.done = s.done := rfl
@[simp] theorem flagDoubleRelease_frnum (s : State) : s.flagDoubleRelease.frnum = s.frnum := rfl
@[simp] theorem flagDoubleRelease_bussts (s : State) : s.flagDoubleRelease.bussts = s.bussts := rfl
@[simp] theorem flagDoubleRelease_drainp (s : State) : s.flagDoubleRelease.drainp = s.drainp := rfl
@[simp] theorem flagDoubleRelease_lock (s : State) : s.flagDoubleRelease.lock = s.lock := rfl
@[simp] theorem flagDoubleRelease_diag (s : State) : s.flagDoubleRelease.diag = { s.diag with doubleRelease := true } := rfl
@[simp] theorem flagDoubleRelease_mem (s : State) : s.flagDoubleRelease.mem = s.mem := rfl
@[simp] theorem flagDoubleRelease_cmdPort (s : State) : s.flagDoubleRelease.cmdPort = s.cmdPort := rfl
@[simp] theorem flagDoubleRelease_evtPort (s : State) : s.flagDoubleRelease.evtPort = s.evtPort := rfl
@[simp] theorem flagDoubleRelease_env (s : State) : s.flagDoubleRelease.env = s.env := rfl
@[simp] theorem flagDoubleRelease_out (s : State) : s.flagDoubleRelease.out = s.out := rfl

@[simp] theorem flagSpuriousConfirm_cfg (s : State) : s.flagSpuriousConfirm.cfg = s.cfg := rfl
@[simp] theorem flagSpuriousConfirm_attached (s : State) : s.flagSpuriousConfirm.attached = s.attached := rfl
@[simp] theorem flagSpuriousConfirm_eds (s : State) : s.flagSpuriousConfirm.eds = s.eds := rfl
@[simp] theorem flagSpuriousConfirm_tds (s : State) : s.flagSpuriousConfirm.tds = s.tds := rfl
@[simp] theorem flagSpuriousConfirm_toks (s : State) : s.flagSpuriousConfirm.toks = s.toks := rfl
@[simp] theorem flagSpuriousConfirm_txns (s : State) : s.flagSpuriousConfirm.txns = s.txns := rfl
@[simp] theorem flagSpuriousConfirm_pkts (s : State) : s.flagSpuriousConfirm.pkts = s.pkts := rfl
@[simp] theorem flagSpuriousConfirm_ring (s : State) : s.flagSpuriousConfirm.ring = s.ring := rfl
@[simp] theorem flagSpuriousConfirm_dfree (s : State) : s.flagSpuriousConfirm.dfree = s.dfree := rfl
@[simp] theorem flagSpuriousConfirm_efree (s : State) : s.flagSpuriousConfirm.efree = s.efree := rfl
@[simp] theorem flagSpuriousConfirm_tfree (s : State) : s.flagSpuriousConfirm.tfree = s.tfree := rfl
@[simp] theorem flagSpuriousConfirm_kfree (s : State) : s.flagSpuriousConfirm.kfree = s.kfree := rfl
@[simp] theorem flagSpuriousConfirm_xfree (s : State) : s.flagSpuriousConfirm.xfree = s.xfree := rfl
@[simp] theorem flagSpuriousConfirm_cls (s : State) : s.flagSpuriousConfirm.cls = s.cls := rfl
@[simp] theorem flagSpuriousConfirm_frame (s : State) : s.flagSpuriousConfirm.frame = s.frame := rfl
@[simp] theorem flagSpuriousConfirm_done (s : State) : s.flagSpuriousConfirm.done = s.done := rfl
@[simp] theorem flagSpuriousConfirm_frnum (s : State) : s.flagSpuriousConfirm.frnum = s.frnum := rfl
@[simp] theorem flagSpuriousConfirm_bussts (s : State) : s.flagSpuriousConfirm.bussts = s.bussts := rfl
@[simp] theorem flagSpuriousConfirm_drainp (s : State) : s.flagSpuriousConfirm.drainp = s.drainp := rfl
@[simp] theorem flagSpuriousConfirm_lock (s : State) : s.flagSpuriousConfirm.lock = s.lock := rfl
@[simp] theorem flagSpuriousConfirm_diag (s : State) : s.flagSpuriousConfirm.diag = { s.diag with spuriousConfirm := true } := rfl
@[simp] theorem flagSpuriousConfirm_mem (s : State) : s.flagSpuriousConfirm.mem = s.mem := rfl
@[simp] theorem flagSpuriousConfirm_cmdPort (s : State) : s.flagSpuriousConfirm.cmdPort = s.cmdPort := rfl
@[simp] theorem flagSpuriousConfirm_evtPort (s : State) : s.flagSpuriousConfirm.evtPort = s.evtPort := rfl
@[simp] theorem flagSpuriousConfirm_env (s : State) : s.flagSpuriousConfirm.env = s.env := rfl
@[simp] theorem flagSpuriousConfirm_out (s : State) : s.flagSpuriousConfirm.out = s.out := rfl

@[simp] theorem flagIllegalEvent_cfg (s : State) : s.flagIllegalEvent.cfg = s.cfg := rfl
@[simp] theorem flagIllegalEvent_attached (s : State) : s.flagIllegalEvent.attached = s.attached := rfl
@[simp] theorem flagIllegalEvent_eds (s : State) : s.flagIllegalEvent.eds = s.eds := rfl
@[simp] theorem flagIllegalEvent_tds (s : State) : s.flagIllegalEvent.tds = s.tds := rfl
@[simp] theorem flagIllegalEvent_toks (s : State) : s.flagIllegalEvent.toks = s.toks := rfl
@[simp] theorem flagIllegalEvent_txns (s : State) : s.flagIllegalEvent.txns = s.txns := rfl
@[simp] theorem flagIllegalEvent_pkts (s : State) : s.flagIllegalEvent.pkts = s.pkts := rfl
@[simp] theorem flagIllegalEvent_ring (s : State) : s.flagIllegalEvent.ring = s.ring := rfl
@[simp] theorem flagIllegalEvent_dfree (s : State) : s.flagIllegalEvent.dfree = s.dfree := rfl
@[simp] theorem flagIllegalEvent_efree (s : State) : s.flagIllegalEvent.efree = s.efree := rfl
@[simp] theorem flagIllegalEvent_tfree (s : State) : s.flagIllegalEvent.tfree = s.tfree := rfl
@[simp] theorem flagIllegalEvent_kfree (s : State) : s.flagIllegalEvent.kfree = s.kfree := rfl
@[simp] theorem flagIllegalEvent_xfree (s : State) : s.flagIllegalEvent.xfree = s.xfree := rfl
@[simp] theorem flagIllegalEvent_cls (s : State) : s.flagIllegalEvent.cls = s.cls := rfl
@[simp] theorem flagIllegalEvent_frame (s : State) : s.flagIllegalEvent.frame = s.frame := rfl
@[simp] theorem flagIllegalEvent_done (s : State) : s.flagIllegalEvent.done = s.done := rfl
@[simp] theorem flagIllegalEvent_frnum (s : State) : s.flagIllegalEvent.frnum = s.frnum := rfl
@[simp] theorem flagIllegalEvent_bussts (s : State) : s.flagIllegalEvent.bussts = s.bussts := rfl
@[simp] theorem flagIllegalEvent_drainp (s : State) : s.flagIllegalEvent.drainp = s.drainp := rfl
@[simp] theorem flagIllegalEvent_lock (s : State) : s.flagIllegalEvent.lock = s.lock := rfl
@[simp] theorem flagIllegalEvent_diag (s : State) : s.flagIllegalEvent.diag = { s.diag with illegalEvent := true } := rfl
@[simp] theorem flagIllegalEvent_mem (s : State) : s.flagIllegalEvent.mem = s.mem := rfl
@[simp] theorem flagIllegalEvent_cmdPort (s : State) : s.flagIllegalEvent.cmdPort = s.cmdPort := rfl
@[simp] theorem flagIllegalEvent_evtPort (s : State) : s.flagIllegalEvent.evtPort = s.evtPort := rfl
@[simp] theorem flagIllegalEvent_env (s : State) : s.flagIllegalEvent.env = s.env := rfl
@[simp] theorem flagIllegalEvent_out (s : State) : s.flagIllegalEvent.out = s.out := rfl

@[simp] theorem flagRxOverlen_cfg (s : State) : s.flagRxOverlen.cfg = s.cfg := rfl
@[simp] theorem flagRxOverlen_attached (s : State) : s.flagRxOverlen.attached = s.attached := rfl
@[simp] theorem flagRxOverlen_eds (s : State) : s.flagRxOverlen.eds = s.eds := rfl
@[simp] theorem flagRxOverlen_tds (s : State) : s.flagRxOverlen.tds = s.tds := rfl
@[simp] theorem flagRxOverlen_toks (s : State) : s.flagRxOverlen.toks = s.toks := rfl
@[simp] theorem flagRxOverlen_txns (s : State) : s.flagRxOverlen.txns = s.txns := rfl
@[simp] theorem flagRxOverlen_pkts (s : State) : s.flagRxOverlen.pkts = s.pkts := rfl
@[simp] theorem flagRxOverlen_ring (s : State) : s.flagRxOverlen.ring = s.ring := rfl
@[simp] theorem flagRxOverlen_dfree (s : State) : s.flagRxOverlen.dfree = s.dfree := rfl
@[simp] theorem flagRxOverlen_efree (s : State) : s.flagRxOverlen.efree = s.efree := rfl
@[simp] theorem flagRxOverlen_tfree (s : State) : s.flagRxOverlen.tfree = s.tfree := rfl
@[simp] theorem flagRxOverlen_kfree (s : State) : s.flagRxOverlen.kfree = s.kfree := rfl
@[simp] theorem flagRxOverlen_xfree (s : State) : s.flagRxOverlen.xfree = s.xfree := rfl
@[simp] theorem flagRxOverlen_cls (s : State) : s.flagRxOverlen.cls = s.cls := rfl
@[simp] theorem flagRxOverlen_frame (s : State) : s.flagRxOverlen.frame = s.frame := rfl
@[simp] theorem flagRxOverlen_done (s : State) : s.flagRxOverlen.done = s.done := rfl
@[simp] theorem flagRxOverlen_frnum (s : State) : s.flagRxOverlen.frnum = s.frnum := rfl
@[simp] theorem flagRxOverlen_bussts (s : State) : s.flagRxOverlen.bussts = s.bussts := rfl
@[simp] theorem flagRxOverlen_drainp (s : State) : s.flagRxOverlen.drainp = s.drainp := rfl
@[simp] theorem flagRxOverlen_lock (s : State) : s.flagRxOverlen.lock = s.lock := rfl
@[simp] theorem flagRxOverlen_diag (s : State) : s.flagRxOverlen.diag = { s.diag with rxOverlen := true } := rfl
@[simp] theorem flagRxOverlen_mem (s : State) : s.flagRxOverlen.mem = s.mem := rfl
@[simp] theorem flagRxOverlen_cmdPort (s : State) : s.flagRxOverlen.cmdPort = s.cmdPort := rfl
@[simp] theorem flagRxOverlen_evtPort (s : State) : s.flagRxOverlen.evtPort = s.evtPort := rfl
@[simp] theorem flagRxOverlen_env (s : State) : s.flagRxOverlen.env = s.env := rfl
@[simp] theorem flagRxOverlen_out (s : State) : s.flagRxOverlen.out = s.out := rfl

@[simp] theorem emit_cfg (o : Output) (s : State) : (s.emit o).cfg = s.cfg := rfl
@[simp] theorem emit_attached (o : Output) (s : State) : (s.emit o).attached = s.attached := rfl
@[simp] theorem emit_eds (o : Output) (s : State) : (s.emit o).eds = s.eds := rfl
@[simp] theorem emit_tds (o : Output) (s : State) : (s.emit o).tds = s.tds := rfl
@[simp] theorem emit_toks (o : Output) (s : State) : (s.emit o).toks = s.toks := rfl
@[simp] theorem emit_txns (o : Output) (s : State) : (s.emit o).txns = s.txns := rfl
@[simp] theorem emit_pkts (o : Output) (s : State) : (s.emit o).pkts = s.pkts := rfl
@[simp] theorem emit_ring (o : Output) (s : State) : (s.emit o).ring = s.ring := rfl
@[simp] theorem emit_dfree (o : Output) (s : State) : (s.emit o).dfree = s.dfree := rfl
@[simp] theorem emit_efree (o : Output) (s : State) : (s.emit o).efree = s.efree := rfl
@[simp] theorem emit_tfree (o : Output) (s : State) : (s.emit o).tfree = s.tfree := rfl
@[simp] theorem emit_kfree (o : Output) (s : State) : (s.emit o).kfree = s.kfree := rfl
@[simp] theorem emit_xfree (o : Output) (s : State) : (s.emit o).xfree = s.xfree := rfl
@[simp] theorem emit_cls (o : Output) (s : State) : (s.emit o).cls = s.cls := rfl
@[simp] theorem emit_frame (o : Output) (s : State) : (s.emit o).frame = s.frame := rfl
@[simp] theorem emit_done (o : Output) (s : State) : (s.emit o).done = s.done := rfl
@[simp] theorem emit_frnum (o : Output) (s : State) : (s.emit o).frnum = s.frnum := rfl
@[simp] theorem emit_bussts (o : Output) (s : State) : (s.emit o).bussts = s.bussts := rfl
@[simp] theorem emit_drainp (o : Output) (s : State) : (s.emit o).drainp = s.drainp := rfl
@[simp] theorem emit_lock (o : Output) (s : State) : (s.emit o).lock = s.lock := rfl
@[simp] theorem emit_diag (o : Output) (s : State) : (s.emit o).diag = s.diag := rfl
@[simp] theorem emit_mem (o : Output) (s : State) : (s.emit o).mem = s.mem := rfl
@[simp] theorem emit_cmdPort (o : Output) (s : State) : (s.emit o).cmdPort = s.cmdPort := rfl
@[simp] theorem emit_evtPort (o : Output) (s : State) : (s.emit o).evtPort = s.evtPort := rfl
@[simp] theorem emit_env (o : Output) (s : State) : (s.emit o).env = s.env := rfl
@[simp] theorem emit_out (o : Output) (s : State) : (s.emit o).out = s.out ++ [o] := rfl

@[simp] theorem memWrite_cfg (a : Addr) (v : Word) (s : State) : (s.memWrite a v).cfg = s.cfg := rfl
@[simp] theorem memWrite_attached (a : Addr) (v : Word) (s : State) : (s.memWrite a v).attached = s.attached := rfl
@[simp] theorem memWrite_eds (a : Addr) (v : Word) (s : State) : (s.memWrite a v).eds = s.eds := rfl
@[simp] theorem memWrite_tds (a : Addr) (v : Word) (s : State) : (s.memWrite a v).tds = s.tds := rfl
@[simp] theorem memWrite_toks (a : Addr) (v : Word) (s : State) : (s.memWrite a v).toks = s.toks := rfl
@[simp] theorem memWrite_txns (a : Addr) (v : Word) (s : State) : (s.memWrite a v).txns = s.txns := rfl
@[simp] theorem memWrite_pkts (a : Addr) (v : Word) (s : State) : (s.memWrite a v).pkts = s.pkts := rfl
@[simp] theorem memWrite_ring (a : Addr) (v : Word) (s : State) : (s.memWrite a v).ring = s.ring := rfl
@[simp] theorem memWrite_dfree (a : Addr) (v : Word) (s : State) : (s.memWrite a v).dfree = s.dfree := rfl
@[simp] theorem memWrite_efree (a : Addr) (v : Word) (s : State) : (s.memWrite a v).efree = s.efree := rfl
@[simp] theorem memWrite_tfree (a : Addr) (v : Word) (s : State) : (s.memWrite a v).tfree = s.tfree := rfl
@[simp] theorem memWrite_kfree (a : Addr) (v : Word) (s : State) : (s.memWrite a v).kfree = s.kfree := rfl
@[simp] theorem memWrite_xfree (a : Addr) (v : Word) (s : State) : (s.memWrite a v).xfree = s.xfree := rfl
@[simp] theorem memWrite_cls (a : Addr) (v : Word) (s : State) : (s.memWrite a v).cls = s.cls := rfl
@[simp] theorem memWrite_frame (a : Addr) (v : Word) (s : State) : (s.memWrite a v).frame = s.frame := rfl
@[simp] theorem memWrite_done (a : Addr) (v : Word) (s : State) : (s.memWrite a v).done = s.done := rfl
@[simp] theorem memWrite_frnum (a : Addr) (v : Word) (s : State) : (s.memWrite a v).frnum = s.frnum := rfl
@[simp] theorem memWrite_bussts (a : Addr) (v : Word) (s : State) : (s.memWrite a v).bussts = s.bussts := rfl
@[simp] theorem memWrite_drainp (a : Addr) (v : Word) (s : State) : (s.memWrite a v).drainp = s.drainp := rfl
@[simp] theorem memWrite_lock (a : Addr) (v : Word) (s : State) : (s.memWrite a v).lock = s.lock := rfl
@[simp] theorem memWrite_diag (a : Addr) (v : Word) (s : State) : (s.memWrite a v).diag = s.diag := rfl
@[simp] theorem memWrite_mem (a : Addr) (v : Word) (s : State) : (s.memWrite a v).mem = s.mem.write32 s.cfg a v := rfl
@[simp] theorem memWrite_cmdPort (a : Addr) (v : Word) (s : State) : (s.memWrite a v).cmdPort = s.cmdPort := rfl
@[simp] theorem memWrite_evtPort (a : Addr) (v : Word) (s : State) : (s.memWrite a v).evtPort = s.evtPort := rfl
@[simp] theorem memWrite_env (a : Addr) (v : Word) (s : State) : (s.memWrite a v).env = s.env := rfl
@[simp] theorem memWrite_out (a : Addr) (v : Word) (s : State) : (s.memWrite a v).out = s.out ++ [.memWrite (wrapAddr s.cfg a) v] := rfl

end Sys2Proof.Machine.State

namespace Sys2Proof.Machine

/-- The entry an update of `Ed` names, where the index is in the pool. -/
theorem modEd_ed_self (i : Nat) (h : Ed → Ed) (s : State) (hi : i < s.eds.length) :
    (s.modEd i h).ed i = h (s.ed i) := by
  simp [State.ed, List.getD_eq_getElem?_getD, hi]

/-- Every other entry is left alone. -/
theorem modEd_ed_other (i j : Nat) (h : Ed → Ed) (s : State) (hij : i ≠ j) :
    (s.modEd i h).ed j = s.ed j := by
  simp [State.ed, List.getD_eq_getElem?_getD, hij]

/-- An entry other than the reset one lies in its pool. -/
theorem ed_lt_of_ne_initial (s : State) (i : Nat) (h : s.ed i ≠ Ed.initial) : i < s.eds.length := by
  by_contra hn
  exact h (by simp [State.ed, List.getD_eq_getElem?_getD, List.getElem?_eq_none (Nat.le_of_not_lt hn)])

/-- The entry an update of `Td` names, where the index is in the pool. -/
theorem modTd_td_self (i : Nat) (h : Td → Td) (s : State) (hi : i < s.tds.length) :
    (s.modTd i h).td i = h (s.td i) := by
  simp [State.td, List.getD_eq_getElem?_getD, hi]

/-- Every other entry is left alone. -/
theorem modTd_td_other (i j : Nat) (h : Td → Td) (s : State) (hij : i ≠ j) :
    (s.modTd i h).td j = s.td j := by
  simp [State.td, List.getD_eq_getElem?_getD, hij]

/-- An entry other than the reset one lies in its pool. -/
theorem td_lt_of_ne_initial (s : State) (i : Nat) (h : s.td i ≠ Td.initial) : i < s.tds.length := by
  by_contra hn
  exact h (by simp [State.td, List.getD_eq_getElem?_getD, List.getElem?_eq_none (Nat.le_of_not_lt hn)])

/-- The entry an update of `Tok` names, where the index is in the pool. -/
theorem modTok_tok_self (i : Nat) (h : Tok → Tok) (s : State) (hi : i < s.toks.length) :
    (s.modTok i h).tok i = h (s.tok i) := by
  simp [State.tok, List.getD_eq_getElem?_getD, hi]

/-- Every other entry is left alone. -/
theorem modTok_tok_other (i j : Nat) (h : Tok → Tok) (s : State) (hij : i ≠ j) :
    (s.modTok i h).tok j = s.tok j := by
  simp [State.tok, List.getD_eq_getElem?_getD, hij]

/-- An entry other than the reset one lies in its pool. -/
theorem tok_lt_of_ne_initial (s : State) (i : Nat) (h : s.tok i ≠ Tok.initial) : i < s.toks.length := by
  by_contra hn
  exact h (by simp [State.tok, List.getD_eq_getElem?_getD, List.getElem?_eq_none (Nat.le_of_not_lt hn)])

/-- The entry an update of `Txn` names, where the index is in the pool. -/
theorem modTxn_txn_self (i : Nat) (h : Txn → Txn) (s : State) (hi : i < s.txns.length) :
    (s.modTxn i h).txn i = h (s.txn i) := by
  simp [State.txn, List.getD_eq_getElem?_getD, hi]

/-- Every other entry is left alone. -/
theorem modTxn_txn_other (i j : Nat) (h : Txn → Txn) (s : State) (hij : i ≠ j) :
    (s.modTxn i h).txn j = s.txn j := by
  simp [State.txn, List.getD_eq_getElem?_getD, hij]

/-- An entry other than the reset one lies in its pool. -/
theorem txn_lt_of_ne_initial (s : State) (i : Nat) (h : s.txn i ≠ Txn.initial) : i < s.txns.length := by
  by_contra hn
  exact h (by simp [State.txn, List.getD_eq_getElem?_getD, List.getElem?_eq_none (Nat.le_of_not_lt hn)])

/-- The entry an update of `Pkt` names, where the index is in the pool. -/
theorem modPkt_pkt_self (i : Nat) (h : Pkt → Pkt) (s : State) (hi : i < s.pkts.length) :
    (s.modPkt i h).pkt i = h (s.pkt i) := by
  simp [State.pkt, List.getD_eq_getElem?_getD, hi]

/-- Every other entry is left alone. -/
theorem modPkt_pkt_other (i j : Nat) (h : Pkt → Pkt) (s : State) (hij : i ≠ j) :
    (s.modPkt i h).pkt j = s.pkt j := by
  simp [State.pkt, List.getD_eq_getElem?_getD, hij]

/-- An entry other than the reset one lies in its pool. -/
theorem pkt_lt_of_ne_initial (s : State) (i : Nat) (h : s.pkt i ≠ Pkt.initial) : i < s.pkts.length := by
  by_contra hn
  exact h (by simp [State.pkt, List.getD_eq_getElem?_getD, List.getElem?_eq_none (Nat.le_of_not_lt hn)])

/-- States with the same pool have the same entries. -/
theorem ed_congr {s t : State} (h : t.eds = s.eds) (i : Nat) : t.ed i = s.ed i := by
  simp only [State.ed, h]

/-- An update that keeps a property of the entry it names keeps it of every entry. -/
theorem modEd_keeps {α : Type} (p : Ed → α) (i : Nat) (g : Ed → Ed) (s : State)
    (hg : p (g (s.ed i)) = p (s.ed i)) (j : Nat) :
    p ((s.modEd i g).ed j) = p (s.ed j) := by
  by_cases hij : i = j
  · subst hij
    by_cases hi : i < s.eds.length
    · rw [modEd_ed_self i g s hi, hg]
    · simp [State.ed, List.getD_eq_getElem?_getD, hi]
  · rw [modEd_ed_other i j g s hij]

/-- States with the same pool have the same entries. -/
theorem td_congr {s t : State} (h : t.tds = s.tds) (i : Nat) : t.td i = s.td i := by
  simp only [State.td, h]

/-- An update that keeps a property of the entry it names keeps it of every entry. -/
theorem modTd_keeps {α : Type} (p : Td → α) (i : Nat) (g : Td → Td) (s : State)
    (hg : p (g (s.td i)) = p (s.td i)) (j : Nat) :
    p ((s.modTd i g).td j) = p (s.td j) := by
  by_cases hij : i = j
  · subst hij
    by_cases hi : i < s.tds.length
    · rw [modTd_td_self i g s hi, hg]
    · simp [State.td, List.getD_eq_getElem?_getD, hi]
  · rw [modTd_td_other i j g s hij]

/-- States with the same pool have the same entries. -/
theorem tok_congr {s t : State} (h : t.toks = s.toks) (i : Nat) : t.tok i = s.tok i := by
  simp only [State.tok, h]

/-- An update that keeps a property of the entry it names keeps it of every entry. -/
theorem modTok_keeps {α : Type} (p : Tok → α) (i : Nat) (g : Tok → Tok) (s : State)
    (hg : p (g (s.tok i)) = p (s.tok i)) (j : Nat) :
    p ((s.modTok i g).tok j) = p (s.tok j) := by
  by_cases hij : i = j
  · subst hij
    by_cases hi : i < s.toks.length
    · rw [modTok_tok_self i g s hi, hg]
    · simp [State.tok, List.getD_eq_getElem?_getD, hi]
  · rw [modTok_tok_other i j g s hij]

/-- States with the same pool have the same entries. -/
theorem txn_congr {s t : State} (h : t.txns = s.txns) (i : Nat) : t.txn i = s.txn i := by
  simp only [State.txn, h]

/-- An update that keeps a property of the entry it names keeps it of every entry. -/
theorem modTxn_keeps {α : Type} (p : Txn → α) (i : Nat) (g : Txn → Txn) (s : State)
    (hg : p (g (s.txn i)) = p (s.txn i)) (j : Nat) :
    p ((s.modTxn i g).txn j) = p (s.txn j) := by
  by_cases hij : i = j
  · subst hij
    by_cases hi : i < s.txns.length
    · rw [modTxn_txn_self i g s hi, hg]
    · simp [State.txn, List.getD_eq_getElem?_getD, hi]
  · rw [modTxn_txn_other i j g s hij]

/-- States with the same pool have the same entries. -/
theorem pkt_congr {s t : State} (h : t.pkts = s.pkts) (i : Nat) : t.pkt i = s.pkt i := by
  simp only [State.pkt, h]

/-- An update that keeps a property of the entry it names keeps it of every entry. -/
theorem modPkt_keeps {α : Type} (p : Pkt → α) (i : Nat) (g : Pkt → Pkt) (s : State)
    (hg : p (g (s.pkt i)) = p (s.pkt i)) (j : Nat) :
    p ((s.modPkt i g).pkt j) = p (s.pkt j) := by
  by_cases hij : i = j
  · subst hij
    by_cases hi : i < s.pkts.length
    · rw [modPkt_pkt_self i g s hi, hg]
    · simp [State.pkt, List.getD_eq_getElem?_getD, hi]
  · rw [modPkt_pkt_other i j g s hij]

/-- A class list put back is read back, and the others are as they were. -/
theorem Classes.get_set (c : Classes) (m k : Mode) (l : List Nat) :
    (c.set m l).get k = if k = m then l else c.get k := by
  cases m <;> cases k <;> rfl

end Sys2Proof.Machine
end

