-- ==== Sys2Proof/Laws/Frames.lean ====
section
/-! SUPPORT. Laws/Frames.lean: for each shared operation, the fields it can change. -/

namespace Sys2Proof.Machine

/-! How frames compose. -/

theorem Framed.refl (c : List Field) (s : State) : Framed c s s := by
  intro f _
  cases f <;> rfl

theorem Framed.mono {c d : List Field} {s t : State} (h : Framed c s t) (hcd : ∀ f ∈ c, f ∈ d) : Framed d s t :=
  fun f hf => h f (fun hc => hf (hcd f hc))

theorem agree_trans {f : Field} {s t u : State} (h : agree f s t) (k : agree f t u) : agree f s u := by
  cases f <;> exact Eq.trans k h

theorem Framed.trans {c : List Field} {s t u : State} (h : Framed c s t) (k : Framed c t u) : Framed c s u :=
  fun f hf => agree_trans (h f hf) (k f hf)

/-- Two changes one after the other change at most what either changes. -/
theorem Framed.comp {c d e : List Field} {s t u : State} (h : Framed c s t) (k : Framed d t u)
    (hc : ∀ f ∈ c, f ∈ e) (hd : ∀ f ∈ d, f ∈ e) : Framed e s u := (h.mono hc).trans (k.mono hd)

/-- A conditional changes at most what its branches change. -/
theorem Framed.ite {c : List Field} {p : Prop} [Decidable p] {s t u : State} (h : Framed c s t)
    (k : Framed c s u) : Framed c s (if p then t else u) := by
  split
  · exact h
  · exact k

/-! What a frame leaves alone, field by field. -/

theorem Framed.cfg_eq {c : List Field} {s t : State} (h : Framed c s t) (hf : Field.cfg ∉ c) : t.cfg = s.cfg := h .cfg hf
theorem Framed.attached_eq {c : List Field} {s t : State} (h : Framed c s t) (hf : Field.attached ∉ c) : t.attached = s.attached := h .attached hf
theorem Framed.eds_eq {c : List Field} {s t : State} (h : Framed c s t) (hf : Field.eds ∉ c) : t.eds = s.eds := h .eds hf
theorem Framed.tds_eq {c : List Field} {s t : State} (h : Framed c s t) (hf : Field.tds ∉ c) : t.tds = s.tds := h .tds hf
theorem Framed.toks_eq {c : List Field} {s t : State} (h : Framed c s t) (hf : Field.toks ∉ c) : t.toks = s.toks := h .toks hf
theorem Framed.txns_eq {c : List Field} {s t : State} (h : Framed c s t) (hf : Field.txns ∉ c) : t.txns = s.txns := h .txns hf
theorem Framed.pkts_eq {c : List Field} {s t : State} (h : Framed c s t) (hf : Field.pkts ∉ c) : t.pkts = s.pkts := h .pkts hf
theorem Framed.ring_eq {c : List Field} {s t : State} (h : Framed c s t) (hf : Field.ring ∉ c) : t.ring = s.ring := h .ring hf
theorem Framed.dfree_eq {c : List Field} {s t : State} (h : Framed c s t) (hf : Field.dfree ∉ c) : t.dfree = s.dfree := h .dfree hf
theorem Framed.efree_eq {c : List Field} {s t : State} (h : Framed c s t) (hf : Field.efree ∉ c) : t.efree = s.efree := h .efree hf
theorem Framed.tfree_eq {c : List Field} {s t : State} (h : Framed c s t) (hf : Field.tfree ∉ c) : t.tfree = s.tfree := h .tfree hf
theorem Framed.kfree_eq {c : List Field} {s t : State} (h : Framed c s t) (hf : Field.kfree ∉ c) : t.kfree = s.kfree := h .kfree hf
theorem Framed.xfree_eq {c : List Field} {s t : State} (h : Framed c s t) (hf : Field.xfree ∉ c) : t.xfree = s.xfree := h .xfree hf
theorem Framed.cls_eq {c : List Field} {s t : State} (h : Framed c s t) (hf : Field.cls ∉ c) : t.cls = s.cls := h .cls hf
theorem Framed.frame_eq {c : List Field} {s t : State} (h : Framed c s t) (hf : Field.frame ∉ c) : t.frame = s.frame := h .frame hf
theorem Framed.done_eq {c : List Field} {s t : State} (h : Framed c s t) (hf : Field.done ∉ c) : t.done = s.done := h .done hf
theorem Framed.frnum_eq {c : List Field} {s t : State} (h : Framed c s t) (hf : Field.frnum ∉ c) : t.frnum = s.frnum := h .frnum hf
theorem Framed.bussts_eq {c : List Field} {s t : State} (h : Framed c s t) (hf : Field.bussts ∉ c) : t.bussts = s.bussts := h .bussts hf
theorem Framed.drainp_eq {c : List Field} {s t : State} (h : Framed c s t) (hf : Field.drainp ∉ c) : t.drainp = s.drainp := h .drainp hf
theorem Framed.lock_eq {c : List Field} {s t : State} (h : Framed c s t) (hf : Field.lock ∉ c) : t.lock = s.lock := h .lock hf
theorem Framed.diag_eq {c : List Field} {s t : State} (h : Framed c s t) (hf : Field.diag ∉ c) : t.diag = s.diag := h .diag hf
theorem Framed.mem_eq {c : List Field} {s t : State} (h : Framed c s t) (hf : Field.mem ∉ c) : t.mem = s.mem := h .mem hf
theorem Framed.cmdPort_eq {c : List Field} {s t : State} (h : Framed c s t) (hf : Field.cmdPort ∉ c) : t.cmdPort = s.cmdPort := h .cmdPort hf
theorem Framed.evtPort_eq {c : List Field} {s t : State} (h : Framed c s t) (hf : Field.evtPort ∉ c) : t.evtPort = s.evtPort := h .evtPort hf
theorem Framed.env_eq {c : List Field} {s t : State} (h : Framed c s t) (hf : Field.env ∉ c) : t.env = s.env := h .env hf
theorem Framed.out_eq {c : List Field} {s t : State} (h : Framed c s t) (hf : Field.out ∉ c) : t.out = s.out := h .out hf

/-! The single-field updates. -/

theorem setEds_framed (v : List Ed) (s : State) : Framed [.eds] s (s.setEds v) := by
  intro f hf
  cases f <;> first | rfl | simp at hf
theorem setTds_framed (v : List Td) (s : State) : Framed [.tds] s (s.setTds v) := by
  intro f hf
  cases f <;> first | rfl | simp at hf
theorem setToks_framed (v : List Tok) (s : State) : Framed [.toks] s (s.setToks v) := by
  intro f hf
  cases f <;> first | rfl | simp at hf
theorem setTxns_framed (v : List Txn) (s : State) : Framed [.txns] s (s.setTxns v) := by
  intro f hf
  cases f <;> first | rfl | simp at hf
theorem setPkts_framed (v : List Pkt) (s : State) : Framed [.pkts] s (s.setPkts v) := by
  intro f hf
  cases f <;> first | rfl | simp at hf
theorem setRing_framed (v : PktRing) (s : State) : Framed [.ring] s (s.setRing v) := by
  intro f hf
  cases f <;> first | rfl | simp at hf
theorem setDfree_framed (v : List Nat) (s : State) : Framed [.dfree] s (s.setDfree v) := by
  intro f hf
  cases f <;> first | rfl | simp at hf
theorem setEfree_framed (v : List Nat) (s : State) : Framed [.efree] s (s.setEfree v) := by
  intro f hf
  cases f <;> first | rfl | simp at hf
theorem setTfree_framed (v : List Nat) (s : State) : Framed [.tfree] s (s.setTfree v) := by
  intro f hf
  cases f <;> first | rfl | simp at hf
theorem setKfree_framed (v : List Nat) (s : State) : Framed [.kfree] s (s.setKfree v) := by
  intro f hf
  cases f <;> first | rfl | simp at hf
theorem setXfree_framed (v : List Nat) (s : State) : Framed [.xfree] s (s.setXfree v) := by
  intro f hf
  cases f <;> first | rfl | simp at hf
theorem setCls_framed (v : Classes) (s : State) : Framed [.cls] s (s.setCls v) := by
  intro f hf
  cases f <;> first | rfl | simp at hf
theorem setFrame_framed (v : Frame) (s : State) : Framed [.frame] s (s.setFrame v) := by
  intro f hf
  cases f <;> first | rfl | simp at hf
theorem setDone_framed (v : List Nat) (s : State) : Framed [.done] s (s.setDone v) := by
  intro f hf
  cases f <;> first | rfl | simp at hf
theorem setFrnum_framed (v : BitVec 16) (s : State) : Framed [.frnum] s (s.setFrnum v) := by
  intro f hf
  cases f <;> first | rfl | simp at hf
theorem setBussts_framed (v : BusSts) (s : State) : Framed [.bussts] s (s.setBussts v) := by
  intro f hf
  cases f <;> first | rfl | simp at hf
theorem setDrainp_framed (v : Bool) (s : State) : Framed [.drainp] s (s.setDrainp v) := by
  intro f hf
  cases f <;> first | rfl | simp at hf
theorem setLock_framed (v : Lock) (s : State) : Framed [.lock] s (s.setLock v) := by
  intro f hf
  cases f <;> first | rfl | simp at hf
theorem setMem_framed (v : Memory) (s : State) : Framed [.mem] s (s.setMem v) := by
  intro f hf
  cases f <;> first | rfl | simp at hf
theorem setCmdPort_framed (v : List Word) (s : State) : Framed [.cmdPort] s (s.setCmdPort v) := by
  intro f hf
  cases f <;> first | rfl | simp at hf
theorem setEvtPort_framed (v : List Word) (s : State) : Framed [.evtPort] s (s.setEvtPort v) := by
  intro f hf
  cases f <;> first | rfl | simp at hf
theorem setEnv_framed (v : Env) (s : State) : Framed [.env] s (s.setEnv v) := by
  intro f hf
  cases f <;> first | rfl | simp at hf
theorem emit_framed (v : Output) (s : State) : Framed [.out] s (s.emit v) := by
  intro f hf
  cases f <;> first | rfl | simp at hf
theorem modEd_framed (i : Nat) (g : Ed → Ed) (s : State) : Framed [.eds] s (s.modEd i g) := by
  intro f hf
  cases f <;> first | rfl | simp at hf
theorem modTd_framed (i : Nat) (g : Td → Td) (s : State) : Framed [.tds] s (s.modTd i g) := by
  intro f hf
  cases f <;> first | rfl | simp at hf
theorem modTok_framed (i : Nat) (g : Tok → Tok) (s : State) : Framed [.toks] s (s.modTok i g) := by
  intro f hf
  cases f <;> first | rfl | simp at hf
theorem modTxn_framed (i : Nat) (g : Txn → Txn) (s : State) : Framed [.txns] s (s.modTxn i g) := by
  intro f hf
  cases f <;> first | rfl | simp at hf
theorem modPkt_framed (i : Nat) (g : Pkt → Pkt) (s : State) : Framed [.pkts] s (s.modPkt i g) := by
  intro f hf
  cases f <;> first | rfl | simp at hf
theorem flagDoubleRelease_framed (s : State) : Framed [.diag] s s.flagDoubleRelease := by
  intro f hf
  cases f <;> first | rfl | simp at hf
theorem flagSpuriousConfirm_framed (s : State) : Framed [.diag] s s.flagSpuriousConfirm := by
  intro f hf
  cases f <;> first | rfl | simp at hf
theorem flagIllegalEvent_framed (s : State) : Framed [.diag] s s.flagIllegalEvent := by
  intro f hf
  cases f <;> first | rfl | simp at hf
theorem flagRxOverlen_framed (s : State) : Framed [.diag] s s.flagRxOverlen := by
  intro f hf
  cases f <;> first | rfl | simp at hf

/-! Memory, services, pools. -/

theorem memWrite_framed (a : Addr) (v : Word) (s : State) : Framed [.mem, .out] s (s.memWrite a v) :=
  (setMem_framed _ _).comp (emit_framed _ _) (by decide) (by decide)

theorem ringSubmit_framed (d : TxDesc) (s : State) : Framed [.env, .out] s (ringSubmit d s).2 := by
  unfold ringSubmit
  split <;> exact (setEnv_framed _ _).comp (emit_framed _ _) (by decide) (by decide)

theorem sofRemaining_framed (s : State) : Framed [.env] s (sofRemaining s).2 := by
  unfold sofRemaining
  split <;> exact setEnv_framed _ _

theorem pktAcquire_framed (s : State) : Framed [.ring, .pkts] s (pktAcquire s).2 := by
  unfold pktAcquire
  split
  · exact Framed.refl _ _
  · exact (setRing_framed _ _).comp (modPkt_framed _ _ _) (by decide) (by decide)

theorem pktRelease_framed (p : Nat) (s : State) : Framed [.ring, .pkts, .diag] s (pktRelease p s) := by
  unfold pktRelease
  split
  · exact (flagDoubleRelease_framed s).mono (by decide)
  · exact (modPkt_framed _ _ _).comp (setRing_framed _ _) (by decide) (by decide)

theorem edAlloc_framed (s : State) : Framed [.efree, .eds] s (edAlloc s).2 := by
  unfold edAlloc
  split
  · exact Framed.refl _ _
  · exact (setEfree_framed _ _).comp (modEd_framed _ _ _) (by decide) (by decide)

theorem edFree_framed (i : Nat) (s : State) : Framed [.efree, .eds, .diag] s (edFree i s) := by
  unfold edFree
  split
  · exact (flagDoubleRelease_framed s).mono (by decide)
  · exact (modEd_framed _ _ _).comp (setEfree_framed _ _) (by decide) (by decide)

theorem tdAlloc_framed (s : State) : Framed [.tfree, .tds] s (tdAlloc s).2 := by
  unfold tdAlloc
  split
  · exact Framed.refl _ _
  · exact (setTfree_framed _ _).comp (modTd_framed _ _ _) (by decide) (by decide)

theorem tdFree_framed (i : Nat) (s : State) : Framed [.tfree, .tds, .diag] s (tdFree i s) := by
  unfold tdFree
  split
  · exact (flagDoubleRelease_framed s).mono (by decide)
  · exact (modTd_framed _ _ _).comp (setTfree_framed _ _) (by decide) (by decide)

theorem tokenAlloc_framed (s : State) : Framed [.kfree, .toks] s (tokenAlloc s).2 := by
  unfold tokenAlloc
  split
  · exact Framed.refl _ _
  · exact (setKfree_framed _ _).comp (modTok_framed _ _ _) (by decide) (by decide)

theorem tokenFree_framed (i : Nat) (s : State) : Framed [.kfree, .toks, .diag] s (tokenFree i s) := by
  unfold tokenFree
  split
  · exact (flagDoubleRelease_framed s).mono (by decide)
  · exact (modTok_framed _ _ _).comp (setKfree_framed _ _) (by decide) (by decide)

theorem txnAlloc_framed (s : State) : Framed [.xfree, .txns] s (txnAlloc s).2 := by
  unfold txnAlloc
  split
  · exact Framed.refl _ _
  · exact (setXfree_framed _ _).comp (modTxn_framed _ _ _) (by decide) (by decide)

theorem txnFree_framed (i : Nat) (s : State) : Framed [.xfree, .txns, .diag] s (txnFree i s) := by
  unfold txnFree
  split
  · exact (flagDoubleRelease_framed s).mono (by decide)
  · exact (modTxn_framed _ _ _).comp (setXfree_framed _ _) (by decide) (by decide)

theorem dummyAcquire_framed (s : State) : Framed [.dfree] s (dummyAcquire s).2 := by
  unfold dummyAcquire
  split
  · exact Framed.refl _ _
  · exact setDfree_framed _ _

theorem dummyRelease_framed (u : Nat) (s : State) : Framed [.dfree, .diag] s (dummyRelease u s) := by
  unfold dummyRelease
  split
  · exact (flagDoubleRelease_framed s).mono (by decide)
  · exact (setDfree_framed _ _).mono (by decide)

theorem dummyReleaseOpt_framed (u : Option Nat) (s : State) : Framed [.dfree, .diag] s (dummyReleaseOpt u s) := by
  cases u
  · exact Framed.refl _ _
  · exact dummyRelease_framed _ _

theorem pktReleaseOpt_framed (p : Option Nat) (s : State) :
    Framed [.ring, .pkts, .diag] s (pktReleaseOpt p s) := by
  cases p
  · exact (flagDoubleRelease_framed s).mono (by decide)
  · exact pktRelease_framed _ _

theorem tokenFreeOpt_framed (k : Option Nat) (s : State) :
    Framed [.kfree, .toks, .diag] s (tokenFreeOpt k s) := by
  cases k
  · exact (flagDoubleRelease_framed s).mono (by decide)
  · exact tokenFree_framed _ _

/-! Passes. -/

/-- A pass changes what its body changes, and leaves the exclusion region free (R300, R301). -/
theorem runPass_framed (holder : Lock) (body : State → State) (c : List Field)
    (h : ∀ s, Framed c s (body s)) (s : State) : Framed (.lock :: c) s (runPass holder body s) :=
  ((setLock_framed holder s).mono (by simp)).trans
    (((h _).mono (by simp +contextual)).trans ((setLock_framed .free _).mono (by simp)))

theorem runPass_lock (holder : Lock) (body : State → State) (s : State) : (runPass holder body s).lock = .free := rfl

/-! The Transaction Engine. -/

theorem finish_framed (e d : Nat) (st : Ts) (s : State) :
    Framed [.eds, .tds, .done, .drainp] s (finish e d st s) :=
  (modEd_framed _ _ _).comp ((modTd_framed _ _ _).comp
    ((setDone_framed _ _).comp (setDrainp_framed _ _) (e := [.done, .drainp]) (by decide) (by decide))
    (e := [.tds, .done, .drainp]) (by decide) (by decide)) (by decide) (by decide)

theorem sweep_framed (e : Nat) (h : Addr) (l : List Nat) (s : State) :
    Framed [.eds, .tds, .done, .drainp] s (sweep e h l s) := by
  induction l generalizing s with
  | nil => exact Framed.refl _ _
  | cons d rest ih => exact (Framed.ite (finish_framed _ _ _ _) (Framed.refl _ _)).trans (ih _)

theorem settleEd_framed (e : Nat) (halt : Bool) (s : State) : Framed [.eds] s (settleEd e halt s) := by
  unfold settleEd
  split
  · exact Framed.ite (Framed.refl _ _) (modEd_framed _ _ _)
  · exact Framed.ite (modEd_framed _ _ _) (Framed.refl _ _)

theorem terminate_framed (d : Nat) (st : Ts) (halt : Bool) (s : State) :
    Framed [.eds, .tds, .done, .drainp] s (terminate d st halt s) := by
  unfold terminate
  split
  · exact Framed.refl _ _
  · exact (finish_framed _ _ _ _).trans
      ((Framed.ite (sweep_framed _ _ _ _) (Framed.refl _ _)).trans ((settleEd_framed _ _ _).mono (by decide)))

theorem terminateAll_framed (st : Ts) (halt : Bool) (l : List Nat) (s : State) :
    Framed [.eds, .tds, .done, .drainp] s (terminateAll st halt l s) := by
  induction l generalizing s with
  | nil => exact Framed.refl _ _
  | cons d rest ih => exact (terminate_framed _ _ _ _).trans (ih _)

theorem unlinkTd_framed (d : Nat) (s : State) : Framed [.frame, .tds] s (unlinkTd d s) :=
  (setFrame_framed _ _).comp (modTd_framed _ _ _) (by decide) (by decide)

theorem unlinkTdOpt_framed (d : Option Nat) (s : State) : Framed [.frame, .tds] s (unlinkTdOpt d s) := by
  cases d
  · exact Framed.refl _ _
  · exact unlinkTd_framed _ _

/-- What `end_txn` can change (R215): the transaction's resources go back, its TD is unlinked. -/
theorem endTxn_framed (t : Nat) (s : State) :
    Framed [.dfree, .ring, .pkts, .frame, .tds, .xfree, .txns, .diag] s (endTxn t s) :=
  ((dummyReleaseOpt_framed _ _).mono (by decide)).trans
    (((pktReleaseOpt_framed _ _).mono (by decide)).trans
      (((unlinkTdOpt_framed _ _).mono (by decide)).trans ((txnFree_framed _ _).mono (by decide))))

theorem abortTxn_framed (t : Option Nat) (s : State) :
    Framed [.dfree, .ring, .pkts, .frame, .tds, .xfree, .txns, .diag] s (abortTxn t s) := by
  cases t
  · exact Framed.refl _ _
  · exact endTxn_framed _ _

theorem removeEd_framed (e : Nat) (s : State) : Framed [.cls, .efree, .eds, .diag] s (removeEd e s) :=
  (setCls_framed _ _).comp (edFree_framed _ _) (by decide) (by decide)

/-- What `reap()` can change (R186). -/
theorem reapOne_framed (e : Nat) (s : State) :
    Framed [.cls, .efree, .eds, .tds, .done, .drainp, .diag] s (reapOne e s) := by
  unfold reapOne
  split
  · exact Framed.refl _ _
  · split
    · exact Framed.refl _ _
    · exact (terminateAll_framed _ _ _ _).comp (removeEd_framed _ _) (by decide) (by decide)

theorem reapList_framed (l : List Nat) (s : State) :
    Framed [.cls, .efree, .eds, .tds, .done, .drainp, .diag] s (reapList l s) := by
  induction l generalizing s with
  | nil => exact Framed.refl _ _
  | cons e rest ih => exact (reapOne_framed _ _).trans (ih _)

theorem reap_framed (s : State) : Framed [.cls, .efree, .eds, .tds, .done, .drainp, .diag] s (reap s) :=
  reapList_framed _ _

theorem takeDummy_framed (len : Nat) (s : State) : Framed [.dfree] s (takeDummy len s).2 := by
  unfold takeDummy
  split
  · exact dummyAcquire_framed _
  · exact Framed.refl _ _

theorem dispatchWith_framed (e d len p t : Nat) (u : Option Nat) (s : State) :
    Framed [.ring, .pkts, .xfree, .txns, .dfree, .tds, .env, .out, .diag] s (dispatchWith e d len p t u s).2 := by
  unfold dispatchWith
  simp only
  split
  · rename_i s2 heq
    have hr := congrArg Prod.snd heq ▸ ringSubmit_framed _ _
    exact (((modPkt_framed _ _ _).comp (modTxn_framed _ _ _) (e := [.pkts, .txns]) (by decide) (by decide)).comp
      (hr.comp ((dummyReleaseOpt_framed _ _).comp ((txnFree_framed _ _).comp (pktRelease_framed _ _)
        (e := [.xfree, .txns, .ring, .pkts, .diag]) (by decide) (by decide))
        (e := [.dfree, .xfree, .txns, .ring, .pkts, .diag]) (by decide) (by decide))
        (e := [.env, .out, .dfree, .xfree, .txns, .ring, .pkts, .diag]) (by decide) (by decide))
      (by decide) (by decide))
  · rename_i s2 heq
    have hr := congrArg Prod.snd heq ▸ ringSubmit_framed _ _
    exact (((modPkt_framed _ _ _).comp (modTxn_framed _ _ _) (e := [.pkts, .txns]) (by decide) (by decide)).comp
      (hr.comp ((modTxn_framed _ _ _).comp (modTd_framed _ _ _) (e := [.txns, .tds]) (by decide) (by decide))
        (e := [.env, .out, .txns, .tds]) (by decide) (by decide))
      (by decide) (by decide))

/-- What `dispatch` can change, accepted or deferred (R204, R206). -/
theorem dispatch_framed (e d len : Nat) (s : State) :
    Framed [.ring, .pkts, .xfree, .txns, .dfree, .tds, .env, .out, .diag] s (dispatch e d len s).2 := by
  unfold dispatch
  split
  · exact Framed.refl _ _
  · rename_i p s1 heq
    have h1 := congrArg Prod.snd heq ▸ pktAcquire_framed s
    have hrel := h1.comp (pktRelease_framed p s1)
      (e := [.ring, .pkts, .xfree, .txns, .dfree, .tds, .env, .out, .diag]) (by decide) (by decide)
    split
    · exact hrel
    · split
      · exact hrel
      · split
        · exact hrel
        · rename_i t s2 heq2
          have h2 := congrArg Prod.snd heq2 ▸ txnAlloc_framed s1
          exact (h1.comp h2 (e := [.ring, .pkts, .xfree, .txns]) (by decide) (by decide)).comp
            ((takeDummy_framed len s2).comp (dispatchWith_framed _ _ _ _ _ _ _)
              (e := [.ring, .pkts, .xfree, .txns, .dfree, .tds, .env, .out, .diag]) (by decide) (by decide))
            (by decide) (by decide)

theorem nak_framed (d : Nat) (s : State) : Framed [.tds] s (nak d s) := modTd_framed _ _ _

theorem countError_framed (d : Nat) (st : Ts) (s : State) :
    Framed [.eds, .tds, .done, .drainp] s (countError d st s) :=
  ((modTd_framed _ _ _).mono (by decide)).trans (Framed.ite (terminate_framed _ _ _ _) (Framed.refl _ _))

theorem failed_framed (d : Nat) (st : Ts) (s : State) :
    Framed [.eds, .tds, .done, .drainp] s (failed d st s) :=
  Framed.ite ((nak_framed _ _).mono (by decide))
    (Framed.ite (terminate_framed _ _ _ _) (Framed.ite (terminate_framed _ _ _ _) (countError_framed _ _ _)))

/-- The fields a confirmation can change beside the services' (R210, R214, R215, R226). -/
abbrev confirmFields : List Field :=
  [.dfree, .ring, .pkts, .frame, .tds, .xfree, .txns, .eds, .done, .drainp, .diag]

theorem tokenConfirmed_framed (t d : Nat) (st : Ts) (s : State) :
    Framed (.env :: .out :: confirmFields) s (tokenConfirmed t d st s) := by
  unfold tokenConfirmed
  split
  · split
    · exact (modTxn_framed _ _ _).mono (by decide)
    · split
      · rename_i s1 heq
        have hr := congrArg Prod.snd heq ▸ ringSubmit_framed _ _
        exact hr.comp (modTxn_framed _ _ _) (by decide) (by decide)
      · rename_i s1 heq
        have hr := congrArg Prod.snd heq ▸ ringSubmit_framed _ _
        exact hr.comp (endTxn_framed _ _) (by decide) (by decide)
  · split
    · exact (endTxn_framed _ _).comp (nak_framed _ _) (by decide) (by decide)
    · exact (endTxn_framed _ _).comp (terminate_framed _ _ _ _) (by decide) (by decide)

theorem dataConfirmed_framed (t d : Nat) (st : Ts) (n : Nat) (s : State) :
    Framed confirmFields s (dataConfirmed t d st n s) := by
  unfold dataConfirmed
  split
  · exact (endTxn_framed _ _).comp (failed_framed _ _ _) (by decide) (by decide)
  · exact ((modTxn_framed _ _ _).mono (by decide)).trans (((modTd_framed _ _ _).mono (by decide)).trans
      (((endTxn_framed _ _).mono (by decide)).trans
        (Framed.ite ((terminate_framed _ _ _ _).mono (by decide)) (Framed.refl _ _))))

theorem txConfirmBody_framed (st : Ts) (p : Nat) (s : State) :
    Framed (.env :: .out :: confirmFields) s (txConfirmBody st p s) := by
  have hsp := (flagSpuriousConfirm_framed s).mono (d := .env :: .out :: confirmFields) (by decide)
  unfold txConfirmBody
  split
  · exact hsp
  · split
    · exact hsp
    · exact Framed.ite ((modPkt_framed _ _ _).comp (tokenConfirmed_framed _ _ _ _) (by decide) (by decide))
        (Framed.ite ((modPkt_framed _ _ _).comp (dataConfirmed_framed _ _ _ _ _) (by decide) (by decide)) hsp)

theorem rxConfirmBody_framed (st : Ts) (p n : Nat) (s : State) :
    Framed confirmFields s (rxConfirmBody st p n s) := by
  have hsp := (flagSpuriousConfirm_framed s).mono (d := confirmFields) (by decide)
  unfold rxConfirmBody
  split
  · exact hsp
  · split
    · exact hsp
    · refine Framed.ite hsp (Framed.trans (t := _) ?_
        ((modPkt_framed _ _ _).comp (dataConfirmed_framed _ _ _ _ _) (by decide) (by decide)))
      exact Framed.ite ((flagRxOverlen_framed s).mono (by decide)) (Framed.refl _ _)

/-! The Frame Scheduler. -/

theorem flushOne_framed (d : Nat) (s : State) : Framed confirmFields s (flushOne d s) :=
  (abortTxn_framed _ _).comp (terminate_framed _ _ _ _) (by decide) (by decide)

theorem flushList_framed (l : List Nat) (s : State) : Framed confirmFields s (flushList l s) := by
  induction l generalizing s with
  | nil => exact Framed.refl _ _
  | cons d rest ih => exact (flushOne_framed _ _).trans (ih _)

theorem forceFlush_framed (s : State) : Framed confirmFields s (forceFlush s) := flushList_framed _ _

/-- The fields an admission can change (R152 to R157). -/
abbrev admitFields : List Field := [.frame, .ring, .pkts, .xfree, .txns, .dfree, .tds, .env, .out, .diag]

theorem commit_framed (d cost t : Nat) (s : State) : Framed [.frame, .tds] s (commit d cost t s) :=
  (setFrame_framed _ _).comp (modTd_framed _ _ _) (by decide) (by decide)

theorem offer_framed (e d len cost t : Nat) (s : State) : Framed admitFields s (offer e d len cost t s) := by
  unfold offer
  split
  · rename_i s1 heq
    have h := congrArg Prod.snd heq ▸ dispatch_framed e d len s
    exact h.comp (commit_framed _ _ _ _) (by decide) (by decide)
  · rename_i s1 heq
    exact (congrArg Prod.snd heq ▸ dispatch_framed e d len s).mono (by decide)

theorem tryAdmit_framed (e d : Nat) (s : State) : Framed admitFields s (tryAdmit e d s) := by
  unfold tryAdmit
  simp only
  refine Framed.ite (Framed.refl _ _) (Framed.ite ((setFrame_framed _ _).mono (by decide)) ?_)
  exact ((sofRemaining_framed s).mono (by decide)).trans
    (Framed.ite ((setFrame_framed _ _).mono (by decide)) (offer_framed _ _ _ _ _ _))

theorem scanOne_framed (c : Mode) (e : Nat) (s : State) : Framed admitFields s (scanOne c e s) := by
  unfold scanOne
  refine Framed.ite (Framed.refl _ _) ?_
  split
  · exact Framed.refl _ _
  · exact Framed.ite (Framed.refl _ _) (Framed.ite (Framed.refl _ _) (tryAdmit_framed _ _ _))

theorem scanList_framed (c : Mode) (l : List Nat) (s : State) : Framed admitFields s (scanList c l s) := by
  induction l generalizing s with
  | nil => exact Framed.refl _ _
  | cons e rest ih => exact (scanOne_framed _ _ _).trans (ih _)

theorem scan_framed (c : Mode) (s : State) : Framed (.cls :: admitFields) s (scan c s) :=
  (scanList_framed _ _ _).comp (setCls_framed _ _) (by decide) (by decide)

theorem scanClasses_framed (s : State) : Framed (.cls :: admitFields) s (scanClasses s) := by
  unfold scanClasses
  have h3 := (scan_framed .iso s).trans ((scan_framed .intr _).trans (scan_framed .ctrl _))
  exact h3.trans (Framed.ite (Framed.refl _ _) (scan_framed .bulk _))

theorem newFrame_framed (s : State) : Framed (.cls :: admitFields) s (newFrame s) := by
  unfold newFrame
  have ho := (setFrame_framed { s.frame with number := s.frnum, bytes := 0, timeUs := 0, status := .prepared } s).mono
    (d := .cls :: admitFields) (by decide)
  exact ho.trans (Framed.ite (scanClasses_framed _) (Framed.refl _ _))

/-- The fields EV_FRAME_START can change. -/
abbrev frameStartFields : List Field :=
  [.frnum, .cls, .frame, .ring, .pkts, .xfree, .txns, .dfree, .tds, .eds, .done, .drainp, .env, .out, .diag]

theorem frameStartBody_framed (s : State) : Framed frameStartFields s (frameStartBody s) := by
  unfold frameStartBody
  refine ((setFrnum_framed _ _).mono (by decide)).trans (Framed.ite ((newFrame_framed _).mono (by decide))
    (Framed.ite ?_ (Framed.refl _ _)))
  exact (forceFlush_framed _).comp (newFrame_framed _) (by decide) (by decide)

/-! The Completion Processor. -/

theorem setField_framed (h : Addr) (off : Nat) (v : Word) (s : State) :
    Framed [.mem, .out] s (s.setField h off v) := memWrite_framed _ _ _

theorem updateRequest_framed (d : Nat) (h : Addr) (s : State) : Framed [.mem, .out] s (updateRequest d h s) :=
  Framed.trans (t := addActual (s.td d) h s) (Framed.ite (Framed.refl _ _) (setField_framed _ _ _ _))
    (Framed.ite (setField_framed _ _ _ _) (Framed.refl _ _))

theorem callback_framed (h : Addr) (st n : Word) (s : State) : Framed [.out] s (callback h st n s) := emit_framed _ _

theorem retire_framed (h : Addr) (s : State) : Framed [.mem, .out] s (retire h s) :=
  Framed.ite ((setField_framed _ _ _ _).comp (callback_framed _ _ _ _) (by decide) (by decide))
    ((callback_framed _ _ _ _).mono (by decide))

theorem freeTd_framed (d : Nat) (s : State) : Framed [.kfree, .toks, .tfree, .tds, .diag] s (freeTd d s) :=
  ((tokenFreeOpt_framed _ _).mono (by decide)).trans
    (((modTd_framed _ _ _).mono (by decide)).trans ((tdFree_framed _ _).mono (by decide)))

/-- The fields one drained TD can change. -/
abbrev drainFields : List Field := [.mem, .out, .kfree, .toks, .tfree, .tds, .diag]

theorem drainOne_framed (d : Nat) (s : State) : Framed drainFields s (drainOne d s) :=
  ((updateRequest_framed d _ s).mono (by decide)).trans
    ((Framed.ite (Framed.refl _ _) ((retire_framed _ _).mono (by decide))).trans
      ((freeTd_framed _ _).mono (by decide)))

theorem drainList_framed (l : List Nat) (s : State) : Framed (.done :: drainFields) s (drainList l s) := by
  induction l generalizing s with
  | nil => exact Framed.refl _ _
  | cons d rest ih =>
    exact ((setDone_framed rest s).comp (drainOne_framed d _) (by decide) (by decide)).trans (ih _)

theorem drainPass_framed (s : State) : Framed (.drainp :: .done :: drainFields) s (drainPass s) :=
  (drainList_framed _ _).comp (setDrainp_framed _ _) (by decide) (by decide)

/-! The Queue Manager. -/

theorem respond_framed (op : BitVec 8) (code : Code) (value : BitVec 16) (s : State) :
    Framed [.out] s (respond op code value s) := emit_framed _ _

theorem createEd_framed (eid : EndpointId) (s : State) : Framed [.efree, .eds, .cls] s (createEd eid s).2 := by
  unfold createEd
  split
  · rename_i s1 heq
    exact (congrArg Prod.snd heq ▸ edAlloc_framed s).mono (by decide)
  · rename_i e s1 heq
    have h := congrArg Prod.snd heq ▸ edAlloc_framed s
    exact h.comp ((modEd_framed _ _ _).comp (setCls_framed _ _) (e := [.eds, .cls]) (by decide) (by decide))
      (by decide) (by decide)

theorem makeTd_framed (e : Nat) (h : Addr) (sp : TdSpec) (last : Bool) (s : State) :
    Framed [.tfree, .tds, .kfree, .toks, .eds] s (makeTd e h sp last s) := by
  unfold makeTd
  split
  · exact Framed.refl _ _
  · rename_i d s1 heq
    split
    · exact Framed.refl _ _
    · rename_i k s2 heq2
      have h1 := (congrArg Prod.snd heq ▸ tdAlloc_framed s).mono
        (d := [.tfree, .tds, .kfree, .toks, .eds]) (by decide)
      have h2 := (congrArg Prod.snd heq2 ▸ tokenAlloc_framed s1).mono
        (d := [.tfree, .tds, .kfree, .toks, .eds]) (by decide)
      exact h1.trans (h2.trans (((modTd_framed _ _ _).mono (by decide)).trans
        (((modTok_framed _ _ _).mono (by decide)).trans ((modEd_framed _ _ _).mono (by decide)))))

theorem linkTds_framed (e : Nat) (h : Addr) (l : List TdSpec) (s : State) :
    Framed [.tfree, .tds, .kfree, .toks, .eds] s (linkTds e h l s) := by
  induction l generalizing s with
  | nil => exact Framed.refl _ _
  | cons sp rest ih => exact (makeTd_framed _ _ _ _ _).trans (ih _)

theorem openRequest_framed (h : Addr) (s : State) : Framed [.mem, .out] s (openRequest h s) :=
  (setField_framed _ _ _ _).trans (setField_framed _ _ _ _)

/-- The fields an accepted SUBMIT can change, its response included. -/
abbrev submitFields : List Field := [.efree, .cls, .tfree, .tds, .kfree, .toks, .eds, .mem, .out]

theorem acceptOn_framed (e : Nat) (h : Addr) (l : List TdSpec) (s : State) :
    Framed submitFields s (acceptOn e h l s) :=
  ((linkTds_framed e h l s).mono (by decide)).trans
    (((modEd_framed _ _ _).mono (by decide)).trans ((openRequest_framed _ _).mono (by decide)))

theorem ensureEd_framed (eid : EndpointId) (e : Option Nat) (s : State) :
    Framed [.efree, .eds, .cls] s (ensureEd eid e s).2 := by
  cases e
  · exact createEd_framed _ _
  · exact Framed.refl _ _

theorem submitAccept_framed (eid : EndpointId) (h : Addr) (e : Option Nat) (s : State) :
    Framed submitFields s (submitAccept eid h e s) := by
  unfold submitAccept
  simp only
  split
  · rename_i s1 heq
    exact (congrArg Prod.snd heq ▸ ensureEd_framed eid e s).mono (by decide)
  · rename_i e' s1 heq
    exact ((congrArg Prod.snd heq ▸ ensureEd_framed eid e s).mono (by decide)).trans (acceptOn_framed _ _ _ _)

theorem submitBody_framed (eid : EndpointId) (hw : Word) (s : State) :
    Framed submitFields s (submitBody eid hw s) := by
  unfold submitBody
  split
  · exact (respond_framed _ _ _ _).mono (by decide)
  · exact (submitAccept_framed _ _ _ _).comp (respond_framed _ _ _ _) (by decide) (by decide)

theorem cancelBody_framed (hw : Word) (s : State) : Framed [.eds, .out] s (cancelBody hw s) := by
  unfold cancelBody
  split
  · exact (respond_framed _ _ _ _).mono (by decide)
  · split
    · exact (respond_framed _ _ _ _).mono (by decide)
    · rename_i t _
      unfold markDying
      split
      · exact (respond_framed _ _ _ _).mono (by decide)
      · exact (modEd_framed _ _ _).comp (respond_framed _ _ _ _) (by decide) (by decide)

/-- The fields EP_TEARDOWN can change. -/
abbrev teardownFields : List Field :=
  [.cls, .efree, .eds, .tds, .done, .drainp, .dfree, .ring, .pkts, .frame, .xfree, .txns, .kfree, .toks, .tfree,
   .mem, .out, .diag]

theorem teardownEd_framed (e : Nat) (s : State) : Framed teardownFields s (teardownEd e s) := by
  have h1 : Framed teardownFields s (abortHead e s) := by
    unfold abortHead
    split
    · exact Framed.refl _ _
    · exact (abortTxn_framed _ _).mono (by decide)
  exact h1.trans (((terminateAll_framed _ _ _ _).mono (by decide)).trans
    (((drainPass_framed _).mono (by decide)).trans ((removeEd_framed _ _).mono (by decide))))

theorem teardownBody_framed (eid : EndpointId) (s : State) : Framed teardownFields s (teardownBody eid s) := by
  unfold teardownBody
  split
  · exact (respond_framed _ _ _ _).mono (by decide)
  · split
    · exact (respond_framed _ _ _ _).mono (by decide)
    · exact (teardownEd_framed _ _).comp (respond_framed _ _ _ _) (by decide) (by decide)

theorem clearHaltBody_framed (eid : EndpointId) (s : State) : Framed [.eds, .out] s (clearHaltBody eid s) := by
  unfold clearHaltBody
  split
  · exact (respond_framed _ _ _ _).mono (by decide)
  · split
    · exact (respond_framed _ _ _ _).mono (by decide)
    · exact (modEd_framed _ _ _).comp (respond_framed _ _ _ _) (by decide) (by decide)

end Sys2Proof.Machine
end

