-- ==== Sys2Proof/Laws/Pools.lean ====
section
/-! SUPPORT. Laws/Pools.lean: the pools (43_pools.md). What each pool operation answers and leaves behind, and
that the soundness of the pools (`State.poolsOk`) is kept by each operation of the machine. -/

namespace Sys2Proof.Machine

/-! Free-lists as lists. -/

/-- Taking the head of a free-list and marking it allocated keeps the list exact (R253). -/
theorem freeListOk_alloc {n i : Nat} {rest : List Nat} {al al' : Nat → Bool} (h : FreeListOk n al (i :: rest))
    (hi : al' i = true) (hj : ∀ j, j ≠ i → al' j = al j) : FreeListOk n al' rest := by
  obtain ⟨hn, hlt, hmem⟩ := h
  rw [List.nodup_cons] at hn
  refine ⟨hn.2, fun j hj => hlt j (by simp [hj]), fun j hjn => ?_⟩
  by_cases hji : j = i
  · subst hji
    simp [hn.1, hi]
  · rw [hj j hji, ← hmem j hjn]
    simp [hji]

/-- Marking an allocated entry free and putting it at the head keeps the list exact (R254). -/
theorem freeListOk_free {n i : Nat} {l : List Nat} {al al' : Nat → Bool} (h : FreeListOk n al l) (hin : i < n)
    (hal : al i = true) (hi : al' i = false) (hj : ∀ j, j ≠ i → al' j = al j) : FreeListOk n al' (i :: l) := by
  obtain ⟨hn, hlt, hmem⟩ := h
  have hil : i ∉ l := fun hc => by simpa [hal] using (hmem i hin).1 hc
  refine ⟨List.nodup_cons.2 ⟨hil, hn⟩, ?_, fun j hjn => ?_⟩
  · intro j hj
    rcases List.mem_cons.1 hj with rfl | hj
    · exact hin
    · exact hlt j hj
  · by_cases hji : j = i
    · subst hji
      simp [hi]
    · rw [hj j hji, ← hmem j hjn]
      simp [hji]

theorem freeListOk_congr {n : Nat} {l : List Nat} {al al' : Nat → Bool} (h : FreeListOk n al l)
    (hj : ∀ j, al' j = al j) : FreeListOk n al' l :=
  ⟨h.1, h.2.1, fun j hjn => by rw [hj j]; exact h.2.2 j hjn⟩

/-- A handle that a sound list does not hold leaves the list shorter than its range. -/
theorem freeListOk_length_lt {n p : Nat} {l : List Nat} {al : Nat → Bool} (h : FreeListOk n al l) (hp : p < n)
    (hal : al p = true) : l.length < n := by
  obtain ⟨hn, hlt, hmem⟩ := h
  have hpl : p ∉ l := fun hc => by simpa [hal] using (hmem p hp).1 hc
  have hsub : (p :: l) ⊆ List.range n := by
    intro j hj
    rcases List.mem_cons.1 hj with rfl | hj
    · simpa using hp
    · simpa using hlt j hj
  have := (List.subperm_of_subset (List.nodup_cons.2 ⟨hpl, hn⟩) hsub).length_le
  simpa using this

/-! The same pools. -/

/-- The pools of two states agree in everything that says which entries are in use. -/
structure SamePools (s t : State) : Prop where
  cfg : t.cfg = s.cfg
  edLen : t.eds.length = s.eds.length
  edAlloc : ∀ i, (t.ed i).alloc = (s.ed i).alloc
  efree : t.efree = s.efree
  tdLen : t.tds.length = s.tds.length
  tdAlloc : ∀ i, (t.td i).alloc = (s.td i).alloc
  tfree : t.tfree = s.tfree
  tokLen : t.toks.length = s.toks.length
  tokAlloc : ∀ i, (t.tok i).alloc = (s.tok i).alloc
  kfree : t.kfree = s.kfree
  txnLen : t.txns.length = s.txns.length
  txnAlloc : ∀ i, (t.txn i).alloc = (s.txn i).alloc
  xfree : t.xfree = s.xfree
  pktLen : t.pkts.length = s.pkts.length
  pktOut : ∀ i, (t.pkt i).out = (s.pkt i).out
  ring : t.ring = s.ring
  dfree : t.dfree = s.dfree

theorem SamePools.refl (s : State) : SamePools s s where
  cfg := rfl
  edLen := rfl
  edAlloc _ := rfl
  efree := rfl
  tdLen := rfl
  tdAlloc _ := rfl
  tfree := rfl
  tokLen := rfl
  tokAlloc _ := rfl
  kfree := rfl
  txnLen := rfl
  txnAlloc _ := rfl
  xfree := rfl
  pktLen := rfl
  pktOut _ := rfl
  ring := rfl
  dfree := rfl

theorem SamePools.trans {s t u : State} (h : SamePools s t) (k : SamePools t u) : SamePools s u where
  cfg := k.cfg.trans h.cfg
  edLen := k.edLen.trans h.edLen
  edAlloc i := (k.edAlloc i).trans (h.edAlloc i)
  efree := k.efree.trans h.efree
  tdLen := k.tdLen.trans h.tdLen
  tdAlloc i := (k.tdAlloc i).trans (h.tdAlloc i)
  tfree := k.tfree.trans h.tfree
  tokLen := k.tokLen.trans h.tokLen
  tokAlloc i := (k.tokAlloc i).trans (h.tokAlloc i)
  kfree := k.kfree.trans h.kfree
  txnLen := k.txnLen.trans h.txnLen
  txnAlloc i := (k.txnAlloc i).trans (h.txnAlloc i)
  xfree := k.xfree.trans h.xfree
  pktLen := k.pktLen.trans h.pktLen
  pktOut i := (k.pktOut i).trans (h.pktOut i)
  ring := k.ring.trans h.ring
  dfree := k.dfree.trans h.dfree

theorem SamePools.ite {p : Prop} [Decidable p] {s t u : State} (h : SamePools s t) (k : SamePools s u) :
    SamePools s (if p then t else u) := by
  split
  · exact h
  · exact k

/-- The fields that hold the pools. -/
abbrev poolFields : List Field :=
  [.cfg, .eds, .tds, .toks, .txns, .pkts, .ring, .dfree, .efree, .tfree, .kfree, .xfree]

/-- A change that touches no pool field leaves the pools the same. -/
theorem SamePools.of_framed {c : List Field} {s t : State} (h : Framed c s t) (hc : ∀ f ∈ poolFields, f ∉ c) :
    SamePools s t where
  cfg := h .cfg (hc _ (by simp))
  edLen := congrArg List.length (h .eds (hc _ (by simp)))
  edAlloc i := congrArg Ed.alloc (ed_congr (h .eds (hc _ (by simp))) i)
  efree := h .efree (hc _ (by simp))
  tdLen := congrArg List.length (h .tds (hc _ (by simp)))
  tdAlloc i := congrArg Td.alloc (td_congr (h .tds (hc _ (by simp))) i)
  tfree := h .tfree (hc _ (by simp))
  tokLen := congrArg List.length (h .toks (hc _ (by simp)))
  tokAlloc i := congrArg Tok.alloc (tok_congr (h .toks (hc _ (by simp))) i)
  kfree := h .kfree (hc _ (by simp))
  txnLen := congrArg List.length (h .txns (hc _ (by simp)))
  txnAlloc i := congrArg Txn.alloc (txn_congr (h .txns (hc _ (by simp))) i)
  xfree := h .xfree (hc _ (by simp))
  pktLen := congrArg List.length (h .pkts (hc _ (by simp)))
  pktOut i := congrArg Pkt.out (pkt_congr (h .pkts (hc _ (by simp))) i)
  ring := h .ring (hc _ (by simp))
  dfree := h .dfree (hc _ (by simp))


/-- An update of one entry that keeps its `alloc` bit leaves the pools the same. -/
theorem modEd_samePools (i : Nat) (g : Ed → Ed) (s : State) (hg : (g (s.ed i)).alloc = (s.ed i).alloc) :
    SamePools s (s.modEd i g) where
  cfg := rfl
  edLen := by simp
  edAlloc j := modEd_keeps Ed.alloc i g s hg j
  efree := rfl
  tdLen := rfl
  tdAlloc _ := rfl
  tfree := rfl
  tokLen := rfl
  tokAlloc _ := rfl
  kfree := rfl
  txnLen := rfl
  txnAlloc _ := rfl
  xfree := rfl
  pktLen := rfl
  pktOut _ := rfl
  ring := rfl
  dfree := rfl

/-- An update of one entry that keeps its `alloc` bit leaves the pools the same. -/
theorem modTd_samePools (i : Nat) (g : Td → Td) (s : State) (hg : (g (s.td i)).alloc = (s.td i).alloc) :
    SamePools s (s.modTd i g) where
  cfg := rfl
  edLen := rfl
  edAlloc _ := rfl
  efree := rfl
  tdLen := by simp
  tdAlloc j := modTd_keeps Td.alloc i g s hg j
  tfree := rfl
  tokLen := rfl
  tokAlloc _ := rfl
  kfree := rfl
  txnLen := rfl
  txnAlloc _ := rfl
  xfree := rfl
  pktLen := rfl
  pktOut _ := rfl
  ring := rfl
  dfree := rfl

/-- An update of one entry that keeps its `alloc` bit leaves the pools the same. -/
theorem modTok_samePools (i : Nat) (g : Tok → Tok) (s : State) (hg : (g (s.tok i)).alloc = (s.tok i).alloc) :
    SamePools s (s.modTok i g) where
  cfg := rfl
  edLen := rfl
  edAlloc _ := rfl
  efree := rfl
  tdLen := rfl
  tdAlloc _ := rfl
  tfree := rfl
  tokLen := by simp
  tokAlloc j := modTok_keeps Tok.alloc i g s hg j
  kfree := rfl
  txnLen := rfl
  txnAlloc _ := rfl
  xfree := rfl
  pktLen := rfl
  pktOut _ := rfl
  ring := rfl
  dfree := rfl

/-- An update of one entry that keeps its `alloc` bit leaves the pools the same. -/
theorem modTxn_samePools (i : Nat) (g : Txn → Txn) (s : State) (hg : (g (s.txn i)).alloc = (s.txn i).alloc) :
    SamePools s (s.modTxn i g) where
  cfg := rfl
  edLen := rfl
  edAlloc _ := rfl
  efree := rfl
  tdLen := rfl
  tdAlloc _ := rfl
  tfree := rfl
  tokLen := rfl
  tokAlloc _ := rfl
  kfree := rfl
  txnLen := by simp
  txnAlloc j := modTxn_keeps Txn.alloc i g s hg j
  xfree := rfl
  pktLen := rfl
  pktOut _ := rfl
  ring := rfl
  dfree := rfl

/-- An update of one entry that keeps its `out` bit leaves the pools the same. -/
theorem modPkt_samePools (i : Nat) (g : Pkt → Pkt) (s : State) (hg : (g (s.pkt i)).out = (s.pkt i).out) :
    SamePools s (s.modPkt i g) where
  cfg := rfl
  edLen := rfl
  edAlloc _ := rfl
  efree := rfl
  tdLen := rfl
  tdAlloc _ := rfl
  tfree := rfl
  tokLen := rfl
  tokAlloc _ := rfl
  kfree := rfl
  txnLen := rfl
  txnAlloc _ := rfl
  xfree := rfl
  pktLen := by simp
  pktOut j := modPkt_keeps Pkt.out i g s hg j
  ring := rfl
  dfree := rfl

/-- Sound pools stay sound while nothing says otherwise. -/
theorem poolsOk_of_same {s t : State} (h : SamePools s t) (hs : s.poolsOk) : t.poolsOk := by
  obtain ⟨hv, ⟨z1, z2, z3, z4, z5, z6⟩, ⟨f1, f2, f3, f4, f5, f6⟩, ⟨r1, r2, r3⟩⟩ := hs
  have hr : t.ringHandles = s.ringHandles := by simp only [State.ringHandles, h.ring, h.cfg]
  unfold State.poolsOk State.sized State.freeListsOk State.ringOk
  rw [hr, h.cfg, h.edLen, h.tdLen, h.tokLen, h.txnLen, h.pktLen, h.ring, h.efree, h.tfree, h.kfree, h.xfree, h.dfree]
  exact ⟨hv, ⟨z1, z2, z3, z4, z5, z6⟩,
    ⟨freeListOk_congr f1 h.edAlloc, freeListOk_congr f2 h.tdAlloc, freeListOk_congr f3 h.tokAlloc,
      freeListOk_congr f4 h.txnAlloc, f5, f6⟩,
    ⟨r1, r2, freeListOk_congr r3 h.pktOut⟩⟩

theorem poolsOk_of_framed {c : List Field} {s t : State} (h : Framed c s t) (hc : ∀ f ∈ poolFields, f ∉ c)
    (hs : s.poolsOk) : t.poolsOk := poolsOk_of_same (SamePools.of_framed h hc) hs

theorem reset_bits (n : Nat) : FreeListOk n (fun _ => false) (List.range n) :=
  ⟨List.nodup_range, fun i hi => by simpa using hi, fun i hi => by simpa using hi⟩


/-! The pool of `Ed` entries. -/

/-- What an allocation does (R253): with nothing free it answers `NIL` and changes nothing; else it answers
the head of the free-list, which leaves the list and is marked allocated. -/
theorem edAlloc_spec (s : State) :
    (s.efree = [] ∧ edAlloc s = (none, s)) ∨
    ∃ i rest, s.efree = i :: rest ∧
      edAlloc s = (some i, (s.setEfree rest).modEd i (fun e => { e with alloc := true })) := by
  unfold edAlloc
  cases h : s.efree with
  | nil => exact .inl ⟨rfl, rfl⟩
  | cons i rest => exact .inr ⟨i, rest, rfl, rfl⟩

theorem edAlloc_poolsOk (s : State) (hs : s.poolsOk) : (edAlloc s).2.poolsOk := by
  rcases edAlloc_spec s with ⟨_, h⟩ | ⟨i, rest, hl, h⟩
  · rw [h]
    exact hs
  · rw [h]
    obtain ⟨hv, ⟨z1, z2, z3, z4, z5, z6⟩, ⟨f1, f2, f3, f4, f5, f6⟩, hr⟩ := hs
    have hi : i < s.eds.length := by
      rw [z1]
      exact f1.2.1 i (by simp [hl])
    rw [hl] at f1
    refine ⟨hv, ⟨by simpa using z1, z2, z3, z4, z5, z6⟩, ⟨?_, f2, f3, f4, f5, f6⟩, hr⟩
    refine freeListOk_alloc f1 ?_ ?_
    · rw [modEd_ed_self i _ _ (by simpa using hi)]
    · intro j hj
      rw [modEd_ed_other i j _ _ (Ne.symm hj)]
      rfl

/-- The entry an allocation answers is allocated after it. -/
theorem edAlloc_alloc (s : State) (i : Nat) (t : State) (hs : s.poolsOk) (h : edAlloc s = (some i, t)) :
    (t.ed i).alloc = true := by
  rcases edAlloc_spec s with ⟨_, h'⟩ | ⟨k, rest, hl, h'⟩
  · rw [h'] at h
    simp at h
  · rw [h'] at h
    obtain ⟨h1, rfl⟩ := Prod.mk.inj h
    obtain rfl := Option.some.inj h1
    have hk : k < s.eds.length := by
      rw [hs.2.1.1]
      exact hs.2.2.1.1.2.1 k (by simp [hl])
    rw [modEd_ed_self k _ _ (by simpa using hk)]

/-- What a free does (R252, R254): an index out of range, or an entry that is free already, only sets
`DIAG.DOUBLE_RELEASE`; else the entry is marked free and goes to the head of the free-list. -/
theorem edFree_spec (i : Nat) (s : State) :
    ((s.cfg.maxEds ≤ i ∨ (s.ed i).alloc = false) ∧ edFree i s = s.flagDoubleRelease) ∨
    (i < s.cfg.maxEds ∧ (s.ed i).alloc = true ∧
      edFree i s = (s.modEd i (fun e => { e with alloc := false })).setEfree (i :: s.efree)) := by
  unfold edFree
  split
  · rename_i h
    exact .inl ⟨h, rfl⟩
  · rename_i h
    rw [not_or] at h
    exact .inr ⟨Nat.lt_of_not_le h.1, by simpa using h.2, rfl⟩

theorem edFree_poolsOk (i : Nat) (s : State) (hs : s.poolsOk) : (edFree i s).poolsOk := by
  rcases edFree_spec i s with ⟨_, h⟩ | ⟨hi, hal, h⟩
  · rw [h]
    exact poolsOk_of_framed (flagDoubleRelease_framed s) (by decide) hs
  · rw [h]
    obtain ⟨hv, ⟨z1, z2, z3, z4, z5, z6⟩, ⟨f1, f2, f3, f4, f5, f6⟩, hr⟩ := hs
    refine ⟨hv, ⟨by simpa using z1, z2, z3, z4, z5, z6⟩, ⟨?_, f2, f3, f4, f5, f6⟩, hr⟩
    refine freeListOk_free f1 hi hal ?_ ?_
    · exact congrArg Ed.alloc (modEd_ed_self i _ s (by omega))
    · intro j hj
      exact congrArg Ed.alloc (modEd_ed_other i j _ s (Ne.symm hj))


/-! The pool of `Td` entries. -/

/-- What an allocation does (R253): with nothing free it answers `NIL` and changes nothing; else it answers
the head of the free-list, which leaves the list and is marked allocated. -/
theorem tdAlloc_spec (s : State) :
    (s.tfree = [] ∧ tdAlloc s = (none, s)) ∨
    ∃ i rest, s.tfree = i :: rest ∧
      tdAlloc s = (some i, (s.setTfree rest).modTd i (fun e => { e with alloc := true })) := by
  unfold tdAlloc
  cases h : s.tfree with
  | nil => exact .inl ⟨rfl, rfl⟩
  | cons i rest => exact .inr ⟨i, rest, rfl, rfl⟩

theorem tdAlloc_poolsOk (s : State) (hs : s.poolsOk) : (tdAlloc s).2.poolsOk := by
  rcases tdAlloc_spec s with ⟨_, h⟩ | ⟨i, rest, hl, h⟩
  · rw [h]
    exact hs
  · rw [h]
    obtain ⟨hv, ⟨z1, z2, z3, z4, z5, z6⟩, ⟨f1, f2, f3, f4, f5, f6⟩, hr⟩ := hs
    have hi : i < s.tds.length := by
      rw [z2]
      exact f2.2.1 i (by simp [hl])
    rw [hl] at f2
    refine ⟨hv, ⟨z1, by simpa using z2, z3, z4, z5, z6⟩, ⟨f1, ?_, f3, f4, f5, f6⟩, hr⟩
    refine freeListOk_alloc f2 ?_ ?_
    · rw [modTd_td_self i _ _ (by simpa using hi)]
    · intro j hj
      rw [modTd_td_other i j _ _ (Ne.symm hj)]
      rfl

/-- The entry an allocation answers is allocated after it. -/
theorem tdAlloc_alloc (s : State) (i : Nat) (t : State) (hs : s.poolsOk) (h : tdAlloc s = (some i, t)) :
    (t.td i).alloc = true := by
  rcases tdAlloc_spec s with ⟨_, h'⟩ | ⟨k, rest, hl, h'⟩
  · rw [h'] at h
    simp at h
  · rw [h'] at h
    obtain ⟨h1, rfl⟩ := Prod.mk.inj h
    obtain rfl := Option.some.inj h1
    have hk : k < s.tds.length := by
      rw [hs.2.1.2.1]
      exact hs.2.2.1.2.1.2.1 k (by simp [hl])
    rw [modTd_td_self k _ _ (by simpa using hk)]

/-- What a free does (R252, R254): an index out of range, or an entry that is free already, only sets
`DIAG.DOUBLE_RELEASE`; else the entry is marked free and goes to the head of the free-list. -/
theorem tdFree_spec (i : Nat) (s : State) :
    ((s.cfg.maxTds ≤ i ∨ (s.td i).alloc = false) ∧ tdFree i s = s.flagDoubleRelease) ∨
    (i < s.cfg.maxTds ∧ (s.td i).alloc = true ∧
      tdFree i s = (s.modTd i (fun e => { e with alloc := false })).setTfree (i :: s.tfree)) := by
  unfold tdFree
  split
  · rename_i h
    exact .inl ⟨h, rfl⟩
  · rename_i h
    rw [not_or] at h
    exact .inr ⟨Nat.lt_of_not_le h.1, by simpa using h.2, rfl⟩

theorem tdFree_poolsOk (i : Nat) (s : State) (hs : s.poolsOk) : (tdFree i s).poolsOk := by
  rcases tdFree_spec i s with ⟨_, h⟩ | ⟨hi, hal, h⟩
  · rw [h]
    exact poolsOk_of_framed (flagDoubleRelease_framed s) (by decide) hs
  · rw [h]
    obtain ⟨hv, ⟨z1, z2, z3, z4, z5, z6⟩, ⟨f1, f2, f3, f4, f5, f6⟩, hr⟩ := hs
    refine ⟨hv, ⟨z1, by simpa using z2, z3, z4, z5, z6⟩, ⟨f1, ?_, f3, f4, f5, f6⟩, hr⟩
    refine freeListOk_free f2 hi hal ?_ ?_
    · exact congrArg Td.alloc (modTd_td_self i _ s (by omega))
    · intro j hj
      exact congrArg Td.alloc (modTd_td_other i j _ s (Ne.symm hj))


/-! The pool of `Tok` entries. -/

/-- What an allocation does (R253): with nothing free it answers `NIL` and changes nothing; else it answers
the head of the free-list, which leaves the list and is marked allocated. -/
theorem tokenAlloc_spec (s : State) :
    (s.kfree = [] ∧ tokenAlloc s = (none, s)) ∨
    ∃ i rest, s.kfree = i :: rest ∧
      tokenAlloc s = (some i, (s.setKfree rest).modTok i (fun e => { e with alloc := true })) := by
  unfold tokenAlloc
  cases h : s.kfree with
  | nil => exact .inl ⟨rfl, rfl⟩
  | cons i rest => exact .inr ⟨i, rest, rfl, rfl⟩

theorem tokenAlloc_poolsOk (s : State) (hs : s.poolsOk) : (tokenAlloc s).2.poolsOk := by
  rcases tokenAlloc_spec s with ⟨_, h⟩ | ⟨i, rest, hl, h⟩
  · rw [h]
    exact hs
  · rw [h]
    obtain ⟨hv, ⟨z1, z2, z3, z4, z5, z6⟩, ⟨f1, f2, f3, f4, f5, f6⟩, hr⟩ := hs
    have hi : i < s.toks.length := by
      rw [z3]
      exact f3.2.1 i (by simp [hl])
    rw [hl] at f3
    refine ⟨hv, ⟨z1, z2, by simpa using z3, z4, z5, z6⟩, ⟨f1, f2, ?_, f4, f5, f6⟩, hr⟩
    refine freeListOk_alloc f3 ?_ ?_
    · rw [modTok_tok_self i _ _ (by simpa using hi)]
    · intro j hj
      rw [modTok_tok_other i j _ _ (Ne.symm hj)]
      rfl

/-- The entry an allocation answers is allocated after it. -/
theorem tokenAlloc_alloc (s : State) (i : Nat) (t : State) (hs : s.poolsOk) (h : tokenAlloc s = (some i, t)) :
    (t.tok i).alloc = true := by
  rcases tokenAlloc_spec s with ⟨_, h'⟩ | ⟨k, rest, hl, h'⟩
  · rw [h'] at h
    simp at h
  · rw [h'] at h
    obtain ⟨h1, rfl⟩ := Prod.mk.inj h
    obtain rfl := Option.some.inj h1
    have hk : k < s.toks.length := by
      rw [hs.2.1.2.2.1]
      exact hs.2.2.1.2.2.1.2.1 k (by simp [hl])
    rw [modTok_tok_self k _ _ (by simpa using hk)]

/-- What a free does (R252, R254): an index out of range, or an entry that is free already, only sets
`DIAG.DOUBLE_RELEASE`; else the entry is marked free and goes to the head of the free-list. -/
theorem tokenFree_spec (i : Nat) (s : State) :
    ((s.cfg.maxTokens ≤ i ∨ (s.tok i).alloc = false) ∧ tokenFree i s = s.flagDoubleRelease) ∨
    (i < s.cfg.maxTokens ∧ (s.tok i).alloc = true ∧
      tokenFree i s = (s.modTok i (fun e => { e with alloc := false })).setKfree (i :: s.kfree)) := by
  unfold tokenFree
  split
  · rename_i h
    exact .inl ⟨h, rfl⟩
  · rename_i h
    rw [not_or] at h
    exact .inr ⟨Nat.lt_of_not_le h.1, by simpa using h.2, rfl⟩

theorem tokenFree_poolsOk (i : Nat) (s : State) (hs : s.poolsOk) : (tokenFree i s).poolsOk := by
  rcases tokenFree_spec i s with ⟨_, h⟩ | ⟨hi, hal, h⟩
  · rw [h]
    exact poolsOk_of_framed (flagDoubleRelease_framed s) (by decide) hs
  · rw [h]
    obtain ⟨hv, ⟨z1, z2, z3, z4, z5, z6⟩, ⟨f1, f2, f3, f4, f5, f6⟩, hr⟩ := hs
    refine ⟨hv, ⟨z1, z2, by simpa using z3, z4, z5, z6⟩, ⟨f1, f2, ?_, f4, f5, f6⟩, hr⟩
    refine freeListOk_free f3 hi hal ?_ ?_
    · exact congrArg Tok.alloc (modTok_tok_self i _ s (by omega))
    · intro j hj
      exact congrArg Tok.alloc (modTok_tok_other i j _ s (Ne.symm hj))


/-! The pool of `Txn` entries. -/

/-- What an allocation does (R253): with nothing free it answers `NIL` and changes nothing; else it answers
the head of the free-list, which leaves the list and is marked allocated. -/
theorem txnAlloc_spec (s : State) :
    (s.xfree = [] ∧ txnAlloc s = (none, s)) ∨
    ∃ i rest, s.xfree = i :: rest ∧
      txnAlloc s = (some i, (s.setXfree rest).modTxn i (fun e => { e with alloc := true })) := by
  unfold txnAlloc
  cases h : s.xfree with
  | nil => exact .inl ⟨rfl, rfl⟩
  | cons i rest => exact .inr ⟨i, rest, rfl, rfl⟩

theorem txnAlloc_poolsOk (s : State) (hs : s.poolsOk) : (txnAlloc s).2.poolsOk := by
  rcases txnAlloc_spec s with ⟨_, h⟩ | ⟨i, rest, hl, h⟩
  · rw [h]
    exact hs
  · rw [h]
    obtain ⟨hv, ⟨z1, z2, z3, z4, z5, z6⟩, ⟨f1, f2, f3, f4, f5, f6⟩, hr⟩ := hs
    have hi : i < s.txns.length := by
      rw [z4]
      exact f4.2.1 i (by simp [hl])
    rw [hl] at f4
    refine ⟨hv, ⟨z1, z2, z3, by simpa using z4, z5, z6⟩, ⟨f1, f2, f3, ?_, f5, f6⟩, hr⟩
    refine freeListOk_alloc f4 ?_ ?_
    · rw [modTxn_txn_self i _ _ (by simpa using hi)]
    · intro j hj
      rw [modTxn_txn_other i j _ _ (Ne.symm hj)]
      rfl

/-- The entry an allocation answers is allocated after it. -/
theorem txnAlloc_alloc (s : State) (i : Nat) (t : State) (hs : s.poolsOk) (h : txnAlloc s = (some i, t)) :
    (t.txn i).alloc = true := by
  rcases txnAlloc_spec s with ⟨_, h'⟩ | ⟨k, rest, hl, h'⟩
  · rw [h'] at h
    simp at h
  · rw [h'] at h
    obtain ⟨h1, rfl⟩ := Prod.mk.inj h
    obtain rfl := Option.some.inj h1
    have hk : k < s.txns.length := by
      rw [hs.2.1.2.2.2.1]
      exact hs.2.2.1.2.2.2.1.2.1 k (by simp [hl])
    rw [modTxn_txn_self k _ _ (by simpa using hk)]

/-- What a free does (R252, R254): an index out of range, or an entry that is free already, only sets
`DIAG.DOUBLE_RELEASE`; else the entry is marked free and goes to the head of the free-list. -/
theorem txnFree_spec (i : Nat) (s : State) :
    ((s.cfg.maxTxns ≤ i ∨ (s.txn i).alloc = false) ∧ txnFree i s = s.flagDoubleRelease) ∨
    (i < s.cfg.maxTxns ∧ (s.txn i).alloc = true ∧
      txnFree i s = (s.modTxn i (fun e => { e with alloc := false })).setXfree (i :: s.xfree)) := by
  unfold txnFree
  split
  · rename_i h
    exact .inl ⟨h, rfl⟩
  · rename_i h
    rw [not_or] at h
    exact .inr ⟨Nat.lt_of_not_le h.1, by simpa using h.2, rfl⟩

theorem txnFree_poolsOk (i : Nat) (s : State) (hs : s.poolsOk) : (txnFree i s).poolsOk := by
  rcases txnFree_spec i s with ⟨_, h⟩ | ⟨hi, hal, h⟩
  · rw [h]
    exact poolsOk_of_framed (flagDoubleRelease_framed s) (by decide) hs
  · rw [h]
    obtain ⟨hv, ⟨z1, z2, z3, z4, z5, z6⟩, ⟨f1, f2, f3, f4, f5, f6⟩, hr⟩ := hs
    refine ⟨hv, ⟨z1, z2, z3, by simpa using z4, z5, z6⟩, ⟨f1, f2, f3, ?_, f5, f6⟩, hr⟩
    refine freeListOk_free f4 hi hal ?_ ?_
    · exact congrArg Txn.alloc (modTxn_txn_self i _ s (by omega))
    · intro j hj
      exact congrArg Txn.alloc (modTxn_txn_other i j _ s (Ne.symm hj))


/-! The Packet ring. -/

/-- What an acquisition does (R250). -/
theorem pktAcquire_spec (s : State) :
    (s.ring.cnt = 0 ∧ pktAcquire s = (none, s)) ∨
    (s.ring.cnt ≠ 0 ∧ pktAcquire s = (some (s.ring.slots.getD s.ring.rd 0),
      (s.setRing { s.ring with rd := (s.ring.rd + 1) % s.cfg.pktPoolCap, cnt := s.ring.cnt - 1 }).modPkt
        (s.ring.slots.getD s.ring.rd 0) (fun k => { k with out := true }))) := by
  unfold pktAcquire
  split
  · rename_i h
    exact .inl ⟨h, rfl⟩
  · rename_i h
    exact .inr ⟨h, rfl⟩

theorem ringHandles_head (s : State) (hs : s.ringOk) (hc : s.ring.cnt ≠ 0) :
    s.ringHandles = s.ring.slots.getD s.ring.rd 0 ::
      (s.setRing { s.ring with rd := (s.ring.rd + 1) % s.cfg.pktPoolCap, cnt := s.ring.cnt - 1 }).ringHandles := by
  obtain ⟨n, hn⟩ := Nat.exists_eq_succ_of_ne_zero hc
  simp only [State.ringHandles, State.setRing_ring, State.setRing_cfg, hn, Nat.succ_eq_add_one, Nat.add_sub_cancel]
  rw [List.range_succ_eq_map, List.map_cons, List.map_map, Nat.add_zero, Nat.mod_eq_of_lt hs.1]
  congr 1
  apply List.map_congr_left
  intro j _
  simp only [Function.comp, Nat.succ_eq_add_one]
  congr 1
  rw [Nat.mod_add_mod]
  congr 1
  omega

theorem pktAcquire_poolsOk (s : State) (hs : s.poolsOk) : (pktAcquire s).2.poolsOk := by
  rcases pktAcquire_spec s with ⟨_, h⟩ | ⟨hc, h⟩
  · rw [h]
    exact hs
  · rw [h]
    have hh := ringHandles_head s hs.2.2.2 hc
    obtain ⟨hv, ⟨z1, z2, z3, z4, z5, z6⟩, hf, ⟨r1, r2, r3⟩⟩ := hs
    rw [hh] at r3
    have hp : s.ring.slots.getD s.ring.rd 0 < s.pkts.length := by
      rw [z5]
      exact r3.2.1 _ (by simp)
    refine ⟨hv, ⟨z1, z2, z3, z4, by simpa using z5, z6⟩, hf, ⟨?_, ?_, ?_⟩⟩
    · exact Nat.mod_lt _ (Nat.lt_of_le_of_lt (Nat.zero_le _) r1)
    · simp only [State.modPkt_ring, State.setRing_ring, State.modPkt_cfg, State.setRing_cfg]
      omega
    · refine freeListOk_alloc r3 ?_ ?_
      · exact congrArg Pkt.out (modPkt_pkt_self _ _ _ (by simpa using hp))
      · intro j hj
        exact congrArg Pkt.out (modPkt_pkt_other _ j _ _ (Ne.symm hj))

/-- The Packet an acquisition answers is out after it. -/
theorem pktAcquire_out (s : State) (p : Nat) (t : State) (hs : s.poolsOk) (h : pktAcquire s = (some p, t)) :
    (t.pkt p).out = true := by
  rcases pktAcquire_spec s with ⟨_, h'⟩ | ⟨hc, h'⟩
  · rw [h'] at h
    simp at h
  · rw [h'] at h
    obtain ⟨h1, rfl⟩ := Prod.mk.inj h
    obtain rfl := Option.some.inj h1
    have r3 := hs.2.2.2.2.2
    rw [ringHandles_head s hs.2.2.2 hc] at r3
    have hp : s.ring.slots.getD s.ring.rd 0 < s.pkts.length := by
      rw [hs.2.1.2.2.2.2.1]
      exact r3.2.1 _ (by simp)
    rw [modPkt_pkt_self _ _ _ (by simpa using hp)]

/-- What a release does (R251, R252). -/
theorem pktRelease_spec (p : Nat) (s : State) :
    ((s.cfg.pktPoolCap ≤ p ∨ (s.pkt p).out = false) ∧ pktRelease p s = s.flagDoubleRelease) ∨
    (p < s.cfg.pktPoolCap ∧ (s.pkt p).out = true ∧
      pktRelease p s = (s.modPkt p (fun _ => Pkt.initial)).setRing
        { s.ring with
          slots := s.ring.slots.set ((s.ring.rd + s.ring.cnt) % s.cfg.pktPoolCap) p
          cnt := s.ring.cnt + 1 }) := by
  unfold pktRelease
  split
  · rename_i h
    exact .inl ⟨h, rfl⟩
  · rename_i h
    rw [not_or] at h
    exact .inr ⟨Nat.lt_of_not_le h.1, by simpa using h.2, rfl⟩

/-- Two positions of the ring less than its capacity apart are different slots. -/
theorem ring_slot_ne {rd j k cap : Nat} (hjk : j < k) (hk : k < cap) : (rd + j) % cap ≠ (rd + k) % cap := by
  intro h
  have h2 : j ≡ k [MOD cap] := Nat.ModEq.add_left_cancel' rd h
  rw [Nat.ModEq, Nat.mod_eq_of_lt (by omega), Nat.mod_eq_of_lt hk] at h2
  omega

theorem pktRelease_handles (p : Nat) (s : State) (hlen : s.ring.slots.length = s.cfg.pktPoolCap)
    (hc : s.ring.cnt < s.cfg.pktPoolCap) :
    ((s.modPkt p (fun _ => Pkt.initial)).setRing
        { s.ring with
          slots := s.ring.slots.set ((s.ring.rd + s.ring.cnt) % s.cfg.pktPoolCap) p
          cnt := s.ring.cnt + 1 }).ringHandles = s.ringHandles ++ [p] := by
  simp only [State.ringHandles, State.setRing_ring, State.setRing_cfg, State.modPkt_cfg, List.range_succ,
    List.map_append, List.map_cons, List.map_nil]
  congr 1
  · apply List.map_congr_left
    intro j hj
    have hj' : j < s.ring.cnt := by simpa using hj
    rw [List.getD_eq_getElem?_getD, List.getD_eq_getElem?_getD, List.getElem?_set_ne (ring_slot_ne hj' hc).symm]
  · have hlt : (s.ring.rd + s.ring.cnt) % s.cfg.pktPoolCap < s.ring.slots.length := by
      rw [hlen]
      exact Nat.mod_lt _ (by omega)
    rw [List.getD_eq_getElem?_getD, List.getElem?_set_self hlt]
    rfl

theorem pktRelease_poolsOk (p : Nat) (s : State) (hs : s.poolsOk) : (pktRelease p s).poolsOk := by
  rcases pktRelease_spec p s with ⟨_, h⟩ | ⟨hp, hout, h⟩
  · rw [h]
    exact poolsOk_of_framed (flagDoubleRelease_framed s) (by decide) hs
  · rw [h]
    obtain ⟨hv, ⟨z1, z2, z3, z4, z5, z6⟩, hf, ⟨r1, r2, r3⟩⟩ := hs
    have hc : s.ring.cnt < s.cfg.pktPoolCap := by
      have := freeListOk_length_lt r3 hp hout
      simpa [State.ringHandles] using this
    have hh := pktRelease_handles p s z6 hc
    have hcons := freeListOk_free (al' := fun q => ((s.modPkt p (fun _ => Pkt.initial)).pkt q).out) r3 hp hout
      (congrArg Pkt.out (modPkt_pkt_self p _ s (by omega)))
      (fun j hj => congrArg Pkt.out (modPkt_pkt_other p j _ s (Ne.symm hj)))
    refine ⟨hv, ⟨z1, z2, z3, z4, by simpa using z5, by simpa using z6⟩, hf, ⟨r1, ?_, ?_⟩⟩
    · simp only [State.setRing_ring, State.setRing_cfg, State.modPkt_cfg]
      omega
    · rw [hh]
      have hperm : (s.ringHandles ++ [p]).Perm (p :: s.ringHandles) := List.perm_append_singleton _ _
      obtain ⟨a, b, c⟩ := hcons
      exact ⟨hperm.nodup_iff.2 a, fun i hi => b i (hperm.mem_iff.1 hi), fun i hi => (hperm.mem_iff).trans (c i hi)⟩

/-! The dummy pool. -/

theorem dummyAcquire_poolsOk (s : State) (hs : s.poolsOk) : (dummyAcquire s).2.poolsOk := by
  unfold dummyAcquire
  split
  · exact hs
  · rename_i u rest hl
    obtain ⟨hv, hz, ⟨f1, f2, f3, f4, f5, f6⟩, hr⟩ := hs
    rw [hl] at f5 f6
    exact ⟨hv, hz, ⟨f1, f2, f3, f4, (List.nodup_cons.1 f5).2, fun v hvm => f6 v (List.mem_cons_of_mem u hvm)⟩, hr⟩

theorem dummyRelease_poolsOk (u : Nat) (s : State) (hs : s.poolsOk) : (dummyRelease u s).poolsOk := by
  unfold dummyRelease
  split
  · exact poolsOk_of_framed (flagDoubleRelease_framed s) (by decide) hs
  · rename_i h
    rw [not_or] at h
    obtain ⟨hv, hz, ⟨f1, f2, f3, f4, f5, f6⟩, hr⟩ := hs
    refine ⟨hv, hz, ⟨f1, f2, f3, f4, List.nodup_cons.2 ⟨h.2, f5⟩, ?_⟩, hr⟩
    intro v hvm
    rcases List.mem_cons.1 hvm with rfl | hvm
    · exact Nat.lt_of_not_le h.1
    · exact f6 v hvm

theorem dummyReleaseOpt_poolsOk (u : Option Nat) (s : State) (hs : s.poolsOk) : (dummyReleaseOpt u s).poolsOk := by
  cases u
  · exact hs
  · exact dummyRelease_poolsOk _ _ hs

theorem pktReleaseOpt_poolsOk (p : Option Nat) (s : State) (hs : s.poolsOk) : (pktReleaseOpt p s).poolsOk := by
  cases p
  · exact poolsOk_of_framed (flagDoubleRelease_framed s) (by decide) hs
  · exact pktRelease_poolsOk _ _ hs

theorem tokenFreeOpt_poolsOk (k : Option Nat) (s : State) (hs : s.poolsOk) : (tokenFreeOpt k s).poolsOk := by
  cases k
  · exact poolsOk_of_framed (flagDoubleRelease_framed s) (by decide) hs
  · exact tokenFree_poolsOk _ _ hs

end Sys2Proof.Machine
end

