-- ==== Sys2Proof/Laws/Searches.lean ====
section
/-! SUPPORT. Laws/Searches.lean: what the searches over the pools find (R41, R171, R172, R183), when `reap()` has
nothing to do (R186), and the end of a transaction as one state (R215). -/

namespace Sys2Proof.Machine

/-- A search over an index range that one index alone satisfies finds that index. -/
theorem find_range_unique (n e : Nat) (p : Nat → Bool) (he : e < n) (hp : p e = true)
    (hu : ∀ i < n, p i = true → i = e) : (List.range n).find? p = some e := by
  cases h : (List.range n).find? p with
  | none => exact absurd hp (by simpa using List.find?_eq_none.1 h e (by simpa using he))
  | some i => rw [hu i (by simpa using List.mem_of_find?_eq_some h) (List.find?_some h)]

theorem lookup_onlyPipe (s : State) (e : Nat) (k : BitVec 12) (h : s.onlyPipe e k) : lookup s k = some e := by
  obtain ⟨he, ha, hk, hu⟩ := h
  refine find_range_unique _ e _ he (by simp [ha, hk]) ?_
  intro i hi hp
  simp only [Bool.and_eq_true, decide_eq_true_eq] at hp
  exact hu i hi hp.1 hp.2

theorem lookup_noPipe (s : State) (k : BitVec 12) (h : s.noPipe k) : lookup s k = none := by
  refine List.find?_eq_none.2 ?_
  intro i hi hp
  simp only [Bool.and_eq_true, decide_eq_true_eq] at hp
  exact h i (by simpa using hi) hp.1 hp.2

theorem txnOfPkt_onlyTxn (s : State) (t p d : Nat) (h : s.onlyTxn t p d) : txnOfPkt s p = some t := by
  obtain ⟨ht, ha, hp, _, hu⟩ := h
  refine find_range_unique _ t _ ht (by simp [ha, hp]) ?_
  intro i hi hq
  simp only [Bool.and_eq_true, decide_eq_true_eq] at hq
  exact hu i hi hq.1 hq.2

theorem txnOfPkt_noTxn (s : State) (p : Nat) (h : s.noTxn p) : txnOfPkt s p = none := by
  refine List.find?_eq_none.2 ?_
  intro i hi hq
  simp only [Bool.and_eq_true, decide_eq_true_eq] at hq
  exact h i (by simpa using hi) hq.1 hq.2

theorem isLiveOf_iff (t : Td) (h : Addr) :
    t.isLiveOf h = true ↔ t.alloc = true ∧ (t.place = .queued ∨ t.place = .active) ∧ t.request = h := by
  simp [Td.isLiveOf, and_assoc]

/-- A state with a live TD of a request finds one. -/
theorem liveTd_some (s : State) (h : Addr) (d : Nat) (hd : s.liveTdOf h d) :
    ∃ i, s.liveTdOf h i ∧ liveTd s h = some (s.td i) := by
  obtain ⟨hlt, hrest⟩ := hd
  have hmem : s.td d ∈ s.tds := by
    simp only [State.td, List.getD_eq_getElem?_getD, List.getElem?_eq_getElem hlt, Option.getD_some]
    exact List.getElem_mem hlt
  cases hf : liveTd s h with
  | none => exact absurd ((isLiveOf_iff _ _).2 hrest) (by simpa using List.find?_eq_none.1 hf _ hmem)
  | some t =>
    obtain ⟨i, hi, hget⟩ := List.getElem_of_mem (List.mem_of_find?_eq_some hf)
    have hti : s.td i = t := by
      simp [State.td, List.getD_eq_getElem?_getD, List.getElem?_eq_getElem hi, hget]
    refine ⟨i, ⟨hi, ?_⟩, by rw [hti]⟩
    rw [hti]
    exact (isLiveOf_iff _ _).1 (List.find?_some (p := fun t : Td => t.isLiveOf h) hf)

theorem liveTd_none (s : State) (h : Addr) (hn : ∀ d, ¬ s.liveTdOf h d) : liveTd s h = none := by
  refine List.find?_eq_none.2 ?_
  intro t ht hp
  obtain ⟨i, hi, hget⟩ := List.getElem_of_mem ht
  have hti : s.td i = t := by
    simp [State.td, List.getD_eq_getElem?_getD, List.getElem?_eq_getElem hi, hget]
  refine hn i ⟨hi, ?_⟩
  rw [hti]
  exact (isLiveOf_iff _ _).1 hp

/-- A request has a TD in flight when some allocated TD names it (R171). -/
theorem requestInFlight_iff (s : State) (h : Addr) :
    requestInFlight s h = true ↔ ∃ d < s.tds.length, (s.td d).alloc = true ∧ (s.td d).request = h := by
  simp only [requestInFlight, List.any_eq_true, Bool.and_eq_true, decide_eq_true_eq]
  constructor
  · rintro ⟨t, ht, ha, hr⟩
    obtain ⟨i, hi, hget⟩ := List.getElem_of_mem ht
    have hti : s.td i = t := by
      simp [State.td, List.getD_eq_getElem?_getD, List.getElem?_eq_getElem hi, hget]
    exact ⟨i, hi, by rw [hti]; exact ha, by rw [hti]; exact hr⟩
  · rintro ⟨d, hd, ha, hr⟩
    refine ⟨s.td d, ?_, ha, hr⟩
    simp only [State.td, List.getD_eq_getElem?_getD, List.getElem?_eq_getElem hd, Option.getD_some]
    exact List.getElem_mem hd

/-- A handle is a multiple of 4 when its two low bits are zero (R77). -/
theorem handleAligned_iff (h : Word) : handleAligned h = true ↔ h.toNat % 4 = 0 := by
  simp only [handleAligned, beq_iff_eq, ← BitVec.toNat_inj, BitVec.extractLsb'_toNat, BitVec.toNat_ofNat]
  simp

/-! Reaping. -/

theorem reapOne_nothing (s : State) (e : Nat)
    (h : (s.ed e).alloc = true → (s.ed e).state = .pendingDelete → headInFlight s e = true) : reapOne e s = s := by
  unfold reapOne
  split
  · rfl
  · rename_i hc
    rw [not_or] at hc
    rw [if_pos (h (by simpa using hc.1) (by simpa using hc.2))]

/-- With nothing to reap, `reap()` changes nothing (R186). -/
theorem reap_nothing (s : State) (h : s.nothingToReap) : reap s = s := by
  have hl : ∀ l : List Nat, (∀ e ∈ l, e < s.cfg.maxEds) → reapList l s = s := by
    intro l
    induction l with
    | nil => exact fun _ => rfl
    | cons e rest ih =>
      intro hm
      rw [reapList, reapOne_nothing s e (fun ha hp => h e (hm e (by simp)) ha hp)]
      exact ih (fun e he => hm e (by simp [he]))
  exact hl _ (fun e he => by simpa using he)

/-! The end of a transaction. -/

/-- A release of a Packet that is out (R251). -/
theorem pktRelease_out (s : State) (p : Nat) (hp : p < s.cfg.pktPoolCap) (ho : (s.pkt p).out = true) :
    pktRelease p s = (s.modPkt p (fun _ => Pkt.initial)).setRing
      { slots := s.ring.slots.set ((s.ring.rd + s.ring.cnt) % s.cfg.pktPoolCap) p, rd := s.ring.rd,
        cnt := s.ring.cnt + 1 } := by
  rcases pktRelease_spec p s with ⟨hc | hc, _⟩ | ⟨_, _, h⟩
  · omega
  · simp [ho] at hc
  · exact h

/-- A free of a Transaction record that is allocated (R254). -/
theorem txnFree_live (s : State) (x : Nat) (hx : x < s.cfg.maxTxns) (ha : (s.txn x).alloc = true) :
    txnFree x s = (s.modTxn x (fun t => { t with alloc := false })).setXfree (x :: s.xfree) := by
  rcases txnFree_spec x s with ⟨hc | hc, _⟩ | ⟨_, _, h⟩
  · omega
  · simp [ha] at hc
  · exact h

/-- A release of a dummy buffer that is in use, or of none (R255). -/
theorem dummyReleaseOpt_used (s : State) (o : Option Nat) (h : ∀ u, o = some u → u < s.cfg.nDummy ∧ u ∉ s.dfree) :
    dummyReleaseOpt o s = s.setDfree (o.toList ++ s.dfree) := by
  cases o with
  | none => rfl
  | some u =>
    obtain ⟨h1, h2⟩ := h u rfl
    simp only [dummyReleaseOpt, dummyRelease]
    rw [if_neg (by simp only [not_or, not_le]; exact ⟨h1, h2⟩)]
    rfl

/-- `end_txn` of a live transaction (R215), as one state. -/
theorem endTxn_ended (s : State) (x p d : Nat) (h : s.liveTxn x p d) : endTxn x s = s.ended x p d := by
  obtain ⟨⟨hx, ha, hp, hd, _⟩, hxm, hpc, hout, _, hdum⟩ := h
  have h1 := dummyReleaseOpt_used s (s.txn x).dummy hdum
  have h2 : ∀ l, pktRelease p (s.setDfree l) = _ := fun l => pktRelease_out (s.setDfree l) p hpc hout
  have h3 : ∀ z : State, z.cfg = s.cfg → z.txns = s.txns → txnFree x z = _ := fun z hc hz =>
    txnFree_live z x (by rw [hc]; exact hxm) (by rw [txn_congr hz x]; exact ha)
  have h4 : endTxn x s = txnFree x (unlinkTd d (pktRelease p (dummyReleaseOpt (s.txn x).dummy s))) := by
    simp only [endTxn, hp, hd, pktReleaseOpt, unlinkTdOpt]
  rw [h4, h1, h2, h3]
  · simp only [State.ended, unlinkTd, State.setXfree, State.modTxn, State.modTd, State.setTxns, State.setTds,
      State.setFrame, State.setRing, State.modPkt, State.setPkts, State.setDfree]
  · rfl
  · rfl

end Sys2Proof.Machine
end

