-- ==== Sys2Proof/Laws/Admission.lean ====
section
/-! SUPPORT. Laws/Admission.lean: a dispatch that the transceiver accepts (R204, R207), an admission (R152, R156),
and scans of class lists with nothing ready (R150, R159). -/

namespace Sys2Proof.Machine

/-- A scan of a list with no `Operational` ED admits nothing (R150). -/
theorem scanList_idle (c : Mode) (l : List Nat) (s : State) (h : ∀ e ∈ l, (s.ed e).state ≠ .operational) :
    scanList c l s = s := by
  induction l with
  | nil => rfl
  | cons e rest ih =>
    rw [scanList, scanOne, if_pos (h e (by simp))]
    exact ih (fun e he => h e (by simp [he]))

/-- It only rotates its class (R159). -/
theorem scan_idle (c : Mode) (s : State) (h : ∀ e ∈ s.cls.get c, (s.ed e).state ≠ .operational) :
    scan c s = rotateClass c s := by rw [scan, scanList_idle _ _ _ h]

/-- Rotating a class with at most one ED changes nothing (R159). -/
theorem rotateClass_short (c : Mode) (s : State) (h : (s.cls.get c).length ≤ 1) : rotateClass c s = s := by
  have hr : rotateList (s.cls.get c) = s.cls.get c := by
    match hl : s.cls.get c, h with
    | [], _ => rfl
    | [a], _ => rfl
  unfold rotateClass
  rw [hr]
  have hc : s.cls.set c (s.cls.get c) = s.cls := by cases c <;> rfl
  rw [hc]
  rfl

/-- The state in which a dispatch prepares (R204): Packet `p`, record `x` and, for a zero-length transaction, a dummy
buffer taken. -/
def taken (len p x : Nat) (s : State) : State :=
  { s with
    ring := { slots := s.ring.slots, rd := (s.ring.rd + 1) % s.cfg.pktPoolCap, cnt := s.ring.cnt - 1 }
    pkts := s.pkts.modify p (fun k => { k with out := true })
    xfree := s.xfree.tail
    txns := s.txns.modify x (fun t => { t with alloc := true })
    dfree := if len = 0 then s.dfree.tail else s.dfree }

theorem taken_framed (len p x : Nat) (s : State) : Framed [.ring, .pkts, .xfree, .txns, .dfree] s (taken len p x s) := by
  intro f hf
  cases f <;> first | rfl | (simp at hf)

/-- The state after a dispatch that was accepted (R204): Packet `p`, record `x` and dummy buffer `u` taken, the
token descriptor handed over, the environment left as `v`. -/
def dispatched (e d len p x : Nat) (u : Option Nat) (v : Env) (s : State) : State :=
  let pr := prepare s e d len p u
  { s with
    ring := { slots := s.ring.slots, rd := (s.ring.rd + 1) % s.cfg.pktPoolCap, cnt := s.ring.cnt - 1 }
    pkts := s.pkts.modify p (fun _ => pr.pkt)
    xfree := s.xfree.tail
    txns := s.txns.modify x (fun _ => { pr.txn with phase := .tokenWait })
    dfree := if len = 0 then s.dfree.tail else s.dfree
    tds := s.tds.modify d (fun t => { t with toggle := .val pr.toggle, txn := some x })
    env := v
    out := s.out ++ [.ringSubmit pr.token true] }

/-- A transaction's length has 11 bits (R27, R202). -/
theorem nextLen_lt (s : State) (e d : Nat) : nextLen s e d < 2 ^ 11 := by
  have := (s.ed e).maxPacket.isLt
  unfold nextLen
  omega

/-- What is prepared depends on the configuration, the EDs, the TDs and the Tokens alone. -/
theorem prepare_congr {s t : State} (hc : t.cfg = s.cfg) (he : t.eds = s.eds) (hd : t.tds = s.tds)
    (hk : t.toks = s.toks) (e d len p : Nat) (u : Option Nat) : prepare t e d len p u = prepare s e d len p u := by
  unfold prepare
  rw [ed_congr he e, td_congr hd d, hc]
  simp only [tok_congr hk]

/-- A dispatch with all three resources there comes to the transceiver (R204, R207). -/
theorem dispatch_ready (e d len x : Nat) (xs : List Nat) (s : State) (hr : s.ring.cnt ≠ 0) (hx : s.xfree = x :: xs)
    (hu : len = 0 → s.dfree ≠ []) :
    dispatch e d len s = dispatchWith e d len (s.ring.slots.getD s.ring.rd 0) x
      (if len = 0 then s.dfree.head? else none) (taken len (s.ring.slots.getD s.ring.rd 0) x s) := by
  obtain ⟨p, hp⟩ : ∃ p, p = s.ring.slots.getD s.ring.rd 0 := ⟨_, rfl⟩
  obtain ⟨s1, hs1⟩ : ∃ s1, s1 = (s.setRing
      { s.ring with rd := (s.ring.rd + 1) % s.cfg.pktPoolCap, cnt := s.ring.cnt - 1 }).modPkt p
        (fun k => { k with out := true }) := ⟨_, rfl⟩
  have h1 : pktAcquire s = (some p, s1) := by
    simp only [pktAcquire, if_neg hr, hp, hs1]
  have hx1 : s1.xfree = x :: xs := by rw [hs1]; exact hx
  have hd1 : s1.dfree = s.dfree := by rw [hs1]; rfl
  obtain ⟨s2, hs2⟩ : ∃ s2, s2 = (s1.setXfree xs).modTxn x (fun t => { t with alloc := true }) := ⟨_, rfl⟩
  have h2 : txnAlloc s1 = (some x, s2) := by
    simp only [txnAlloc, hx1, hs2]
  have hd2 : s2.dfree = s.dfree := by rw [hs2]; exact hd1
  have ht : taken len p x s = s2.setDfree (if len = 0 then s.dfree.tail else s.dfree) := by
    rw [hs2, hs1]
    simp only [taken, hx, List.tail_cons, State.modTxn, State.modPkt, State.setTxns, State.setPkts, State.setDfree,
      State.setXfree, State.setRing]
  have h3 : takeDummy len s2 = (if len = 0 then s.dfree.head? else none, taken len p x s) := by
    rw [ht]
    unfold takeDummy dummyAcquire
    by_cases hl : len = 0
    · rw [if_pos hl, hd2, if_pos hl, if_pos hl]
      cases hdf : s.dfree with
      | nil => exact absurd hdf (hu hl)
      | cons a as => rfl
    · rw [if_neg hl, if_neg hl, if_neg hl, ← hd2]
      rfl
  have hne : ¬ (len = 0 ∧ s1.dfree = []) := fun hc => hu hc.1 (hd1 ▸ hc.2)
  have hne' : s1.xfree ≠ [] := by rw [hx1]; exact List.cons_ne_nil _ _
  rw [← hp]
  unfold dispatch
  rw [h1]
  simp only
  rw [if_neg hne', if_neg hne, h2]
  simp only
  rw [h3]

/-- A dispatch short of a resource changes nothing but the order of the ring (R204, R206). -/
theorem dispatch_short (e d len : Nat) (s : State) (h : s.ring.cnt = 0 ∨ s.xfree = [] ∨ (len = 0 ∧ s.dfree = [])) :
    dispatch e d len s =
      if s.ring.cnt = 0 then (false, s)
      else (false, pktRelease (s.ring.slots.getD s.ring.rd 0) (pktAcquire s).2) := by
  split
  · rename_i hc
    have h1 : pktAcquire s = (none, s) := by simp only [pktAcquire, if_pos hc]
    unfold dispatch
    rw [h1]
  · rename_i hc
    obtain ⟨p, hp⟩ : ∃ p, p = s.ring.slots.getD s.ring.rd 0 := ⟨_, rfl⟩
    obtain ⟨s1, hs1⟩ : ∃ s1, s1 = (s.setRing
        { s.ring with rd := (s.ring.rd + 1) % s.cfg.pktPoolCap, cnt := s.ring.cnt - 1 }).modPkt p
          (fun k => { k with out := true }) := ⟨_, rfl⟩
    have h1 : pktAcquire s = (some p, s1) := by simp only [pktAcquire, if_neg hc, hp, hs1]
    have hx1 : s1.xfree = s.xfree := by rw [hs1]; rfl
    have hd1 : s1.dfree = s.dfree := by rw [hs1]; rfl
    unfold dispatch
    rw [h1, ← hp]
    simp only
    by_cases hx : s.xfree = []
    · rw [if_pos (hx1.trans hx)]
    · rw [if_neg (by rw [hx1]; exact hx), if_pos]
      rw [hd1]
      exact (h.resolve_left hc).resolve_left hx

/-- `ring_submit` changes the environment's scripts and puts the descriptor out (R308). -/
theorem ringSubmit_eq (desc : TxDesc) (s : State) :
    ∃ a v, ringSubmit desc s = (a, { s with env := v, out := s.out ++ [.ringSubmit desc a] }) ∧
      (∀ answers, s.env.ringAnswers = a :: answers → v = { s.env with ringAnswers := answers }) ∧
      (∀ b answers, s.env.ringAnswers = b :: answers → a = b) := by
  unfold ringSubmit
  split
  · rename_i b rest hb
    exact ⟨b, _, rfl, fun answers h => by rw [hb] at h; rw [(List.cons.inj h).2]; rfl,
      fun c answers h => by rw [hb] at h; exact (List.cons.inj h).1⟩
  · rename_i hb
    exact ⟨_, _, rfl, fun answers h => by rw [hb] at h; simp at h, fun c answers h => by rw [hb] at h; simp at h⟩

/-- `dispatch` from the point where all three resources are there (R204), by the transceiver's answer. -/
theorem dispatchWith_eq (e d len p x : Nat) (u : Option Nat) (s : State) :
    ∃ a v, (∀ answers, s.env.ringAnswers = a :: answers → v = { s.env with ringAnswers := answers }) ∧
      (∀ b answers, s.env.ringAnswers = b :: answers → a = b) ∧
      dispatchWith e d len p x u (taken len p x s) =
        if a then (true, dispatched e d len p x u v s)
        else (false, pktRelease p (txnFree x (dummyReleaseOpt u { taken len p x s with
          pkts := s.pkts.modify p (fun _ => (prepare s e d len p u).pkt)
          txns := s.txns.modify x (fun _ => (prepare s e d len p u).txn)
          env := v
          out := s.out ++ [.ringSubmit (prepare s e d len p u).token false] }))) := by
  obtain ⟨pr, hpr⟩ : ∃ pr, pr = prepare s e d len p u := ⟨_, rfl⟩
  have hpr' : prepare (taken len p x s) e d len p u = pr := by
    rw [hpr]
    exact prepare_congr (by rfl) (by rfl) (by rfl) (by rfl) e d len p u
  obtain ⟨s4, hs4⟩ : ∃ s4, s4 = ((taken len p x s).modPkt p (fun _ => pr.pkt)).modTxn x (fun _ => pr.txn) := ⟨_, rfl⟩
  have hs4' : s4 = { taken len p x s with
      pkts := s.pkts.modify p (fun _ => pr.pkt)
      txns := s.txns.modify x (fun _ => pr.txn) } := by
    rw [hs4]
    simp only [taken, State.modTxn, State.modPkt, State.setTxns, State.setPkts, List.modify_modify_eq]
    rfl
  obtain ⟨a, v, h1, h2, h3⟩ := ringSubmit_eq pr.token s4
  have he : s4.env = s.env := by rw [hs4]; rfl
  rw [he] at h2 h3
  refine ⟨a, v, h2, h3, ?_⟩
  unfold dispatchWith
  simp only [hpr', ← hs4, ← hpr]
  rw [h1, hs4']
  cases a with
  | false => rfl
  | true =>
    simp only [if_true, dispatched, ← hpr]
    simp only [taken, State.modTd, State.modTxn, State.setTds, State.setTxns, List.modify_modify_eq]
    rfl

theorem dispatch_accepted (e d len x : Nat) (xs : List Nat) (answers : List Bool) (s : State)
    (hr : s.ring.cnt ≠ 0) (hx : s.xfree = x :: xs) (hu : len = 0 → s.dfree ≠ [])
    (ha : s.env.ringAnswers = true :: answers) :
    dispatch e d len s =
      (true, dispatched e d len (s.ring.slots.getD s.ring.rd 0) x (if len = 0 then s.dfree.head? else none)
        { s.env with ringAnswers := answers } s) := by
  obtain ⟨a, v, h1, h2, h3⟩ := dispatchWith_eq e d len (s.ring.slots.getD s.ring.rd 0) x
    (if len = 0 then s.dfree.head? else none) s
  obtain rfl := h2 true answers ha
  rw [dispatch_ready e d len x xs s hr hx hu, h3, h1 answers ha]
  rfl

/-- What a deferred dispatch leaves (R206). -/
structure PutBack (s t : State) : Prop where
  xfree : t.xfree = s.xfree
  dfree : t.dfree = s.dfree
  tds : t.tds = s.tds
  diag : t.diag = s.diag
  txn : ∀ i, (s.txn i).alloc = true → t.txn i = s.txn i
  txnAlloc : ∀ i, (t.txn i).alloc = (s.txn i).alloc
  handles : t.ringHandles = rotateList s.ringHandles
  pktHead : ∀ p, s.ringHandles.head? = some p → t.pkt p = Pkt.initial
  pktOther : ∀ p, s.ringHandles.head? ≠ some p → t.pkt p = s.pkt p
  frame : Framed [.ring, .pkts, .txns, .env, .out] s t

theorem ringHandles_nil (s : State) (h : s.ring.cnt = 0) : s.ringHandles = [] := by
  simp [State.ringHandles, h]

/-- What is put back of the Packet that a dispatch took. -/
theorem putBack_pkt (s z : State) (p : Nat) (hs : s.poolsOk) (hc : s.ring.cnt ≠ 0)
    (hp : p = s.ring.slots.getD s.ring.rd 0)
    (hz : z.ring = { slots := s.ring.slots, rd := (s.ring.rd + 1) % s.cfg.pktPoolCap, cnt := s.ring.cnt - 1 })
    (hzc : z.cfg = s.cfg) (hzo : (z.pkt p).out = true) (hzp : ∀ i, i ≠ p → z.pkt i = s.pkt i) :
    (pktRelease p z).ringHandles = rotateList s.ringHandles ∧ (pktRelease p z).pkt p = Pkt.initial ∧
    (∀ i, i ≠ p → (pktRelease p z).pkt i = s.pkt i) ∧ s.ringHandles.head? = some p ∧
    pktRelease p z = (z.modPkt p (fun _ => Pkt.initial)).setRing
        { z.ring with
          slots := z.ring.slots.set ((z.ring.rd + z.ring.cnt) % z.cfg.pktPoolCap) p
          cnt := z.ring.cnt + 1 } := by
  have hh := ringHandles_head s hs.2.2.2 hc
  have hring := hs.2.2.2
  have hsl := hs.2.1.2.2.2.2.2
  rw [← hp] at hh
  have hpc : p < s.cfg.pktPoolCap := hring.2.2.2.1 p (by rw [hh]; simp)
  have hzl : p < z.pkts.length := pkt_lt_of_ne_initial z p (fun h => by rw [h] at hzo; exact Bool.noConfusion hzo)
  have hzh : z.ringHandles =
      (s.setRing { s.ring with rd := (s.ring.rd + 1) % s.cfg.pktPoolCap, cnt := s.ring.cnt - 1 }).ringHandles := by
    simp only [State.ringHandles, hz, hzc]
    rfl
  rcases pktRelease_spec p z with ⟨hb | hb, _⟩ | ⟨_, _, hr⟩
  · rw [hzc] at hb; omega
  · rw [hzo] at hb; exact Bool.noConfusion hb
  · have hpos : 0 < s.cfg.pktPoolCap := by omega
    have hcnt := hring.2.1
    refine ⟨?_, ?_, ?_, by rw [hh]; rfl, hr⟩
    · have h1 := pktRelease_handles p z (by rw [hz, hzc]; exact hsl) (by rw [hz, hzc]; simp only; omega)
      rw [hr, h1, hzh, hh]
      rfl
    · rw [hr]
      exact modPkt_pkt_self p _ z hzl
    · intro i hi
      rw [hr]
      exact (modPkt_pkt_other p i _ z (Ne.symm hi)).trans (hzp i hi)

theorem rotateList_nil : rotateList [] = [] := rfl

/-- A dispatch is deferred, with everything it took put back, or accepted, with a Packet, a record and for a
zero-length transaction a dummy buffer taken (R204, R206, R207). -/
theorem dispatch_cases (e d len : Nat) (s : State) (hs : s.poolsOk) :
    (∃ t, dispatch e d len s = (false, t) ∧ PutBack s t) ∨
    ∃ x xs v, s.xfree = x :: xs ∧ s.ring.cnt ≠ 0 ∧ (len = 0 → s.dfree ≠ []) ∧
      dispatch e d len s = (true, dispatched e d len (s.ring.slots.getD s.ring.rd 0) x
        (if len = 0 then s.dfree.head? else none) v s) := by
  by_cases hc : s.ring.cnt = 0
  · refine .inl ⟨s, by rw [dispatch_short e d len s (.inl hc), if_pos hc], ?_⟩
    have hn := ringHandles_nil s hc
    exact ⟨rfl, rfl, rfl, rfl, fun _ _ => rfl, fun _ => rfl, by rw [hn]; rfl, fun p hp => by rw [hn] at hp; simp at hp,
      fun _ _ => rfl, Framed.refl _ _⟩
  · obtain ⟨p, hp⟩ : ∃ p, p = s.ring.slots.getD s.ring.rd 0 := ⟨_, rfl⟩
    have hpm : p ∈ s.ringHandles := by rw [ringHandles_head s hs.2.2.2 hc, hp]; simp
    have hpl : p < s.pkts.length := by rw [hs.2.1.2.2.2.2.1]; exact hs.2.2.2.2.2.2.1 p hpm
    by_cases hsh : s.xfree = [] ∨ (len = 0 ∧ s.dfree = [])
    · have hd := dispatch_short e d len s (.inr hsh)
      rw [if_neg hc, ← hp] at hd
      have hz : (pktAcquire s).2 = (s.setRing
          { s.ring with rd := (s.ring.rd + 1) % s.cfg.pktPoolCap, cnt := s.ring.cnt - 1 }).modPkt p
            (fun k => { k with out := true }) := by
        simp only [pktAcquire, if_neg hc, hp]
      obtain ⟨h1, h2, h3, h4, h5⟩ := putBack_pkt s (pktAcquire s).2 p hs hc hp (by rw [hz]; rfl) (by rw [hz]; rfl)
        (by rw [hz]; exact congrArg Pkt.out (modPkt_pkt_self p _ _ hpl))
        (fun i hi => by rw [hz]; exact modPkt_pkt_other p i _ _ (Ne.symm hi))
      refine .inl ⟨_, hd, ?_⟩
      refine ⟨?_, ?_, ?_, ?_, fun _ _ => ?_, fun _ => ?_, h1, ?_, ?_, ?_⟩
      iterate 6 (· rw [h5, hz]; rfl)
      · intro q hq
        obtain rfl : p = q := Option.some.inj (h4.symm.trans hq)
        exact h2
      · intro q hq
        exact h3 q (fun hqp => hq (hqp ▸ h4))
      · rw [h5, hz]
        exact ((setRing_framed _ _).mono (by decide)).trans (((modPkt_framed _ _ _).mono (by decide)).trans
          (((modPkt_framed _ _ _).mono (by decide)).trans ((setRing_framed _ _).mono (by decide))))
    · rw [not_or] at hsh
      obtain ⟨x, xs, hx⟩ := List.exists_cons_of_ne_nil hsh.1
      have hu : len = 0 → s.dfree ≠ [] := fun hl hd => hsh.2 ⟨hl, hd⟩
      obtain ⟨u, hud⟩ : ∃ u, u = (if len = 0 then s.dfree.head? else none) := ⟨_, rfl⟩
      obtain ⟨a, v, -, -, h3⟩ := dispatchWith_eq e d len p x u s
      have hr := dispatch_ready e d len x xs s hc hx hu
      rw [← hp, ← hud, h3] at hr
      cases a with
      | true =>
        refine .inr ⟨x, xs, v, hx, hc, hu, ?_⟩
        rw [hr, ← hp, ← hud]
        rfl
      | false =>
        obtain ⟨w, hw⟩ : ∃ w, w = { taken len p x s with
          pkts := s.pkts.modify p (fun _ => (prepare s e d len p u).pkt)
          txns := s.txns.modify x (fun _ => (prepare s e d len p u).txn)
          env := v
          out := s.out ++ [Output.ringSubmit (prepare s e d len p u).token false] } := ⟨_, rfl⟩
        rw [← hw] at hr
        have hwf : Framed [.ring, .pkts, .xfree, .txns, .dfree, .env, .out] s w := by
          have h : w = ((((taken len p x s).setPkts (s.pkts.modify p (fun _ => (prepare s e d len p u).pkt))).setTxns
            (s.txns.modify x (fun _ => (prepare s e d len p u).txn))).setEnv v).emit
              (.ringSubmit (prepare s e d len p u).token false) := hw
          rw [h]
          exact ((taken_framed len p x s).mono (by decide)).trans (((setPkts_framed _ _).mono (by decide)).trans
            (((setTxns_framed _ _).mono (by decide)).trans (((setEnv_framed _ _).mono (by decide)).trans
              ((emit_framed _ _).mono (by decide)))))
        have hcfg := hwf.cfg_eq (by decide)
        have hwr : w.ring = { slots := s.ring.slots, rd := (s.ring.rd + 1) % s.cfg.pktPoolCap, cnt := s.ring.cnt - 1 } := by
          rw [hw]; rfl
        have hwp : w.pkts = s.pkts.modify p (fun _ => (prepare s e d len p u).pkt) := by rw [hw]
        have hxf := hs.2.2.1.2.2.2.1
        have hxm : x ∈ s.xfree := by rw [hx]; simp
        have hxc : x < s.cfg.maxTxns := hxf.2.1 x hxm
        have hxa : (s.txn x).alloc = false := (hxf.2.2 x hxc).1 hxm
        have hxl : x < s.txns.length := by rw [hs.2.1.2.2.2.1]; exact hxc
        have hdn := hs.2.2.1.2.2.2.2
        have h1 : dummyReleaseOpt u w = w.setDfree s.dfree := by
          have hwd : w.dfree = if len = 0 then s.dfree.tail else s.dfree := by rw [hw]; rfl
          by_cases hl : len = 0
          · rw [if_pos hl] at hud hwd
            obtain ⟨y, ys, hy⟩ := List.exists_cons_of_ne_nil (hu hl)
            rw [hy] at hud hwd
            simp only [List.head?_cons, List.tail_cons] at hud hwd
            rw [dummyReleaseOpt_used w u (fun z hz => ?_), hud, hwd, hy]
            · rfl
            · obtain rfl : y = z := Option.some.inj (hud.symm.trans hz)
              rw [hy] at hdn
              rw [hwd]
              refine ⟨?_, (List.nodup_cons.1 hdn.1).1⟩
              unfold Config.nDummy
              rw [hcfg]
              exact hdn.2 y (by simp)
          · rw [if_neg hl] at hud hwd
            rw [hud, ← hwd]
            rfl
        have hwt : w.txns = s.txns.modify x (fun _ => (prepare s e d len p u).txn) := by rw [hw]
        have hwx : ∀ i, w.txn i = if i = x then (prepare s e d len p u).txn else s.txn i := by
          intro i
          have := fun i => txn_congr (s := s.modTxn x (fun _ => (prepare s e d len p u).txn)) (t := w) hwt i
          rw [this]
          split
          · rename_i hi; subst hi; exact modTxn_txn_self i _ s hxl
          · rename_i hi; exact modTxn_txn_other x i _ s (Ne.symm hi)
        have h2 : txnFree x (w.setDfree s.dfree) =
            ((w.setDfree s.dfree).modTxn x (fun t => { t with alloc := false })).setXfree s.xfree := by
          have hwxf : w.xfree = xs := by rw [hw]; exact congrArg List.tail hx
          have := txnFree_live (w.setDfree s.dfree) x (by rw [← hcfg] at hxc; exact hxc)
            (by show (w.txn x).alloc = true; rw [hwx, if_pos rfl]; rfl)
          rw [this, hx]
          show State.setXfree (x :: w.xfree) _ = _
          rw [hwxf]
        rw [h1, h2] at hr
        obtain ⟨z, hz⟩ : ∃ z, z =
          ((w.setDfree s.dfree).modTxn x (fun t => { t with alloc := false })).setXfree s.xfree := ⟨_, rfl⟩
        rw [← hz] at hr
        have hzp : ∀ i, z.pkt i = if i = p then (prepare s e d len p u).pkt else s.pkt i := by
          intro i
          have := pkt_congr (s := s.modPkt p (fun _ => (prepare s e d len p u).pkt)) (t := z) (by rw [hz]; exact hwp) i
          rw [this]
          split
          · rename_i hi; subst hi; exact modPkt_pkt_self i _ s hpl
          · rename_i hi; exact modPkt_pkt_other p i _ s (Ne.symm hi)
        have hzx : ∀ i, i ≠ x → z.txn i = s.txn i := by
          intro i hi
          rw [hz]
          have := modTxn_txn_other x i (fun t => { t with alloc := false }) w (Ne.symm hi)
          have h' := hwx i
          rw [if_neg hi] at h'
          exact this.trans h'
        have hzxa : (z.txn x).alloc = false := by
          rw [hz]
          exact congrArg Txn.alloc (modTxn_txn_self x (fun t => { t with alloc := false }) w
            (by rw [hwt, List.length_modify]; exact hxl))
        obtain ⟨k1, k2, k3, k4, k5⟩ := putBack_pkt s z p hs hc hp (by rw [hz]; exact hwr) (by rw [hz]; exact hcfg)
          (by rw [hzp, if_pos rfl]; rfl) (fun i hi => by rw [hzp, if_neg hi])
        have hzf : Framed [.ring, .pkts, .xfree, .txns, .dfree, .env, .out] s z := by
          rw [hz]
          exact (hwf.trans ((setDfree_framed _ _).mono (by decide))).trans
            (((modTxn_framed _ _ _).mono (by decide)).trans ((setXfree_framed _ _).mono (by decide)))
        have hzxf : z.xfree = s.xfree := by rw [hz]; rfl
        have hzdf : z.dfree = s.dfree := by rw [hz]; rfl
        obtain ⟨t, ht⟩ : ∃ t, t = pktRelease p z := ⟨_, rfl⟩
        rw [← ht] at hr k1 k2 k3 k5
        have htf : Framed [.ring, .pkts] z t := by
          rw [k5]
          exact ((modPkt_framed _ _ _).mono (by decide)).trans ((setRing_framed _ _).mono (by decide))
        have htz : ∀ i, t.txn i = z.txn i := txn_congr (htf.txns_eq (by decide))
        have hzt : Framed [.ring, .pkts, .xfree, .txns, .dfree, .env, .out] s t := hzf.trans (htf.mono (by decide))
        refine .inl ⟨t, hr, ?_⟩
        refine ⟨(htf.xfree_eq (by decide)).trans hzxf, (htf.dfree_eq (by decide)).trans hzdf,
          (htf.tds_eq (by decide)).trans (hzf.tds_eq (by decide)),
          (htf.diag_eq (by decide)).trans (hzf.diag_eq (by decide)), ?_, ?_, k1, ?_, ?_, ?_⟩
        · intro i hi
          have hix : i ≠ x := by rintro rfl; rw [hxa] at hi; exact Bool.noConfusion hi
          exact (htz i).trans (hzx i hix)
        · intro i
          rw [htz]
          by_cases hix : i = x
          · rw [hix, hzxa, hxa]
          · rw [hzx i hix]
        · intro q hq
          obtain rfl : p = q := Option.some.inj (k4.symm.trans hq)
          exact k2
        · intro q hq
          exact k3 q (fun hqp => hq (hqp ▸ k4))
        · intro f hf
          cases f <;> first
            | exact (htf.xfree_eq (by decide)).trans hzxf
            | exact (htf.dfree_eq (by decide)).trans hzdf
            | exact hzt _ (by decide)
            | simp at hf

/-- An admission that both budgets allow and the transceiver accepts (R152, R156). -/
theorem tryAdmit_admits (e d x rem : Nat) (xs sofs : List Nat) (answers : List Bool) (s : State)
    (hst : s.frame.status.closed = false)
    (hb : s.frame.bytes.toNat + costOf s.cfg (nextLen s e d) ≤ s.cfg.maxBytesPerFrame)
    (hs : s.env.sofAnswers = rem :: sofs)
    (ht : s.frame.timeUs.toNat + wireTime s.cfg s.bussts.speed (costOf s.cfg (nextLen s e d)) ≤ rem)
    (hr : s.ring.cnt ≠ 0) (hx : s.xfree = x :: xs) (hu : nextLen s e d = 0 → s.dfree ≠ [])
    (ha : s.env.ringAnswers = true :: answers) :
    tryAdmit e d s =
      commit d (costOf s.cfg (nextLen s e d)) (wireTime s.cfg s.bussts.speed (costOf s.cfg (nextLen s e d)))
        (dispatched e d (nextLen s e d) (s.ring.slots.getD s.ring.rd 0) x
          (if nextLen s e d = 0 then s.dfree.head? else none)
          { s.env with sofAnswers := sofs, ringAnswers := answers } (s.setEnv { s.env with sofAnswers := sofs })) := by
  have h1 : sofRemaining s = (rem, s.setEnv { s.env with sofAnswers := sofs }) := by simp only [sofRemaining, hs]
  have hob : overBytes s (costOf s.cfg (nextLen s e d)) = false :=
    decide_eq_false (Nat.not_lt.2 hb)
  have hot : overTime (s.setEnv { s.env with sofAnswers := sofs })
      (wireTime s.cfg s.bussts.speed (costOf s.cfg (nextLen s e d))) rem = false :=
    decide_eq_false (Nat.not_lt.2 ht)
  have hd := dispatch_accepted e d (nextLen s e d) x xs answers (s.setEnv { s.env with sofAnswers := sofs }) hr hx hu ha
  unfold tryAdmit
  simp only [hst, hob, h1, hot, offer, hd]
  rfl

end Sys2Proof.Machine
end

