-- ==== Sys2Proof/Laws/Memory.lean ====
section
/-! SUPPORT. Laws/Memory.lean: host memory (20_memory.md): reading after writing, one byte or a word, and
the canonical form, which every memory operation keeps. -/

namespace Sys2Proof.Machine

/-! One byte. -/

@[simp] theorem memory_read_nil (a : Addr) : Memory.read [] a = unlistedByte := rfl

theorem memory_read_cons_self (a : Addr) (v : Byte) (m : Memory) (h : Memory.read m a = unlistedByte) :
    (Memory.cons a v m).read a = v := by
  unfold Memory.cons
  split
  · rename_i hv
    rw [h, hv]
  · simp [Memory.read]

theorem memory_read_cons_other (a b : Addr) (v : Byte) (m : Memory) (hab : b ≠ a) :
    (Memory.cons a v m).read b = m.read b := by
  unfold Memory.cons
  split
  · rfl
  · simp [Memory.read, hab]

/-- An address below every listed one reads as unlisted. -/
theorem memory_read_below (m : Memory) (a : Addr) (h : ∀ c ∈ m, a < c.1) : m.read a = unlistedByte := by
  induction m with
  | nil => rfl
  | cons c m ih =>
    obtain ⟨b, u⟩ := c
    have hb : a < b := h (b, u) (by simp)
    rw [Memory.read, if_neg (Nat.ne_of_lt hb)]
    exact ih (fun c hc => h c (by simp [hc]))

/-- A byte that was stored is read back. -/
theorem memory_read_write_self (m : Memory) (a : Addr) (v : Byte) (hm : Memory.wf m) : (m.write a v).read a = v := by
  induction m with
  | nil => exact memory_read_cons_self a v [] rfl
  | cons c m ih =>
    obtain ⟨b, u⟩ := c
    obtain ⟨hp, hne⟩ := hm
    rw [List.pairwise_cons] at hp
    have hm' : Memory.wf m := ⟨hp.2, fun c hc => hne c (by simp [hc])⟩
    rw [Memory.write]
    split
    · rename_i hab
      refine memory_read_cons_self a v _ (memory_read_below _ a ?_)
      intro c hc
      rcases List.mem_cons.1 hc with rfl | hc
      · exact hab
      · exact Nat.lt_trans hab (hp.1 c hc)
    · split
      · rename_i hab
        subst hab
        exact memory_read_cons_self a v m (memory_read_below m a hp.1)
      · rename_i hab
        rw [Memory.read, if_neg hab]
        exact ih hm'

/-- Every other byte is as it was. -/
theorem memory_read_write_other (m : Memory) (a b : Addr) (v : Byte) (hab : b ≠ a) :
    (m.write a v).read b = m.read b := by
  induction m with
  | nil => exact memory_read_cons_other a b v [] hab
  | cons c m ih =>
    obtain ⟨k, u⟩ := c
    rw [Memory.write]
    split
    · exact memory_read_cons_other a b v _ hab
    · split
      · rename_i hak
        subst hak
        rw [memory_read_cons_other a b v m hab, Memory.read, if_neg hab]
      · rw [Memory.read, Memory.read, ih]

/-- Every entry of a written memory is an old entry or the byte written. -/
theorem memory_mem_write (m : Memory) (a : Addr) (v : Byte) (c : Host.Cell) (hc : c ∈ m.write a v) :
    c ∈ m ∨ c = (a, v) := by
  induction m with
  | nil =>
    simp only [Memory.write, Memory.cons] at hc
    split at hc <;> simp_all
  | cons d m ih =>
    obtain ⟨k, u⟩ := d
    simp only [Memory.write, Memory.cons] at hc
    split at hc
    · split at hc
      · exact .inl hc
      · simp only [List.mem_cons] at hc ⊢
        tauto
    · split at hc
      · split at hc
        · exact .inl (by simp [hc])
        · simp only [List.mem_cons] at hc ⊢
          tauto
      · rcases List.mem_cons.1 hc with rfl | hc
        · simp
        · rcases ih hc with h | h
          · exact .inl (by simp [h])
          · exact .inr h

theorem memory_wf_cons (a : Addr) (v : Byte) (m : Memory) (hm : Memory.wf m) (h : ∀ c ∈ m, a < c.1) :
    Memory.wf (Memory.cons a v m) := by
  unfold Memory.cons
  split
  · exact hm
  · rename_i hv
    refine ⟨List.pairwise_cons.2 ⟨h, hm.1⟩, ?_⟩
    intro c hc
    rcases List.mem_cons.1 hc with rfl | hc
    · exact hv
    · exact hm.2 c hc

/-- A store keeps the canonical form. -/
theorem memory_wf_write (m : Memory) (a : Addr) (v : Byte) (hm : Memory.wf m) : Memory.wf (m.write a v) := by
  induction m with
  | nil => exact memory_wf_cons a v [] hm (by simp)
  | cons c m ih =>
    obtain ⟨k, u⟩ := c
    have hp := List.pairwise_cons.1 hm.1
    have hm' : Memory.wf m := ⟨hp.2, fun c hc => hm.2 c (by simp [hc])⟩
    rw [Memory.write]
    split
    · rename_i hak
      refine memory_wf_cons a v _ hm ?_
      intro c hc
      rcases List.mem_cons.1 hc with rfl | hc
      · exact hak
      · exact Nat.lt_trans hak (hp.1 c hc)
    · split
      · rename_i hak
        subst hak
        exact memory_wf_cons a v m hm' hp.1
      · rename_i h1 h2
        have hka : k < a := Nat.lt_of_le_of_ne (Nat.le_of_not_lt h1) (Ne.symm h2)
        have hw := ih hm'
        refine ⟨List.pairwise_cons.2 ⟨?_, hw.1⟩, ?_⟩
        · intro c hc
          rcases memory_mem_write m a v c hc with h | rfl
          · exact hp.1 c h
          · exact hka
        · intro c hc
          rcases List.mem_cons.1 hc with rfl | hc
          · exact hm.2 (k, u) (by simp)
          · exact hw.2 c hc

/-! A word. -/

/-- The four addresses of the word at `a` (R72, R74). -/
def wordAddrs (c : Config) (a : Addr) : List Addr :=
  [wrapAddr c a, wrapAddr c (a + 1), wrapAddr c (a + 2), wrapAddr c (a + 3)]

theorem memory_wf_write32 (c : Config) (m : Memory) (a : Addr) (v : Word) (hm : Memory.wf m) :
    Memory.wf (m.write32 c a v) :=
  memory_wf_write _ _ _ (memory_wf_write _ _ _ (memory_wf_write _ _ _ (memory_wf_write _ _ _ hm)))

/-- A byte outside the word written is as it was. -/
theorem memory_read_write32_other (c : Config) (m : Memory) (a b : Addr) (v : Word) (hb : b ∉ wordAddrs c a) :
    (m.write32 c a v).read b = m.read b := by
  simp only [wordAddrs, List.mem_cons, List.not_mem_nil, or_false, not_or] at hb
  obtain ⟨h0, h1, h2, h3⟩ := hb
  simp only [Memory.write32, memory_read_write_other _ _ _ _ h0, memory_read_write_other _ _ _ _ h1,
    memory_read_write_other _ _ _ _ h2, memory_read_write_other _ _ _ _ h3]

/-- The four addresses of a word differ when addresses have at least two bits. -/
theorem wrapAddr_ne (c : Config) (a i j : Nat) (hc : 2 ≤ c.addrBits) (hi : i < 4) (hj : j < 4) (hij : i ≠ j) :
    wrapAddr c (a + i) ≠ wrapAddr c (a + j) := by
  unfold wrapAddr
  have h4 : 4 ≤ 2 ^ c.addrBits := by
    calc 4 = 2 ^ 2 := rfl
      _ ≤ 2 ^ c.addrBits := Nat.pow_le_pow_right (by decide) hc
  intro h
  have hmod : (a + i) ≡ (a + j) [MOD 2 ^ c.addrBits] := h
  have h2 : i ≡ j [MOD 2 ^ c.addrBits] := Nat.ModEq.add_left_cancel' a hmod
  rw [Nat.ModEq, Nat.mod_eq_of_lt (by omega), Nat.mod_eq_of_lt (by omega)] at h2
  exact hij h2

/-- A word that was written is read back. -/
theorem memRead_memWrite_self (s : State) (a : Addr) (v : Word) (hm : Memory.wf s.mem) (hc : 2 ≤ s.cfg.addrBits) :
    (s.memWrite a v).memRead a = v := by
  have w1 := memory_wf_write s.mem (wrapAddr s.cfg a) (v.extractLsb' 0 8) hm
  have w2 := memory_wf_write _ (wrapAddr s.cfg (a + 1)) (v.extractLsb' 8 8) w1
  have w3 := memory_wf_write _ (wrapAddr s.cfg (a + 2)) (v.extractLsb' 16 8) w2
  have n01 := wrapAddr_ne s.cfg a 0 1 hc (by decide) (by decide) (by decide)
  have n02 := wrapAddr_ne s.cfg a 0 2 hc (by decide) (by decide) (by decide)
  have n03 := wrapAddr_ne s.cfg a 0 3 hc (by decide) (by decide) (by decide)
  have n12 := wrapAddr_ne s.cfg a 1 2 hc (by decide) (by decide) (by decide)
  have n13 := wrapAddr_ne s.cfg a 1 3 hc (by decide) (by decide) (by decide)
  have n23 := wrapAddr_ne s.cfg a 2 3 hc (by decide) (by decide) (by decide)
  simp only [Nat.add_zero] at n01 n02 n03
  simp only [State.memRead, State.memWrite_mem, State.memWrite_cfg, Memory.write32]
  rw [memory_read_write_self _ _ _ w3,
    memory_read_write_other _ _ _ _ n23, memory_read_write_self _ _ _ w2,
    memory_read_write_other _ _ _ _ n13, memory_read_write_other _ _ _ _ n12, memory_read_write_self _ _ _ w1,
    memory_read_write_other _ _ _ _ n03, memory_read_write_other _ _ _ _ n02, memory_read_write_other _ _ _ _ n01,
    memory_read_write_self _ _ _ hm]
  ext i hi
  simp only [BitVec.getElem_append, BitVec.getElem_extractLsb']
  simp only [← BitVec.getLsbD_eq_getElem]
  split
  · simp
  · split
    · congr 1; omega
    · split
      · congr 1; omega
      · congr 1; omega

/-- A word none of whose bytes was written reads as before. -/
theorem memRead_congr (s t : State) (a : Addr) (hcfg : t.cfg = s.cfg)
    (h : ∀ b ∈ wordAddrs s.cfg a, t.mem.read b = s.mem.read b) : t.memRead a = s.memRead a := by
  simp only [State.memRead, hcfg]
  simp only [wordAddrs, List.forall_mem_cons] at h
  rw [h.1, h.2.1, h.2.2.1, h.2.2.2.1]

/-! The operations that write host memory keep its canonical form. -/

theorem memWrite_keeps_wf (s : State) (a : Addr) (v : Word) (hm : Memory.wf s.mem) :
    Memory.wf (s.memWrite a v).mem := memory_wf_write32 _ _ _ _ hm

theorem reset_mem_wf : Memory.wf State.reset.mem := by decide

theorem resetOf_mem_wf (c : Config) : Memory.wf (State.resetOf c).mem := ⟨List.Pairwise.nil, by simp [State.resetOf]⟩

/-! Fields of a request record (R76). -/

theorem wordAddrs_wrap (c : Config) (a : Nat) : wordAddrs c (wrapAddr c a) = wordAddrs c a := by
  simp [wordAddrs, wrapAddr, Nat.mod_add_mod]

theorem mem_wordAddrs (c : Config) (a b : Nat) : b ∈ wordAddrs c a ↔ ∃ j < 4, b = wrapAddr c (a + j) := by
  simp only [wordAddrs, List.mem_cons, List.not_mem_nil, or_false]
  constructor
  · rintro (h | h | h | h)
    · exact ⟨0, by decide, h⟩
    · exact ⟨1, by decide, h⟩
    · exact ⟨2, by decide, h⟩
    · exact ⟨3, by decide, h⟩
  · rintro ⟨j, hj, rfl⟩
    have : j = 0 ∨ j = 1 ∨ j = 2 ∨ j = 3 := by omega
    rcases this with rfl | rfl | rfl | rfl <;> simp

/-- Two bytes of the fixed part of a record at different offsets have different addresses. -/
theorem wrapAddr_offset_ne (c : Config) (h i j : Nat) (hc : 6 ≤ c.addrBits) (hi : i < 64) (hj : j < 64) (hij : i ≠ j) :
    wrapAddr c (h + i) ≠ wrapAddr c (h + j) := by
  unfold wrapAddr
  have h64 : 64 ≤ 2 ^ c.addrBits := by
    calc 64 = 2 ^ 6 := rfl
      _ ≤ 2 ^ c.addrBits := Nat.pow_le_pow_right (by decide) hc
  intro he
  have hm : i ≡ j [MOD 2 ^ c.addrBits] := Nat.ModEq.add_left_cancel' h he
  rw [Nat.ModEq, Nat.mod_eq_of_lt (by omega), Nat.mod_eq_of_lt (by omega)] at hm
  exact hij hm

theorem field_setField_self (s : State) (h : Addr) (off : Nat) (v : Word) (hm : Memory.wf s.mem)
    (hc : 2 ≤ s.cfg.addrBits) : (s.setField h off v).field h off = v :=
  memRead_memWrite_self s _ v hm hc

/-- A byte outside the word written is as it was. -/
theorem setField_read_other (s : State) (h : Addr) (off : Nat) (v : Word) (b : Addr)
    (hb : ∀ j < 4, b ≠ wrapAddr s.cfg (h + off + j)) : (s.setField h off v).mem.read b = s.mem.read b := by
  refine memory_read_write32_other s.cfg s.mem _ b v ?_
  rw [wordAddrs_wrap, mem_wordAddrs]
  rintro ⟨j, hj, rfl⟩
  exact hb j hj rfl

/-- Writing one field of the fixed part of a record leaves the others alone. -/
theorem field_setField_other (s : State) (h : Addr) (off off' : Nat) (v : Word) (hc : 6 ≤ s.cfg.addrBits)
    (ho : off + 4 ≤ off' ∨ off' + 4 ≤ off) (hl : off + 4 ≤ 64) (hl' : off' + 4 ≤ 64) :
    (s.setField h off v).field h off' = s.field h off' := by
  refine memRead_congr s _ _ rfl ?_
  intro b hb
  replace hb : b ∈ wordAddrs s.cfg (wrapAddr s.cfg (h + off')) := hb
  rw [wordAddrs_wrap, mem_wordAddrs] at hb
  obtain ⟨i, hi, rfl⟩ := hb
  refine setField_read_other s h off v _ ?_
  intro j hj
  rw [Nat.add_assoc, Nat.add_assoc]
  exact wrapAddr_offset_ne s.cfg h (off' + i) (off + j) hc (by omega) (by omega) (by omega)

/-- A field reads the same in a state with the same configuration and memory. -/
theorem field_congr {s t : State} (hc : t.cfg = s.cfg) (hm : t.mem = s.mem) (h : Addr) (off : Nat) :
    t.field h off = s.field h off := by
  simp only [State.field, State.memRead, hc, hm]

end Sys2Proof.Machine
end

