-- ==== Sys2Proof/Laws/Invariants.lean ====
section
/-! SUPPORT. Laws/Invariants.lean: each internal step of the machine keeps the soundness of the pools
(`State.poolsOk`) and the bounds that hold inside a pass (`State.boundsBody`). -/

namespace Sys2Proof.Machine

/-! ## The pools -/

/-! Steps that allocate and free nothing. -/

theorem finish_samePools (e d : Nat) (st : Ts) (s : State) : SamePools s (finish e d st s) :=
  ((modEd_samePools e _ s rfl).trans (modTd_samePools d _ _ rfl)).trans
    (SamePools.of_framed ((setDone_framed _ _).comp (setDrainp_framed true _) (e := [.done, .drainp])
      (by decide) (by decide)) (by decide))

theorem sweep_samePools (e : Nat) (h : Addr) (l : List Nat) (s : State) : SamePools s (sweep e h l s) := by
  induction l generalizing s with
  | nil => exact SamePools.refl _
  | cons d rest ih => exact (SamePools.ite (finish_samePools _ _ _ _) (SamePools.refl _)).trans (ih _)

theorem settleEd_samePools (e : Nat) (halt : Bool) (s : State) : SamePools s (settleEd e halt s) := by
  unfold settleEd
  split
  · exact SamePools.ite (SamePools.refl _) (modEd_samePools _ _ _ rfl)
  · exact SamePools.ite (modEd_samePools _ _ _ rfl) (SamePools.refl _)

theorem terminate_samePools (d : Nat) (st : Ts) (halt : Bool) (s : State) :
    SamePools s (terminate d st halt s) := by
  unfold terminate
  split
  · exact SamePools.refl _
  · exact (finish_samePools _ _ _ _).trans
      ((SamePools.ite (sweep_samePools _ _ _ _) (SamePools.refl _)).trans (settleEd_samePools _ _ _))

theorem terminateAll_samePools (st : Ts) (halt : Bool) (l : List Nat) (s : State) :
    SamePools s (terminateAll st halt l s) := by
  induction l generalizing s with
  | nil => exact SamePools.refl _
  | cons d rest ih => exact (terminate_samePools _ _ _ _).trans (ih _)

theorem unlinkTd_samePools (d : Nat) (s : State) : SamePools s (unlinkTd d s) :=
  (SamePools.of_framed (setFrame_framed _ _) (by decide)).trans (modTd_samePools _ _ _ rfl)

theorem unlinkTdOpt_samePools (d : Option Nat) (s : State) : SamePools s (unlinkTdOpt d s) := by
  cases d
  · exact SamePools.refl _
  · exact unlinkTd_samePools _ _

theorem nak_samePools (d : Nat) (s : State) : SamePools s (nak d s) := modTd_samePools _ _ _ rfl

theorem countError_samePools (d : Nat) (st : Ts) (s : State) : SamePools s (countError d st s) :=
  (modTd_samePools d (fun t => { t with errorCount := t.errorCount + 1 }) s rfl).trans
    (SamePools.ite (terminate_samePools _ _ _ _) (SamePools.refl _))

theorem failed_samePools (d : Nat) (st : Ts) (s : State) : SamePools s (failed d st s) :=
  SamePools.ite (nak_samePools _ _) (SamePools.ite (terminate_samePools _ _ _ _)
    (SamePools.ite (terminate_samePools _ _ _ _) (countError_samePools _ _ _)))

theorem commit_samePools (d cost t : Nat) (s : State) : SamePools s (commit d cost t s) :=
  (SamePools.of_framed (setFrame_framed _ _) (by decide)).trans (modTd_samePools _ _ _ rfl)

theorem setPktStatus_samePools (p : Nat) (st : Ts) (s : State) : SamePools s (setPktStatus p st s) :=
  modPkt_samePools _ _ _ rfl

/-! Steps that do. -/

theorem endTxn_poolsOk (t : Nat) (s : State) (hs : s.poolsOk) : (endTxn t s).poolsOk :=
  txnFree_poolsOk _ _ (poolsOk_of_same (unlinkTdOpt_samePools _ _)
    (pktReleaseOpt_poolsOk _ _ (dummyReleaseOpt_poolsOk _ _ hs)))

theorem abortTxn_poolsOk (t : Option Nat) (s : State) (hs : s.poolsOk) : (abortTxn t s).poolsOk := by
  cases t
  · exact hs
  · exact endTxn_poolsOk _ _ hs

theorem removeEd_poolsOk (e : Nat) (s : State) (hs : s.poolsOk) : (removeEd e s).poolsOk :=
  edFree_poolsOk _ _ (poolsOk_of_framed (setCls_framed _ _) (by decide) hs)

theorem reapOne_poolsOk (e : Nat) (s : State) (hs : s.poolsOk) : (reapOne e s).poolsOk := by
  unfold reapOne
  split
  · exact hs
  · split
    · exact hs
    · exact removeEd_poolsOk _ _ (poolsOk_of_same (terminateAll_samePools _ _ _ _) hs)

theorem reapList_poolsOk (l : List Nat) (s : State) (hs : s.poolsOk) : (reapList l s).poolsOk := by
  induction l generalizing s with
  | nil => exact hs
  | cons e rest ih => exact ih _ (reapOne_poolsOk _ _ hs)

theorem reap_poolsOk (s : State) (hs : s.poolsOk) : (reap s).poolsOk := reapList_poolsOk _ _ hs

theorem takeDummy_poolsOk (len : Nat) (s : State) (hs : s.poolsOk) : (takeDummy len s).2.poolsOk := by
  unfold takeDummy
  split
  · exact dummyAcquire_poolsOk _ hs
  · exact hs

theorem ringSubmit_poolsOk (d : TxDesc) (s : State) (hs : s.poolsOk) : (ringSubmit d s).2.poolsOk :=
  poolsOk_of_framed (ringSubmit_framed d s) (by decide) hs

theorem dispatchWith_poolsOk (e d len p t : Nat) (u : Option Nat) (s : State) (hs : s.poolsOk)
    (hp : (s.pkt p).out = true) (ht : (s.txn t).alloc = true) : (dispatchWith e d len p t u s).2.poolsOk := by
  have h1 : ((s.modPkt p (fun _ => (prepare s e d len p u).pkt)).modTxn t
      (fun _ => (prepare s e d len p u).txn)).poolsOk :=
    poolsOk_of_same ((modPkt_samePools p _ s (by rw [hp]; rfl)).trans
      (modTxn_samePools t _ _ (show true = (s.txn t).alloc by rw [ht]))) hs
  have h2 := ringSubmit_poolsOk (prepare s e d len p u).token _ h1
  unfold dispatchWith
  simp only
  split
  · rename_i s2 heq
    rw [heq] at h2
    exact pktRelease_poolsOk _ _ (txnFree_poolsOk _ _ (dummyReleaseOpt_poolsOk _ _ h2))
  · rename_i s2 heq
    rw [heq] at h2
    exact poolsOk_of_same ((modTxn_samePools t _ s2 rfl).trans (modTd_samePools d _ _ rfl)) h2

theorem dispatch_poolsOk (e d len : Nat) (s : State) (hs : s.poolsOk) : (dispatch e d len s).2.poolsOk := by
  have ha := pktAcquire_poolsOk s hs
  unfold dispatch
  split
  · exact hs
  · rename_i p s1 heq
    have hout := pktAcquire_out s p s1 hs heq
    rw [heq] at ha
    split
    · exact pktRelease_poolsOk _ _ ha
    · split
      · exact pktRelease_poolsOk _ _ ha
      · have hx := txnAlloc_poolsOk s1 ha
        split
        · exact pktRelease_poolsOk _ _ ha
        · rename_i t s2 heq2
          have hal := txnAlloc_alloc s1 t s2 ha heq2
          have h2 := (congrArg Prod.snd heq2 ▸ txnAlloc_framed s1 : Framed _ s1 s2)
          have h3 := takeDummy_framed len s2
          rw [heq2] at hx
          refine dispatchWith_poolsOk _ _ _ _ _ _ _ (takeDummy_poolsOk len s2 hx) ?_ ?_
          · exact (congrArg Pkt.out (pkt_congr (h3 .pkts (by decide)) p)).trans
              ((congrArg Pkt.out (pkt_congr (h2 .pkts (by decide)) p)).trans hout)
          · exact (congrArg Txn.alloc (txn_congr (h3 .txns (by decide)) t)).trans hal

theorem tokenConfirmed_poolsOk (t d : Nat) (st : Ts) (s : State) (hs : s.poolsOk) :
    (tokenConfirmed t d st s).poolsOk := by
  unfold tokenConfirmed
  split
  · split
    · exact poolsOk_of_same (modTxn_samePools t _ s rfl) hs
    · have hr := ringSubmit_poolsOk (s.txn t).dataDesc s hs
      split
      · rename_i s1 heq
        rw [heq] at hr
        exact poolsOk_of_same (modTxn_samePools t _ s1 rfl) hr
      · rename_i s1 heq
        rw [heq] at hr
        exact endTxn_poolsOk _ _ hr
  · split
    · exact poolsOk_of_same (nak_samePools _ _) (endTxn_poolsOk _ _ hs)
    · exact poolsOk_of_same (terminate_samePools _ _ _ _) (endTxn_poolsOk _ _ hs)

theorem dataConfirmed_poolsOk (t d : Nat) (st : Ts) (n : Nat) (s : State) (hs : s.poolsOk) :
    (dataConfirmed t d st n s).poolsOk := by
  unfold dataConfirmed
  split
  · exact poolsOk_of_same (failed_samePools _ _ _) (endTxn_poolsOk _ _ hs)
  · simp only
    have h2 := endTxn_poolsOk t _ (poolsOk_of_same ((modTxn_samePools t (fun x => { x with phase := .confirmed }) s rfl).trans
      (modTd_samePools d (creditTd (decide ((s.ed ((s.td d).ed.getD s.cfg.maxEds)).mode = .iso)) (s.txn t).len.toNat
        (if (s.td d).dir = .inn then n else (s.txn t).len.toNat)) _ rfl)) hs)
    exact poolsOk_of_same (SamePools.ite (terminate_samePools _ _ _ _) (SamePools.refl _)) h2

theorem txConfirmBody_poolsOk (st : Ts) (p : Nat) (s : State) (hs : s.poolsOk) : (txConfirmBody st p s).poolsOk := by
  have hsp := poolsOk_of_framed (flagSpuriousConfirm_framed s) (by decide) hs
  have hst := poolsOk_of_same (setPktStatus_samePools p st s) hs
  unfold txConfirmBody
  split
  · exact hsp
  · split
    · exact hsp
    · split
      · exact tokenConfirmed_poolsOk _ _ _ _ hst
      · split
        · exact dataConfirmed_poolsOk _ _ _ _ _ hst
        · exact hsp

theorem rxConfirmBody_poolsOk (st : Ts) (p n : Nat) (s : State) (hs : s.poolsOk) :
    (rxConfirmBody st p n s).poolsOk := by
  have hsp := poolsOk_of_framed (flagSpuriousConfirm_framed s) (by decide) hs
  unfold rxConfirmBody
  split
  · exact hsp
  · split
    · exact hsp
    · split
      · exact hsp
      · refine dataConfirmed_poolsOk _ _ _ _ _ (poolsOk_of_same (setPktStatus_samePools _ _ _) ?_)
        split
        · exact poolsOk_of_framed (flagRxOverlen_framed s) (by decide) hs
        · exact hs

theorem flushList_poolsOk (l : List Nat) (s : State) (hs : s.poolsOk) : (flushList l s).poolsOk := by
  induction l generalizing s with
  | nil => exact hs
  | cons d rest ih => exact ih _ (poolsOk_of_same (terminate_samePools _ _ _ _) (abortTxn_poolsOk _ _ hs))

theorem forceFlush_poolsOk (s : State) (hs : s.poolsOk) : (forceFlush s).poolsOk := flushList_poolsOk _ _ hs

theorem tryAdmit_poolsOk (e d : Nat) (s : State) (hs : s.poolsOk) : (tryAdmit e d s).poolsOk := by
  have hsof := poolsOk_of_framed (sofRemaining_framed s) (by decide) hs
  unfold tryAdmit
  simp only
  split
  · exact hs
  · split
    · exact poolsOk_of_framed (setFrame_framed _ _) (by decide) hs
    · split
      · exact poolsOk_of_framed (setFrame_framed _ _) (by decide) hsof
      · have hd := dispatch_poolsOk e d (nextLen s e d) _ hsof
        unfold offer
        split
        · rename_i s1 heq
          rw [heq] at hd
          exact poolsOk_of_same (commit_samePools _ _ _ _) hd
        · rename_i s1 heq
          rw [heq] at hd
          exact hd

theorem scanOne_poolsOk (c : Mode) (e : Nat) (s : State) (hs : s.poolsOk) : (scanOne c e s).poolsOk := by
  unfold scanOne
  split
  · exact hs
  · split
    · exact hs
    · split
      · exact hs
      · split
        · exact hs
        · exact tryAdmit_poolsOk _ _ _ hs

theorem scan_poolsOk (c : Mode) (s : State) (hs : s.poolsOk) : (scan c s).poolsOk := by
  have h : ∀ (l : List Nat) (s : State), s.poolsOk → (scanList c l s).poolsOk := by
    intro l
    induction l with
    | nil => exact fun _ hs => hs
    | cons e rest ih => exact fun s hs => ih _ (scanOne_poolsOk c e s hs)
  exact poolsOk_of_framed (setCls_framed _ _) (by decide) (h _ _ hs)

theorem scanClasses_poolsOk (s : State) (hs : s.poolsOk) : (scanClasses s).poolsOk := by
  have h3 := scan_poolsOk .ctrl _ (scan_poolsOk .intr _ (scan_poolsOk .iso s hs))
  unfold scanClasses
  simp only
  split
  · exact h3
  · exact scan_poolsOk _ _ h3

theorem newFrame_poolsOk (s : State) (hs : s.poolsOk) : (newFrame s).poolsOk := by
  have ho : (openFrame s).poolsOk := poolsOk_of_framed (setFrame_framed _ s) (by decide) hs
  unfold newFrame
  simp only
  split
  · exact scanClasses_poolsOk _ ho
  · exact ho

theorem frameStartBody_poolsOk (s : State) (hs : s.poolsOk) : (frameStartBody s).poolsOk := by
  have h1 := poolsOk_of_framed (setFrnum_framed (nextFrnum s.cfg s.frnum) s) (by decide) hs
  unfold frameStartBody
  simp only
  split
  · exact newFrame_poolsOk _ h1
  · split
    · exact newFrame_poolsOk _ (forceFlush_poolsOk _ h1)
    · exact h1

theorem freeTd_poolsOk (d : Nat) (s : State) (hs : s.poolsOk) : (freeTd d s).poolsOk :=
  tdFree_poolsOk _ _ (poolsOk_of_same (modTd_samePools d _ _ rfl) (tokenFreeOpt_poolsOk _ _ hs))

theorem drainOne_poolsOk (d : Nat) (s : State) (hs : s.poolsOk) : (drainOne d s).poolsOk := by
  unfold drainOne
  refine freeTd_poolsOk _ _ ?_
  have h1 := poolsOk_of_framed (updateRequest_framed d (s.td d).request s) (by decide) hs
  split
  · exact h1
  · exact poolsOk_of_framed (retire_framed _ _) (by decide) h1

theorem drainList_poolsOk (l : List Nat) (s : State) (hs : s.poolsOk) : (drainList l s).poolsOk := by
  induction l generalizing s with
  | nil => exact hs
  | cons d rest ih => exact ih _ (drainOne_poolsOk _ _ (poolsOk_of_framed (setDone_framed rest s) (by decide) hs))

theorem drainPass_poolsOk (s : State) (hs : s.poolsOk) : (drainPass s).poolsOk :=
  poolsOk_of_framed (setDrainp_framed _ _) (by decide) (drainList_poolsOk _ _ hs)

theorem makeTd_poolsOk (e : Nat) (h : Addr) (sp : TdSpec) (last : Bool) (s : State) (hs : s.poolsOk) :
    (makeTd e h sp last s).poolsOk := by
  have ha := tdAlloc_poolsOk s hs
  unfold makeTd
  split
  · exact hs
  · rename_i d s1 heq
    rw [heq] at ha
    have hb := tokenAlloc_poolsOk s1 ha
    split
    · exact hs
    · rename_i k s2 heq2
      rw [heq2] at hb
      exact poolsOk_of_same (((modTd_samePools d _ s2 rfl).trans (modTok_samePools k _ _ rfl)).trans
        (modEd_samePools e _ _ rfl)) hb

theorem linkTds_poolsOk (e : Nat) (h : Addr) (l : List TdSpec) (s : State) (hs : s.poolsOk) :
    (linkTds e h l s).poolsOk := by
  induction l generalizing s with
  | nil => exact hs
  | cons sp rest ih => exact ih _ (makeTd_poolsOk _ _ _ _ _ hs)

theorem createEd_poolsOk (eid : EndpointId) (s : State) (hs : s.poolsOk) : (createEd eid s).2.poolsOk := by
  have ha := edAlloc_poolsOk s hs
  unfold createEd
  split
  · rename_i s1 heq
    rw [heq] at ha
    exact ha
  · rename_i e s1 heq
    rw [heq] at ha
    exact poolsOk_of_framed (setCls_framed _ _) (by decide) (poolsOk_of_same (modEd_samePools e (newEd eid) s1 rfl) ha)

theorem submitBody_poolsOk (eid : EndpointId) (hw : Word) (s : State) (hs : s.poolsOk) :
    (submitBody eid hw s).poolsOk := by
  unfold submitBody
  split
  · exact poolsOk_of_framed (respond_framed _ _ _ _) (by decide) hs
  · rename_i e _
    refine poolsOk_of_framed (respond_framed _ _ _ _) (by decide) ?_
    have hen : (ensureEd eid e s).2.poolsOk := by
      cases e
      · exact createEd_poolsOk _ _ hs
      · exact hs
    unfold submitAccept
    simp only
    split
    · rename_i s1 heq
      rw [heq] at hen
      exact hen
    · rename_i e' s1 heq
      rw [heq] at hen
      exact poolsOk_of_framed (openRequest_framed _ _) (by decide)
        (poolsOk_of_same (modEd_samePools e' _ _ rfl) (linkTds_poolsOk _ _ _ _ hen))

theorem cancelBody_poolsOk (hw : Word) (s : State) (hs : s.poolsOk) : (cancelBody hw s).poolsOk := by
  unfold cancelBody
  split
  · exact poolsOk_of_framed (respond_framed _ _ _ _) (by decide) hs
  · split
    · exact poolsOk_of_framed (respond_framed _ _ _ _) (by decide) hs
    · refine poolsOk_of_framed (respond_framed _ _ _ _) (by decide) ?_
      unfold markDying
      split
      · exact hs
      · exact poolsOk_of_same (modEd_samePools _ _ _ rfl) hs

theorem teardownEd_poolsOk (e : Nat) (s : State) (hs : s.poolsOk) : (teardownEd e s).poolsOk := by
  have h1 : (abortHead e s).poolsOk := by
    unfold abortHead
    split
    · exact hs
    · exact abortTxn_poolsOk _ _ hs
  exact removeEd_poolsOk _ _ (drainPass_poolsOk _ (poolsOk_of_same (terminateAll_samePools _ _ _ _) h1))

theorem teardownBody_poolsOk (eid : EndpointId) (s : State) (hs : s.poolsOk) : (teardownBody eid s).poolsOk := by
  unfold teardownBody
  split
  · exact poolsOk_of_framed (respond_framed _ _ _ _) (by decide) hs
  · split
    · exact poolsOk_of_framed (respond_framed _ _ _ _) (by decide) hs
    · exact poolsOk_of_framed (respond_framed _ _ _ _) (by decide) (teardownEd_poolsOk _ _ hs)

theorem clearHalt_alloc (x : Ed) : (clearHalt x).alloc = x.alloc := by
  unfold clearHalt
  split <;> rfl

theorem clearHaltBody_poolsOk (eid : EndpointId) (s : State) (hs : s.poolsOk) : (clearHaltBody eid s).poolsOk := by
  unfold clearHaltBody
  split
  · exact poolsOk_of_framed (respond_framed _ _ _ _) (by decide) hs
  · split
    · exact poolsOk_of_framed (respond_framed _ _ _ _) (by decide) hs
    · exact poolsOk_of_framed (respond_framed _ _ _ _) (by decide)
        (poolsOk_of_same (modEd_samePools _ _ _ (clearHalt_alloc _)) hs)

/-- A pass keeps the pools sound if its body does. -/
theorem runPass_poolsOk (holder : Lock) (body : State → State) (s : State)
    (h : ∀ s : State, s.poolsOk → (body s).poolsOk) (hs : s.poolsOk) : (runPass holder body s).poolsOk :=
  poolsOk_of_framed (setLock_framed .free _) (by decide)
    (h _ (poolsOk_of_framed (setLock_framed holder s) (by decide) hs))

/-! ## The bounds inside a pass -/

/-- `State.boundsOk` but for the exclusion region, which a pass holds. -/
abbrev State.boundsBody (s : State) : Prop :=
  s.cfg.valid ∧ s.frame.bytes.toNat ≤ s.cfg.maxBytesPerFrame ∧ s.frnum.toNat < s.cfg.frameWrap ∧
  Memory.wf s.mem ∧ (s.done ≠ [] → s.drainp = true)

/-- The fields the bounds speak of. -/
abbrev boundFields : List Field := [.cfg, .frame, .frnum, .mem, .done, .drainp]

theorem boundsBody_of_framed {c : List Field} {s t : State} (h : Framed c s t) (hc : ∀ f ∈ boundFields, f ∉ c)
    (hs : s.boundsBody) : t.boundsBody := by
  unfold State.boundsBody
  rw [h.cfg_eq (hc _ (by simp)), h.frame_eq (hc _ (by simp)), h.frnum_eq (hc _ (by simp)),
    h.mem_eq (hc _ (by simp)), h.done_eq (hc _ (by simp)), h.drainp_eq (hc _ (by simp))]
  exact hs

theorem boundsBody_ite {p : Prop} [Decidable p] {s t : State} (hs : s.boundsBody) (ht : t.boundsBody) :
    (if p then s else t).boundsBody := by
  split
  · exact hs
  · exact ht

/-- A frame record with as many bytes committed keeps the bounds. -/
theorem setFrame_bounds (f : Frame) (s : State) (hf : f.bytes.toNat ≤ s.cfg.maxBytesPerFrame)
    (hs : s.boundsBody) : (s.setFrame f).boundsBody := ⟨hs.1, hf, hs.2.2⟩

theorem finish_bounds (e d : Nat) (st : Ts) (s : State) (hs : s.boundsBody) : (finish e d st s).boundsBody :=
  ⟨hs.1, hs.2.1, hs.2.2.1, hs.2.2.2.1, fun _ => rfl⟩

theorem sweep_bounds (e : Nat) (h : Addr) (l : List Nat) (s : State) (hs : s.boundsBody) :
    (sweep e h l s).boundsBody := by
  induction l generalizing s with
  | nil => exact hs
  | cons d rest ih =>
    refine ih _ ?_
    split
    · exact finish_bounds _ _ _ _ hs
    · exact hs

theorem terminate_bounds (d : Nat) (st : Ts) (halt : Bool) (s : State) (hs : s.boundsBody) :
    (terminate d st halt s).boundsBody := by
  unfold terminate
  split
  · exact hs
  · refine boundsBody_of_framed (settleEd_framed _ _ _) (by decide) ?_
    split
    · exact sweep_bounds _ _ _ _ (finish_bounds _ _ _ _ hs)
    · exact finish_bounds _ _ _ _ hs

theorem terminateAll_bounds (st : Ts) (halt : Bool) (l : List Nat) (s : State) (hs : s.boundsBody) :
    (terminateAll st halt l s).boundsBody := by
  induction l generalizing s with
  | nil => exact hs
  | cons d rest ih => exact ih _ (terminate_bounds _ _ _ _ hs)

theorem unlinkTdOpt_bounds (d : Option Nat) (s : State) (hs : s.boundsBody) : (unlinkTdOpt d s).boundsBody := by
  cases d
  · exact hs
  · exact boundsBody_of_framed (modTd_framed _ _ _) (by decide) (setFrame_bounds _ _ hs.2.1 hs)

theorem endTxn_bounds (t : Nat) (s : State) (hs : s.boundsBody) : (endTxn t s).boundsBody :=
  boundsBody_of_framed (txnFree_framed _ _) (by decide) (unlinkTdOpt_bounds _ _
    (boundsBody_of_framed (pktReleaseOpt_framed _ _) (by decide)
      (boundsBody_of_framed (dummyReleaseOpt_framed _ _) (by decide) hs)))

theorem abortTxn_bounds (t : Option Nat) (s : State) (hs : s.boundsBody) : (abortTxn t s).boundsBody := by
  cases t
  · exact hs
  · exact endTxn_bounds _ _ hs

theorem reapOne_bounds (e : Nat) (s : State) (hs : s.boundsBody) : (reapOne e s).boundsBody := by
  unfold reapOne
  split
  · exact hs
  · split
    · exact hs
    · exact boundsBody_of_framed (removeEd_framed _ _) (by decide) (terminateAll_bounds _ _ _ _ hs)

theorem reapList_bounds (l : List Nat) (s : State) (hs : s.boundsBody) : (reapList l s).boundsBody := by
  induction l generalizing s with
  | nil => exact hs
  | cons e rest ih => exact ih _ (reapOne_bounds _ _ hs)

theorem reap_bounds (s : State) (hs : s.boundsBody) : (reap s).boundsBody := reapList_bounds _ _ hs

theorem failed_bounds (d : Nat) (st : Ts) (s : State) (hs : s.boundsBody) : (failed d st s).boundsBody := by
  unfold failed
  split
  · exact boundsBody_of_framed (nak_framed _ _) (by decide) hs
  · split
    · exact terminate_bounds _ _ _ _ hs
    · split
      · exact terminate_bounds _ _ _ _ hs
      · have h1 := boundsBody_of_framed (modTd_framed d (fun t => { t with errorCount := t.errorCount + 1 }) s)
          (by decide) hs
        unfold countError
        simp only
        split
        · exact terminate_bounds _ _ _ _ h1
        · exact h1

theorem tokenConfirmed_bounds (t d : Nat) (st : Ts) (s : State) (hs : s.boundsBody) :
    (tokenConfirmed t d st s).boundsBody := by
  have hr := boundsBody_of_framed (ringSubmit_framed (s.txn t).dataDesc s) (by decide) hs
  unfold tokenConfirmed
  split
  · split
    · exact boundsBody_of_framed (modTxn_framed _ _ _) (by decide) hs
    · split
      · rename_i s1 heq
        rw [heq] at hr
        exact boundsBody_of_framed (modTxn_framed _ _ _) (by decide) hr
      · rename_i s1 heq
        rw [heq] at hr
        exact endTxn_bounds _ _ hr
  · split
    · exact boundsBody_of_framed (nak_framed _ _) (by decide) (endTxn_bounds _ _ hs)
    · exact terminate_bounds _ _ _ _ (endTxn_bounds _ _ hs)

theorem dataConfirmed_bounds (t d : Nat) (st : Ts) (n : Nat) (s : State) (hs : s.boundsBody) :
    (dataConfirmed t d st n s).boundsBody := by
  unfold dataConfirmed
  split
  · exact failed_bounds _ _ _ (endTxn_bounds _ _ hs)
  · simp only
    have h2 := endTxn_bounds t _ (boundsBody_of_framed
      ((modTxn_framed t (fun x => { x with phase := .confirmed }) s).comp
        (modTd_framed d (creditTd (decide ((s.ed ((s.td d).ed.getD s.cfg.maxEds)).mode = .iso)) (s.txn t).len.toNat
          (if (s.td d).dir = .inn then n else (s.txn t).len.toNat)) _) (e := [.txns, .tds]) (by decide) (by decide))
      (by decide) hs)
    exact boundsBody_ite (terminate_bounds _ _ _ _ h2) h2

theorem txConfirmBody_bounds (st : Ts) (p : Nat) (s : State) (hs : s.boundsBody) : (txConfirmBody st p s).boundsBody := by
  have hsp := boundsBody_of_framed (flagSpuriousConfirm_framed s) (by decide) hs
  have hst : (setPktStatus p st s).boundsBody := boundsBody_of_framed (modPkt_framed _ _ _) (by decide) hs
  unfold txConfirmBody
  split
  · exact hsp
  · split
    · exact hsp
    · split
      · exact tokenConfirmed_bounds _ _ _ _ hst
      · split
        · exact dataConfirmed_bounds _ _ _ _ _ hst
        · exact hsp

theorem rxConfirmBody_bounds (st : Ts) (p n : Nat) (s : State) (hs : s.boundsBody) :
    (rxConfirmBody st p n s).boundsBody := by
  have hsp := boundsBody_of_framed (flagSpuriousConfirm_framed s) (by decide) hs
  unfold rxConfirmBody
  split
  · exact hsp
  · split
    · exact hsp
    · split
      · exact hsp
      · refine dataConfirmed_bounds _ _ _ _ _ (boundsBody_of_framed (modPkt_framed _ _ _) (by decide) ?_)
        split
        · exact boundsBody_of_framed (flagRxOverlen_framed s) (by decide) hs
        · exact hs

theorem flushList_bounds (l : List Nat) (s : State) (hs : s.boundsBody) : (flushList l s).boundsBody := by
  induction l generalizing s with
  | nil => exact hs
  | cons d rest ih => exact ih _ (terminate_bounds _ _ _ _ (abortTxn_bounds _ _ hs))

/-- A commit within the byte budget keeps the frame within it (R154, R156). -/
theorem commit_bounds (d cost t : Nat) (s : State) (hc : s.frame.bytes.toNat + cost ≤ s.cfg.maxBytesPerFrame)
    (hs : s.boundsBody) : (commit d cost t s).boundsBody := by
  refine boundsBody_of_framed (modTd_framed _ _ _) (by decide) (setFrame_bounds _ _ ?_ hs)
  simp only [BitVec.toNat_ofNat]
  exact Nat.le_trans (Nat.mod_le _ _) hc

theorem tryAdmit_bounds (e d : Nat) (s : State) (hs : s.boundsBody) : (tryAdmit e d s).boundsBody := by
  have hsof := boundsBody_of_framed (sofRemaining_framed s) (by decide) hs
  unfold tryAdmit
  simp only
  split
  · exact hs
  · split
    · exact setFrame_bounds _ _ hs.2.1 hs
    · rename_i hob
      have hle : s.frame.bytes.toNat + costOf s.cfg (nextLen s e d) ≤ s.cfg.maxBytesPerFrame := by
        simpa [overBytes] using hob
      split
      · exact setFrame_bounds _ _ hsof.2.1 hsof
      · have hf := (sofRemaining_framed s).trans
          ((Framed.refl [.env] _) : Framed [.env] (sofRemaining s).2 (sofRemaining s).2)
        have hd := dispatch_framed e d (nextLen s e d) (sofRemaining s).2
        have hdb := boundsBody_of_framed hd (by decide) hsof
        unfold offer
        split
        · rename_i s1 heq
          rw [heq] at hdb hd
          refine commit_bounds _ _ _ _ ?_ hdb
          rw [hd.frame_eq (by decide), hd.cfg_eq (by decide), hf.frame_eq (by decide), hf.cfg_eq (by decide)]
          exact hle
        · rename_i s1 heq
          rw [heq] at hdb
          exact hdb

theorem scanOne_bounds (c : Mode) (e : Nat) (s : State) (hs : s.boundsBody) : (scanOne c e s).boundsBody := by
  unfold scanOne
  split
  · exact hs
  · split
    · exact hs
    · split
      · exact hs
      · split
        · exact hs
        · exact tryAdmit_bounds _ _ _ hs

theorem scan_bounds (c : Mode) (s : State) (hs : s.boundsBody) : (scan c s).boundsBody := by
  have h : ∀ (l : List Nat) (s : State), s.boundsBody → (scanList c l s).boundsBody := by
    intro l
    induction l with
    | nil => exact fun _ hs => hs
    | cons e rest ih => exact fun s hs => ih _ (scanOne_bounds c e s hs)
  exact boundsBody_of_framed (setCls_framed _ _) (by decide) (h _ _ hs)

theorem newFrame_bounds (s : State) (hs : s.boundsBody) : (newFrame s).boundsBody := by
  have ho : (openFrame s).boundsBody := setFrame_bounds _ s (Nat.zero_le _) hs
  unfold newFrame scanClasses
  simp only
  split
  · have h3 := scan_bounds .ctrl _ (scan_bounds .intr _ (scan_bounds .iso _ ho))
    split
    · exact h3
    · exact scan_bounds _ _ h3
  · exact ho

/-- The frame counter stays in range (R55, R141). -/
theorem nextFrnum_lt (c : Config) (n : BitVec 16) (hc : c.valid) : (nextFrnum c n).toNat < c.frameWrap := by
  have hw : 0 < c.frameWrap := by
    obtain ⟨k, _, hk⟩ := List.mem_map.1 hc.2.2.2.2.2.2.2.2.2.2.2.2.2.2.2.2.2
    rw [← hk]
    exact Nat.two_pow_pos k
  simp only [nextFrnum, BitVec.toNat_ofNat]
  exact Nat.lt_of_le_of_lt (Nat.mod_le _ _) (Nat.mod_lt _ hw)

theorem frameStartBody_bounds (s : State) (hs : s.boundsBody) : (frameStartBody s).boundsBody := by
  have h1 : (s.setFrnum (nextFrnum s.cfg s.frnum)).boundsBody :=
    ⟨hs.1, hs.2.1, nextFrnum_lt s.cfg s.frnum hs.1, hs.2.2.2⟩
  unfold frameStartBody
  simp only
  split
  · exact newFrame_bounds _ h1
  · split
    · exact newFrame_bounds _ (flushList_bounds _ _ h1)
    · exact h1

theorem memWrite_bounds (a : Addr) (v : Word) (s : State) (hs : s.boundsBody) : (s.memWrite a v).boundsBody :=
  ⟨hs.1, hs.2.1, hs.2.2.1, memWrite_keeps_wf s a v hs.2.2.2.1, hs.2.2.2.2⟩

theorem updateRequest_bounds (d : Nat) (h : Addr) (s : State) (hs : s.boundsBody) :
    (updateRequest d h s).boundsBody := by
  have h1 : (addActual (s.td d) h s).boundsBody := by
    unfold addActual
    split
    · exact hs
    · exact memWrite_bounds _ _ _ hs
  unfold updateRequest noteStatus
  split
  · exact memWrite_bounds _ _ _ h1
  · exact h1

theorem retire_bounds (h : Addr) (s : State) (hs : s.boundsBody) : (retire h s).boundsBody := by
  unfold retire
  simp only
  split
  · exact boundsBody_of_framed (callback_framed _ _ _ _) (by decide) (memWrite_bounds _ _ _ hs)
  · exact boundsBody_of_framed (callback_framed _ _ _ _) (by decide) hs

theorem drainOne_bounds (d : Nat) (s : State) (hs : s.boundsBody) : (drainOne d s).boundsBody := by
  have h1 := updateRequest_bounds d (s.td d).request s hs
  unfold drainOne
  refine boundsBody_of_framed (freeTd_framed _ _) (by decide) ?_
  split
  · exact h1
  · exact retire_bounds _ _ h1

theorem drainOne_done (d : Nat) (s : State) : (drainOne d s).done = s.done :=
  (drainOne_framed d s).done_eq (by decide)

/-- `drain_pass()` empties the done list (R261). -/
theorem drainList_done (l : List Nat) (s : State) (h : s.done = l) : (drainList l s).done = [] := by
  induction l generalizing s with
  | nil => exact h
  | cons d rest ih => exact ih _ (drainOne_done d _)

theorem drainPass_done (s : State) : (drainPass s).done = [] := drainList_done _ _ rfl

theorem drainPass_drainp (s : State) : (drainPass s).drainp = false := rfl

theorem drainList_bounds (l : List Nat) (s : State) (hl : s.done = l) (hs : s.boundsBody) :
    (drainList l s).boundsBody := by
  induction l generalizing s with
  | nil => exact hs
  | cons d rest ih =>
    refine ih _ (drainOne_done d _) (drainOne_bounds d _ ⟨hs.1, hs.2.1, hs.2.2.1, hs.2.2.2.1, fun _ => ?_⟩)
    exact hs.2.2.2.2 (by rw [hl]; exact List.cons_ne_nil _ _)

theorem drainPass_bounds (s : State) (hs : s.boundsBody) : (drainPass s).boundsBody := by
  obtain ⟨h1, h2, h3, h4, _⟩ := drainList_bounds s.done s rfl hs
  exact ⟨h1, h2, h3, h4, fun hne => absurd (drainPass_done s) hne⟩

theorem openRequest_bounds (h : Addr) (s : State) (hs : s.boundsBody) : (openRequest h s).boundsBody :=
  memWrite_bounds _ _ _ (memWrite_bounds _ _ _ hs)

theorem submitBody_bounds (eid : EndpointId) (hw : Word) (s : State) (hs : s.boundsBody) :
    (submitBody eid hw s).boundsBody := by
  unfold submitBody
  split
  · exact boundsBody_of_framed (respond_framed _ _ _ _) (by decide) hs
  · rename_i e _
    refine boundsBody_of_framed (respond_framed _ _ _ _) (by decide) ?_
    have hen := boundsBody_of_framed (ensureEd_framed eid e s) (by decide) hs
    unfold submitAccept
    simp only
    split
    · rename_i s1 heq
      rw [heq] at hen
      exact hen
    · rename_i e' s1 heq
      rw [heq] at hen
      exact openRequest_bounds _ _ (boundsBody_of_framed (modEd_framed _ _ _) (by decide)
        (boundsBody_of_framed (linkTds_framed _ _ _ _) (by decide) hen))

theorem teardownEd_bounds (e : Nat) (s : State) (hs : s.boundsBody) : (teardownEd e s).boundsBody := by
  have h1 : (abortHead e s).boundsBody := by
    unfold abortHead
    split
    · exact hs
    · exact abortTxn_bounds _ _ hs
  exact boundsBody_of_framed (removeEd_framed _ _) (by decide) (drainPass_bounds _ (terminateAll_bounds _ _ _ _ h1))

theorem teardownBody_bounds (eid : EndpointId) (s : State) (hs : s.boundsBody) : (teardownBody eid s).boundsBody := by
  unfold teardownBody
  split
  · exact boundsBody_of_framed (respond_framed _ _ _ _) (by decide) hs
  · split
    · exact boundsBody_of_framed (respond_framed _ _ _ _) (by decide) hs
    · exact boundsBody_of_framed (respond_framed _ _ _ _) (by decide) (teardownEd_bounds _ _ hs)

/-- A pass whose body keeps the bounds ends with them all, the exclusion region free (R301). -/
theorem runPass_bounds (holder : Lock) (body : State → State) (s : State)
    (h : ∀ s : State, s.boundsBody → (body s).boundsBody) (hs : s.boundsBody) : (runPass holder body s).boundsOk := by
  obtain ⟨a, b, c, d, e⟩ := h (enterPass holder s) (boundsBody_of_framed (setLock_framed holder s) (by decide) hs)
  exact ⟨a, b, c, rfl, d, e⟩

end Sys2Proof.Machine
end

