-- ==== Sys2Proof/Laws/Encoding.lean ====
section
/-! SUPPORT. Laws/Encoding.lean: the bits of the words the encoder writes (30_encoding.md R101, R111, R120), and the
fields the decoder reads back from them. -/

namespace Sys2Proof

/-! The codes of the enumerations. -/

@[simp] theorem Mode.ofCode_code (m : Mode) : Mode.ofCode m.code = m := by cases m <;> rfl

@[simp] theorem Mode.code_ofCode (c : BitVec 2) : (Mode.ofCode c).code = c := by revert c; decide

@[simp] theorem Speed.ofBit_bit (v : Speed) : Speed.ofBit v.bit = v := by cases v <;> rfl

@[simp] theorem Speed.bit_ofBit (b : Bool) : (Speed.ofBit b).bit = b := by cases b <;> rfl

/-! Concatenations. -/

/-- A bit of a concatenation comes from its low part or its high part. -/
theorem getLsbD_concat {n m : Nat} (x : BitVec n) (y : BitVec m) (i : Nat) :
    (x ++ y).getLsbD i = if i < m then y.getLsbD i else x.getLsbD (i - m) := by
  rw [BitVec.getLsbD_append]

/-- Reading back the low part of a concatenation. -/
theorem extract_concat_low {n m : Nat} (x : BitVec n) (y : BitVec m) : (x ++ y).extractLsb' 0 m = y := by
  apply BitVec.eq_of_getLsbD_eq
  intro i hi
  rw [BitVec.getLsbD_extractLsb', getLsbD_concat, Nat.zero_add, if_pos hi]
  simp [hi]

/-- Reading back the high part of a concatenation. -/
theorem extract_concat_high {n m : Nat} (x : BitVec n) (y : BitVec m) : (x ++ y).extractLsb' m n = x := by
  apply BitVec.eq_of_getLsbD_eq
  intro i hi
  rw [BitVec.getLsbD_extractLsb', getLsbD_concat, if_neg (by omega), Nat.add_sub_cancel_left]
  simp [hi]

/-- A word is its high part over its low part. -/
theorem concat_extract {n m : Nat} (w : BitVec (n + m)) : w.extractLsb' m n ++ w.extractLsb' 0 m = w := by
  apply BitVec.eq_of_getLsbD_eq
  intro i hi
  rw [getLsbD_concat]
  split
  · rename_i h
    rw [BitVec.getLsbD_extractLsb', Nat.zero_add]
    simp [h]
  · rename_i h
    rw [BitVec.getLsbD_extractLsb', Nat.add_sub_cancel' (by omega)]
    simp [show i - m < n by omega]

/-! Word 0. -/

@[simp] theorem opcodeOf_headWord (op : BitVec 8) (low : BitVec 24) : opcodeOf (headWord op low) = op :=
  extract_concat_high op low

@[simp] theorem belowOpcode_headWord (op : BitVec 8) (low : BitVec 24) : belowOpcode (headWord op low) = low :=
  extract_concat_low op low

/-- A word 0 is its opcode over its other bits (R101). -/
theorem headWord_of_parts (w : Word) : headWord (opcodeOf w) (belowOpcode w) = w := concat_extract (n := 8) (m := 24) w

/-- A field of the 24 bits below the opcode is a field of the word. -/
theorem extract_headWord (op : BitVec 8) (low : BitVec 24) (start len : Nat) (h : start + len ≤ 24) :
    (headWord op low).extractLsb' start len = low.extractLsb' start len := by
  apply BitVec.eq_of_getLsbD_eq
  intro i hi
  have hw : (headWord op low).getLsbD (start + i) = low.getLsbD (start + i) := by
    have := getLsbD_concat op low (start + i)
    rwa [if_pos (by omega)] at this
  rw [BitVec.getLsbD_extractLsb', BitVec.getLsbD_extractLsb', hw]

/-! The `endpoint_id` word (R111). -/

/-- The bits of an `endpoint_id` word, field by field. -/
theorem getLsbD_toWord (e : EndpointId) (i : Nat) : e.toWord.getLsbD i =
    if i < 7 then e.devAddr.getLsbD i else if i < 11 then e.epNum.getLsbD (i - 7)
    else if i < 12 then (decide (i - 11 = 0) && e.dirIn) else if i < 14 then e.mode.code.getLsbD (i - 12)
    else if i < 15 then (decide (i - 14 = 0) && e.speed.bit) else if i < 16 then (decide (i - 15 = 0) && e.rsv15)
    else if i < 27 then e.maxPacket.getLsbD (i - 16) else e.rsvHi.getLsbD (i - 27) := by
  have h : e.toWord.getLsbD i = BitVec.getLsbD (w := 5 + 11 + 1 + 1 + 2 + 1 + 4 + 7)
      (e.rsvHi ++ e.maxPacket ++ BitVec.ofBool e.rsv15 ++ BitVec.ofBool e.speed.bit ++ e.mode.code
        ++ BitVec.ofBool e.dirIn ++ e.epNum ++ e.devAddr) i := rfl
  rw [h]
  simp only [getLsbD_concat, BitVec.getLsbD_ofBool, Nat.sub_sub]
  repeat' split
  all_goals first | rfl | omega

/-- Reading an `endpoint_id` word back gives the fields it was made of (R111). -/
@[simp] theorem EndpointId.ofWord_toWord (e : EndpointId) : EndpointId.ofWord e.toWord = e := by
  have field : ∀ (k : Nat) (start : Nat) (x : BitVec k), (∀ i < k, e.toWord.getLsbD (start + i) = x.getLsbD i) →
      e.toWord.extractLsb' start k = x := by
    intro k start x h
    apply BitVec.eq_of_getLsbD_eq
    intro i hi
    rw [BitVec.getLsbD_extractLsb', h i hi]
    simp [hi]
  have h1 : e.toWord.extractLsb' 0 7 = e.devAddr := field 7 0 _ fun i hi => by
    rw [getLsbD_toWord, Nat.zero_add, if_pos hi]
  have h2 : e.toWord.extractLsb' 7 4 = e.epNum := field 4 7 _ fun i hi => by
    rw [getLsbD_toWord, if_neg (by omega), if_pos (by omega), Nat.add_sub_cancel_left]
  have h3 : e.toWord.getLsbD 11 = e.dirIn := by rw [getLsbD_toWord]; simp
  have h4 : e.toWord.extractLsb' 12 2 = e.mode.code := field 2 12 _ fun i hi => by
    rw [getLsbD_toWord, if_neg (by omega), if_neg (by omega), if_neg (by omega), if_pos (by omega),
      Nat.add_sub_cancel_left]
  have h5 : e.toWord.getLsbD 14 = e.speed.bit := by rw [getLsbD_toWord]; simp
  have h6 : e.toWord.getLsbD 15 = e.rsv15 := by rw [getLsbD_toWord]; simp
  have h7 : e.toWord.extractLsb' 16 11 = e.maxPacket := field 11 16 _ fun i hi => by
    rw [getLsbD_toWord]
    repeat rw [if_neg (by omega)]
    rw [if_pos (by omega), Nat.add_sub_cancel_left]
  have h8 : e.toWord.extractLsb' 27 5 = e.rsvHi := field 5 27 _ fun i hi => by
    rw [getLsbD_toWord]
    repeat rw [if_neg (by omega)]
    rw [Nat.add_sub_cancel_left]
  unfold EndpointId.ofWord
  rw [h1, h2, h3, h4, h5, h6, h7, h8, Mode.ofCode_code, Speed.ofBit_bit]

/-- Writing the fields of an `endpoint_id` word gives the word back (R111). -/
@[simp] theorem EndpointId.toWord_ofWord (w : Word) : (EndpointId.ofWord w).toWord = w := by
  apply BitVec.eq_of_getLsbD_eq
  intro i hi
  rw [getLsbD_toWord]
  simp only [EndpointId.ofWord, Mode.code_ofCode, Speed.bit_ofBit, BitVec.getLsbD_extractLsb']
  repeat' split
  all_goals first
    | (rw [Nat.add_sub_cancel' (by omega)]; simp only [Bool.and_eq_right_iff_imp, decide_eq_true_eq]; omega)
    | (simp; omega)
    | (have : i = 11 ∨ i = 14 ∨ i = 15 := by omega
       rcases this with rfl | rfl | rfl <;> first | rfl | omega)

/-! The token packet (R120). -/

theorem tokenPacket_pid (pid : BitVec 8) (dev : BitVec 7) (ep : BitVec 4) (crc : BitVec 5) :
    (tokenPacket pid dev ep crc).extractLsb' 0 8 = pid := extract_concat_low _ pid

/-- The bits of a token packet, field by field. -/
theorem getLsbD_tokenPacket (pid : BitVec 8) (dev : BitVec 7) (ep : BitVec 4) (crc : BitVec 5) (i : Nat) :
    (tokenPacket pid dev ep crc).getLsbD i =
      if i < 8 then pid.getLsbD i else if i < 15 then dev.getLsbD (i - 8) else if i < 19 then ep.getLsbD (i - 15)
      else crc.getLsbD (i - 19) := by
  have h : (tokenPacket pid dev ep crc).getLsbD i =
      BitVec.getLsbD (w := 5 + 4 + 7 + 8) (crc ++ ep ++ dev ++ pid) i := rfl
  rw [h]
  simp only [getLsbD_concat, Nat.sub_sub]
  repeat' split
  all_goals first | rfl | omega

theorem tokenPacket_fields (pid : BitVec 8) (dev : BitVec 7) (ep : BitVec 4) (crc : BitVec 5) :
    (tokenPacket pid dev ep crc).extractLsb' 8 7 = dev ∧ (tokenPacket pid dev ep crc).extractLsb' 15 4 = ep ∧
    (tokenPacket pid dev ep crc).extractLsb' 19 5 = crc := by
  refine ⟨?_, ?_, ?_⟩
  · apply BitVec.eq_of_getLsbD_eq
    intro i hi
    rw [BitVec.getLsbD_extractLsb', getLsbD_tokenPacket, if_neg (by omega), if_pos (by omega), Nat.add_sub_cancel_left]
    simp [hi]
  · apply BitVec.eq_of_getLsbD_eq
    intro i hi
    rw [BitVec.getLsbD_extractLsb', getLsbD_tokenPacket, if_neg (by omega), if_neg (by omega), if_pos (by omega),
      Nat.add_sub_cancel_left]
    simp [hi]
  · apply BitVec.eq_of_getLsbD_eq
    intro i hi
    rw [BitVec.getLsbD_extractLsb', getLsbD_tokenPacket, if_neg (by omega), if_neg (by omega), if_neg (by omega),
      Nat.add_sub_cancel_left]
    simp [hi]

/-- Every 24-bit value is the token packet of its fields. -/
theorem tokenPacket_of_fields (v : BitVec 24) :
    tokenPacket (v.extractLsb' 0 8) (v.extractLsb' 8 7) (v.extractLsb' 15 4) (v.extractLsb' 19 5) = v := by
  apply BitVec.eq_of_getLsbD_eq
  intro i hi
  rw [getLsbD_tokenPacket]
  simp only [BitVec.getLsbD_extractLsb']
  repeat' split
  all_goals (try rw [Nat.add_sub_cancel' (by omega)])
  all_goals (simp; try omega)

/-! Decoding by opcode (R104): what the decoder does with a word 0 of each opcode. -/

theorem decodeFirst_token (w0 : Word) (rest : List Word) (h : opcodeOf w0 = 0x00#8) :
    decodeFirst w0 rest = (decodeToken w0).map (fun i => (i, rest)) := by
  unfold decodeFirst
  rw [h]
  rfl

theorem decodeFirst_submit (w0 : Word) (rest : List Word) (h : opcodeOf w0 = 0x01#8) : decodeFirst w0 rest =
    if belowOpcode w0 ≠ 0#24 then .error .reservedBits else
    match rest with
    | w1 :: w2 :: r => .ok (.submit (EndpointId.ofWord w1) w2, r)
    | _ => .error .incomplete := by
  unfold decodeFirst
  rw [h]
  rfl

theorem decodeFirst_cancel (w0 : Word) (rest : List Word) (h : opcodeOf w0 = 0x02#8) : decodeFirst w0 rest =
    if belowOpcode w0 ≠ 0#24 then .error .reservedBits else
    match rest with
    | w1 :: r => .ok (.cancel w1, r)
    | _ => .error .incomplete := by
  unfold decodeFirst
  rw [h]
  rfl

theorem decodeFirst_epTeardown (w0 : Word) (rest : List Word) (h : opcodeOf w0 = 0x03#8) : decodeFirst w0 rest =
    if belowOpcode w0 ≠ 0#24 then .error .reservedBits else
    match rest with
    | w1 :: r => .ok (.epTeardown (EndpointId.ofWord w1), r)
    | _ => .error .incomplete := by
  unfold decodeFirst
  rw [h]
  rfl

theorem decodeFirst_epClearHalt (w0 : Word) (rest : List Word) (h : opcodeOf w0 = 0x04#8) : decodeFirst w0 rest =
    if belowOpcode w0 ≠ 0#24 then .error .reservedBits else
    match rest with
    | w1 :: r => .ok (.epClearHalt (EndpointId.ofWord w1), r)
    | _ => .error .incomplete := by
  unfold decodeFirst
  rw [h]
  rfl

theorem decodeFirst_getFrame (w0 : Word) (rest : List Word) (h : opcodeOf w0 = 0x05#8) : decodeFirst w0 rest =
    if belowOpcode w0 ≠ 0#24 then .error .reservedBits else
    .ok (.getFrame, rest) := by
  unfold decodeFirst
  rw [h]
  rfl

theorem decodeFirst_evFrameStart (w0 : Word) (rest : List Word) (h : opcodeOf w0 = 0x10#8) : decodeFirst w0 rest =
    if belowOpcode w0 ≠ 0#24 then .error .reservedBits else
    .ok (.evFrameStart, rest) := by
  unfold decodeFirst
  rw [h]
  rfl

theorem decodeFirst_evTxConfirm (w0 : Word) (rest : List Word) (h : opcodeOf w0 = 0x11#8) : decodeFirst w0 rest =
    .ok (.evTxConfirm (w0.extractLsb' 16 8) (w0.extractLsb' 0 16), rest) := by
  unfold decodeFirst
  rw [h]
  rfl

theorem decodeFirst_evRxConfirm (w0 : Word) (rest : List Word) (h : opcodeOf w0 = 0x12#8) : decodeFirst w0 rest =
    match rest with
    | w1 :: r => .ok (.evRxConfirm (w0.extractLsb' 16 8) (w0.extractLsb' 0 16) w1, r)
    | _ => .error .incomplete := by
  unfold decodeFirst
  rw [h]
  rfl

theorem decodeFirst_evConnect (w0 : Word) (rest : List Word) (h : opcodeOf w0 = 0x13#8) : decodeFirst w0 rest =
    if w0.extractLsb' 1 23 ≠ 0#23 then .error .reservedBits else
    .ok (.evConnect (Speed.ofBit (w0.getLsbD 0)), rest) := by
  unfold decodeFirst
  rw [h]
  rfl

theorem decodeFirst_evDisconnect (w0 : Word) (rest : List Word) (h : opcodeOf w0 = 0x14#8) : decodeFirst w0 rest =
    if belowOpcode w0 ≠ 0#24 then .error .reservedBits else
    .ok (.evDisconnect, rest) := by
  unfold decodeFirst
  rw [h]
  rfl

theorem decodeFirst_drain (w0 : Word) (rest : List Word) (h : opcodeOf w0 = 0x20#8) : decodeFirst w0 rest =
    if belowOpcode w0 ≠ 0#24 then .error .reservedBits else
    .ok (.drain, rest) := by
  unfold decodeFirst
  rw [h]
  rfl

/-- The opcode bytes of R104, and 0, the byte of a token packet widened to a word. -/
abbrev knownOpcodes : List (BitVec 8) :=
  [0x00#8, 0x01#8, 0x02#8, 0x03#8, 0x04#8, 0x05#8, 0x10#8, 0x11#8, 0x12#8, 0x13#8, 0x14#8, 0x20#8]

theorem decodeFirst_unknown (w0 : Word) (rest : List Word) (h : opcodeOf w0 ∉ knownOpcodes) :
    decodeFirst w0 rest = .error .unknownOpcode := by
  simp only [knownOpcodes, List.mem_cons, List.not_mem_nil, or_false, not_or] at h
  obtain ⟨h0, h1, h2, h3, h4, h5, h6, h7, h8, h9, h10, h11⟩ := h
  unfold decodeFirst
  rw [if_neg h0, if_neg h1, if_neg h2, if_neg h3, if_neg h4, if_neg h5, if_neg h6, if_neg h7, if_neg h8, if_neg h9,
    if_neg h10, if_neg h11]

/-- What the decoder makes of a word that holds a token packet (R121). -/
theorem decodeToken_tokenPacket (pid : BitVec 8) (dev : BitVec 7) (ep : BitVec 4) (crc : BitVec 5) :
    decodeToken (headWord 0#8 (tokenPacket pid dev ep crc)) =
      if pid = pidOut then .ok (.tokenOut dev ep crc)
      else if pid = pidIn then .ok (.tokenIn dev ep crc)
      else if pid = pidSetup then .ok (.tokenSetup dev ep crc)
      else .error .unknownOpcode := by
  have h0 := tokenPacket_pid pid dev ep crc
  obtain ⟨h1, h2, h3⟩ := tokenPacket_fields pid dev ep crc
  simp only [decodeToken, extract_headWord _ _ 8 7 (by omega), extract_headWord _ _ 15 4 (by omega),
    extract_headWord _ _ 19 5 (by omega), extract_headWord _ _ 0 8 (by omega), h0, h1, h2, h3]

/-- The `status` and `pkt` fields of a confirm event's word 0 (R104). -/
theorem confirmWord_fields (op st : BitVec 8) (pkt : BitVec 16) :
    (headWord op (st ++ pkt)).extractLsb' 16 8 = st ∧ (headWord op (st ++ pkt)).extractLsb' 0 16 = pkt := by
  rw [extract_headWord _ _ 16 8 (by omega), extract_headWord _ _ 0 16 (by omega)]
  exact ⟨extract_concat_high st pkt, extract_concat_low st pkt⟩

/-- A field of a word below its opcode, taken from the 24 bits below it. -/
theorem extract_word (w : Word) (start len : Nat) (h : start + len ≤ 24) :
    w.extractLsb' start len = (belowOpcode w).extractLsb' start len := by
  rw [← extract_headWord (opcodeOf w) (belowOpcode w) start len h, headWord_of_parts]

end Sys2Proof
end

