-- ==== Sys2Proof/Laws/Steps.lean ====
section
/-! SUPPORT. Laws/Steps.lean: what a step fetches from each source (R102, R296), and the passes that only answer or
only set a flag. -/

namespace Sys2Proof.Machine

theorem step_attached (s : State) (h : s.attached = true) : step s = runFetched (fetch s) := by
  simp only [step, h, if_true]

theorem fetch_scheduled (s : State) (src : Source) (later : List Source) (h : s.env.sched = src :: later) :
    fetch s = fetchFrom src (s.setEnv { s.env with sched := later }) := by
  simp only [fetch, h]

/-- A port whose head word belongs to it and decodes yields the operation. -/
theorem portHead_op (port : Port) (w0 : Word) (ws rest : List Word) (i : Instr)
    (hp : opcodePort (opcodeOf w0) = some port) (hd : decode (w0 :: ws) = .ok (i, rest)) :
    portHead port (w0 :: ws) = .op i rest := by
  replace hd : decodeFirst w0 ws = .ok (i, rest) := hd
  simp only [portHead, hp, ne_eq, not_true_eq_false, if_false, hd]

/-- A port whose head word belongs to another port finds it illegal (R102). -/
theorem portHead_wrongPort (port : Port) (w0 : Word) (ws : List Word) (hp : opcodePort (opcodeOf w0) ≠ some port) :
    portHead port (w0 :: ws) = .illegal (opcodeOf w0) ws := by
  simp only [portHead, if_pos hp]

/-- A port whose head word is its own but is rejected for good finds it illegal (R125, R126). -/
theorem portHead_rejected (port : Port) (w0 : Word) (ws : List Word) (err : DecodeError)
    (hp : opcodePort (opcodeOf w0) = some port) (hd : decode (w0 :: ws) = .error err) (he : err ≠ .incomplete) :
    portHead port (w0 :: ws) = .illegal (opcodeOf w0) ws := by
  replace hd : decodeFirst w0 ws = .error err := hd
  simp only [portHead, hp, ne_eq, not_true_eq_false, if_false, hd]
  cases err
  · rfl
  · rfl
  · exact absurd rfl he

/-! Steps by what stands at the head of the chosen port. -/

theorem step_command_op (s : State) (i : Instr) (rest : List Word) (later : List Source) (ha : s.attached = true)
    (hs : s.env.sched = .command :: later) (h : portHead .command s.cmdPort = .op i rest) :
    step s = exec i ((s.setEnv { s.env with sched := later }).setCmdPort rest) := by
  rw [step_attached s ha, fetch_scheduled s _ _ hs]
  simp only [fetchFrom, fetchCommand, State.setEnv_cmdPort, h, runFetched]

theorem step_command_illegal (s : State) (op : BitVec 8) (rest : List Word) (later : List Source)
    (ha : s.attached = true) (hs : s.env.sched = .command :: later)
    (h : portHead .command s.cmdPort = .illegal op rest) :
    step s = .next (illegalCommand op ((s.setEnv { s.env with sched := later }).setCmdPort rest)) := by
  rw [step_attached s ha, fetch_scheduled s _ _ hs]
  simp only [fetchFrom, fetchCommand, State.setEnv_cmdPort, h, runFetched]

theorem step_event_op (s : State) (i : Instr) (rest : List Word) (later : List Source) (ha : s.attached = true)
    (hs : s.env.sched = .event :: later) (h : portHead .event s.evtPort = .op i rest) :
    step s = exec i ((s.setEnv { s.env with sched := later }).setEvtPort rest) := by
  rw [step_attached s ha, fetch_scheduled s _ _ hs]
  simp only [fetchFrom, fetchEvent, State.setEnv_evtPort, h, runFetched]

theorem step_event_illegal (s : State) (op : BitVec 8) (rest : List Word) (later : List Source)
    (ha : s.attached = true) (hs : s.env.sched = .event :: later)
    (h : portHead .event s.evtPort = .illegal op rest) :
    step s = .next (illegalEvent ((s.setEnv { s.env with sched := later }).setEvtPort rest)) := by
  rw [step_attached s ha, fetch_scheduled s _ _ hs]
  simp only [fetchFrom, fetchEvent, State.setEnv_evtPort, h, runFetched]

/-- An illegal event sets its flag and leaves the region free (R126). -/
theorem illegalEvent_eq (s : State) :
    illegalEvent s = { s with diag := { s.diag with illegalEvent := true }, lock := .free } := rfl

/-- An illegal command is answered (R125). -/
theorem illegalCommand_eq (op : BitVec 8) (s : State) : illegalCommand op s = s.answered op 0xFF#8 0#16 := rfl

/-! All that a fetch can do (R102, R294, R296, R320). -/

/-- What a fetch on the state `s` may have found: it has taken words and choices, and no more, unless the environment
acted. -/
def FetchedFrom (s : State) : Fetched → Prop
  | .op _ u => Framed [.cmdPort, .evtPort, .env] s u
  | .illegalCommand _ u => Framed [.cmdPort, .evtPort, .env] s u
  | .illegalEvent u => Framed [.cmdPort, .evtPort, .env] s u
  | .noPass u => ∃ v, Framed [.cmdPort, .evtPort, .env] s v ∧ (u = v ∨ u = hostWriteNext v ∨ u = detach v)

theorem fetchFrom_fetched (src : Source) (s v : State) (h : Framed [.cmdPort, .evtPort, .env] s v) :
    FetchedFrom s (fetchFrom src v) := by
  have hc : ∀ rest, Framed [.cmdPort, .evtPort, .env] s (v.setCmdPort rest) := fun rest =>
    h.trans ((setCmdPort_framed rest v).mono (by decide))
  have he : ∀ rest, Framed [.cmdPort, .evtPort, .env] s (v.setEvtPort rest) := fun rest =>
    h.trans ((setEvtPort_framed rest v).mono (by decide))
  cases src with
  | command =>
    simp only [fetchFrom, fetchCommand]
    split
    · exact ⟨v, h, .inl rfl⟩
    · exact hc _
    · exact hc _
  | event =>
    simp only [fetchFrom, fetchEvent]
    split
    · exact ⟨v, h, .inl rfl⟩
    · exact he _
    · exact he _
  | deferred => exact h
  | hostWrite => exact ⟨v, h, .inr (.inl rfl)⟩
  | detach => exact ⟨v, h, .inr (.inr rfl)⟩

theorem fetch_fetched (s : State) : FetchedFrom s (fetch s) := by
  unfold fetch
  split
  · exact fetchFrom_fetched _ _ _ ((setEnv_framed _ _).mono (by decide))
  · split
    · exact ⟨s, Framed.refl _ _, .inl rfl⟩
    · exact fetchFrom_fetched _ _ _ ((setEnv_framed _ _).mono (by decide))

/-! Passes that only answer. -/

/-- The fields of a response word (R112). -/
theorem response_fields (op code : BitVec 8) (value : BitVec 16) :
    (op ++ code ++ value).extractLsb' 24 8 = op ∧ (op ++ code ++ value).extractLsb' 16 8 = code ∧
    (op ++ code ++ value).extractLsb' 0 16 = value := by
  refine ⟨?_, ?_, extract_concat_low _ value⟩
  · apply BitVec.eq_of_getLsbD_eq
    intro i hi
    simp only [BitVec.getLsbD_extractLsb', hi, decide_true, Bool.true_and, getLsbD_concat]
    rw [if_neg (by omega), if_neg (by omega)]
    congr 1
    omega
  · apply BitVec.eq_of_getLsbD_eq
    intro i hi
    simp only [BitVec.getLsbD_extractLsb', hi, decide_true, Bool.true_and, getLsbD_concat]
    rw [if_neg (by omega), if_pos (by omega)]
    congr 1
    omega

/-- A pass that only responds (R112, R285). -/
theorem runPass_respond (s : State) (op : BitVec 8) (code : Code) (value : BitVec 16) :
    runPass .heldH (respond op code value) s = s.answered op code.num value := rfl

/-- A pass whose body responds last, the region not being read before (R285). -/
theorem runPass_modEd_respond (s : State) (e : Nat) (g : Ed → Ed) (op : BitVec 8) (code : Code) (value : BitVec 16) :
    runPass .heldH (fun s => respond op code value (s.modEd e g)) s =
      (({ s with eds := s.eds.modify e g } : State).answered op code.num value) := rfl

/-! The region is read by no operation, so that a pass may be followed on the state it starts from. -/

@[simp] theorem setLock_ed (l : Lock) (s : State) (i : Nat) : (s.setLock l).ed i = s.ed i := rfl
@[simp] theorem setLock_td (l : Lock) (s : State) (i : Nat) : (s.setLock l).td i = s.td i := rfl
@[simp] theorem setLock_tok (l : Lock) (s : State) (i : Nat) : (s.setLock l).tok i = s.tok i := rfl
@[simp] theorem setLock_txn (l : Lock) (s : State) (i : Nat) : (s.setLock l).txn i = s.txn i := rfl
@[simp] theorem setLock_pkt (l : Lock) (s : State) (i : Nat) : (s.setLock l).pkt i = s.pkt i := rfl

theorem finish_setLock (e d : Nat) (st : Ts) (l : Lock) (s : State) :
    finish e d st (s.setLock l) = (finish e d st s).setLock l := rfl

/-- The sweep finishes the next TD as cancelled when it belongs to the request, and else passes it by (R226). -/
theorem sweep_hit (e : Nat) (h : Addr) (d : Nat) (rest : List Nat) (s : State) (hd : (s.td d).request = h) :
    sweep e h (d :: rest) s = sweep e h rest (finish e d .cancelled s) := by rw [sweep, if_pos hd]

theorem sweep_miss (e : Nat) (h : Addr) (d : Nat) (rest : List Nat) (s : State) (hd : (s.td d).request ≠ h) :
    sweep e h (d :: rest) s = sweep e h rest s := by rw [sweep, if_neg hd]

theorem sweep_setLock (e : Nat) (h : Addr) (ds : List Nat) (l : Lock) (s : State) :
    sweep e h ds (s.setLock l) = (sweep e h ds s).setLock l := by
  induction ds generalizing s with
  | nil => rfl
  | cons d rest ih =>
    by_cases hd : (s.td d).request = h
    · rw [sweep_hit e h d rest (s.setLock l) hd, sweep_hit e h d rest s hd, finish_setLock, ih]
    · rw [sweep_miss e h d rest (s.setLock l) hd, sweep_miss e h d rest s hd, ih]

/-- What becomes of the ED's state (R226), as one update. -/
def settledState (halt : Bool) (x : Ed) : Ed :=
  if halt then (if x.state = .pendingDelete then x else { x with state := .halted })
  else if x.queue = [] ∧ x.state = .operational then { x with state := .skip } else x

/-- Two updates that agree on the entry they name are one. -/
theorem modify_congr {α : Type} (l : List α) (i : Nat) (f g : α → α) (h : ∀ x, l[i]? = some x → f x = g x) :
    l.modify i f = l.modify i g := by
  apply List.ext_getElem?
  intro j
  rw [List.getElem?_modify, List.getElem?_modify]
  cases hx : l[j]? with
  | none => rfl
  | some x =>
    by_cases hj : i = j
    · subst hj
      simp [h x hx]
    · simp [hj]

theorem modify_id {α : Type} (l : List α) (i : Nat) : l.modify i (fun x => x) = l := by
  apply List.ext_getElem?
  intro j
  rw [List.getElem?_modify]
  cases l[j]? <;> simp

theorem modEd_congr (e : Nat) (f g : Ed → Ed) (s : State) (h : f (s.ed e) = g (s.ed e)) : s.modEd e f = s.modEd e g := by
  have hl : s.eds.modify e f = s.eds.modify e g := by
    refine modify_congr _ _ _ _ fun x hx => ?_
    have : s.ed e = x := by simp [State.ed, List.getD_eq_getElem?_getD, hx]
    rw [← this, h]
  simp only [State.modEd, hl]

theorem modEd_same (e : Nat) (s : State) : s.modEd e (fun x => x) = s := by
  simp only [State.modEd, modify_id]
  rfl

/-- The ED's state after a TD became terminal (R226). -/
theorem settleEd_eq (e : Nat) (halt : Bool) (s : State) : settleEd e halt s = s.modEd e (settledState halt) := by
  unfold settleEd
  split
  · rename_i hh
    split
    · rename_i hp
      rw [modEd_congr e (settledState halt) (fun x => x) s (by rw [settledState, if_pos hh, if_pos hp]), modEd_same]
    · rename_i hp
      exact modEd_congr e _ _ s (by rw [settledState, if_pos hh, if_neg hp])
  · rename_i hh
    split
    · rename_i hp
      exact modEd_congr e _ _ s (by rw [settledState, if_neg hh, if_pos hp])
    · rename_i hp
      rw [modEd_congr e (settledState halt) (fun x => x) s (by rw [settledState, if_neg hh, if_neg hp]), modEd_same]

/-- What `terminate` does (R226): the TD is finished; after a failing status the others of its request on the queue
are swept; the ED settles. -/
theorem terminate_eq (d e : Nat) (st : Ts) (halt : Bool) (s : State) (he : (s.td d).ed = some e) :
    terminate d st halt s =
      ((if st.failing then sweep e (s.td d).request ((finish e d st s).ed e).queue (finish e d st s)
        else finish e d st s)).modEd e (settledState halt) := by
  unfold terminate
  rw [he]
  exact settleEd_eq e halt _

theorem terminate_noEd (d : Nat) (st : Ts) (halt : Bool) (s : State) (he : (s.td d).ed = none) :
    terminate d st halt s = s := by
  unfold terminate
  rw [he]

theorem terminate_setLock (d : Nat) (st : Ts) (halt : Bool) (l : Lock) (s : State) :
    terminate d st halt (s.setLock l) = (terminate d st halt s).setLock l := by
  cases he : (s.td d).ed with
  | none => rw [terminate_noEd d st halt s he, terminate_noEd d st halt (s.setLock l) he]
  | some e =>
    rw [terminate_eq d e st halt s he, terminate_eq d e st halt (s.setLock l) he, finish_setLock]
    cases st.failing
    · rfl
    · have := sweep_setLock e (s.td d).request ((finish e d st s).ed e).queue l (finish e d st s)
      exact congrArg (State.modEd e (settledState halt)) this

theorem setLock_setLock (l m : Lock) (s : State) : (s.setLock l).setLock m = s.setLock m := rfl

end Sys2Proof.Machine
end

