-- ==== Sys2Proof/Laws/Terminate.lean ====
section
/-! SUPPORT. Laws/Terminate.lean: what making TDs terminal does (R226, R227, R228): one TD, the sweep of a dead
request, and every TD of a pipe that is cancelled (R186, R188). -/

namespace Sys2Proof.Machine

/-! One TD (R226). -/

theorem finish_ed_self (e d : Nat) (st : Ts) (s : State) (he : e < s.eds.length) :
    (finish e d st s).ed e =
      { s.ed e with queue := (s.ed e).queue.erase d, toggleCarry := carryAfter (s.ed e) (s.td d) } :=
  modEd_ed_self e _ s he

theorem finish_ed_other (e d i : Nat) (st : Ts) (s : State) (hi : i ≠ e) : (finish e d st s).ed i = s.ed i :=
  modEd_ed_other e i _ s (Ne.symm hi)

theorem finish_td_self (e d : Nat) (st : Ts) (s : State) (hd : d < s.tds.length) :
    (finish e d st s).td d = { s.td d with status := st, place := .done } :=
  modTd_td_self d _ _ hd

theorem finish_td_other (e d i : Nat) (st : Ts) (s : State) (hi : i ≠ d) : (finish e d st s).td i = s.td i :=
  modTd_td_other d i _ _ (Ne.symm hi)

theorem finish_done (e d : Nat) (st : Ts) (s : State) : (finish e d st s).done = s.done ++ [d] := rfl

theorem finish_drainp (e d : Nat) (st : Ts) (s : State) : (finish e d st s).drainp = true := rfl

theorem finish_eds_length (e d : Nat) (st : Ts) (s : State) : (finish e d st s).eds.length = s.eds.length :=
  List.length_modify ..

theorem finish_tds_length (e d : Nat) (st : Ts) (s : State) : (finish e d st s).tds.length = s.tds.length :=
  List.length_modify ..

/-- No field of a TD but its status and place changes when some TD is finished. -/
theorem finish_td_keeps {α : Type} (f : Td → α) (hf : ∀ t : Td, ∀ st, f { t with status := st, place := .done } = f t)
    (e d : Nat) (st : Ts) (s : State) (i : Nat) : f ((finish e d st s).td i) = f (s.td i) := by
  by_cases hi : i = d
  · subst hi
    by_cases hl : i < s.tds.length
    · rw [finish_td_self e i st s hl, hf]
    · have h1 : (finish e i st s).td i = Td.initial := by
        have := finish_tds_length e i st s
        simp [State.td, List.getD_eq_getElem?_getD, List.getElem?_eq_none (show (finish e i st s).tds.length ≤ i by omega)]
      have h2 : s.td i = Td.initial := by
        simp [State.td, List.getD_eq_getElem?_getD, List.getElem?_eq_none (show s.tds.length ≤ i by omega)]
      rw [h1, h2]
  · rw [finish_td_other e d i st s hi]

/-- A TD whose toggle was never resolved leaves its ED's toggle alone (R226). -/
theorem carryAfter_carry (x : Ed) (t : Td) (h : t.toggle = .carry) : carryAfter x t = x.toggleCarry := by
  simp only [carryAfter, h]

/-! The sweep (R226, R228). -/

/-- What the sweep of request `h` over the TDs `ds` does to ED `e`, whose queue holds no TD twice. -/
structure Swept (e : Nat) (h : Addr) (ds : List Nat) (s t : State) : Prop where
  done : t.done = s.done ++ ds.filter (fun i => decide ((s.td i).request = h))
  drainp : s.drainp = true → t.drainp = true
  tdIn : ∀ i ∈ ds, (s.td i).request = h → t.td i = { s.td i with status := .cancelled, place := .done }
  tdOut : ∀ i, (i ∉ ds ∨ (s.td i).request ≠ h) → t.td i = s.td i
  queue : (t.ed e).queue = (s.ed e).queue.filter (fun i => !(decide (i ∈ ds) && decide ((s.td i).request = h)))
  ed : t.ed e = { s.ed e with queue := (t.ed e).queue, toggleCarry := (t.ed e).toggleCarry }
  carry : (∀ i ∈ ds, (s.td i).request = h → (s.td i).toggle = .carry) → (t.ed e).toggleCarry = (s.ed e).toggleCarry
  edOther : ∀ i, i ≠ e → t.ed i = s.ed i
  frame : Framed [.eds, .tds, .done, .drainp] s t

theorem sweep_swept (e : Nat) (h : Addr) (ds : List Nat) (s : State) (he : e < s.eds.length)
    (hq : (s.ed e).queue.Nodup) (hds : ds.Nodup) (hl : ∀ i ∈ ds, i < s.tds.length) :
    Swept e h ds s (sweep e h ds s) := by
  induction ds generalizing s with
  | nil =>
    exact ⟨by simp [sweep], fun h => h, fun i hi => by simp at hi, fun _ _ => rfl, by simp [sweep], rfl, fun _ => rfl,
      fun _ _ => rfl, Framed.refl _ _⟩
  | cons d rest ih =>
    rw [List.nodup_cons] at hds
    by_cases hd : (s.td d).request = h
    · rw [sweep_hit e h d rest s hd]
      have hreq : ∀ i, ((finish e d .cancelled s).td i).request = (s.td i).request :=
        finish_td_keeps Td.request (fun _ _ => rfl) e d .cancelled s
      have htog : ∀ i, ((finish e d .cancelled s).td i).toggle = (s.td i).toggle :=
        finish_td_keeps Td.toggle (fun _ _ => rfl) e d .cancelled s
      have hself := finish_ed_self e d .cancelled s he
      have hr := ih (finish e d .cancelled s) (by rw [finish_eds_length]; exact he)
        (by rw [hself]; exact hq.erase d) hds.2
        (fun i hi => by rw [finish_tds_length]; exact hl i (by simp [hi]))
      refine ⟨?_, fun _ => hr.drainp rfl, ?_, ?_, ?_, ?_, ?_, ?_, (finish_framed _ _ _ _).trans hr.frame⟩
      · rw [hr.done, finish_done]
        simp [hreq, hd]
      · intro i hi hri
        rcases List.mem_cons.1 hi with rfl | hi
        · rw [hr.tdOut i (.inl hds.1), finish_td_self e i _ s (hl i (by simp))]
        · have hne : i ≠ d := fun hc => hds.1 (hc ▸ hi)
          rw [hr.tdIn i hi (by rw [hreq]; exact hri), finish_td_other e d i _ s hne]
      · intro i hi
        have hne : i ≠ d := by
          rintro rfl
          rcases hi with hi | hi
          · exact hi (by simp)
          · exact hi hd
        rw [hr.tdOut i (by
          rw [hreq]
          exact hi.imp (fun hc hm => hc (by simp [hm])) id), finish_td_other e d i _ s hne]
      · rw [hr.queue, hself]
        simp only [hreq]
        rw [hq.erase_eq_filter, List.filter_filter]
        refine List.filter_congr ?_
        intro i _
        by_cases hi : i = d
        · subst hi; simp [hd]
        · simp [hi]
      · rw [hr.ed, hself]
      · intro hc
        rw [hr.carry (fun i hi hri => by
          rw [htog]
          exact hc i (by simp [hi]) (by rw [← hreq i]; exact hri)), hself]
        exact carryAfter_carry _ _ (hc d (by simp) hd)
      · intro i hi
        rw [hr.edOther i hi, finish_ed_other e d i _ s hi]
    · rw [sweep_miss e h d rest s hd]
      have hr := ih s he hq hds.2 (fun i hi => hl i (by simp [hi]))
      refine ⟨?_, hr.drainp, ?_, ?_, ?_, hr.ed, ?_, hr.edOther, hr.frame⟩
      · rw [hr.done]
        simp [hd]
      · intro i hi hri
        rcases List.mem_cons.1 hi with rfl | hi
        · exact absurd hri hd
        · exact hr.tdIn i hi hri
      · intro i hi
        exact hr.tdOut i (hi.imp (fun hc hm => hc (by simp [hm])) id)
      · rw [hr.queue]
        refine List.filter_congr ?_
        intro i _
        by_cases hi : i = d
        · subst hi; simp [hd]
        · simp [hi]
      · exact fun hc => hr.carry (fun i hi hri => hc i (by simp [hi]) hri)

/-! Every TD of a pipe cancelled (R186, R188). -/

/-- A cancelled TD takes no other with it (R226). -/
theorem terminate_cancelled (d e : Nat) (s : State) (he : (s.td d).ed = some e) :
    terminate d .cancelled false s = (finish e d .cancelled s).modEd e (settledState false) :=
  terminate_eq d e .cancelled false s he

/-- What cancelling the TDs `ds` of ED `e` does. -/
structure AllCancelled (e : Nat) (ds : List Nat) (s t : State) : Prop where
  done : t.done = s.done ++ ds
  drainp : t.drainp = (s.drainp || decide (ds ≠ []))
  tdIn : ∀ i ∈ ds, i < s.tds.length → t.td i = { s.td i with status := .cancelled, place := .done }
  tdOut : ∀ i, i ∉ ds → t.td i = s.td i
  queue : (t.ed e).queue = ds.foldl (fun q d => q.erase d) (s.ed e).queue
  edAlloc : (t.ed e).alloc = (s.ed e).alloc
  edMode : (t.ed e).mode = (s.ed e).mode
  edDying : (s.ed e).state = .pendingDelete →
    t.ed e = { s.ed e with queue := (t.ed e).queue, toggleCarry := (t.ed e).toggleCarry }
  edOther : ∀ i, i ≠ e → t.ed i = s.ed i
  frame : Framed [.eds, .tds, .done, .drainp] s t

theorem settledState_keeps (halt : Bool) (x : Ed) :
    (settledState halt x).queue = x.queue ∧ (settledState halt x).alloc = x.alloc ∧
    (settledState halt x).mode = x.mode ∧ (settledState halt x).toggleCarry = x.toggleCarry ∧
    (settledState halt x).key = x.key ∧ (x.state = .pendingDelete → (settledState halt x).state = .pendingDelete) := by
  unfold settledState
  split
  · split <;> simp_all [Ed.key]
  · split <;> simp_all [Ed.key]

/-- Settling leaves a dying ED alone (R226). -/
theorem settledState_dying (x : Ed) (h : x.state = .pendingDelete) (halt : Bool) : settledState halt x = x := by
  unfold settledState
  cases halt <;> simp [h]

theorem terminateAll_cancelled (e : Nat) (ds : List Nat) (s : State) (he : e < s.eds.length)
    (hed : ∀ d ∈ ds, (s.td d).ed = some e) : AllCancelled e ds s (terminateAll .cancelled false ds s) := by
  induction ds generalizing s with
  | nil =>
    exact ⟨by simp [terminateAll], by simp [terminateAll], fun i hi => by simp at hi, fun _ _ => rfl, rfl, rfl, rfl, fun _ => rfl,
      fun _ _ => rfl, Framed.refl _ _⟩
  | cons d rest ih =>
    have hone := terminate_cancelled d e s (hed d (by simp))
    obtain ⟨u, hu⟩ : ∃ u, u = terminate d .cancelled false s := ⟨_, rfl⟩
    rw [← hu] at hone
    have hfr : Framed [.eds, .tds, .done, .drainp] s u := hu ▸ terminate_framed d .cancelled false s
    have htd : ∀ i, u.td i = (finish e d .cancelled s).td i := fun i => by rw [hone]; rfl
    have huel : u.eds.length = s.eds.length := by
      rw [hone]
      simp [State.modEd, State.setEds, finish_eds_length]
    have hutl : u.tds.length = s.tds.length := by
      rw [hone]
      exact finish_tds_length e d .cancelled s
    have hue : u.ed e = settledState false ((finish e d .cancelled s).ed e) := by
      rw [hone]
      exact modEd_ed_self e _ _ (by rw [finish_eds_length]; exact he)
    have hueo : ∀ i, i ≠ e → u.ed i = s.ed i := fun i hi => by
      rw [hone, modEd_ed_other e i _ _ (Ne.symm hi), finish_ed_other e d i _ s hi]
    obtain ⟨k1, k2, k3, -, -, k4⟩ := settledState_keeps false ((finish e d .cancelled s).ed e)
    rw [finish_ed_self e d .cancelled s he] at k1 k2 k3 k4
    rw [finish_ed_self e d .cancelled s he] at hue
    have hr := ih u (by rw [huel]; exact he) (fun i hi => by
      rw [htd i, finish_td_keeps Td.ed (fun _ _ => rfl)]
      exact hed i (by simp [hi]))
    rw [terminateAll, ← hu]
    refine ⟨?_, ?_, ?_, ?_, ?_, ?_, ?_, ?_, ?_, hfr.trans hr.frame⟩
    · rw [hr.done, show u.done = s.done ++ [d] by rw [hone]; rfl]
      simp
    · have hud : u.drainp = true := by rw [hone]; rfl
      rw [hr.drainp, hud]
      simp
    · intro i hi hil
      by_cases hir : i ∈ rest
      · rw [hr.tdIn i hir (by rw [hutl]; exact hil), htd i]
        by_cases hid : i = d
        · subst hid
          rw [finish_td_self e i _ s hil]
        · rw [finish_td_other e d i _ s hid]
      · have hid : i = d := by
          rcases List.mem_cons.1 hi with h | h
          · exact h
          · exact absurd h hir
        subst hid
        rw [hr.tdOut i hir, htd i, finish_td_self e i _ s hil]
    · intro i hi
      simp only [List.mem_cons, not_or] at hi
      rw [hr.tdOut i hi.2, htd i, finish_td_other e d i _ s hi.1]
    · rw [hr.queue, hue, k1]
      rfl
    · rw [hr.edAlloc, hue, k2]
    · rw [hr.edMode, hue, k3]
    · intro hp
      have hue' : u.ed e = { s.ed e with queue := (s.ed e).queue.erase d, toggleCarry := carryAfter (s.ed e) (s.td d) } := by
        refine hue.trans (settledState_dying _ ?_ false)
        exact hp
      rw [hr.edDying (by rw [hue']; exact hp), hue']
    · intro i hi
      rw [hr.edOther i hi, hueo i hi]

theorem sweep_eds_length (e : Nat) (h : Addr) (ds : List Nat) (s : State) :
    (sweep e h ds s).eds.length = s.eds.length := by
  induction ds generalizing s with
  | nil => rfl
  | cons d rest ih =>
    by_cases hd : (s.td d).request = h
    · rw [sweep_hit e h d rest s hd, ih, finish_eds_length]
    · rw [sweep_miss e h d rest s hd, ih]

theorem modEd_eds_length (e : Nat) (g : Ed → Ed) (s : State) : (s.modEd e g).eds.length = s.eds.length :=
  List.length_modify ..

/-- The ED pool keeps its size when TDs become terminal. -/
theorem terminate_eds_length (d : Nat) (st : Ts) (halt : Bool) (s : State) :
    (terminate d st halt s).eds.length = s.eds.length := by
  cases he : (s.td d).ed with
  | none => rw [terminate_noEd d st halt s he]
  | some e =>
    rw [terminate_eq d e st halt s he, modEd_eds_length]
    split
    · rw [sweep_eds_length, finish_eds_length]
    · rw [finish_eds_length]

theorem sweep_tds_length (e : Nat) (h : Addr) (ds : List Nat) (s : State) :
    (sweep e h ds s).tds.length = s.tds.length := by
  induction ds generalizing s with
  | nil => rfl
  | cons d rest ih =>
    by_cases hd : (s.td d).request = h
    · rw [sweep_hit e h d rest s hd, ih, finish_tds_length]
    · rw [sweep_miss e h d rest s hd, ih]

/-- The TD pool keeps its size when TDs become terminal. -/
theorem terminate_tds_length (d : Nat) (st : Ts) (halt : Bool) (s : State) :
    (terminate d st halt s).tds.length = s.tds.length := by
  cases he : (s.td d).ed with
  | none => rw [terminate_noEd d st halt s he]
  | some e =>
    rw [terminate_eq d e st halt s he, (modEd_framed e _ _).tds_eq (by decide)]
    split
    · rw [sweep_tds_length, finish_tds_length]
    · rw [finish_tds_length]

theorem terminateAll_tds_length (st : Ts) (halt : Bool) (ds : List Nat) (s : State) :
    (terminateAll st halt ds s).tds.length = s.tds.length := by
  induction ds generalizing s with
  | nil => rfl
  | cons d rest ih => rw [terminateAll, ih, terminate_tds_length]

theorem terminateAll_eds_length (st : Ts) (halt : Bool) (ds : List Nat) (s : State) :
    (terminateAll st halt ds s).eds.length = s.eds.length := by
  induction ds generalizing s with
  | nil => rfl
  | cons d rest ih => rw [terminateAll, ih, terminate_eds_length]

/-- A queue emptied one TD after another is empty. -/
theorem foldl_erase_self (q : List Nat) : q.foldl (fun q d => q.erase d) q = [] := by
  induction q with
  | nil => rfl
  | cons d q ih => simpa using ih

/-! Taking an ED away (R186, R188, R254). -/

/-- The removal of an allocated ED. -/
theorem removeEd_live (e : Nat) (s : State) (he : e < s.cfg.maxEds) (ha : (s.ed e).alloc = true) :
    removeEd e s =
      ((s.setCls (s.cls.set (s.ed e).mode ((s.cls.get (s.ed e).mode).erase e))).modEd e
        (fun x => { x with alloc := false })).setEfree (e :: s.efree) := by
  unfold removeEd edFree
  rw [if_neg]
  · rfl
  · rintro (h | h)
    · exact absurd he (Nat.not_lt.2 h)
    · replace h : (s.ed e).alloc = false := h
      rw [ha] at h
      exact Bool.noConfusion h

/-- What the reaping of a dying ED with no transaction in flight does (R186). -/
structure Reaped (e : Nat) (s t : State) : Prop where
  ed : t.ed e = { s.ed e with alloc := false, queue := [], toggleCarry := (t.ed e).toggleCarry }
  alloc : (t.ed e).alloc = false
  queue : (t.ed e).queue = []
  efree : t.efree = e :: s.efree
  edOther : ∀ i, i ≠ e → t.ed i = s.ed i
  cls : t.cls = s.cls.set (s.ed e).mode ((s.cls.get (s.ed e).mode).erase e)
  done : t.done = s.done ++ (s.ed e).queue
  drainp : t.drainp = (s.drainp || decide ((s.ed e).queue ≠ []))
  tdIn : ∀ d ∈ (s.ed e).queue, d < s.tds.length → t.td d = { s.td d with status := .cancelled, place := .done }
  tdOut : ∀ d, d ∉ (s.ed e).queue → t.td d = s.td d
  frame : Framed [.eds, .efree, .cls, .tds, .done, .drainp] s t

theorem reapOne_dying (e : Nat) (s : State) (hel : e < s.eds.length) (he : e < s.cfg.maxEds)
    (ha : (s.ed e).alloc = true) (hp : (s.ed e).state = .pendingDelete) (hf : headInFlight s e = false)
    (hed : ∀ d ∈ (s.ed e).queue, (s.td d).ed = some e) : Reaped e s (reapOne e s) := by
  have hr : reapOne e s = removeEd e (terminateAll .cancelled false (s.ed e).queue s) := by
    unfold reapOne
    rw [if_neg (by rintro (h | h); · rw [ha] at h; exact Bool.noConfusion h
                   · exact h hp), hf]
    rfl
  have hc := terminateAll_cancelled e (s.ed e).queue s hel hed
  rw [hr]
  obtain ⟨u, hu⟩ : ∃ u, u = terminateAll .cancelled false (s.ed e).queue s := ⟨_, rfl⟩
  rw [← hu] at hc ⊢
  have hcfg := hc.frame.cfg_eq (by decide)
  have huel : u.eds.length = s.eds.length := by
    rw [hu]
    exact terminateAll_eds_length ..
  rw [removeEd_live e u (by rw [hcfg]; exact he) (by rw [hc.edAlloc]; exact ha), hc.edMode,
    hc.frame.cls_eq (by decide), hc.frame.efree_eq (by decide)]
  obtain ⟨v, hv⟩ : ∃ v, v = u.setCls (s.cls.set (s.ed e).mode ((s.cls.get (s.ed e).mode).erase e)) := ⟨_, rfl⟩
  rw [← hv]
  have hve : (((v.modEd e (fun x => { x with alloc := false })).setEfree (e :: s.efree)).ed e) =
      { u.ed e with alloc := false } := by
    have := modEd_ed_self e (fun x => { x with alloc := false }) v (by rw [hv]; exact huel.symm ▸ hel)
    rw [hv] at this ⊢
    exact this
  have hq : (u.ed e).queue = [] := hc.queue.trans (foldl_erase_self _)
  refine ⟨?_, by rw [hve], ?_, rfl, ?_, by rw [hv]; rfl, by rw [hv]; exact hc.done, ?_, ?_, ?_, ?_⟩
  · have hd := hc.edDying hp
    rw [hve, hd, hq]
  · rw [hve]
    exact hq
  · intro i hi
    have := modEd_ed_other e i (fun x => { x with alloc := false }) v (Ne.symm hi)
    rw [hv] at this ⊢
    exact this.trans (hc.edOther i hi)
  · rw [hv]
    exact hc.drainp
  · rw [hv]
    exact hc.tdIn
  · rw [hv]
    exact hc.tdOut
  · rw [hv]
    exact (hc.frame.mono (by decide)).trans (((setCls_framed _ _).mono (by decide)).trans
      (((modEd_framed _ _ _).mono (by decide)).trans ((setEfree_framed _ _).mono (by decide))))

/-- An ED that is not a dying one is passed by (R186). -/
theorem reapOne_alive (e : Nat) (s : State) (h : (s.ed e).alloc = true → (s.ed e).state ≠ .pendingDelete) :
    reapOne e s = s := reapOne_nothing s e (fun ha hp => absurd hp (h ha))

/-- When one ED alone is dying and has no transaction in flight, `reap()` is its reaping (R186). -/
theorem reap_one (e : Nat) (s : State) (hel : e < s.eds.length) (he : e < s.cfg.maxEds) (ha : (s.ed e).alloc = true)
    (hp : (s.ed e).state = .pendingDelete) (hf : headInFlight s e = false)
    (hed : ∀ d ∈ (s.ed e).queue, (s.td d).ed = some e)
    (ho : ∀ i < s.cfg.maxEds, i ≠ e → (s.ed i).alloc = true → (s.ed i).state ≠ .pendingDelete) :
    reap s = reapOne e s := by
  have hr := reapOne_dying e s hel he ha hp hf hed
  have after : ∀ l : List Nat, (∀ i ∈ l, i < s.cfg.maxEds) → reapList l (reapOne e s) = reapOne e s := by
    intro l
    induction l with
    | nil => exact fun _ => rfl
    | cons i rest ih =>
      intro hm
      rw [reapList, reapOne_alive i (reapOne e s)]
      · exact ih (fun j hj => hm j (by simp [hj]))
      · by_cases hi : i = e
        · subst hi
          intro hal
          rw [hr.alloc] at hal
          exact Bool.noConfusion hal
        · rw [hr.edOther i hi]
          exact ho i (hm i (by simp)) hi
  have before : ∀ l : List Nat, (∀ i ∈ l, i < s.cfg.maxEds) → e ∈ l → reapList l s = reapOne e s := by
    intro l
    induction l with
    | nil => intro _ h; simp at h
    | cons i rest ih =>
      intro hm hmem
      rw [reapList]
      by_cases hi : i = e
      · subst hi
        exact after rest (fun j hj => hm j (by simp [hj]))
      · rw [reapOne_alive i s (ho i (hm i (by simp)) hi)]
        exact ih (fun j hj => hm j (by simp [hj])) ((List.mem_cons.1 hmem).resolve_left (Ne.symm hi))
  exact before _ (fun i hi => by simpa using hi) (by simpa using he)

end Sys2Proof.Machine
end

