-- ==== Sys2Proof/Laws/ClassLists.lean ====
section
/-! SUPPORT. Laws/ClassLists.lean: the class lists (R50) hold exactly the allocated EDs: which operations leave
that as it is, and the four that change it (rotation, the removal of an ED, the creation of one, detach). -/

namespace Sys2Proof.Machine

/-- The two states have the same class lists, and every ED has the same `alloc` and mode. -/
structure SameClasses (s t : State) : Prop where
  cfg : t.cfg = s.cfg
  cls : t.cls = s.cls
  alloc : ∀ i, (t.ed i).alloc = (s.ed i).alloc
  mode : ∀ i, (t.ed i).mode = (s.ed i).mode

theorem SameClasses.refl (s : State) : SameClasses s s := ⟨rfl, rfl, fun _ => rfl, fun _ => rfl⟩

theorem SameClasses.trans {s t u : State} (h : SameClasses s t) (k : SameClasses t u) : SameClasses s u :=
  ⟨k.cfg.trans h.cfg, k.cls.trans h.cls, fun i => (k.alloc i).trans (h.alloc i), fun i => (k.mode i).trans (h.mode i)⟩

theorem SameClasses.of_framed {c : List Field} {s t : State} (h : Framed c s t)
    (hc : ∀ f ∈ [Field.cfg, .cls, .eds], f ∉ c) : SameClasses s t :=
  ⟨h.cfg_eq (hc _ (by simp)), h.cls_eq (hc _ (by simp)),
    fun i => by rw [ed_congr (h.eds_eq (hc _ (by simp)))], fun i => by rw [ed_congr (h.eds_eq (hc _ (by simp)))]⟩

theorem SameClasses.ite {p : Prop} [Decidable p] {s t u : State} (h : SameClasses s t) (k : SameClasses s u) :
    SameClasses s (if p then t else u) := by
  split
  · exact h
  · exact k

theorem classesOk_of_same {s t : State} (h : SameClasses s t) (hs : s.classesOk) : t.classesOk := by
  intro m hm
  obtain ⟨h1, h2, h3⟩ := hs m hm
  rw [h.cls, h.cfg]
  exact ⟨h1, fun e he => by rw [h.alloc, h.mode]; exact h2 e he, fun e he ha hmm => h3 e he (by rw [← h.alloc]; exact ha)
    (by rw [← h.mode]; exact hmm)⟩

theorem modEd_sameClasses (i : Nat) (g : Ed → Ed) (s : State) (ha : (g (s.ed i)).alloc = (s.ed i).alloc)
    (hm : (g (s.ed i)).mode = (s.ed i).mode) : SameClasses s (s.modEd i g) :=
  ⟨rfl, rfl, modEd_keeps Ed.alloc i g s ha, modEd_keeps Ed.mode i g s hm⟩

/-! Operations that leave the class lists alone. -/

theorem finish_sameClasses (e d : Nat) (st : Ts) (s : State) : SameClasses s (finish e d st s) :=
  (modEd_sameClasses e _ s rfl rfl).trans (SameClasses.of_framed ((modTd_framed _ _ _).comp
    ((setDone_framed _ _).comp (setDrainp_framed _ _) (e := [.done, .drainp]) (by decide) (by decide))
    (e := [.tds, .done, .drainp]) (by decide) (by decide)) (by decide))

theorem sweep_sameClasses (e : Nat) (h : Addr) (l : List Nat) (s : State) : SameClasses s (sweep e h l s) := by
  induction l generalizing s with
  | nil => exact SameClasses.refl _
  | cons d rest ih => exact (SameClasses.ite (finish_sameClasses _ _ _ _) (SameClasses.refl _)).trans (ih _)

theorem terminate_sameClasses (d : Nat) (st : Ts) (halt : Bool) (s : State) : SameClasses s (terminate d st halt s) := by
  cases he : (s.td d).ed with
  | none =>
    rw [terminate_noEd d st halt s he]
    exact SameClasses.refl _
  | some e =>
    rw [terminate_eq d e st halt s he]
    exact (SameClasses.ite ((finish_sameClasses _ _ _ _).trans (sweep_sameClasses _ _ _ _))
      (finish_sameClasses _ _ _ _)).trans
      (modEd_sameClasses e _ _ (settledState_keeps halt _).2.1 (settledState_keeps halt _).2.2.1)

theorem terminateAll_sameClasses (st : Ts) (halt : Bool) (l : List Nat) (s : State) :
    SameClasses s (terminateAll st halt l s) := by
  induction l generalizing s with
  | nil => exact SameClasses.refl _
  | cons d rest ih => exact (terminate_sameClasses _ _ _ _).trans (ih _)

theorem endTxn_sameClasses (t : Nat) (s : State) : SameClasses s (endTxn t s) :=
  SameClasses.of_framed (endTxn_framed t s) (by decide)

theorem abortTxn_sameClasses (t : Option Nat) (s : State) : SameClasses s (abortTxn t s) :=
  SameClasses.of_framed (abortTxn_framed t s) (by decide)

theorem failed_sameClasses (d : Nat) (st : Ts) (s : State) : SameClasses s (failed d st s) :=
  SameClasses.ite (SameClasses.of_framed (nak_framed d s) (by decide))
    (SameClasses.ite (terminate_sameClasses _ _ _ _) (SameClasses.ite (terminate_sameClasses _ _ _ _)
      ((SameClasses.of_framed (modTd_framed _ _ _) (by decide)).trans
        (SameClasses.ite (terminate_sameClasses _ _ _ _) (SameClasses.refl _)))))

theorem tokenConfirmed_sameClasses (t d : Nat) (st : Ts) (s : State) : SameClasses s (tokenConfirmed t d st s) := by
  unfold tokenConfirmed
  split
  · split
    · exact SameClasses.of_framed (modTxn_framed _ _ _) (by decide)
    · split
      · rename_i s1 heq
        exact (SameClasses.of_framed (congrArg Prod.snd heq ▸ ringSubmit_framed _ _) (by decide)).trans
          (SameClasses.of_framed (modTxn_framed _ _ _) (by decide))
      · rename_i s1 heq
        exact (SameClasses.of_framed (congrArg Prod.snd heq ▸ ringSubmit_framed _ _) (by decide)).trans
          (endTxn_sameClasses _ _)
  · split
    · exact (endTxn_sameClasses _ _).trans (SameClasses.of_framed (nak_framed _ _) (by decide))
    · exact (endTxn_sameClasses _ _).trans (terminate_sameClasses _ _ _ _)

theorem dataConfirmed_sameClasses (t d : Nat) (st : Ts) (n : Nat) (s : State) :
    SameClasses s (dataConfirmed t d st n s) := by
  unfold dataConfirmed
  split
  · exact (endTxn_sameClasses _ _).trans (failed_sameClasses _ _ _)
  · exact (SameClasses.of_framed (modTxn_framed _ _ s) (by decide)).trans
      ((SameClasses.of_framed (modTd_framed _ _ _) (by decide)).trans ((endTxn_sameClasses _ _).trans
        (SameClasses.ite (terminate_sameClasses _ _ _ _) (SameClasses.refl _))))

theorem txConfirmBody_sameClasses (st : Ts) (p : Nat) (s : State) : SameClasses s (txConfirmBody st p s) := by
  have hsp : SameClasses s s.flagSpuriousConfirm := SameClasses.of_framed (flagSpuriousConfirm_framed s) (by decide)
  have hst : SameClasses s (setPktStatus p st s) := SameClasses.of_framed (modPkt_framed _ _ _) (by decide)
  unfold txConfirmBody
  split
  · exact hsp
  · split
    · exact hsp
    · exact SameClasses.ite (hst.trans (tokenConfirmed_sameClasses _ _ _ _))
        (SameClasses.ite (hst.trans (dataConfirmed_sameClasses _ _ _ _ _)) hsp)

theorem rxConfirmBody_sameClasses (st : Ts) (p n : Nat) (s : State) : SameClasses s (rxConfirmBody st p n s) := by
  have hsp : SameClasses s s.flagSpuriousConfirm := SameClasses.of_framed (flagSpuriousConfirm_framed s) (by decide)
  have hst : ∀ st z, SameClasses z (setPktStatus p st z) := fun st z =>
    SameClasses.of_framed (modPkt_framed _ _ _) (by decide)
  unfold rxConfirmBody
  split
  · exact hsp
  · split
    · exact hsp
    · exact SameClasses.ite hsp (SameClasses.trans
        (SameClasses.ite (SameClasses.of_framed (flagRxOverlen_framed s) (by decide)) (SameClasses.refl s))
        ((hst _ _).trans (dataConfirmed_sameClasses _ _ _ _ _)))

theorem flushList_sameClasses (l : List Nat) (s : State) : SameClasses s (flushList l s) := by
  induction l generalizing s with
  | nil => exact SameClasses.refl _
  | cons d rest ih => exact ((abortTxn_sameClasses _ _).trans (terminate_sameClasses _ _ _ _)).trans (ih _)

theorem linkTds_sameClasses (e : Nat) (h : Addr) (l : List TdSpec) (s : State) :
    SameClasses s (linkTds e h l s) := by
  induction l generalizing s with
  | nil => exact SameClasses.refl _
  | cons sp rest ih =>
    refine SameClasses.trans (t := makeTd e h sp rest.isEmpty s) ?_ (ih _)
    unfold makeTd
    split
    · exact SameClasses.refl _
    · rename_i d s1 heq
      split
      · exact SameClasses.refl _
      · rename_i k s2 heq2
        exact (SameClasses.of_framed (congrArg Prod.snd heq ▸ tdAlloc_framed s) (by decide)).trans
          ((SameClasses.of_framed (congrArg Prod.snd heq2 ▸ tokenAlloc_framed s1) (by decide)).trans
            ((SameClasses.of_framed (modTd_framed _ _ _) (by decide)).trans
              ((SameClasses.of_framed (modTok_framed _ _ _) (by decide)).trans (modEd_sameClasses _ _ _ rfl rfl))))

/-! Operations that change them. -/

theorem mem_rotateList (l : List Nat) (x : Nat) : x ∈ rotateList l ↔ x ∈ l := by
  cases l with
  | nil => exact Iff.rfl
  | cons a l => simp [rotateList, or_comm]

theorem nodup_rotateList (l : List Nat) (h : l.Nodup) : (rotateList l).Nodup := by
  cases l with
  | nil => exact h
  | cons a l =>
    rw [List.nodup_cons] at h
    simp only [rotateList, List.nodup_append, List.nodup_singleton, true_and, h.2]
    intro b hb c hc
    rw [List.mem_singleton] at hc
    rintro rfl
    exact h.1 (hc ▸ hb)

/-- A change of one class list to one with the same members. -/
theorem classesOk_set (c : Mode) (l : List Nat) (s : State) (hs : s.classesOk) (hn : l.Nodup)
    (hm : ∀ x, x ∈ l ↔ x ∈ s.cls.get c) : (s.setCls (s.cls.set c l)).classesOk := by
  intro m hmm
  obtain ⟨h1, h2, h3⟩ := hs m hmm
  show ((s.cls.set c l).get m).Nodup ∧ (∀ e ∈ (s.cls.set c l).get m, e < s.cfg.maxEds ∧ (s.ed e).alloc = true ∧ (s.ed e).mode = m) ∧
    ∀ e < s.cfg.maxEds, (s.ed e).alloc = true → (s.ed e).mode = m → e ∈ (s.cls.set c l).get m
  rw [Classes.get_set]
  split
  · rename_i hc
    subst hc
    exact ⟨hn, fun e he => h2 e ((hm e).1 he), fun e he ha hmo => (hm e).2 (h3 e he ha hmo)⟩
  · exact ⟨h1, h2, h3⟩

theorem rotateClass_classesOk (c : Mode) (s : State) (hs : s.classesOk) : (rotateClass c s).classesOk := by
  have hc : c ∈ [Mode.iso, .intr, .ctrl, .bulk] := by cases c <;> simp
  exact classesOk_set c _ s hs (nodup_rotateList _ (hs c hc).1) (mem_rotateList _)

/-- Removing an allocated ED keeps the class lists right (R186, R188). -/
theorem removeEd_classesOk (e : Nat) (s : State) (hel : e < s.eds.length) (he : e < s.cfg.maxEds)
    (ha : (s.ed e).alloc = true) (hs : s.classesOk) : (removeEd e s).classesOk := by
  rw [removeEd_live e s he ha]
  obtain ⟨t, ht⟩ : ∃ t, t = ((s.setCls (s.cls.set (s.ed e).mode ((s.cls.get (s.ed e).mode).erase e))).modEd e
        (fun x => { x with alloc := false })).setEfree (e :: s.efree) := ⟨_, rfl⟩
  rw [← ht]
  have hself : (t.ed e).alloc = false := by
    rw [ht]
    exact congrArg Ed.alloc (modEd_ed_self e (fun x => { x with alloc := false })
      (s.setCls (s.cls.set (s.ed e).mode ((s.cls.get (s.ed e).mode).erase e))) hel)
  have hother : ∀ i, i ≠ e → t.ed i = s.ed i := by
    intro i hi
    rw [ht]
    exact modEd_ed_other e i (fun x => { x with alloc := false })
      (s.setCls (s.cls.set (s.ed e).mode ((s.cls.get (s.ed e).mode).erase e))) (Ne.symm hi)
  intro m hm
  obtain ⟨h1, h2, h3⟩ := hs m hm
  have hcls : t.cls.get m = if m = (s.ed e).mode then (s.cls.get m).erase e else s.cls.get m := by
    rw [ht]
    show (s.cls.set (s.ed e).mode ((s.cls.get (s.ed e).mode).erase e)).get m = _
    rw [Classes.get_set]
    by_cases hmm : m = (s.ed e).mode
    · subst hmm; simp
    · rw [if_neg hmm]
      rw [if_neg hmm]
  have hcfg : t.cfg = s.cfg := by rw [ht]; rfl
  rw [hcls, hcfg]
  have hnot : m ≠ (s.ed e).mode → e ∉ s.cls.get m := fun hmm hc => hmm (h2 e hc).2.2.symm
  have hmem : ∀ i, i ∈ (if m = (s.ed e).mode then (s.cls.get m).erase e else s.cls.get m) ↔ i ∈ s.cls.get m ∧ i ≠ e := by
    intro i
    split
    · rw [h1.mem_erase_iff]; tauto
    · rename_i hmm
      exact ⟨fun hi => ⟨hi, fun hc => hnot hmm (hc ▸ hi)⟩, fun hi => hi.1⟩
  refine ⟨?_, ?_, ?_⟩
  · split
    · exact h1.erase e
    · exact h1
  · intro i hi
    obtain ⟨hi, hne⟩ := (hmem i).1 hi
    rw [hother i hne]
    exact h2 i hi
  · intro i hi hal hmo
    have hne : i ≠ e := by
      rintro rfl
      rw [hself] at hal
      exact Bool.noConfusion hal
    rw [hother i hne] at hal hmo
    exact (hmem i).2 ⟨h3 i hi hal hmo, hne⟩

/-- Creating an ED keeps the class lists right (R172). -/
theorem createEd_classesOk (eid : EndpointId) (s : State) (hp : s.poolsOk) (hs : s.classesOk) :
    (createEd eid s).2.classesOk := by
  cases hf : s.efree with
  | nil =>
    have : createEd eid s = (none, s) := by simp only [createEd, edAlloc, hf]
    rw [this]
    exact hs
  | cons e rest =>
    have hel : e < s.eds.length := by
      rw [hp.2.1.1]; exact hp.2.2.1.1.2.1 e (by rw [hf]; simp)
    have hem : e < s.cfg.maxEds := hp.2.1.1 ▸ hel
    have hfree : (s.ed e).alloc = false := (hp.2.2.1.1.2.2 e hem).1 (by rw [hf]; simp)
    obtain ⟨t, ht⟩ : ∃ t, t = (createEd eid s).2 := ⟨_, rfl⟩
    rw [← ht]
    have h1 : edAlloc s = (some e, (s.setEfree rest).modEd e (fun x => { x with alloc := true })) := by
      simp only [edAlloc, hf]
    have ht2 : t = (((s.setEfree rest).modEd e (fun x => { x with alloc := true })).modEd e (newEd eid)).setCls
        (s.cls.set eid.mode (s.cls.get eid.mode ++ [e])) := by
      rw [ht]
      simp only [createEd, h1]
      rfl
    have hself : (t.ed e).alloc = true ∧ (t.ed e).mode = eid.mode := by
      have k1 := modEd_ed_self e (fun x => { x with alloc := true }) (s.setEfree rest) hel
      have k2 := modEd_ed_self e (newEd eid) ((s.setEfree rest).modEd e (fun x => { x with alloc := true })) (by
        show e < (List.modify _ _ _).length
        rw [List.length_modify]
        exact hel)
      have k3 : t.ed e = newEd eid { s.ed e with alloc := true } := by
        rw [ht2]
        exact k2.trans (by rw [k1]; rfl)
      rw [k3]
      exact ⟨rfl, rfl⟩
    have hother : ∀ i, i ≠ e → t.ed i = s.ed i := by
      intro i hi
      rw [ht2]
      have k1 := modEd_ed_other e i (fun x => { x with alloc := true }) (s.setEfree rest) (Ne.symm hi)
      have k2 := modEd_ed_other e i (newEd eid) ((s.setEfree rest).modEd e (fun x => { x with alloc := true })) (Ne.symm hi)
      exact k2.trans k1
    have hcfg : t.cfg = s.cfg := by rw [ht2]; rfl
    intro m hm
    obtain ⟨g1, g2, g3⟩ := hs m hm
    have hout : e ∉ s.cls.get m := fun hc => by
      have := (g2 e hc).2.1
      rw [hfree] at this
      exact Bool.noConfusion this
    have hcls : t.cls.get m = if m = eid.mode then s.cls.get m ++ [e] else s.cls.get m := by
      rw [ht2]
      show (s.cls.set eid.mode (s.cls.get eid.mode ++ [e])).get m = _
      rw [Classes.get_set]
      by_cases hmm : m = eid.mode
      · subst hmm; simp
      · rw [if_neg hmm]
        rw [if_neg hmm]
    rw [hcls, hcfg]
    have hmem : ∀ i, i ∈ (if m = eid.mode then s.cls.get m ++ [e] else s.cls.get m) ↔
        i ∈ s.cls.get m ∨ (i = e ∧ m = eid.mode) := by
      intro i
      split <;> simp [*]
    refine ⟨?_, ?_, ?_⟩
    · split
      · rw [List.nodup_append]
        refine ⟨g1, List.nodup_singleton _, ?_⟩
        intro a ha b hb
        rw [List.mem_singleton] at hb
        rintro rfl
        exact hout (hb ▸ ha)
      · exact g1
    · intro i hi
      rcases (hmem i).1 hi with hi | ⟨rfl, hmm⟩
      · have hne : i ≠ e := fun hc => hout (hc ▸ hi)
        rw [hother i hne]
        exact g2 i hi
      · exact ⟨hem, hself.1, hself.2.trans hmm.symm⟩
    · intro i hi hal hmo
      refine (hmem i).2 ?_
      by_cases hie : i = e
      · subst hie
        exact .inr ⟨rfl, by rw [← hmo]; exact hself.2⟩
      · rw [hother i hie] at hal hmo
        exact .inl (g3 i hi hal hmo)

/-! Whole operations. -/

/-- `reap()` keeps the class lists right (R186). -/
theorem reap_classesOk (s : State) (hp : s.poolsOk) (hs : s.classesOk) : (reap s).classesOk := by
  have h : ∀ (l : List Nat) (s : State), (∀ e ∈ l, e < s.cfg.maxEds) → s.poolsOk → s.classesOk →
      (reapList l s).classesOk := by
    intro l
    induction l with
    | nil => exact fun s _ _ h => h
    | cons e rest ih =>
      intro s hl hp hs
      have hcfg : (reapOne e s).cfg = s.cfg := (reapOne_framed e s).cfg_eq (by decide)
      refine ih _ (fun i hi => by rw [hcfg]; exact hl i (by simp [hi])) (reapOne_poolsOk e s hp) ?_
      have he := hl e (by simp)
      unfold reapOne
      split
      · exact hs
      · rename_i hc
        rw [not_or] at hc
        split
        · exact hs
        · have hsame := terminateAll_sameClasses .cancelled false (s.ed e).queue s
          refine removeEd_classesOk e _ ?_ (by rw [hsame.cfg]; exact he)
            (by rw [hsame.alloc]; simpa using hc.1) (classesOk_of_same hsame hs)
          rw [terminateAll_eds_length, hp.2.1.1]
          exact he
  exact h _ s (fun e he => by simpa using he) hp hs

theorem scan_classesOk (c : Mode) (s : State) (hs : s.classesOk) : (scan c s).classesOk := by
  have h : SameClasses s (scanList c (s.cls.get c) s) := SameClasses.of_framed (scanList_framed _ _ _) (by decide)
  exact rotateClass_classesOk c _ (classesOk_of_same h hs)

theorem newFrame_classesOk (s : State) (hs : s.classesOk) : (newFrame s).classesOk := by
  have ho : (openFrame s).classesOk := classesOk_of_same (SameClasses.of_framed (setFrame_framed _ s) (by decide)) hs
  have h3 := scan_classesOk .ctrl _ (scan_classesOk .intr _ (scan_classesOk .iso _ ho))
  unfold newFrame scanClasses
  simp only
  split
  · split
    · exact h3
    · exact scan_classesOk .bulk _ h3
  · exact ho

theorem frameStartBody_classesOk (s : State) (hs : s.classesOk) : (frameStartBody s).classesOk := by
  have h1 := classesOk_of_same (SameClasses.of_framed (setFrnum_framed (nextFrnum s.cfg s.frnum) s) (by decide)) hs
  unfold frameStartBody
  simp only
  split
  · exact newFrame_classesOk _ h1
  · split
    · exact newFrame_classesOk _ (classesOk_of_same (flushList_sameClasses _ _) h1)
    · exact h1

theorem submitAccept_classesOk (eid : EndpointId) (h : Addr) (e : Option Nat) (s : State) (hp : s.poolsOk)
    (hs : s.classesOk) : (submitAccept eid h e s).classesOk := by
  have he : (ensureEd eid e s).2.classesOk := by
    cases e with
    | none => exact createEd_classesOk eid s hp hs
    | some e => exact hs
  unfold submitAccept
  simp only
  split
  · rename_i s1 heq
    rw [heq] at he
    exact he
  · rename_i k s1 heq
    rw [heq] at he
    refine classesOk_of_same ?_ he
    exact (linkTds_sameClasses _ _ _ _).trans ((modEd_sameClasses _ _ _ rfl rfl).trans
      (SameClasses.of_framed (openRequest_framed _ _) (by decide)))

/-- EP_TEARDOWN of an allocated ED keeps the class lists right (R188). -/
theorem teardownEd_classesOk (e : Nat) (s : State) (hp : s.poolsOk) (he : e < s.eds.length)
    (ha : (s.ed e).alloc = true) (hs : s.classesOk) : (teardownEd e s).classesOk := by
  have h1 : SameClasses s (abortHead e s) ∧ (abortHead e s).eds.length = s.eds.length := by
    unfold abortHead
    split
    · exact ⟨SameClasses.refl _, rfl⟩
    · exact ⟨abortTxn_sameClasses _ _, by rw [(abortTxn_framed _ s).eds_eq (by decide)]⟩
  obtain ⟨s1, hs1⟩ : ∃ s1, s1 = abortHead e s := ⟨_, rfl⟩
  have ht : teardownEd e s = removeEd e (drainPass (terminateAll .cancelled false (s1.ed e).queue s1)) := by
    rw [hs1]
    rfl
  rw [← hs1] at h1
  rw [ht]
  have hall := h1.1.trans ((terminateAll_sameClasses .cancelled false (s1.ed e).queue s1).trans
    (SameClasses.of_framed (drainPass_framed _) (by decide)))
  refine removeEd_classesOk e _ ?_ ?_ (by rw [hall.alloc]; exact ha) (classesOk_of_same hall hs)
  · rw [(drainPass_framed _).eds_eq (by decide), terminateAll_eds_length, h1.2]
    exact he
  · rw [hall.cfg, ← hp.2.1.1]
    exact he

end Sys2Proof.Machine
end

