-- ==== Sys2Proof/Laws/Confirm.lean ====
section
/-! SUPPORT. Laws/Confirm.lean: the end of a transaction as one record update (`State.ended`), and the two confirm
events on a transaction in flight (42_transaction_engine.md R208, R212, R214, R215). -/

namespace Sys2Proof.Machine

/-- A context-(a) pass: the body between taking and releasing the region (R300). -/
theorem runPassA (body : State → State) (s : State) :
    runPass .heldA body s = (body (s.setLock .heldA)).setLock .free := rfl

theorem ended_framed (s : State) (x p d : Nat) :
    Framed [.dfree, .pkts, .ring, .frame, .tds, .txns, .xfree] s (s.ended x p d) := by
  intro f hf; cases f <;> first | rfl | (simp at hf)

theorem ended_td_self (s : State) (x p d : Nat) (h : d < s.tds.length) :
    (s.ended x p d).td d = { s.td d with txn := none, place := .queued } :=
  modTd_td_self d _ s h

theorem ended_td_other (s : State) (x p d i : Nat) (h : i ≠ d) : (s.ended x p d).td i = s.td i :=
  modTd_td_other d i _ s (Ne.symm h)

/-- The status written to a Packet does not outlive the Packet's release (R215, R251). -/
theorem ended_pktStatus (s : State) (x p d : Nat) (st : Ts) : (setPktStatus p st s).ended x p d = s.ended x p d := by
  simp only [setPktStatus, State.ended, State.modPkt, State.setPkts, List.modify_modify_eq]
  rfl

theorem liveTxn_pktStatus (s : State) (x p d : Nat) (st : Ts) (h : s.liveTxn x p d) :
    (setPktStatus p st s).liveTxn x p d := by
  refine ⟨h.1, h.2.1, h.2.2.1, ?_, h.2.2.2.2⟩
  have := modPkt_keeps Pkt.out p (fun k => { k with status := st }) s rfl p
  exact this.trans h.2.2.2.1

theorem liveTxn_lock (s : State) (l : Lock) (x p d : Nat) (h : s.liveTxn x p d) : (s.setLock l).liveTxn x p d := h

/-- EV_TX_CONFIRM for a transaction in flight, by its phase (R208). -/
theorem tx_exec (s : State) (code : BitVec 8) (st : Ts) (p : BitVec 16) (x d : Nat)
    (hc : Ts.ofEvent code = some st) (hl : s.liveTxn x p.toNat d) :
    exec (.evTxConfirm code p) s = .next ((reap (
      if (s.txn x).phase = .tokenWait then tokenConfirmed x d st (setPktStatus p.toNat st (s.setLock .heldA))
      else if (s.txn x).phase = .dataWait ∧ (s.td d).dir ≠ .inn then
        dataConfirmed x d st (s.txn x).len.toNat (setPktStatus p.toNat st (s.setLock .heldA))
      else (s.setLock .heldA).flagSpuriousConfirm)).setLock .free) := by
  have h1 : txnOfPkt (s.setLock .heldA) p.toNat = some x := txnOfPkt_onlyTxn s x p.toNat d hl.1
  have h2 : ((s.setLock .heldA).txn x).td = some d := hl.1.2.2.2.1
  simp only [exec, execEvTxConfirm, hc, runPassA, txConfirmBody, h1, h2]
  rfl

/-- EV_RX_CONFIRM for an IN transaction that awaits its data (R212, R213). -/
theorem rx_exec (s : State) (code : BitVec 8) (st : Ts) (p : BitVec 16) (n : Word) (x d : Nat)
    (hc : Ts.ofEvent code = some st) (hl : s.onlyTxn x p.toNat d) (h1 : (s.txn x).phase = .dataWait) (h2 : (s.td d).dir = .inn) :
    exec (.evRxConfirm code p n) s = .next ((reap (
       dataConfirmed x d (rxStatus st n.toNat (s.txn x).len.toNat) n.toNat (setPktStatus p.toNat (rxStatus st n.toNat (s.txn x).len.toNat)
         (if st = .ok ∧ (s.txn x).len.toNat < n.toNat then (s.setLock .heldA).flagRxOverlen else s.setLock .heldA)))).setLock .free) := by
  have h3 : txnOfPkt (s.setLock .heldA) p.toNat = some x := txnOfPkt_onlyTxn s x p.toNat d hl
  have h4 : ((s.setLock .heldA).txn x).td = some d := hl.2.2.2.1
  have h5 : ¬ (((s.setLock .heldA).txn x).phase ≠ .dataWait ∨ ((s.setLock .heldA).td d).dir ≠ .inn) := by
    rintro (h|h); exact h h1; exact h h2
  simp only [exec, execEvRxConfirm, hc, runPassA, rxConfirmBody, h3, h4, if_neg h5]
  rfl

/-- A good data phase, of either direction, as one record update (R214, R215). -/
theorem dataConfirmed_ok (s : State) (x p d e : Nat) (b : Bool) (n : Nat)
    (hl : s.liveTxn x p d) (he : (s.td d).ed = some e) (hb : (s.td d).toggle = .val b) :
    let len := (s.txn x).len.toNat
    let moved := if (s.td d).dir = .inn then n else len
    let td' : Td := { s.td d with
      txn := none, place := .queued
      transferred := (s.td d).transferred + BitVec.ofNat 32 moved
      toggle := .val (if (s.ed e).mode = .iso then b else !b)
      zlpPending := if len = 0 then false else (s.td d).zlpPending }
    let z : State := { s.ended x p d with
          tds := s.tds.modify d (fun _ => td')
          txns := s.txns.modify x (fun t => { t with phase := .confirmed, alloc := false }) }
    dataConfirmed x d .ok n (setPktStatus p .ok s) = if tdComplete td' len moved then terminate d .ok false z else z := by
  intro len moved td' z
  obtain ⟨w, hw⟩ : ∃ w, w = ((setPktStatus p .ok s).modTxn x (fun x => { x with phase := .confirmed })).modTd d (creditTd (decide ((s.ed e).mode = .iso)) len moved) := ⟨_, rfl⟩
  have hxl := hl.1.1
  have hdl := hl.2.2.2.2.1
  have hwx : w.txn x = { s.txn x with phase := .confirmed } := by
    rw [hw]; exact modTxn_txn_self x _ (setPktStatus p .ok s) hxl
  have hwl : w.liveTxn x p d := by
    obtain ⟨⟨a1,a2,a3,a4,a5⟩,b2,b3,b4,b5,b6⟩ := liveTxn_pktStatus s x p d .ok hl
    refine ⟨⟨?_, ?_, ?_, ?_, ?_⟩, ?_, ?_, ?_, ?_, ?_⟩
    · rw [hw]; show x < (List.modify _ _ _).length; rw [List.length_modify]; exact hxl
    · rw [hwx]; exact a2
    · rw [hwx]; exact a3
    · rw [hwx]; exact a4
    · intro i hi ha hp
      have k1 : (w.txn i).alloc = (s.txn i).alloc := by rw [hw]; exact modTxn_keeps Txn.alloc x (fun x => { x with phase := .confirmed }) (setPktStatus p .ok s) rfl i
      have k2 : (w.txn i).pkt = (s.txn i).pkt := by rw [hw]; exact modTxn_keeps Txn.pkt x (fun x => { x with phase := .confirmed }) (setPktStatus p .ok s) rfl i
      have k3 : w.txns.length = s.txns.length := by rw [hw]; show (List.modify _ _ _).length = _; rw [List.length_modify]; rfl
      exact a5 i (k3 ▸ hi) (k1 ▸ ha) (k2 ▸ hp)
    · rw [hw]; exact b2
    · rw [hw]; exact b3
    · rw [hw]; exact b4
    · rw [hw]; show d < (List.modify _ _ _).length; rw [List.length_modify]; exact hdl
    · rw [hwx, hw]; exact b6
  have hend := endTxn_ended w x p d hwl
  have hz : w.ended x p d = z := by
    have h1 : w.tds.modify d (fun t => { t with txn := none, place := .queued }) = s.tds.modify d (fun _ => td') := by
      rw [hw]
      show (s.tds.modify d _).modify d _ = _
      rw [List.modify_modify_eq]
      apply modify_congr
      intro t ht
      have : s.td d = t := by simp [State.td, List.getD_eq_getElem?_getD, ht]
      subst this
      simp only [Function.comp, creditTd, td', hb, Toggle.flip]
      by_cases hm : (s.ed e).mode = .iso <;> simp [hm]
    have h2 : w.txns.modify x (fun t => { t with alloc := false }) = s.txns.modify x (fun t => { t with phase := .confirmed, alloc := false }) := by
      rw [hw]
      show (s.txns.modify x _).modify x _ = _
      rw [List.modify_modify_eq]; rfl
    have h3 : w.pkts.modify p (fun _ => Pkt.initial) = s.pkts.modify p (fun _ => Pkt.initial) := by
      rw [hw]
      show (s.pkts.modify p _).modify p _ = _
      rw [List.modify_modify_eq]; rfl
    have h4 : (w.txn x).dummy = (s.txn x).dummy := by rw [hwx]
    unfold State.ended
    rw [h1, h2, h3, h4, hw]
    rfl
  have hcond : decide (((setPktStatus p .ok s).ed (((setPktStatus p .ok s).td d).ed.getD (setPktStatus p .ok s).cfg.maxEds)).mode = .iso) = decide ((s.ed e).mode = .iso) := by
    have : ((setPktStatus p .ok s).td d).ed = some e := he
    rw [this]; rfl
  unfold dataConfirmed
  rw [if_neg (by simp)]
  simp only [hcond]
  have e1 : ((setPktStatus p .ok s).txn x).len.toNat = len := rfl
  have e2 : (if ((setPktStatus p .ok s).td d).dir = .inn then n else len) = moved := rfl
  have e3 : w = ((setPktStatus p .ok s).modTxn x (fun x => { x with phase := .confirmed })).modTd d (creditTd (decide ((s.ed e).mode = .iso)) len moved) := hw
  simp only [e1, e2, ← e3, hend, hz]
  have e4 : z.td d = td' := by
    exact modTd_td_self d (fun _ => td') s hdl
  rw [e4]

end Sys2Proof.Machine
end

