-- ==== Sys2Proof/Laws/Drain.lean ====
section
/-! SUPPORT. Laws/Drain.lean: what draining the done list does (R261 to R266): to the TDs, to the request record
of each TD, and to the rest of host memory. -/

namespace Sys2Proof.Machine

/-! The release of a drained TD (R261, R266). -/

/-- A free of a TD that is allocated (R254). -/
theorem tdFree_live (s : State) (d : Nat) (hd : d < s.cfg.maxTds) (ha : (s.td d).alloc = true) :
    tdFree d s = (s.modTd d (fun t => { t with alloc := false })).setTfree (d :: s.tfree) := by
  rcases tdFree_spec d s with ⟨hc | hc, _⟩ | ⟨_, _, h⟩
  · omega
  · simp [ha] at hc
  · exact h

/-- A free of a Token that is allocated (R254). -/
theorem tokenFree_live (s : State) (k : Nat) (hk : k < s.cfg.maxTokens) (ha : (s.tok k).alloc = true) :
    tokenFree k s = (s.modTok k (fun t => { t with alloc := false })).setKfree (k :: s.kfree) := by
  rcases tokenFree_spec k s with ⟨hc | hc, _⟩ | ⟨_, _, h⟩
  · omega
  · simp [ha] at hc
  · exact h

theorem tdFree_td_other (d i : Nat) (s : State) (hi : i ≠ d) : (tdFree d s).td i = s.td i := by
  rcases tdFree_spec d s with ⟨_, h⟩ | ⟨_, _, h⟩
  · rw [h]; rfl
  · rw [h]; exact modTd_td_other d i _ s (Ne.symm hi)

theorem tdFree_td_alloc (d : Nat) (s : State) (hd : d < s.cfg.maxTds) : ((tdFree d s).td d).alloc = false := by
  rcases tdFree_spec d s with ⟨hc | hc, h⟩ | ⟨_, hal, h⟩
  · omega
  · rw [h]; exact hc
  · have hlt : d < s.tds.length := td_lt_of_ne_initial s d (fun hc => by rw [hc] at hal; exact Bool.noConfusion hal)
    rw [h]
    have := modTd_td_self d (fun t => { t with alloc := false }) s hlt
    exact congrArg Td.alloc this

theorem freeTd_td_other (d i : Nat) (s : State) (hi : i ≠ d) : (freeTd d s).td i = s.td i := by
  unfold freeTd
  rw [tdFree_td_other d i _ hi, modTd_td_other d i _ _ (Ne.symm hi),
    td_congr ((tokenFreeOpt_framed _ s).tds_eq (by decide))]

theorem freeTd_td_alloc (d : Nat) (s : State) (hd : d < s.cfg.maxTds) : ((freeTd d s).td d).alloc = false := by
  refine tdFree_td_alloc d _ ?_
  show d < (tokenFreeOpt (s.td d).token s).cfg.maxTds
  rw [(tokenFreeOpt_framed _ s).cfg_eq (by decide)]
  exact hd

/-! The request record (R263, R265): only its words at 18H and 1CH are written. -/

/-- The two states differ at most in the bytes of the words at 18H and 1CH of the record at `h`. -/
def SameOutside (h : Addr) (s t : State) : Prop :=
  ∀ a, (∀ j < 8, a ≠ wrapAddr s.cfg (h + 0x18 + j)) → t.mem.read a = s.mem.read a

theorem SameOutside.trans {h : Addr} {s t u : State} (hst : SameOutside h s t) (hc : t.cfg = s.cfg)
    (htu : SameOutside h t u) : SameOutside h s u := by
  intro a ha
  rw [htu a (by rw [hc]; exact ha), hst a ha]

theorem setField_sameOutside (h : Addr) (off : Nat) (v : Word) (s : State) (ho : off = 0x18 ∨ off = 0x1C) :
    SameOutside h s (s.setField h off v) := by
  intro a ha
  refine setField_read_other s h off v a fun j hj => ?_
  rcases ho with rfl | rfl
  · exact ha j (by omega)
  · have := ha (4 + j) (by omega)
    rwa [← Nat.add_assoc] at this

theorem addActual_sameOutside (t : Td) (h : Addr) (s : State) : SameOutside h s (addActual t h s) := by
  unfold addActual
  split
  · exact fun _ _ => rfl
  · exact setField_sameOutside h _ _ s (.inl rfl)

theorem noteStatus_sameOutside (t : Td) (h : Addr) (s : State) : SameOutside h s (noteStatus t h s) := by
  unfold noteStatus
  split
  · exact setField_sameOutside h _ _ s (.inr rfl)
  · exact fun _ _ => rfl

theorem addActual_framed (t : Td) (h : Addr) (s : State) : Framed [.mem, .out] s (addActual t h s) :=
  Framed.ite (Framed.refl _ _) (setField_framed _ _ _ _)

theorem updateRequest_sameOutside (d : Nat) (h : Addr) (s : State) : SameOutside h s (updateRequest d h s) :=
  (addActual_sameOutside _ h s).trans ((addActual_framed _ h s).cfg_eq (by decide)) (noteStatus_sameOutside _ h _)

theorem retire_sameOutside (h : Addr) (s : State) : SameOutside h s (retire h s) := by
  unfold retire
  simp only
  split
  · exact setField_sameOutside h _ _ s (.inr rfl)
  · exact fun _ _ => rfl

/-! One turn of the drain, and the whole drain (R261). -/

/-- The state of `drain_pass()` just before it frees TD `d`. -/
def beforeFree (d : Nat) (s : State) : State :=
  if otherTdOf (updateRequest d (s.td d).request s) d (s.td d).request then updateRequest d (s.td d).request s
  else retire (s.td d).request (updateRequest d (s.td d).request s)

theorem drainOne_eq (d : Nat) (s : State) : drainOne d s = freeTd d (beforeFree d s) := rfl

theorem beforeFree_framed (d : Nat) (s : State) : Framed [.mem, .out] s (beforeFree d s) :=
  Framed.ite (updateRequest_framed _ _ _) ((updateRequest_framed _ _ _).trans (retire_framed _ _))

theorem beforeFree_sameOutside (d : Nat) (s : State) : SameOutside (s.td d).request s (beforeFree d s) := by
  unfold beforeFree
  split
  · exact updateRequest_sameOutside d _ s
  · exact (updateRequest_sameOutside d _ s).trans ((updateRequest_framed d _ s).cfg_eq (by decide))
      (retire_sameOutside _ _)

theorem drainOne_td_other (d i : Nat) (s : State) (hi : i ≠ d) : (drainOne d s).td i = s.td i := by
  rw [drainOne_eq, freeTd_td_other d i _ hi, td_congr ((beforeFree_framed d s).tds_eq (by decide))]

theorem drainOne_td_alloc (d : Nat) (s : State) (hd : d < s.cfg.maxTds) : ((drainOne d s).td d).alloc = false := by
  rw [drainOne_eq]
  exact freeTd_td_alloc d _ (by rw [(beforeFree_framed d s).cfg_eq (by decide)]; exact hd)

/-- A drain keeps the request of every TD. -/
theorem freeTd_td_request (d i : Nat) (s : State) : ((freeTd d s).td i).request = (s.td i).request := by
  by_cases hi : i = d
  · subst hi
    unfold freeTd
    obtain ⟨u, hu⟩ : ∃ u, u = (tokenFreeOpt (s.td i).token s).modTd i (fun t => { t with token := none, place := .free }) :=
      ⟨_, rfl⟩
    have hur : (u.td i).request = (s.td i).request := by
      rw [hu, modTd_keeps Td.request i _ _ rfl, td_congr ((tokenFreeOpt_framed _ s).tds_eq (by decide))]
    rw [← hu]
    rcases tdFree_spec i u with ⟨_, h⟩ | ⟨_, _, h⟩
    · rw [h]; exact hur
    · rw [h]
      exact (modTd_keeps Td.request i _ u rfl i).trans hur
  · rw [freeTd_td_other d i s hi]

theorem drainOne_td_request (d i : Nat) (s : State) : ((drainOne d s).td i).request = (s.td i).request := by
  rw [drainOne_eq, freeTd_td_request, td_congr ((beforeFree_framed d s).tds_eq (by decide))]

theorem drainOne_mem (d : Nat) (s : State) : SameOutside (s.td d).request s (drainOne d s) := by
  intro a ha
  rw [drainOne_eq, (freeTd_framed d _).mem_eq (by decide)]
  exact beforeFree_sameOutside d s a ha

/-- What draining the TDs `ds` does. -/
structure Drained (ds : List Nat) (s t : State) : Prop where
  freed : ∀ d ∈ ds, d < s.cfg.maxTds → (t.td d).alloc = false
  tdOut : ∀ d, d ∉ ds → t.td d = s.td d
  request : ∀ d, (t.td d).request = (s.td d).request
  mem : ∀ a, (∀ d ∈ ds, ∀ j < 8, a ≠ wrapAddr s.cfg ((s.td d).request + 0x18 + j)) → t.mem.read a = s.mem.read a
  frame : Framed [.mem, .out, .kfree, .toks, .tfree, .tds, .done, .diag] s t

theorem drainList_drained (ds : List Nat) (s : State) : Drained ds s (drainList ds s) := by
  induction ds generalizing s with
  | nil => exact ⟨fun d hd => by simp at hd, fun _ _ => rfl, fun _ => rfl, fun _ _ => rfl, Framed.refl _ _⟩
  | cons d rest ih =>
    obtain ⟨u, hu⟩ : ∃ u, u = drainOne d (s.setDone rest) := ⟨_, rfl⟩
    have huf : Framed [.mem, .out, .kfree, .toks, .tfree, .tds, .done, .diag] s u := by
      rw [hu]
      exact ((setDone_framed rest s).mono (by decide)).trans ((drainOne_framed d _).mono (by decide))
    have hr := ih u
    rw [drainList, ← hu]
    have hcfg := huf.cfg_eq (by decide)
    have htd : ∀ i, i ≠ d → u.td i = s.td i := fun i hi => by rw [hu]; exact drainOne_td_other d i (s.setDone rest) hi
    have hrq : ∀ i, (u.td i).request = (s.td i).request := fun i => by
      rw [hu]; exact drainOne_td_request d i (s.setDone rest)
    refine ⟨?_, ?_, fun i => (hr.request i).trans (hrq i), ?_, huf.trans hr.frame⟩
    · intro i hi hil
      by_cases hir : i ∈ rest
      · exact hr.freed i hir (by rw [hcfg]; exact hil)
      · have hid : i = d := (List.mem_cons.1 hi).resolve_right hir
        subst hid
        rw [hr.tdOut i hir, hu]
        exact drainOne_td_alloc i (s.setDone rest) hil
    · intro i hi
      simp only [List.mem_cons, not_or] at hi
      rw [hr.tdOut i hi.2, htd i hi.1]
    · intro a ha
      rw [hr.mem a (fun i hi j hj => by rw [hcfg, hrq]; exact ha i (by simp [hi]) j hj), hu]
      exact drainOne_mem d (s.setDone rest) a (fun j hj => ha d (by simp) j hj)

end Sys2Proof.Machine
end

