-- ==== Sys2Proof/Laws/Requests.lean ====
section
/-! SUPPORT. Laws/Requests.lean: what the block's writes to a request record leave in its fields (20_memory.md R79;
41_queue_manager.md R170; 44_completion.md R263, R265). -/

namespace Sys2Proof.Machine

theorem wrapAddr_wrapAddr (c : Config) (a : Nat) : wrapAddr c (wrapAddr c a) = wrapAddr c a := by simp [wrapAddr]

/-- The writes that end an accepted SUBMIT (R79, R170). -/
theorem openRequest_facts (h : Addr) (s : State) (hw : Memory.wf s.mem) (hc : 6 ≤ s.cfg.addrBits) :
   (openRequest h s).field h 0x18 = 0#32 ∧ (openRequest h s).field h 0x1C = 0#32 ∧
   (∀ a, (∀ j < 8, a ≠ wrapAddr s.cfg (h + 0x18 + j)) → (openRequest h s).mem.read a = s.mem.read a) := by
  refine ⟨?_,?_,?_⟩
  · unfold openRequest
    rw [field_setField_other _ h offStatus 0x18 _ (by exact hc) (by decide) (by decide) (by decide)]
    exact field_setField_self s h 0x18 _ hw (by omega)
  · exact field_setField_self _ h 0x1C _ (memWrite_keeps_wf _ _ _ hw) (by show 2 ≤ s.cfg.addrBits; omega)
  · intro a ha
    unfold openRequest
    rw [setField_read_other, setField_read_other]
    · intro j hj; exact ha j (by omega)
    · intro j hj
      have := ha (4+j) (by omega)
      rwa [← Nat.add_assoc] at this

theorem openRequest_out (h : Addr) (s : State) : (openRequest h s).out = s.out ++ [.memWrite (wrapAddr s.cfg (wrapAddr s.cfg (h + 0x18))) 0#32,
        .memWrite (wrapAddr s.cfg (wrapAddr s.cfg (h + 0x1C))) 0#32] := by
  simp [openRequest, State.setField]; exact ⟨rfl, rfl, rfl⟩

/-- The request's fields after a drained TD's bytes are added (R263). -/
theorem addActual_fields (t : Td) (h : Addr) (s : State) (hw : Memory.wf s.mem) (hc : 6 ≤ s.cfg.addrBits) :
   (addActual t h s).field h 0x18 = (if t.dir = .setup then s.field h 0x18 else s.field h 0x18 + t.transferred) ∧
   (addActual t h s).field h 0x1C = s.field h 0x1C ∧ (addActual t h s).field h 0 = s.field h 0 ∧ Memory.wf (addActual t h s).mem := by
  unfold addActual
  split
  · exact ⟨rfl, rfl, rfl, hw⟩
  · exact ⟨field_setField_self _ _ _ _ hw (by omega), field_setField_other _ _ _ _ _ hc (by decide) (by decide) (by decide), field_setField_other _ _ _ _ _ hc (by decide) (by decide) (by decide), memWrite_keeps_wf _ _ _ hw⟩

/-- The request's fields after a drained TD's status is noted (R263). -/
theorem noteStatus_fields (t : Td) (h : Addr) (s : State) (hw : Memory.wf s.mem) (hc : 6 ≤ s.cfg.addrBits) :
   (noteStatus t h s).field h 0x18 = s.field h 0x18 ∧
   (noteStatus t h s).field h 0x1C = (if s.field h 0x1C = 0#32 ∧ t.status ≠ .ok then (csOf t.status).code else s.field h 0x1C) ∧ (noteStatus t h s).field h 0 = s.field h 0 ∧ Memory.wf (noteStatus t h s).mem := by
  unfold noteStatus
  by_cases hh : s.field h 0x1C = 0#32 ∧ t.status ≠ .ok
  · rw [if_pos (by exact hh), if_pos hh]
    exact ⟨field_setField_other _ _ _ _ _ hc (by decide) (by decide) (by decide), field_setField_self _ _ _ _ hw (by omega), field_setField_other _ _ _ _ _ hc (by decide) (by decide) (by decide), memWrite_keeps_wf _ _ _ hw⟩
  · rw [if_neg (by exact hh), if_neg hh]
    exact ⟨rfl, rfl, rfl, hw⟩

theorem noteStatus_framed (t h s) : Framed [.mem, .out] s (noteStatus t h s) := Framed.ite (setField_framed _ _ _ _) (Framed.refl _ _)

/-- The request's fields after it is retired, and the callback (R265). -/
theorem retire_fields (h : Addr) (s : State) (hw : Memory.wf s.mem) (hc : 6 ≤ s.cfg.addrBits) :
   let final := if s.field h 0x1C = 0#32 ∧ (s.field h 0x18).toNat < (s.field h 0).toNat then 1#32 else s.field h 0x1C
   (retire h s).field h 0x18 = s.field h 0x18 ∧ (retire h s).field h 0x1C = final ∧
   (retire h s).out.getLast? = some (.callback (0xC00000#24 ++ final.extractLsb' 0 8) (BitVec.ofNat 32 h) (s.field h 0x18)) := by
  intro final
  unfold retire
  simp only
  by_cases hh : s.field h 0x1C = 0#32 ∧ (s.field h 0x18).toNat < (s.field h 0).toNat
  · have hf : final = 1#32 := if_pos hh
    rw [if_pos (by exact hh), hf]
    refine ⟨?_, ?_, ?_⟩
    · exact (field_congr rfl rfl h 0x18).trans (field_setField_other s h 0x1C 0x18 _ hc (by decide) (by decide) (by decide))
    · exact (field_congr rfl rfl h 0x1C).trans (field_setField_self s h 0x1C _ hw (by omega))
    · simp only [callback, State.emit, State.setOut, List.getLast?_append]; rfl
  · have hf : final = s.field h 0x1C := if_neg hh
    rw [if_neg (by exact hh), hf]
    refine ⟨field_congr rfl rfl h 0x18, field_congr rfl rfl h 0x1C, ?_⟩
    simp only [callback, State.emit, State.setOut, List.getLast?_append]; rfl

end Sys2Proof.Machine
end

