-- ==== Sys2Proof/Laws/Retiring.lean ====
section
/-! SUPPORT. Laws/Retiring.lean: the order in which a drain frees its TDs (R253, R261, R267), and what draining the TDs
of one request does to its record and to the outputs (R263, R264, R265); what aborting a pipe's head TD leaves of the
TDs (R188, R215). -/

namespace Sys2Proof.Machine

/-! The order of the freed TDs. -/

theorem freeTd_tfree (d : Nat) (s : State) (hd : d < s.cfg.maxTds) (ha : (s.td d).alloc = true) :
    (freeTd d s).tfree = d :: s.tfree := by
  obtain ⟨u, hu⟩ : ∃ u, u = (tokenFreeOpt (s.td d).token s).modTd d (fun t => { t with token := none, place := .free }) :=
    ⟨_, rfl⟩
  have hf : Framed [.kfree, .toks, .diag, .tds] s u := by
    rw [hu]
    exact ((tokenFreeOpt_framed _ s).mono (by decide)).trans ((modTd_framed _ _ _).mono (by decide))
  have hua : (u.td d).alloc = true := by
    rw [hu, modTd_keeps Td.alloc d _ _ rfl d, td_congr ((tokenFreeOpt_framed _ s).tds_eq (by decide))]
    exact ha
  have h1 : freeTd d s = tdFree d u := by rw [hu]; rfl
  rw [h1, tdFree_live u d (by rw [hf.cfg_eq (by decide)]; exact hd) hua]
  show d :: u.tfree = _
  rw [hf.tfree_eq (by decide)]

theorem drainOne_tfree (d : Nat) (s : State) (hd : d < s.cfg.maxTds) (ha : (s.td d).alloc = true) :
    (drainOne d s).tfree = d :: s.tfree := by
  have hf := beforeFree_framed d s
  rw [drainOne_eq, freeTd_tfree d _ (by rw [hf.cfg_eq (by decide)]; exact hd)
    (by rw [td_congr (hf.tds_eq (by decide))]; exact ha), hf.tfree_eq (by decide)]

/-- A drain puts its TDs back one by one, the oldest first (R253, R261). -/
theorem drainList_tfree (ds : List Nat) (s : State) (hn : ds.Nodup)
    (hd : ∀ d ∈ ds, d < s.cfg.maxTds ∧ (s.td d).alloc = true) :
    (drainList ds s).tfree = ds.reverse ++ s.tfree := by
  induction ds generalizing s with
  | nil => rfl
  | cons d rest ih =>
    obtain ⟨u, hu⟩ : ∃ u, u = drainOne d (s.setDone rest) := ⟨_, rfl⟩
    have huc : u.cfg = s.cfg := by rw [hu, (drainOne_framed d _).cfg_eq (by decide)]; rfl
    have hut : u.tfree = d :: s.tfree := by
      rw [hu]
      exact drainOne_tfree d (s.setDone rest) (hd d (by simp)).1 (hd d (by simp)).2
    obtain ⟨hdn, hn⟩ := List.nodup_cons.1 hn
    rw [drainList, ← hu, ih u hn, hut]
    · simp
    · intro i hi
      have hne : i ≠ d := fun hc => hdn (hc ▸ hi)
      rw [huc, hu, drainOne_td_other d i _ hne]
      exact hd i (by simp [hi])

/-! The drain of one request's TDs. -/

theorem freeTd_tds_length (d : Nat) (s : State) : (freeTd d s).tds.length = s.tds.length := by
  have h : ∀ u : State, (tdFree d u).tds.length = u.tds.length := by
    intro u
    unfold tdFree
    split
    · rfl
    · exact List.length_modify ..
  unfold freeTd
  rw [h]
  show (List.modify _ _ _).length = _
  rw [List.length_modify, (tokenFreeOpt_framed _ s).tds_eq (by decide)]

/-- The outputs between the two states hold no callback. -/
def Quiet (s t : State) : Prop := ∃ os, t.out = s.out ++ os ∧ ∀ w0 w1 w2, Output.callback w0 w1 w2 ∉ os

theorem Quiet.refl (s : State) : Quiet s s := ⟨[], by simp, by simp⟩

theorem Quiet.of_out {s t : State} (h : t.out = s.out) : Quiet s t := ⟨[], by simp [h], by simp⟩

theorem Quiet.trans {s t u : State} (a : Quiet s t) (b : Quiet t u) : Quiet s u := by
  obtain ⟨o, h1, h2⟩ := a
  obtain ⟨p, k1, k2⟩ := b
  refine ⟨o ++ p, by rw [k1, h1, List.append_assoc], fun x y z hm => ?_⟩
  rcases List.mem_append.1 hm with hm | hm
  · exact h2 _ _ _ hm
  · exact k2 _ _ _ hm

theorem setField_quiet (h off : Nat) (v : Word) (s : State) : Quiet s (State.setField h off v s) := ⟨[_], rfl, by simp⟩

theorem updateRequest_quiet (d : Nat) (h : Addr) (s : State) : Quiet s (updateRequest d h s) := by
  refine Quiet.trans (t := addActual (s.td d) h s) ?_ ?_
  · unfold addActual
    split
    · exact Quiet.refl _
    · exact setField_quiet _ _ _ _
  · unfold updateRequest noteStatus
    split
    · exact setField_quiet _ _ _ _
    · exact Quiet.refl _

/-- Every callback of a drained TD names its request (R114, R265). -/
theorem drainOne_callbacks (d : Nat) (s : State) (w0 w1 w2 : Word)
    (h : Output.callback w0 w1 w2 ∈ (drainOne d s).out) :
    Output.callback w0 w1 w2 ∈ s.out ∨ w1 = BitVec.ofNat 32 (s.td d).request := by
  rw [drainOne_eq, (freeTd_framed d _).out_eq (by decide)] at h
  obtain ⟨u, hu⟩ : ∃ u, u = updateRequest d (s.td d).request s := ⟨_, rfl⟩
  have hq := updateRequest_quiet d (s.td d).request s
  rw [← hu] at hq
  have hb : beforeFree d s = if otherTdOf u d (s.td d).request then u else retire (s.td d).request u := by
    rw [hu]; rfl
  have hin : Output.callback w0 w1 w2 ∈ u.out → Output.callback w0 w1 w2 ∈ s.out := by
    obtain ⟨os, h1, h2⟩ := hq
    intro hm
    rw [h1] at hm
    exact (List.mem_append.1 hm).resolve_right (h2 _ _ _)
  have hcb : ∀ (z : State) (st n : Word), Quiet u z →
      Output.callback w0 w1 w2 ∈ (callback (s.td d).request st n z).out →
      Output.callback w0 w1 w2 ∈ s.out ∨ w1 = BitVec.ofNat 32 (s.td d).request := by
    intro z st n hz hm
    obtain ⟨os, h1, h2⟩ := hz
    have : (callback (s.td d).request st n z).out = z.out ++
        [.callback (0xC00000#24 ++ st.extractLsb' 0 8) (BitVec.ofNat 32 (s.td d).request) n] := rfl
    rw [this, h1, List.mem_append, List.mem_append] at hm
    rcases hm with (hm | hm) | hm
    · exact .inl (hin hm)
    · exact absurd hm (h2 _ _ _)
    · simp only [List.mem_singleton, Output.callback.injEq] at hm
      exact .inr hm.2.1
  rw [hb] at h
  split at h
  · exact .inl (hin h)
  · unfold retire at h
    simp only at h
    split at h
    · exact hcb _ _ _ (setField_quiet _ _ _ _) h
    · exact hcb _ _ _ (Quiet.refl _) h

theorem drainList_callbacks (ds : List Nat) (s : State) (w0 w1 w2 : Word)
    (h : Output.callback w0 w1 w2 ∈ (drainList ds s).out) :
    Output.callback w0 w1 w2 ∈ s.out ∨ ∃ d ∈ ds, w1 = BitVec.ofNat 32 (s.td d).request := by
  induction ds generalizing s with
  | nil => exact .inl h
  | cons d rest ih =>
    rcases ih _ h with h | ⟨i, hi, h⟩
    · rcases drainOne_callbacks d _ w0 w1 w2 h with h | h
      · exact .inl h
      · exact .inr ⟨d, by simp, h⟩
    · rw [drainOne_td_request] at h
      exact .inr ⟨i, by simp [hi], h⟩

/-- What updating a request with one drained TD does (R263). -/
theorem updateRequest_facts (d : Nat) (s : State) (hw : Memory.wf s.mem) (hc : 6 ≤ s.cfg.addrBits) :
    let h := (s.td d).request
    let t := updateRequest d h s
    t.field h 0x18 = (if (s.td d).dir = .setup then s.field h 0x18 else s.field h 0x18 + (s.td d).transferred) ∧
    t.field h 0x1C = (if s.field h 0x1C = 0#32 ∧ (s.td d).status ≠ .ok then (csOf (s.td d).status).code
      else s.field h 0x1C) ∧
    t.field h 0 = s.field h 0 ∧ Memory.wf t.mem ∧ Quiet s t ∧ Framed [.mem, .out] s t := by
  intro h t
  obtain ⟨u, hu⟩ : ∃ u, u = addActual (s.td d) h s := ⟨_, rfl⟩
  have hA := addActual_fields (s.td d) h s hw hc
  rw [← hu] at hA
  have hF : Framed [.mem, .out] s u := by rw [hu]; exact addActual_framed _ _ _
  have hN := noteStatus_fields (s.td d) h u hA.2.2.2 (by rw [hF.cfg_eq (by decide)]; exact hc)
  have ht : t = noteStatus (s.td d) h u := by rw [hu]; rfl
  rw [← ht] at hN
  refine ⟨by rw [hN.1, hA.1], by rw [hN.2.1, hA.2.1], by rw [hN.2.2.1, hA.2.2.1], hN.2.2.2, ?_, ?_⟩
  · refine Quiet.trans (t := u) ?_ ?_
    · rw [hu]
      unfold addActual
      split
      · exact Quiet.refl _
      · exact setField_quiet _ _ _ _
    · rw [ht]
      unfold noteStatus
      split
      · exact setField_quiet _ _ _ _
      · exact Quiet.refl _
  · rw [ht]
    exact hF.trans (noteStatus_framed _ _ _)

theorem otherTdOf_iff (s : State) (d : Nat) (h : Addr) :
    otherTdOf s d h = true ↔ ∃ i, i ≠ d ∧ i < s.tds.length ∧ (s.td i).alloc = true ∧ (s.td i).request = h := by
  simp only [otherTdOf, List.any_eq_true, List.mem_range, Bool.and_eq_true, decide_eq_true_eq]
  constructor
  · rintro ⟨i, h1, ⟨h2, h3⟩, h4⟩
    exact ⟨i, h2, h1, h3, h4⟩
  · rintro ⟨i, h1, h2, h3, h4⟩
    exact ⟨i, h2, ⟨h1, h3⟩, h4⟩

/-- What a retirement puts out (R265): its writes, and then one callback. -/
theorem retire_out (h : Addr) (s : State) (w : Word) (hst : s.field h 0x1C = w) (hw : w ≠ 0#32) :
    retire h s = callback h w (s.field h 0x18) s := by
  unfold retire
  simp only
  rw [if_neg (by intro hc; exact hw (hst.symm.trans hc.1))]
  rw [show s.field h offStatus = w from hst]
  rfl

/-- Draining TDs that are all cancelled and all those of one request, whose `status` is no failure yet or already
cancelled: the record ends `CS_CANCELLED` with the bytes they moved, and one callback comes last (R119, R263, R264,
R265). -/
theorem drainList_cancelled (h : Addr) (ds : List Nat) (s : State) (hne : ds ≠ []) (hn : ds.Nodup)
    (hd : ∀ d ∈ ds, d < s.cfg.maxTds ∧ (s.td d).status = .cancelled) (hw : Memory.wf s.mem) (hc : 6 ≤ s.cfg.addrBits)
    (hall : ∀ d < s.tds.length, (s.td d).alloc = true → ((s.td d).request = h ↔ d ∈ ds))
    (hal : ∀ d ∈ ds, d < s.tds.length ∧ (s.td d).alloc = true ∧ (s.td d).request = h)
    (hst : s.field h 0x1C = 0#32 ∨ s.field h 0x1C = 5#32) :
    let a := s.field h 0x18 + ((ds.filter (fun d => decide ((s.td d).dir ≠ .setup))).map
      (fun d => (s.td d).transferred)).sum
    let t := drainList ds s
    t.field h 0x1C = 5#32 ∧ t.field h 0x18 = a ∧
    ∃ os, t.out = s.out ++ os ++ [.callback 0xC0000005#32 (BitVec.ofNat 32 h) a] ∧
      ∀ w0 w1 w2, Output.callback w0 w1 w2 ∉ os := by
  induction ds generalizing s with
  | nil => exact absurd rfl hne
  | cons d rest ih =>
    intro a t
    obtain ⟨hdl, hda, hdr⟩ := hal d (by simp)
    obtain ⟨hdc, hds⟩ := hd d (by simp)
    obtain ⟨hdn, hnr⟩ := List.nodup_cons.1 hn
    obtain ⟨s1, hs1⟩ : ∃ s1, s1 = s.setDone rest := ⟨_, rfl⟩
    have hF1 : Framed [.done] s s1 := by rw [hs1]; exact setDone_framed _ _
    have htd1 : ∀ i, s1.td i = s.td i := td_congr (hF1.tds_eq (by decide))
    have hfd1 : ∀ off, s1.field h off = s.field h off := fun off =>
      field_congr (hF1.cfg_eq (by decide)) (hF1.mem_eq (by decide)) h off
    have hU := updateRequest_facts d s1 (by rw [hF1.mem_eq (by decide)]; exact hw)
      (by rw [hF1.cfg_eq (by decide)]; exact hc)
    simp only [htd1, hdr, hfd1] at hU
    obtain ⟨s2, hs2⟩ : ∃ s2, s2 = updateRequest d h s1 := ⟨_, rfl⟩
    rw [← hs2] at hU
    obtain ⟨h18, h1C, -, hw2, hq2, hF2⟩ := hU
    have h1C5 : s2.field h 0x1C = 5#32 := by
      rw [h1C, hds]
      rcases hst with hst | hst <;> rw [hst] <;> rfl
    have hq : Quiet s s2 := (Quiet.of_out (hF1.out_eq (by decide))).trans hq2
    have hF12 : Framed [.done, .mem, .out] s s2 := (hF1.mono (by decide)).trans (hF2.mono (by decide))
    have htd2 : ∀ i, s2.td i = s.td i := td_congr (hF12.tds_eq (by decide))
    have hbf : beforeFree d s1 = if otherTdOf s2 d h then s2 else retire h s2 := by
      unfold beforeFree
      rw [htd1, hdr, ← hs2]
    have hoth : otherTdOf s2 d h = true ↔ rest ≠ [] := by
      rw [otherTdOf_iff, hF12.tds_eq (by decide)]
      constructor
      · rintro ⟨i, h1, h2, h3, h4⟩ hr
        rw [htd2] at h3 h4
        have := (hall i h2 h3).1 h4
        rw [hr] at this
        simp at this
        exact h1 this
      · intro hr
        obtain ⟨i, r, hi⟩ := List.exists_cons_of_ne_nil hr
        have him : i ∈ rest := by rw [hi]; simp
        obtain ⟨k1, k2, k3⟩ := hal i (by simp [him])
        exact ⟨i, fun hc => hdn (hc ▸ him), k1, by rw [htd2]; exact k2, by rw [htd2]; exact k3⟩
    have hone : drainOne d s1 = freeTd d (beforeFree d s1) := drainOne_eq d s1
    have ht : t = drainList rest (drainOne d s1) := by rw [hs1]; rfl
    by_cases hr : rest = []
    · have hno : ¬ otherTdOf s2 d h = true := fun hc => (hoth.1 hc) hr
      rw [if_neg hno, retire_out h s2 5#32 h1C5 (by decide)] at hbf
      have hfr := freeTd_framed d (callback h 5#32 (s2.field h 0x18) s2)
      have ht' : t = freeTd d (callback h 5#32 (s2.field h 0x18) s2) := by
        rw [ht, hr, hone, hbf]; rfl
      have ha : s2.field h 0x18 = a := by
        rw [h18]
        show _ = s.field h 0x18 + ((((d :: rest).filter _).map _).sum)
        rw [hr]
        by_cases hsu : (s.td d).dir = .setup
        · rw [if_pos hsu, List.filter_cons_of_neg (by simp [hsu])]; simp
        · rw [if_neg hsu, List.filter_cons_of_pos (by simp [hsu])]; simp
      have hft : ∀ off, t.field h off = s2.field h off := fun off => by
        rw [ht']
        exact (field_congr (hfr.cfg_eq (by decide)) (hfr.mem_eq (by decide)) h off)
      refine ⟨by rw [hft, h1C5], by rw [hft, ha], ?_⟩
      obtain ⟨os, ho, hoq⟩ := hq
      refine ⟨os, ?_, hoq⟩
      rw [ht', hfr.out_eq (by decide), ha]
      show s2.out ++ _ = _
      rw [ho]
      rfl
    · rw [if_pos (hoth.2 hr)] at hbf
      obtain ⟨s3, hs3⟩ : ∃ s3, s3 = drainOne d s1 := ⟨_, rfl⟩
      rw [← hs3] at ht
      have hs3' : s3 = freeTd d s2 := by rw [hs3, hone, hbf]
      have hfr := freeTd_framed d s2
      rw [← hs3'] at hfr
      have hcfg3 : s3.cfg = s.cfg := (hfr.cfg_eq (by decide)).trans (hF12.cfg_eq (by decide))
      have hl3 : s3.tds.length = s.tds.length := by
        rw [hs3']
        have := freeTd_tds_length d s2
        rw [this, hF12.tds_eq (by decide)]
      have htd3 : ∀ i, i ≠ d → s3.td i = s.td i := fun i hi => by rw [hs3', freeTd_td_other d i _ hi, htd2]
      have hd3 : (s3.td d).alloc = false := by
        rw [hs3']
        exact freeTd_td_alloc d _ (by rw [hF12.cfg_eq (by decide)]; exact hdc)
      have hft : ∀ off, s3.field h off = s2.field h off := fun off =>
        field_congr (hfr.cfg_eq (by decide)) (hfr.mem_eq (by decide)) h off
      have hin : ∀ i ∈ rest, i ≠ d := fun i hi hc => hdn (hc ▸ hi)
      have hih := ih s3 hr hnr
        (fun i hi => by rw [hcfg3, htd3 i (hin i hi)]; exact hd i (by simp [hi]))
        (by rw [hfr.mem_eq (by decide)]; exact hw2) (by rw [hcfg3]; exact hc)
        (by
          intro i hi hai
          by_cases hid : i = d
          · rw [hid, hd3] at hai
            exact Bool.noConfusion hai
          · rw [htd3 i hid] at hai ⊢
            have := hall i (by rw [← hl3]; exact hi) hai
            rw [this, List.mem_cons]
            simp [hid])
        (fun i hi => by rw [hl3, htd3 i (hin i hi)]; exact hal i (by simp [hi]))
        (.inr (by rw [hft]; exact h1C5))
      have hfl : rest.filter (fun i => decide ((s3.td i).dir ≠ .setup)) =
          rest.filter (fun i => decide ((s.td i).dir ≠ .setup)) :=
        List.filter_congr (fun i hi => by rw [htd3 i (hin i hi)])
      have hmp : (rest.filter (fun i => decide ((s.td i).dir ≠ .setup))).map (fun i => (s3.td i).transferred) =
          (rest.filter (fun i => decide ((s.td i).dir ≠ .setup))).map (fun i => (s.td i).transferred) :=
        List.map_congr_left (fun i hi => by rw [htd3 i (hin i (List.mem_filter.1 hi).1)])
      simp only [hfl, hmp, hft 0x18, h18, ← ht] at hih
      have ha : (if (s.td d).dir = .setup then s.field h 0x18 else s.field h 0x18 + (s.td d).transferred) +
          ((rest.filter (fun i => decide ((s.td i).dir ≠ .setup))).map (fun i => (s.td i).transferred)).sum = a := by
        show _ = s.field h 0x18 + ((((d :: rest).filter _).map _).sum)
        by_cases hsu : (s.td d).dir = .setup
        · rw [if_pos hsu, List.filter_cons_of_neg (by simp [hsu])]
        · rw [if_neg hsu, List.filter_cons_of_pos (by simp [hsu]), List.map_cons, List.sum_cons]
          ring
      rw [ha] at hih
      obtain ⟨k1, k2, os, k3, k4⟩ := hih
      obtain ⟨os', ho, hoq⟩ := hq
      refine ⟨k1, k2, os' ++ os, ?_, ?_⟩
      · rw [k3, hfr.out_eq (by decide), ho]
        simp
      · intro w0 w1 w2 hm
        rcases List.mem_append.1 hm with hm | hm
        · exact hoq _ _ _ hm
        · exact k4 _ _ _ hm

/-! The abort of a pipe's head TD (R188, R215). -/

theorem endTxn_td_keeps {α : Type} (f : Td → α) (hf : ∀ t : Td, f { t with txn := none, place := .queued } = f t)
    (t i : Nat) (s : State) : f ((endTxn t s).td i) = f (s.td i) := by
  simp only [endTxn]
  rw [td_congr ((txnFree_framed t _).tds_eq (by decide))]
  obtain ⟨u, hu⟩ : ∃ u, u = pktReleaseOpt (s.txn t).pkt (dummyReleaseOpt (s.txn t).dummy s) := ⟨_, rfl⟩
  have : u.tds = s.tds := by
    rw [hu, (pktReleaseOpt_framed _ _).tds_eq (by decide), (dummyReleaseOpt_framed _ _).tds_eq (by decide)]
  rw [← hu, ← td_congr this i]
  cases (s.txn t).td with
  | none => rfl
  | some d => exact modTd_keeps f d _ _ (hf _) i

theorem endTxn_td_other (t i : Nat) (s : State) (h : (s.txn t).td ≠ some i) : (endTxn t s).td i = s.td i := by
  simp only [endTxn]
  rw [td_congr ((txnFree_framed t _).tds_eq (by decide))]
  obtain ⟨u, hu⟩ : ∃ u, u = pktReleaseOpt (s.txn t).pkt (dummyReleaseOpt (s.txn t).dummy s) := ⟨_, rfl⟩
  have : u.tds = s.tds := by
    rw [hu, (pktReleaseOpt_framed _ _).tds_eq (by decide), (dummyReleaseOpt_framed _ _).tds_eq (by decide)]
  rw [← hu, ← td_congr this i]
  cases hd : (s.txn t).td with
  | none => rfl
  | some d => exact modTd_td_other d i _ _ (fun hc => h (by rw [hd, hc]))

theorem endTxn_tds_length (t : Nat) (s : State) : (endTxn t s).tds.length = s.tds.length := by
  simp only [endTxn]
  rw [(txnFree_framed t _).tds_eq (by decide)]
  obtain ⟨u, hu⟩ : ∃ u, u = pktReleaseOpt (s.txn t).pkt (dummyReleaseOpt (s.txn t).dummy s) := ⟨_, rfl⟩
  have : u.tds = s.tds := by
    rw [hu, (pktReleaseOpt_framed _ _).tds_eq (by decide), (dummyReleaseOpt_framed _ _).tds_eq (by decide)]
  rw [← hu, ← this]
  cases hd : (s.txn t).td with
  | none => rfl
  | some d => exact List.length_modify ..

theorem abortHead_td_keeps {α : Type} (f : Td → α)
    (hf : ∀ t : Td, f { t with txn := none, place := .queued } = f t) (e i : Nat) (s : State) :
    f ((abortHead e s).td i) = f (s.td i) := by
  unfold abortHead
  split
  · rfl
  · rename_i d ds _
    unfold abortTxn
    cases (s.td d).txn with
    | none => rfl
    | some t => exact endTxn_td_keeps f hf _ _ _

theorem abortHead_tds_length (e : Nat) (s : State) : (abortHead e s).tds.length = s.tds.length := by
  unfold abortHead
  split
  · rfl
  · rename_i d ds _
    unfold abortTxn
    cases (s.td d).txn with
    | none => rfl
    | some t => exact endTxn_tds_length _ _

theorem abortHead_td_other (e i : Nat) (s : State)
    (h : ∀ d x, (s.ed e).queue.head? = some d → (s.td d).txn = some x → (s.txn x).td ≠ some i) :
    (abortHead e s).td i = s.td i := by
  unfold abortHead
  split
  · rfl
  · rename_i d ds hq
    unfold abortTxn
    cases hx : (s.td d).txn with
    | none => rfl
    | some t => exact endTxn_td_other _ _ _ (h d t (by rw [hq]; rfl) hx)

end Sys2Proof.Machine
end

