-- ==== Sys2Proof/Laws/DrainOrder.lean ====
section
/-! SUPPORT. Laws/DrainOrder.lean: a drain is the drain of each TD in turn, whatever else is on the done list (R261), and
its callbacks come in the order in which the last TDs of the requests stand on that list (R264, R265, R267). -/

namespace Sys2Proof.Machine

/-! The drain of a TD neither reads nor changes the done list, `DRAINP` and the lock. -/

/-- The state with another done list, `DRAINP` and lock. -/
def State.retask (l : List Nat) (p : Bool) (k : Lock) (s : State) : State := { s with done := l, drainp := p, lock := k }

theorem addActual_retask (t : Td) (h : Addr) (l : List Nat) (p : Bool) (k : Lock) (s : State) :
    addActual t h (s.retask l p k) = (addActual t h s).retask l p k := by
  unfold addActual
  split <;> rfl

theorem noteStatus_retask (t : Td) (h : Addr) (l : List Nat) (p : Bool) (k : Lock) (s : State) :
    noteStatus t h (s.retask l p k) = (noteStatus t h s).retask l p k :=
  (apply_ite (State.retask l p k) (s.field h offStatus = Cs.ok.code ∧ t.status ≠ .ok)
    (s.setField h offStatus (csOf t.status).code) s).symm

theorem updateRequest_retask (d : Nat) (h : Addr) (l : List Nat) (p : Bool) (k : Lock) (s : State) :
    updateRequest d h (s.retask l p k) = (updateRequest d h s).retask l p k :=
  (congrArg (noteStatus (s.td d) h) (addActual_retask (s.td d) h l p k s)).trans (noteStatus_retask _ _ _ _ _ _)

theorem retire_retask (h : Addr) (l : List Nat) (p : Bool) (k : Lock) (s : State) :
    retire h (s.retask l p k) = (retire h s).retask l p k :=
  (apply_ite (State.retask l p k)
    (s.field h offStatus = Cs.ok.code ∧ (s.field h offActualLength).toNat < (s.field h offLength).toNat)
    (callback h Cs.short.code (s.field h offActualLength) (s.setField h offStatus Cs.short.code))
    (callback h (s.field h offStatus) (s.field h offActualLength) s)).symm

theorem beforeFree_retask (d : Nat) (l : List Nat) (p : Bool) (k : Lock) (s : State) :
    beforeFree d (s.retask l p k) = (beforeFree d s).retask l p k := by
  have h1 := updateRequest_retask d (s.td d).request l p k s
  have h2 : otherTdOf ((updateRequest d (s.td d).request s).retask l p k) d (s.td d).request =
      otherTdOf (updateRequest d (s.td d).request s) d (s.td d).request := rfl
  unfold beforeFree
  show (if otherTdOf (updateRequest d (s.td d).request (s.retask l p k)) d (s.td d).request then
      updateRequest d (s.td d).request (s.retask l p k)
    else retire (s.td d).request (updateRequest d (s.td d).request (s.retask l p k))) = _
  rw [h1, h2, retire_retask]
  split <;> rfl

theorem tokenFreeOpt_retask (i : Option Nat) (l : List Nat) (p : Bool) (k : Lock) (s : State) :
    tokenFreeOpt i (s.retask l p k) = (tokenFreeOpt i s).retask l p k := by
  cases i with
  | none => rfl
  | some i =>
    exact (apply_ite (State.retask l p k) (s.cfg.maxTokens ≤ i ∨ (s.tok i).alloc = false) s.flagDoubleRelease
      ((s.modTok i (fun k => { k with alloc := false })).setKfree (i :: s.kfree))).symm

theorem tdFree_retask (i : Nat) (l : List Nat) (p : Bool) (k : Lock) (s : State) :
    tdFree i (s.retask l p k) = (tdFree i s).retask l p k :=
  (apply_ite (State.retask l p k) (s.cfg.maxTds ≤ i ∨ (s.td i).alloc = false) s.flagDoubleRelease
    ((s.modTd i (fun t => { t with alloc := false })).setTfree (i :: s.tfree))).symm

theorem drainOne_retask (d : Nat) (l : List Nat) (p : Bool) (k : Lock) (s : State) :
    drainOne d (s.retask l p k) = (drainOne d s).retask l p k := by
  rw [drainOne_eq, drainOne_eq, beforeFree_retask]
  generalize beforeFree d s = z
  unfold freeTd
  rw [← tdFree_retask]
  exact congrArg (fun u : State => tdFree d (u.modTd d (fun t => { t with token := none, place := .free })))
    (tokenFreeOpt_retask (z.td d).token l p k z)

theorem drainList_retask (ds l : List Nat) (p : Bool) (k : Lock) (s : State) (hne : ds ≠ []) :
    drainList ds (s.retask l p k) = (drainList ds s).retask [] p k := by
  induction ds generalizing l s with
  | nil => exact absurd rfl hne
  | cons d rest ih =>
    have h : drainOne d ((s.retask l p k).setDone rest) = (drainOne d (s.setDone rest)).retask rest p k :=
      drainOne_retask d rest p k (s.setDone rest)
    rw [drainList, drainList, h]
    by_cases hr : rest = []
    · subst hr; rfl
    · exact ih rest _ hr

/-! The callbacks. -/

/-- The request that a callback names (R114). -/
def callbackOf : Output → Option Word
  | .callback _ h _ => some h
  | .memWrite _ _ => none
  | .response _ => none
  | .ringSubmit _ _ => none

theorem Quiet.no_callback {s t : State} (h : Quiet s t) : ∃ os, t.out = s.out ++ os ∧ os.filterMap callbackOf = [] := by
  obtain ⟨os, h1, h2⟩ := h
  refine ⟨os, h1, List.filterMap_eq_nil_iff.2 (fun o ho => ?_)⟩
  cases o with
  | callback a b c => exact absurd ho (h2 a b c)
  | memWrite _ _ => rfl
  | response _ => rfl
  | ringSubmit _ _ => rfl

/-- A drained TD puts out one callback if it is the last of its request, and none otherwise (R264, R265). -/
theorem drainOne_callbackOf (d : Nat) (s : State) :
    ∃ os, (drainOne d s).out = s.out ++ os ∧ os.filterMap callbackOf =
      if otherTdOf s d (s.td d).request then [] else [BitVec.ofNat 32 (s.td d).request] := by
  rw [drainOne_eq, (freeTd_framed d _).out_eq (by decide)]
  obtain ⟨u, hu⟩ : ∃ u, u = updateRequest d (s.td d).request s := ⟨_, rfl⟩
  have hq := (updateRequest_quiet d (s.td d).request s).no_callback
  have hF := updateRequest_framed d (s.td d).request s
  rw [← hu] at hq hF
  obtain ⟨os, ho, hn⟩ := hq
  have hot : otherTdOf u d (s.td d).request = otherTdOf s d (s.td d).request := by
    simp only [otherTdOf, hF.tds_eq (by decide), td_congr (hF.tds_eq (by decide))]
  have hb : beforeFree d s = if otherTdOf s d (s.td d).request then u else retire (s.td d).request u := by
    rw [← hot, hu]; rfl
  rw [hb]
  split
  · exact ⟨os, ho, hn⟩
  · have last : ∀ (v : State) (os : List Output) (st n : Word), v.out = s.out ++ os → os.filterMap callbackOf = [] →
        ∃ os, (callback (s.td d).request st n v).out = s.out ++ os ∧
          os.filterMap callbackOf = [BitVec.ofNat 32 (s.td d).request] := by
      intro v os st n h1 h2
      refine ⟨os ++ [.callback (0xC00000#24 ++ st.extractLsb' 0 8) (BitVec.ofNat 32 (s.td d).request) n], ?_, ?_⟩
      · rw [← List.append_assoc, ← h1]; rfl
      · simp [h2, callbackOf]
    unfold retire
    simp only
    split
    · obtain ⟨os', ho', hn'⟩ := (setField_quiet (s.td d).request offStatus Cs.short.code u).no_callback
      exact last _ (os ++ os') _ _ (by rw [ho', ho, List.append_assoc]) (by rw [List.filterMap_append, hn, hn']; rfl)
    · exact last u os _ _ ho hn

/-- The TD at position `j` of the list is, when its turn comes, the last one of its request (R264). -/
def lastAt (ds : List Nat) (s : State) (j : Nat) : Bool :=
  decide (∀ i < s.tds.length, (s.td i).alloc = true → (s.td i).request = (s.td (ds.getD j 0)).request →
    i ∈ ds.take (j + 1))

theorem lastAt_zero (d : Nat) (rest : List Nat) (s : State) :
    lastAt (d :: rest) s 0 = !otherTdOf s d (s.td d).request := by
  rw [Bool.eq_iff_iff, Bool.not_eq_true', ← Bool.not_eq_true, otherTdOf_iff, lastAt, decide_eq_true_eq]
  simp only [List.getD_cons_zero, Nat.zero_add, List.take_succ_cons, List.take_zero, List.mem_singleton]
  constructor
  · rintro h ⟨i, h1, h2, h3, h4⟩
    exact h1 (h i h2 h3 h4)
  · intro h i h2 h3 h4
    by_contra h1
    exact h ⟨i, h1, h2, h3, h4⟩

theorem drainOne_tds_length (d : Nat) (s : State) : (drainOne d s).tds.length = s.tds.length := by
  rw [drainOne_eq, freeTd_tds_length, (beforeFree_framed d s).tds_eq (by decide)]

theorem lastAt_succ (d : Nat) (rest : List Nat) (s : State) (j : Nat) (hd : d < s.cfg.maxTds) :
    lastAt (d :: rest) s (j + 1) = lastAt rest (drainOne d (s.setDone rest)) j := by
  have hl : (drainOne d (s.setDone rest)).tds.length = s.tds.length := drainOne_tds_length d _
  have hr : ∀ i, ((drainOne d (s.setDone rest)).td i).request = (s.td i).request :=
    fun i => drainOne_td_request d i (s.setDone rest)
  have ho : ∀ i, i ≠ d → (drainOne d (s.setDone rest)).td i = s.td i :=
    fun i hi => drainOne_td_other d i (s.setDone rest) hi
  have hf : ((drainOne d (s.setDone rest)).td d).alloc = false := drainOne_td_alloc d (s.setDone rest) hd
  unfold lastAt
  apply decide_eq_decide.2
  simp only [hl, hr, List.getD_cons_succ, List.take_succ_cons, List.mem_cons]
  constructor
  · intro h i h1 h2 h3
    have hid : i ≠ d := by rintro rfl; rw [hf] at h2; exact Bool.noConfusion h2
    rw [ho i hid] at h2
    exact (h i h1 h2 h3).resolve_left hid
  · intro h i h1 h2 h3
    by_cases hid : i = d
    · exact .inl hid
    · exact .inr (h i h1 (by rw [ho i hid]; exact h2) h3)

/-- The callbacks of a drain, in order (R261, R267). -/
theorem drainList_callbackOf (ds : List Nat) (s : State) (hd : ∀ d ∈ ds, d < s.cfg.maxTds) :
    ∃ os, (drainList ds s).out = s.out ++ os ∧ os.filterMap callbackOf =
      ((List.range ds.length).filter (lastAt ds s)).map (fun j => BitVec.ofNat 32 (s.td (ds.getD j 0)).request) := by
  induction ds generalizing s with
  | nil => exact ⟨[], by simp [drainList], rfl⟩
  | cons d rest ih =>
    obtain ⟨os, h1, h2⟩ := drainOne_callbackOf d (s.setDone rest)
    obtain ⟨os', h3, h4⟩ := ih (drainOne d (s.setDone rest)) (fun i hi => by
      rw [(drainOne_framed d _).cfg_eq (by decide)]
      exact hd i (by simp [hi]))
    have ho : otherTdOf (s.setDone rest) d ((s.setDone rest).td d).request = otherTdOf s d (s.td d).request := rfl
    have hreq : ((s.setDone rest).td d).request = (s.td d).request := rfl
    have hrs : ∀ i, ((drainOne d (s.setDone rest)).td i).request = (s.td i).request :=
      fun i => drainOne_td_request d i (s.setDone rest)
    have hls : lastAt (d :: rest) s ∘ Nat.succ = lastAt rest (drainOne d (s.setDone rest)) := by
      funext j
      exact lastAt_succ d rest s j (hd d (by simp))
    refine ⟨os ++ os', by rw [drainList, h3, h1, List.append_assoc]; rfl, ?_⟩
    rw [List.filterMap_append, h2, h4, ho, hreq, List.length_cons, List.range_succ_eq_map, List.filter_cons,
      lastAt_zero, List.filter_map, hls]
    simp only [hrs]
    cases otherTdOf s d (s.td d).request <;> simp [Function.comp_def]

end Sys2Proof.Machine
end

