-- ==== Sys2Proof/Laws/Reaping.lean ====
section
/-! SUPPORT. Laws/Reaping.lean: what `reap()` does to every pipe that is dying (R161, R186), and that the exclusion
region plays no part in it (R300). -/

namespace Sys2Proof.Machine

/-! Which EDs are reaped. -/

theorem toReap_iff (s : State) (e : Nat) :
    s.toReap e = true ↔ (s.ed e).alloc = true ∧ (s.ed e).state = .pendingDelete ∧ headInFlight s e = false := by
  unfold State.toReap headInFlight
  cases (s.ed e).queue with
  | nil => simp
  | cons d ds => cases h : (s.td d).txn <;> simp [h]

/-- An ED that is not to be reaped is passed by (R186). -/
theorem reapOne_not (e : Nat) (s : State) (h : s.toReap e = false) : reapOne e s = s := by
  refine reapOne_nothing s e fun ha hp => ?_
  cases hf : headInFlight s e with
  | true => rfl
  | false =>
    rw [(toReap_iff s e).2 ⟨ha, hp, hf⟩] at h
    exact Bool.noConfusion h

/-- An ED that is to be reaped is (R186). -/
theorem reapOne_toReap (e : Nat) (s : State) (h : s.toReap e = true) :
    reapOne e s = removeEd e (terminateAll .cancelled false (s.ed e).queue s) := by
  obtain ⟨ha, hp, hf⟩ := (toReap_iff s e).1 h
  unfold reapOne
  rw [if_neg (by simp [ha, hp]), hf]
  rfl

theorem removeEd_eds_length (e : Nat) (s : State) : (removeEd e s).eds.length = s.eds.length := by
  unfold removeEd edFree
  split
  · rfl
  · exact List.length_modify ..

theorem reapOne_sizes (e : Nat) (s : State) (h : s.toReap e = true) :
    (reapOne e s).eds.length = s.eds.length ∧ (reapOne e s).tds.length = s.tds.length := by
  rw [reapOne_toReap e s h, removeEd_eds_length, (removeEd_framed e _).tds_eq (by decide)]
  exact ⟨terminateAll_eds_length .., terminateAll_tds_length ..⟩

theorem nothingToReap_iff (s : State) : s.nothingToReap ↔ ∀ e < s.cfg.maxEds, s.toReap e = false := by
  constructor
  · intro h e he
    by_contra hc
    obtain ⟨ha, hp, hf⟩ := (toReap_iff s e).1 (by simpa using hc)
    rw [h e he ha hp] at hf
    exact Bool.noConfusion hf
  · intro h e he ha hp
    by_contra hc
    have := h e he
    rw [(toReap_iff s e).2 ⟨ha, hp, by simpa using hc⟩] at this
    exact Bool.noConfusion this

/-- Whether an ED is to be reaped depends on the ED and on which TDs are mid-transaction. -/
theorem toReap_congr (s t : State) (e : Nat) (he : t.ed e = s.ed e) (ht : ∀ d, (t.td d).txn = (s.td d).txn) :
    t.toReap e = s.toReap e := by
  unfold State.toReap
  rw [he]
  cases (s.ed e).queue.head? with
  | none => rfl
  | some d => simp only [ht d]

/-- The reaping of one ED leaves every other as it was to be reaped. -/
theorem Reaped.txn_eq {e : Nat} {s t : State} (h : Reaped e s t) (hq : ∀ d ∈ (s.ed e).queue, d < s.tds.length)
    (d : Nat) : (t.td d).txn = (s.td d).txn := by
  by_cases hd : d ∈ (s.ed e).queue
  · rw [h.tdIn d hd (hq d hd)]
  · rw [h.tdOut d hd]

/-- The reaping of one ED leaves the TDs of the others alone (R29). -/
theorem Reaped.td_ed {e : Nat} {s t : State} (h : Reaped e s t) (hq : ∀ d ∈ (s.ed e).queue, d < s.tds.length)
    (d : Nat) : (t.td d).ed = (s.td d).ed := by
  by_cases hd : d ∈ (s.ed e).queue
  · rw [h.tdIn d hd (hq d hd)]
  · rw [h.tdOut d hd]

/-! The whole of `reap()`. -/

/-- What reaping the EDs `R` does (R186). -/
structure ReapedAll (R : List Nat) (s t : State) : Prop where
  edIn : ∀ e ∈ R, t.ed e = { s.ed e with alloc := false, queue := [], toggleCarry := (t.ed e).toggleCarry }
  edOut : ∀ e, e ∉ R → t.ed e = s.ed e
  efree : t.efree = R.reverse ++ s.efree
  cls : ∀ m, t.cls.get m = (s.cls.get m).filter (fun e => !(decide (e ∈ R) && decide ((s.ed e).mode = m)))
  done : t.done = s.done ++ R.flatMap (fun e => (s.ed e).queue)
  drainp : t.drainp = (s.drainp || decide (R.flatMap (fun e => (s.ed e).queue) ≠ []))
  tdIn : ∀ e ∈ R, ∀ d ∈ (s.ed e).queue, t.td d = { s.td d with status := .cancelled, place := .done }
  tdOut : ∀ d, (∀ e ∈ R, d ∉ (s.ed e).queue) → t.td d = s.td d
  frame : Framed [.eds, .efree, .cls, .tds, .done, .drainp] s t

theorem reapList_reaped (l : List Nat) (s : State) (hn : l.Nodup)
    (hl : ∀ e ∈ l, e < s.cfg.maxEds ∧ e < s.eds.length)
    (hq : ∀ e ∈ l, s.toReap e = true → ∀ d ∈ (s.ed e).queue, (s.td d).ed = some e ∧ d < s.tds.length)
    (hc : ∀ m, (s.cls.get m).Nodup) : ReapedAll (l.filter s.toReap) s (reapList l s) := by
  induction l generalizing s with
  | nil =>
    exact ⟨by simp, fun _ _ => rfl, rfl, fun m => by simp [reapList], by simp [reapList], by simp [reapList], by simp,
      fun _ _ => rfl, Framed.refl _ _⟩
  | cons e rest ih =>
    rw [List.nodup_cons] at hn
    cases hr : s.toReap e with
    | false =>
      rw [reapList, reapOne_not e s hr, List.filter_cons_of_neg (by simp [hr])]
      exact ih s hn.2 (fun i hi => hl i (by simp [hi])) (fun i hi => hq i (by simp [hi])) hc
    | true =>
      obtain ⟨ha, hp, hf⟩ := (toReap_iff s e).1 hr
      obtain ⟨he, hel⟩ := hl e (by simp)
      have hqe := hq e (by simp) hr
      have h1 := reapOne_dying e s hel he ha hp hf (fun d hd => (hqe d hd).1)
      obtain ⟨heds, htds⟩ := reapOne_sizes e s hr
      obtain ⟨u, hu⟩ : ∃ u, u = reapOne e s := ⟨_, rfl⟩
      rw [← hu] at h1 heds htds
      have htx := h1.txn_eq (fun d hd => (hqe d hd).2)
      have hte := h1.td_ed (fun d hd => (hqe d hd).2)
      have htr : ∀ i, i ≠ e → u.toReap i = s.toReap i := fun i hi => toReap_congr s u i (h1.edOther i hi) htx
      have hne : ∀ i ∈ rest, i ≠ e := fun i hi hie => hn.1 (hie ▸ hi)
      have hfil : rest.filter u.toReap = rest.filter s.toReap := List.filter_congr (fun i hi => htr i (hne i hi))
      have hcfg := h1.frame.cfg_eq (by decide)
      have hcls : ∀ m, u.cls.get m = if m = (s.ed e).mode then (s.cls.get m).erase e else s.cls.get m := by
        intro m
        rw [h1.cls, Classes.get_set]
        split
        · rename_i h; rw [h]
        · rfl
      have h2 := ih u hn.2 (fun i hi => by rw [hcfg, heds]; exact hl i (by simp [hi]))
        (fun i hi hri d hd => by
          rw [h1.edOther i (hne i hi)] at hd
          rw [hte, htds]
          exact hq i (by simp [hi]) (by rw [← htr i (hne i hi)]; exact hri) d hd)
        (fun m => by rw [hcls]; split; exact (hc m).erase e; exact hc m)
      rw [hfil] at h2
      rw [reapList, ← hu, List.filter_cons_of_pos hr]
      obtain ⟨R, hR⟩ : ∃ R, R = rest.filter s.toReap := ⟨_, rfl⟩
      rw [← hR] at h2 ⊢
      have hRe : e ∉ R := fun h => hn.1 (List.mem_of_mem_filter (hR ▸ h))
      have hqo : ∀ i ∈ R, (u.ed i).queue = (s.ed i).queue := fun i hi => by
        rw [h1.edOther i (fun h => hRe (h ▸ hi))]
      have hfm : R.flatMap (fun e => (u.ed e).queue) = R.flatMap (fun e => (s.ed e).queue) :=
        List.flatMap_congr (fun i hi => hqo i hi)
      have hqR : ∀ i ∈ R, ∀ d ∈ (s.ed i).queue, (s.td d).ed = some i := fun i hi d hd => by
        rw [hR, List.mem_filter] at hi
        exact (hq i (by simp [hi.1]) hi.2 d hd).1
      have hdis : ∀ i ∈ R, ∀ d ∈ (s.ed i).queue, d ∉ (s.ed e).queue := by
        intro i hi d hd hde
        have := (hqR i hi d hd).symm.trans (hqe d hde).1
        exact hRe (Option.some.inj this ▸ hi)
      refine ⟨?_, ?_, ?_, ?_, ?_, ?_, ?_, ?_, (h1.frame.trans h2.frame).mono (by decide)⟩
      · intro i hi
        rcases List.mem_cons.1 hi with rfl | hi
        · rw [h2.edOut i hRe]
          exact h1.ed
        · rw [h2.edIn i hi, h1.edOther i (fun h => hRe (h ▸ hi))]
      · intro i hi
        simp only [List.mem_cons, not_or] at hi
        rw [h2.edOut i hi.2, h1.edOther i hi.1]
      · rw [h2.efree, h1.efree]
        simp
      · intro m
        rw [h2.cls, hcls]
        have hm : ∀ i, i ≠ e → (u.ed i).mode = (s.ed i).mode := fun i hi => by rw [h1.edOther i hi]
        by_cases hme : m = (s.ed e).mode
        · rw [if_pos hme, (hc m).erase_eq_filter, List.filter_filter]
          refine List.filter_congr fun i _ => ?_
          by_cases hi : i = e
          · subst hi; simp [hme]
          · simp [hi, hm i hi]
        · rw [if_neg hme]
          refine List.filter_congr fun i _ => ?_
          by_cases hi : i = e
          · subst hi; simp [hRe, Ne.symm hme]
          · simp [hi, hm i hi]
      · rw [h2.done, h1.done, hfm]
        simp
      · rw [h2.drainp, hfm]
        rw [h1.drainp]
        cases hqz : (s.ed e).queue <;> simp [hqz]
      · intro i hi d hd
        rcases List.mem_cons.1 hi with rfl | hi
        · rw [h2.tdOut d (fun j hj hdj => hdis j hj d (by rw [← hqo j hj]; exact hdj) hd), h1.tdIn d hd (hqe d hd).2]
        · rw [h2.tdIn i hi d (by rw [hqo i hi]; exact hd), h1.tdOut d]
          exact hdis i hi d hd
      · intro d hd
        rw [h2.tdOut d (fun i hi => by rw [hqo i hi]; exact hd i (by simp [hi])), h1.tdOut d (hd e (by simp))]

/-- `reap()`, of EDs whose TDs are their own, as one change (R186). -/
theorem reap_reaped (s : State) (hs : s.sized)
    (hq : ∀ e < s.cfg.maxEds, s.toReap e = true → ∀ d ∈ (s.ed e).queue, (s.td d).ed = some e ∧ d < s.cfg.maxTds)
    (hc : ∀ m, (s.cls.get m).Nodup) : ReapedAll ((List.range s.cfg.maxEds).filter s.toReap) s (reap s) := by
  refine reapList_reaped _ s List.nodup_range (fun e he => ?_) (fun e he hr d hd => ?_) hc
  · have := List.mem_range.1 he
    exact ⟨this, by rw [hs.1]; exact this⟩
  · rw [hs.2.1]
    exact hq e (List.mem_range.1 he) hr d hd

/-- `reap()` leaves nothing to reap (R186). -/
theorem reap_nothingLeft (s : State) (hs : s.sized)
    (hq : ∀ e < s.cfg.maxEds, s.toReap e = true → ∀ d ∈ (s.ed e).queue, (s.td d).ed = some e ∧ d < s.cfg.maxTds)
    (hc : ∀ m, (s.cls.get m).Nodup) : (reap s).nothingToReap := by
  have h := reap_reaped s hs hq hc
  rw [nothingToReap_iff]
  intro e he
  rw [h.frame.cfg_eq (by decide)] at he
  by_cases hr : s.toReap e = true
  · have hm : e ∈ (List.range s.cfg.maxEds).filter s.toReap := List.mem_filter.2 ⟨List.mem_range.2 he, hr⟩
    have := h.edIn e hm
    unfold State.toReap
    rw [this]
    rfl
  · have hm : e ∉ (List.range s.cfg.maxEds).filter s.toReap := fun hc => hr (List.mem_filter.1 hc).2
    rw [toReap_congr s (reap s) e (h.edOut e hm) (fun d => ?_)]
    · simpa using hr
    · by_cases hd : ∃ i ∈ (List.range s.cfg.maxEds).filter s.toReap, d ∈ (s.ed i).queue
      · obtain ⟨i, hi, hdi⟩ := hd
        rw [h.tdIn i hi d hdi]
      · rw [h.tdOut d (fun i hi hdi => hd ⟨i, hi, hdi⟩)]

/-! The exclusion region plays no part in `reap()`. -/

theorem terminateAll_setLock (st : Ts) (halt : Bool) (ds : List Nat) (l : Lock) (s : State) :
    terminateAll st halt ds (s.setLock l) = (terminateAll st halt ds s).setLock l := by
  induction ds generalizing s with
  | nil => rfl
  | cons d rest ih => rw [terminateAll, terminateAll, terminate_setLock, ih]

theorem edFree_setLock (i : Nat) (l : Lock) (s : State) : edFree i (s.setLock l) = (edFree i s).setLock l := by
  by_cases h : s.cfg.maxEds ≤ i ∨ (s.ed i).alloc = false
  · simp only [edFree]
    rw [if_pos h, if_pos (show (s.setLock l).cfg.maxEds ≤ i ∨ ((s.setLock l).ed i).alloc = false from h)]
    rfl
  · simp only [edFree]
    rw [if_neg h, if_neg (show ¬ ((s.setLock l).cfg.maxEds ≤ i ∨ ((s.setLock l).ed i).alloc = false) from h)]
    rfl

theorem removeEd_setLock (e : Nat) (l : Lock) (s : State) : removeEd e (s.setLock l) = (removeEd e s).setLock l := by
  unfold removeEd
  rw [← edFree_setLock]
  rfl

theorem toReap_setLock (e : Nat) (l : Lock) (s : State) : (s.setLock l).toReap e = s.toReap e := rfl

theorem reapOne_setLock (e : Nat) (l : Lock) (s : State) : reapOne e (s.setLock l) = (reapOne e s).setLock l := by
  cases hr : s.toReap e with
  | false => rw [reapOne_not e s hr, reapOne_not e (s.setLock l) hr]
  | true =>
    rw [reapOne_toReap e s hr, reapOne_toReap e (s.setLock l) hr, ← removeEd_setLock, ← terminateAll_setLock]
    rfl

theorem reapList_setLock (es : List Nat) (l : Lock) (s : State) :
    reapList es (s.setLock l) = (reapList es s).setLock l := by
  induction es generalizing s with
  | nil => rfl
  | cons e rest ih => rw [reapList, reapList, reapOne_setLock, ih]

theorem reap_setLock (l : Lock) (s : State) : reap (s.setLock l) = (reap s).setLock l := reapList_setLock _ l s

end Sys2Proof.Machine
end

