-- ==== Sys2Proof/Laws/Submit.lean ====
section
/-! SUPPORT. Laws/Submit.lean: what making and linking the TDs of a request does (R170, R176, R178), and the
creation of an ED (R172). -/

namespace Sys2Proof.Machine

/-- The TD that SUBMIT makes of a part of a request (R176), its entry's free fields overwritten. -/
def madeTd (e k : Nat) (h : Addr) (frnum : BitVec 16) (sp : TdSpec) (last : Bool) : Td where
  alloc := true
  place := .queued
  request := h
  ed := some e
  dir := sp.dir
  data := sp.data
  length := sp.length
  transferred := 0
  toggle := sp.toggle
  errorCount := 0
  nakCount := 0
  startFrame := sp.startFrame.getD frnum
  interval := sp.interval
  status := .ok
  ioc := last
  zlpPending := sp.zlpPending
  token := some k
  txn := none

/-- The Token that SUBMIT makes for a TD (R176). -/
def madeTok (x : Ed) (d : Nat) (sp : TdSpec) : Tok where
  alloc := true
  bytes := tokenBytes sp.dir x.devAddr x.epNum
  td := some d

/-- `make_td` with a TD and a Token free (R176), as one state. -/
theorem makeTd_eq (e : Nat) (h : Addr) (sp : TdSpec) (last : Bool) (s : State) (d k : Nat) (ds ks : List Nat)
    (hd : s.tfree = d :: ds) (hk : s.kfree = k :: ks) :
    makeTd e h sp last s =
      { s with
        tfree := ds
        kfree := ks
        tds := s.tds.modify d (fun _ => madeTd e k h s.frnum sp last)
        toks := s.toks.modify k (fun _ => madeTok (s.ed e) d sp)
        eds := s.eds.modify e (fun x => { x with queue := x.queue ++ [d] }) } := by
  have h1 : tdAlloc s = (some d, (s.setTfree ds).modTd d (fun t => { t with alloc := true })) := by
    simp only [tdAlloc, hd]
  have h2 : tokenAlloc ((s.setTfree ds).modTd d (fun t => { t with alloc := true })) =
      (some k, ((s.setTfree ds).modTd d (fun t => { t with alloc := true })).setKfree ks |>.modTok k
        (fun x => { x with alloc := true })) := by
    simp only [tokenAlloc, State.modTd_kfree, State.setTfree_kfree, hk]
  simp only [makeTd, h1, h2]
  simp only [State.modTd, State.modTok, State.modEd, State.setTds, State.setToks, State.setEds, State.setTfree,
    State.setKfree, List.modify_modify_eq]
  rfl

/-- What linking the TDs of a request does (R170, R176, R178), with the TDs and Tokens it needs free. -/
structure Linked (e : Nat) (h : Addr) (specs : List TdSpec) (s t : State) : Prop where
  tfree : t.tfree = s.tfree.drop specs.length
  kfree : t.kfree = s.kfree.drop specs.length
  ed : t.ed e = { s.ed e with queue := (s.ed e).queue ++ s.tfree.take specs.length }
  otherEd : ∀ i, i ≠ e → t.ed i = s.ed i
  made : ∀ (j : Nat) (sp : TdSpec) (d k : Nat), specs[j]? = some sp → s.tfree[j]? = some d → s.kfree[j]? = some k →
    t.td d = madeTd e k h s.frnum sp (decide (j + 1 = specs.length)) ∧ t.tok k = madeTok (s.ed e) d sp
  otherTd : ∀ d, d ∉ s.tfree.take specs.length → t.td d = s.td d
  otherTok : ∀ k, k ∉ s.kfree.take specs.length → t.tok k = s.tok k
  frame : Framed [.tfree, .tds, .kfree, .toks, .eds] s t

theorem linkTds_linked (e : Nat) (h : Addr) (specs : List TdSpec) (s : State) (he : e < s.eds.length)
    (ht : s.tfree.Nodup) (htl : ∀ d ∈ s.tfree, d < s.tds.length) (hk : s.kfree.Nodup)
    (hkl : ∀ k ∈ s.kfree, k < s.toks.length) (hnt : specs.length ≤ s.tfree.length)
    (hnk : specs.length ≤ s.kfree.length) : Linked e h specs s (linkTds e h specs s) := by
  induction specs generalizing s with
  | nil =>
    exact ⟨rfl, rfl, by simp [linkTds], fun _ _ => rfl, fun j sp d k hj => by simp at hj, fun _ _ => rfl,
      fun _ _ => rfl, Framed.refl _ _⟩
  | cons sp rest ih =>
    obtain ⟨d, ds, hd⟩ : ∃ d ds, s.tfree = d :: ds := List.exists_cons_of_length_pos (by simp at hnt; omega)
    obtain ⟨k, ks, hkk⟩ : ∃ k ks, s.kfree = k :: ks := List.exists_cons_of_length_pos (by simp at hnk; omega)
    rw [hd] at ht htl hnt
    rw [hkk] at hk hkl hnk
    simp only [List.nodup_cons] at ht hk
    simp only [List.length_cons, Nat.add_le_add_iff_right] at hnt hnk
    have hm := makeTd_eq e h sp rest.isEmpty s d k ds ks hd hkk
    set u := makeTd e h sp rest.isEmpty s with hu
    have hut : u.tfree = ds := by rw [hm]
    have huk : u.kfree = ks := by rw [hm]
    have huf : u.frnum = s.frnum := by rw [hm]
    have hue : u.ed e = { s.ed e with queue := (s.ed e).queue ++ [d] } := by
      rw [show u.ed e = (s.modEd e (fun x => { x with queue := x.queue ++ [d] })).ed e by rw [hm]; rfl,
        modEd_ed_self e _ s he]
    have hueo : ∀ i, i ≠ e → u.ed i = s.ed i := by
      intro i hi
      rw [show u.ed i = (s.modEd e (fun x => { x with queue := x.queue ++ [d] })).ed i by rw [hm]; rfl,
        modEd_ed_other e i _ s (Ne.symm hi)]
    have hutd : u.td d = madeTd e k h s.frnum sp rest.isEmpty := by
      rw [show u.td d = (s.modTd d (fun _ => madeTd e k h s.frnum sp rest.isEmpty)).td d by rw [hm]; rfl,
        modTd_td_self d _ s (htl d (by simp))]
    have hutdo : ∀ i, i ≠ d → u.td i = s.td i := by
      intro i hi
      rw [show u.td i = (s.modTd d (fun _ => madeTd e k h s.frnum sp rest.isEmpty)).td i by rw [hm]; rfl,
        modTd_td_other d i _ s (Ne.symm hi)]
    have hutk : u.tok k = madeTok (s.ed e) d sp := by
      rw [show u.tok k = (s.modTok k (fun _ => madeTok (s.ed e) d sp)).tok k by rw [hm]; rfl,
        modTok_tok_self k _ s (hkl k (by simp))]
    have hutko : ∀ i, i ≠ k → u.tok i = s.tok i := by
      intro i hi
      rw [show u.tok i = (s.modTok k (fun _ => madeTok (s.ed e) d sp)).tok i by rw [hm]; rfl,
        modTok_tok_other k i _ s (Ne.symm hi)]
    have hr := ih u (by rw [hm]; simpa using he) (by rw [hut]; exact ht.2)
      (by rw [hut, hm]; intro x hx; simpa using htl x (by simp [hx])) (by rw [huk]; exact hk.2)
      (by rw [huk, hm]; intro x hx; simpa using hkl x (by simp [hx])) (by rw [hut]; exact hnt)
      (by rw [huk]; exact hnk)
    have hfr : Framed [.tfree, .tds, .kfree, .toks, .eds] s u := by
      rw [hm]
      intro f hf
      cases f <;> first | rfl | simp at hf
    rw [linkTds, ← hu]
    refine ⟨?_, ?_, ?_, ?_, ?_, ?_, ?_, hfr.trans hr.frame⟩
    · rw [hr.tfree, hut, hd]; rfl
    · rw [hr.kfree, huk, hkk]; rfl
    · rw [hr.ed, hue, hut, hd]; simp
    · intro i hi; rw [hr.otherEd i hi, hueo i hi]
    · intro j sp' d' k' h1 h2 h3
      rw [hd] at h2
      rw [hkk] at h3
      cases j with
      | zero =>
        simp only [List.getElem?_cons_zero, Option.some.injEq] at h1 h2 h3
        subst h1 h2 h3
        rw [hr.otherTd d (fun hc => ht.1 (by rw [hut] at hc; exact List.mem_of_mem_take hc)), hutd,
          hr.otherTok k (fun hc => hk.1 (by rw [huk] at hc; exact List.mem_of_mem_take hc)), hutk]
        refine ⟨?_, rfl⟩
        congr 1
        cases rest <;> simp
      | succ j =>
        simp only [List.getElem?_cons_succ] at h1 h2 h3
        obtain ⟨g1, g2⟩ := hr.made j sp' d' k' h1 (by rw [hut]; exact h2) (by rw [huk]; exact h3)
        rw [g1, g2, huf, hue]
        refine ⟨?_, rfl⟩
        congr 1
        simp
    · intro i hi
      rw [hd] at hi
      simp only [List.length_cons, List.take_succ_cons, List.mem_cons, not_or] at hi
      rw [hr.otherTd i (by rw [hut]; exact hi.2), hutdo i hi.1]
    · intro i hi
      rw [hkk] at hi
      simp only [List.length_cons, List.take_succ_cons, List.mem_cons, not_or] at hi
      rw [hr.otherTok i (by rw [huk]; exact hi.2), hutko i hi.1]

/-- `td_specs` makes `td_count` TDs (R173). -/
theorem specs_len (s : State) (pipe : Pipe) (h : Addr) : (tdSpecs s pipe h).length = tdCount s pipe.mode h := by
  unfold tdSpecs
  obtain ⟨m, a, b⟩ := pipe
  cases m
  · simp
  · simp
  · simp only [controlSpecs, tdCount]
    by_cases hl : s.field h offLength = 0#32 <;> simp [hl]
  · simp

/-- When SUBMIT is accepted (R170, R171, R180). -/
theorem verdict_accept (s : State) (eid h e) (hv : submitValid s eid h = true) (hl : lookup s (pipeKey eid) = e)
   (hna : notAccepting s e = false) (hf : (s.field (s.handle h) 0x08).extractLsb' 2 30 = 0#30)
   (hn : tdCount s (pipeOf s eid e).mode (s.handle h) ≠ 0)
   (ht : tdCount s (pipeOf s eid e).mode (s.handle h) ≤ s.tfree.length)
   (hk : tdCount s (pipeOf s eid e).mode (s.handle h) ≤ s.kfree.length) (he : e = none → s.efree ≠ []) :
   submitVerdict s eid h = .accept e := by
  have hf' : flagsReservedZero (s.field (s.handle h) offFlags) = true := by
    simp only [flagsReservedZero]; rw [show offFlags = 8 from rfl, hf]; rfl
  have hps : poolsShort s e (tdCount s (pipeOf s eid e).mode (s.handle h)) = false := by
    cases e with
    | none => simp [poolsShort, ht, hk, he rfl]
    | some e => simp [poolsShort, ht, hk]
  simp [submitVerdict, hv, hl, hna, hf', hn, hps]

end Sys2Proof.Machine
end

