-- ==== Sys2Proof/Laws/Pairing.lean ====
section
/-! SUPPORT. Laws/Pairing.lean: how TDs, Transaction records, Packets, dummy buffers and Tokens stay paired (R29, R35,
R39, R44, R45, R52, R53, R65): one lemma for each kind of change that the operations make. -/

namespace Sys2Proof.Machine

/-! What the pairing reads of a TD and of a live record. -/

/-- The fields of a TD that the pairing reads. -/
def Td.links (t : Td) : Bool × Place × Option Nat × Bool × Option Nat × Option Nat :=
  (t.alloc, t.place, t.ed, decide (t.toggle = .carry), t.token, t.txn)

/-- The fields of a Transaction record that the pairing reads, its phase apart. -/
def Txn.links (t : Txn) : Option Nat × Option Nat × Option Nat × Option Nat × BitVec 11 :=
  (t.td, t.pkt, t.token, t.dummy, t.len)

/-! A change that the pairing does not see. -/

/-- The two states pair alike: what `Paired` reads is the same, but for a live record's step into `DATA_WAIT` and for
EDs, with empty queues, that are taken or freed. -/
structure SamePairs (s t : State) : Prop where
  td : ∀ i, (t.td i).links = (s.td i).links
  tok : ∀ k, t.tok k = s.tok k
  live : ∀ x, (t.txn x).alloc = (s.txn x).alloc
  txn : ∀ x, (s.txn x).alloc = true → (t.txn x).links = (s.txn x).links ∧
    ((t.txn x).phase = (s.txn x).phase ∨ (t.txn x).phase = .dataWait)
  out : ∀ p, (t.pkt p).out = (s.pkt p).out
  dfree : ∀ u, u ∈ t.dfree ↔ u ∈ s.dfree
  active : t.frame.active = s.frame.active
  done : t.done = s.done
  queue : ∀ e, (t.ed e).queue = (s.ed e).queue
  queueFree : (∀ e, (s.ed e).alloc = false → (s.ed e).queue = []) → ∀ e, (t.ed e).alloc = false → (t.ed e).queue = []
  cfg : t.cfg = s.cfg
  diag : s.diag.doubleRelease = false → t.diag.doubleRelease = false

theorem SamePairs.refl (s : State) : SamePairs s s :=
  ⟨fun _ => rfl, fun _ => rfl, fun _ => rfl, fun _ _ => ⟨rfl, .inl rfl⟩, fun _ => rfl, fun _ => Iff.rfl, rfl, rfl,
    fun _ => rfl, id, rfl, id⟩

theorem SamePairs.trans {s t u : State} (h : SamePairs s t) (k : SamePairs t u) : SamePairs s u :=
  ⟨fun i => (k.td i).trans (h.td i), fun i => (k.tok i).trans (h.tok i), fun i => (k.live i).trans (h.live i),
    fun x hx => by
      have a := h.txn x hx
      have b := k.txn x ((h.live x).trans hx)
      refine ⟨b.1.trans a.1, ?_⟩
      rcases b.2 with b | b
      · rw [b]; exact a.2
      · exact .inr b,
    fun i => (k.out i).trans (h.out i), fun i => (k.dfree i).trans (h.dfree i), k.active.trans h.active,
    k.done.trans h.done, fun i => (k.queue i).trans (h.queue i), fun hq => k.queueFree (h.queueFree hq),
    k.cfg.trans h.cfg, fun hd => k.diag (h.diag hd)⟩

/-- The fields that `Paired` reads. -/
abbrev pairFields : List Field := [.cfg, .eds, .tds, .toks, .txns, .pkts, .dfree, .frame, .done, .diag]

/-- A change of fields that `Paired` does not read. -/
theorem SamePairs.of_framed {c : List Field} {s t : State} (h : Framed c s t) (hc : ∀ f ∈ pairFields, f ∉ c) :
    SamePairs s t := by
  have he := h.eds_eq (hc _ (by simp))
  have hx := h.txns_eq (hc _ (by simp))
  refine ⟨fun i => ?_, fun i => ?_, fun i => ?_, fun i _ => ?_, fun i => ?_, fun i => ?_, ?_, ?_, fun i => ?_,
    fun hq i => ?_, h.cfg_eq (hc _ (by simp)), ?_⟩
  · rw [td_congr (h.tds_eq (hc _ (by simp)))]
  · rw [tok_congr (h.toks_eq (hc _ (by simp)))]
  · rw [txn_congr hx]
  · rw [txn_congr hx]; exact ⟨rfl, .inl rfl⟩
  · rw [pkt_congr (h.pkts_eq (hc _ (by simp)))]
  · rw [h.dfree_eq (hc _ (by simp))]
  · rw [h.frame_eq (hc _ (by simp))]
  · rw [h.done_eq (hc _ (by simp))]
  · rw [ed_congr he]
  · rw [ed_congr he]; exact hq i
  · rw [h.diag_eq (hc _ (by simp))]; exact id

theorem State.Paired.congr {s t : State} (h : SamePairs s t) (hp : s.Paired) : t.Paired := by
  have hl : ∀ i, (t.td i).alloc = (s.td i).alloc ∧ (t.td i).place = (s.td i).place ∧ (t.td i).ed = (s.td i).ed ∧
      ((t.td i).toggle = .carry ↔ (s.td i).toggle = .carry) ∧ (t.td i).token = (s.td i).token ∧
      (t.td i).txn = (s.td i).txn := by
    intro i
    have := h.td i
    simpa [Td.links] using this
  have hx : ∀ x, (s.txn x).alloc = true → (t.txn x).td = (s.txn x).td ∧ (t.txn x).pkt = (s.txn x).pkt ∧
      (t.txn x).token = (s.txn x).token ∧ (t.txn x).dummy = (s.txn x).dummy ∧ (t.txn x).len = (s.txn x).len := by
    intro x hx
    have := (h.txn x hx).1
    simpa [Txn.links] using this
  have hli := h.live
  refine ⟨⟨?_, ?_, ?_, ?_, ?_, ?_, ?_, ?_, ?_, ?_, ?_, ?_⟩, ⟨?_, ?_, ?_, ?_, ?_, ?_, ?_, ?_, ?_, ?_⟩, ⟨?_, ?_, ?_⟩,
    h.diag hp.released⟩
  · intro d; rw [(hl d).1, (hl d).2.1]; exact hp.places.free d
  · intro d; rw [(hl d).2.1]; simp only [h.queue]; exact hp.places.queued d
  · intro e d; rw [h.queue, (hl d).2.2.1]; exact hp.places.queueEd e d
  · intro e; rw [h.queue]; exact hp.places.queueNodup e
  · exact h.queueFree hp.places.queueFree
  · intro d; rw [(hl d).2.1, h.active]; exact hp.places.active d
  · rw [h.active]; exact hp.places.activeNodup
  · intro d; rw [(hl d).2.1, (hl d).2.2.2.2.2]; exact hp.places.activeTxn d
  · intro e d; rw [h.queue, (hl d).2.1]; exact hp.places.activeHead e d
  · intro d; rw [(hl d).2.1, ne_eq, (hl d).2.2.2.1]; exact hp.places.activeToggle d
  · intro d; rw [(hl d).2.1, h.done]; exact hp.places.done d
  · rw [h.done]; exact hp.places.doneNodup
  · intro x hx'
    have ha := (hli x).symm.trans hx'
    rcases (h.txn x ha).2 with h' | h'
    · rw [h']; exact hp.records.phase x ha
    · exact .inr h'
  · intro x hx'; rw [(hx x ((hli x).symm.trans hx')).1]; exact hp.records.td x ((hli x).symm.trans hx')
  · have a := hp.records.link
    intro d x; rw [(hl d).2.2.2.2.2, hli, a d x]
    constructor
    · intro hc; rw [(hx x hc.1).1]; exact hc
    · intro hc; rw [(hx x hc.1).1] at hc; exact hc
  · have a := hp.records.token
    intro x d h1 h2
    have ha := (hli x).symm.trans h1
    rw [(hx x ha).2.2.1, (hl d).2.2.2.2.1]
    exact a x d ha ((hx x ha).1.symm.trans h2)
  · intro x hx'; rw [(hx x ((hli x).symm.trans hx')).2.1]; exact hp.records.pkt x ((hli x).symm.trans hx')
  · have a := hp.records.pktOut; have b := h.out; clear hl; grind
  · have a := hp.records.pktOne; clear hl; grind
  · have a := hp.records.dummy; have b := h.dfree; rw [h.cfg]; clear hl; grind
  · intro x hx'
    have ha := (hli x).symm.trans hx'
    rw [(hx x ha).2.2.2.1, (hx x ha).2.2.2.2]
    exact hp.records.zeroLength x ha
  · have a := hp.records.dummyOne; clear hl; grind
  · intro d; rw [(hl d).1, (hl d).2.2.2.2.1]; exact hp.tokens.has d
  · intro d k; rw [(hl d).2.2.2.2.1, h.tok]; exact hp.tokens.link d k
  · intro k; rw [h.tok]; simp only [(hl _).1]; exact hp.tokens.td k

/-! The end of a transaction (R215). -/

/-- The transaction of record `x`, Packet `p` and TD `d` has ended. -/
structure EndedAt (x p d : Nat) (s t : State) : Prop where
  alloc : ∀ i, (t.td i).alloc = (s.td i).alloc
  place : ∀ i, (t.td i).place = if i = d then .queued else (s.td i).place
  edOf : ∀ i, (t.td i).ed = (s.td i).ed
  toggle : ∀ i, i = d ∨ (t.td i).toggle = (s.td i).toggle
  tokOf : ∀ i, (t.td i).token = (s.td i).token
  txnOf : ∀ i, (t.td i).txn = if i = d then none else (s.td i).txn
  live : ∀ i, (t.txn i).alloc = if i = x then false else (s.txn i).alloc
  recs : ∀ i, i ≠ x → t.txn i = s.txn i
  out : ∀ i, (t.pkt i).out = if i = p then false else (s.pkt i).out
  dfree : t.dfree = (s.txn x).dummy.toList ++ s.dfree
  active : t.frame.active = s.frame.active.erase d
  queue : ∀ e, (t.ed e).queue = (s.ed e).queue
  edAlloc : ∀ e, (t.ed e).alloc = (s.ed e).alloc
  tok : ∀ k, t.tok k = s.tok k
  done : t.done = s.done
  diag : t.diag.doubleRelease = s.diag.doubleRelease
  cfg : t.cfg = s.cfg

theorem State.Paired.ended {x p d : Nat} {s t : State} (hl : (s.txn x).alloc = true) (hd : (s.txn x).td = some d)
    (hpk : (s.txn x).pkt = some p) (h : EndedAt x p d s t) (hs : s.Paired) : t.Paired := by
  obtain ⟨hp, hr, hk, hg⟩ := hs
  have hx : (s.td d).txn = some x := (hr.link d x).2 ⟨hl, hd⟩
  have hact : (s.td d).place = .active := (hp.activeTxn d).2 (by simp [hx])
  refine ⟨?_, ?_, ?_, h.diag.trans hg⟩
  · have hm : ∀ i, i ∈ t.frame.active ↔ i ≠ d ∧ i ∈ s.frame.active := fun i => by
      rw [h.active]; exact hp.activeNodup.mem_erase_iff
    have hpl := h.place
    have hq := h.queue
    clear hr hk
    refine ⟨?_, ?_, ?_, ?_, ?_, ?_, ?_, ?_, ?_, ?_, ?_, ?_⟩
    · have a := hp.free; have b := h.alloc; clear hm; grind
    · intro i; rw [hpl]; simp only [hq]; rw [← hp.queued i]; clear hm; grind
    · have a := hp.queueEd; have b := h.edOf; clear hm; grind
    · have a := hp.queueNodup; clear hm hpl; grind
    · have a := hp.queueFree; have b := h.edAlloc; clear hm hpl; grind
    · have a := hp.active; grind
    · rw [h.active]; exact hp.activeNodup.erase d
    · have a := hp.activeTxn; have b := h.txnOf; clear hm; grind
    · have a := hp.activeHead; clear hm; grind
    · have a := hp.activeToggle; have b := h.toggle; clear hm; grind
    · have a := hp.done; rw [h.done]; clear hm; grind
    · rw [h.done]; exact hp.doneNodup
  · have hli := h.live
    have hrc := h.recs
    refine ⟨?_, ?_, ?_, ?_, ?_, ?_, ?_, ?_, ?_, ?_⟩
    · have a := hr.phase; grind
    · have a := hr.td; grind
    · intro i y
      rw [h.txnOf, hli]
      have a := hr.link i y
      have b := hrc y
      clear hk hp
      grind
    · have a := hr.token; have b := h.tokOf; grind
    · have a := hr.pkt; grind
    · have a := hr.pktOut; have b := h.out; have c := hr.pktOne; grind
    · have a := hr.pktOne; grind
    · have a := hr.dummy; have c := hr.dummyOne; rw [h.cfg, h.dfree]
      intro u
      simp only [List.mem_append, Option.mem_toList]
      grind
    · have a := hr.zeroLength; grind
    · have a := hr.dummyOne; grind
  · have a1 := h.alloc
    have a2 := h.tokOf
    have a3 := h.tok
    obtain ⟨p1, p2, p3⟩ := hk
    refine ⟨?_, ?_, ?_⟩ <;> simp only [a1, a2, a3] <;> assumption

/-! A TD becomes terminal (R226). -/

/-- Queued TD `d` of ED `e` has moved to the end of the done list. -/
structure FinishedAt (e d : Nat) (s t : State) : Prop where
  place : ∀ i, (t.td i).place = if i = d then .done else (s.td i).place
  td : ∀ i, ((t.td i).alloc = (s.td i).alloc ∧ (t.td i).ed = (s.td i).ed ∧ (t.td i).toggle = (s.td i).toggle ∧
    (t.td i).token = (s.td i).token ∧ (t.td i).txn = (s.td i).txn)
  queue : ∀ i, (t.ed i).queue = if i = e then (s.ed i).queue.erase d else (s.ed i).queue
  edAlloc : ∀ i, (t.ed i).alloc = (s.ed i).alloc
  done : t.done = s.done ++ [d]
  frame : Framed [.eds, .tds, .done, .drainp] s t

theorem State.Paired.finished {e d : Nat} {s t : State} (hd : d ∈ (s.ed e).queue) (hx : (s.td d).txn = none)
    (h : FinishedAt e d s t) (hs : s.Paired) : t.Paired := by
  obtain ⟨hp, hr, hk, hg⟩ := hs
  have hdq : (s.td d).place = .queued := by
    have a := (hp.queued d).2 ⟨e, hd⟩
    have b := hp.activeTxn d
    grind
  have hone : ∀ i, d ∈ (s.ed i).queue → i = e := fun i hi =>
    Option.some.inj ((hp.queueEd i d hi).symm.trans (hp.queueEd e d hd))
  have htx := txn_congr (h.frame.txns_eq (by decide))
  refine ⟨?_, ?_, ?_, by rw [h.frame.diag_eq (by decide)]; exact hg⟩
  · have hpl := h.place
    have hm : ∀ i k, k ∈ (t.ed i).queue ↔ k ∈ (s.ed i).queue ∧ ¬(k = d) := by
      intro i k
      rw [h.queue]
      split
      · rw [(hp.queueNodup i).mem_erase_iff]; tauto
      · rename_i hi
        exact ⟨fun hk => ⟨hk, fun hkd => hi (hone i (hkd ▸ hk))⟩, fun hk => hk.1⟩
    have hfa : t.frame = s.frame := h.frame.frame_eq (by decide)
    refine ⟨?_, ?_, ?_, ?_, ?_, ?_, ?_, ?_, ?_, ?_, ?_, ?_⟩
    · intro i; rw [hpl, (h.td i).1]; have a := hp.free i; grind
    · intro i; rw [hpl]; simp only [hm]; have a := hp.queued i; grind
    · intro i k hk; rw [hm] at hk; rw [(h.td k).2.1]; exact hp.queueEd i k hk.1
    · intro i; rw [h.queue]; have a := hp.queueNodup i; split; exact a.erase d; exact a
    · intro i hi; rw [h.edAlloc] at hi; rw [h.queue, hp.queueFree i hi]; simp
    · intro i; rw [hpl, hfa]; have a := hp.active i; grind
    · rw [hfa]; exact hp.activeNodup
    · intro i; rw [hpl, (h.td i).2.2.2.2]; have a := hp.activeTxn i; grind
    · intro i k hk ha
      rw [hm] at hk
      rw [hpl, if_neg hk.2] at ha
      have a := hp.activeHead i k hk.1 ha
      rw [h.queue]
      split
      · cases hq : (s.ed i).queue with
        | nil => simp [hq] at a
        | cons z zs =>
          rw [hq] at a
          have hz : z = k := by simpa using a
          rw [List.erase_cons_tail (by simpa using fun hc : z = d => hk.2 (hz ▸ hc))]
          exact a
      · exact a
    · intro i; rw [hpl, (h.td i).2.2.1]; have a := hp.activeToggle i; grind
    · intro i; rw [hpl, h.done, List.mem_append, List.mem_singleton]; have a := hp.done i; grind
    · rw [h.done]
      have a := hp.done d
      refine List.nodup_append.2 ⟨hp.doneNodup, by simp, ?_⟩
      intro i hi j hj
      rw [List.mem_singleton] at hj
      subst hj
      rintro rfl
      rw [← a, hdq] at hi
      exact absurd hi (by decide)
  · have hto : ∀ i, (t.td i).token = (s.td i).token := fun i => (h.td i).2.2.2.1
    have htn : ∀ i, (t.td i).txn = (s.td i).txn := fun i => (h.td i).2.2.2.2
    have hpo := pkt_congr (h.frame.pkts_eq (by decide))
    obtain ⟨r1, r2, r3, r4, r5, r6, r7, r8, r9, r10⟩ := hr
    refine ⟨?_, ?_, ?_, ?_, ?_, ?_, ?_, ?_, ?_, ?_⟩ <;>
      simp only [htx, hto, htn, hpo, h.frame.cfg_eq (by decide), h.frame.dfree_eq (by decide)] <;> assumption
  · have htk := tok_congr (h.frame.toks_eq (by decide))
    obtain ⟨r1, r2, r3⟩ := hk
    have ha : ∀ i, (t.td i).alloc = (s.td i).alloc := fun i => (h.td i).1
    have hto : ∀ i, (t.td i).token = (s.td i).token := fun i => (h.td i).2.2.2.1
    refine ⟨?_, ?_, ?_⟩ <;> simp only [htk, hto, ha] <;> assumption

/-! A dispatch that was accepted, and its admission (R156, R204). -/

/-- Queued TD `d` is active: record `x`, Packet `p` and dummy buffer `u` are its own. -/
structure AdmittedAt (x p d : Nat) (u : Option Nat) (s t : State) : Prop where
  alloc : ∀ i, (t.td i).alloc = (s.td i).alloc
  place : ∀ i, (t.td i).place = if i = d then .active else (s.td i).place
  edOf : ∀ i, (t.td i).ed = (s.td i).ed
  toggle : ∀ i, if i = d then (t.td i).toggle ≠ .carry else (t.td i).toggle = (s.td i).toggle
  tokOf : ∀ i, (t.td i).token = (s.td i).token
  txnOf : ∀ i, (t.td i).txn = if i = d then some x else (s.td i).txn
  live : ∀ i, (t.txn i).alloc = if i = x then true else (s.txn i).alloc
  rec' : ((t.txn x).td = some d ∧ (t.txn x).pkt = some p ∧ (t.txn x).token = (s.td d).token ∧ (t.txn x).dummy = u) ∧
    (t.txn x).phase = .tokenWait
  zeroLength : (t.txn x).len = 0#11 ↔ u ≠ none
  recs : ∀ i, i ≠ x → t.txn i = s.txn i
  out : ∀ i, (t.pkt i).out = if i = p then true else (s.pkt i).out
  dfree : s.dfree = u.toList ++ t.dfree
  active : t.frame.active = s.frame.active ++ [d]
  queue : ∀ e, (t.ed e).queue = (s.ed e).queue
  edAlloc : ∀ e, (t.ed e).alloc = (s.ed e).alloc
  tok : ∀ k, t.tok k = s.tok k
  done : t.done = s.done
  diag : t.diag.doubleRelease = s.diag.doubleRelease
  cfg : t.cfg = s.cfg

theorem State.Paired.admitted {x p d e : Nat} {u : Option Nat} {s t : State} (hh : (s.ed e).queue.head? = some d)
    (hdx : (s.td d).txn = none) (hx : (s.txn x).alloc = false) (hpo : (s.pkt p).out = false)
    (hdn : s.dfree.Nodup) (hdl : ∀ v ∈ s.dfree, v < s.cfg.nDummy)
    (h : AdmittedAt x p d u s t) (hs : s.Paired) : t.Paired := by
  obtain ⟨hp, hr, hk, hg⟩ := hs
  have hde : d ∈ (s.ed e).queue := List.mem_of_head? hh
  have hone : ∀ i, d ∈ (s.ed i).queue → i = e := fun i hi =>
    Option.some.inj ((hp.queueEd i d hi).symm.trans (hp.queueEd e d hde))
  have hdq : (s.td d).place = .queued := by
    have a := (hp.queued d).2 ⟨e, hde⟩
    have b := hp.activeTxn d
    grind
  obtain ⟨⟨rtd, rpk, rtk, rdm⟩, hrp⟩ := h.rec'
  have hli := h.live
  have hrc := h.recs
  have hpl := h.place
  have hqu := h.queue
  refine ⟨?_, ?_, ?_, h.diag.trans hg⟩
  · refine ⟨?_, ?_, ?_, ?_, ?_, ?_, ?_, ?_, ?_, ?_, ?_, ?_⟩
    · intro i; rw [hpl, h.alloc]; have a := hp.free i; clear hr hk; grind
    · intro i; rw [hpl]; simp only [hqu]; have a := hp.queued i; have b := hp.queued d; clear hr hk; grind
    · intro i k; rw [hqu, h.edOf]; exact hp.queueEd i k
    · intro i; rw [hqu]; exact hp.queueNodup i
    · intro i; rw [hqu, h.edAlloc]; exact hp.queueFree i
    · intro i; rw [hpl, h.active, List.mem_append, List.mem_singleton]; have a := hp.active i; clear hr hk; grind
    · rw [h.active]
      refine List.nodup_append.2 ⟨hp.activeNodup, by simp, ?_⟩
      intro i hi j hj
      rw [List.mem_singleton] at hj
      subst hj
      rintro rfl
      rw [← hp.active, hdq] at hi
      exact absurd hi (by decide)
    · intro i; rw [hpl, h.txnOf]; have a := hp.activeTxn i; clear hr hk; grind
    · intro i k; rw [hqu, hpl]; have a := hp.activeHead i k; have b := hone i; clear hr hk; grind
    · intro i; rw [hpl]; have a := hp.activeToggle i; have b := h.toggle i; clear hr hk; grind
    · intro i; rw [hpl, h.done]; have a := hp.done i; clear hr hk; grind
    · rw [h.done]; exact hp.doneNodup
  · clear hp hk hpl hqu
    refine ⟨?_, ?_, ?_, ?_, ?_, ?_, ?_, ?_, ?_, ?_⟩
    · intro i; have a := hr.phase i; have b := hrc i; have c := hli i; clear hr; grind
    · intro i; have a := hr.td i; have b := hrc i; have c := hli i; clear hr; grind
    · intro i y
      rw [h.txnOf, hli]
      have a := hr.link i y
      have b := hrc y
      clear hr
      grind
    · intro y i
      rw [h.tokOf, hli]
      have a := hr.token y i
      have b := hrc y
      clear hr
      grind
    · intro i; have a := hr.pkt i; have b := hrc i; have c := hli i; clear hr; grind
    · intro q
      rw [h.out]
      have a := hr.pktOut q
      constructor
      · intro hq
        by_cases hqp : q = p
        · exact ⟨x, by rw [hli, if_pos rfl], by rw [rpk, hqp]⟩
        · rw [if_neg hqp] at hq
          obtain ⟨y, hy1, hy2⟩ := a.1 hq
          have hyx : y ≠ x := by rintro rfl; rw [hx] at hy1; exact Bool.noConfusion hy1
          exact ⟨y, by rw [hli, if_neg hyx]; exact hy1, by rw [hrc y hyx]; exact hy2⟩
      · rintro ⟨y, hy1, hy2⟩
        by_cases hyx : y = x
        · subst hyx
          rw [rpk] at hy2
          rw [if_pos (Option.some.inj hy2).symm]
        · rw [hli, if_neg hyx] at hy1
          rw [hrc y hyx] at hy2
          split
          · rfl
          · exact a.2 ⟨y, hy1, hy2⟩
    · intro y z hy hz hyz
      have a := hr.pktOut p
      have b := hr.pktOne y z
      have c := hrc y
      have c' := hrc z
      rw [hli] at hy hz
      clear hr
      grind
    · intro v
      rw [h.cfg]
      have a := hr.dummy v
      have hd := h.dfree
      constructor
      · rintro ⟨h1, h2⟩
        by_cases hu : u = some v
        · exact ⟨x, by rw [hli, if_pos rfl], by rw [rdm, hu]⟩
        · have h3 : v ∉ s.dfree := by
            rw [hd, List.mem_append, Option.mem_toList]
            rintro (hc | hc)
            · exact hu hc
            · exact h2 hc
          obtain ⟨y, hy1, hy2⟩ := a.1 ⟨h1, h3⟩
          have hyx : y ≠ x := by rintro rfl; rw [hx] at hy1; exact Bool.noConfusion hy1
          exact ⟨y, by rw [hli, if_neg hyx]; exact hy1, by rw [hrc y hyx]; exact hy2⟩
      · rintro ⟨y, hy1, hy2⟩
        by_cases hyx : y = x
        · subst hyx
          rw [rdm] at hy2
          have hv : v ∈ s.dfree := by rw [hd, hy2]; simp
          refine ⟨hdl v hv, ?_⟩
          rw [hd, hy2] at hdn
          exact (List.nodup_cons.1 hdn).1
        · rw [hli, if_neg hyx] at hy1
          rw [hrc y hyx] at hy2
          obtain ⟨h1, h2⟩ := a.2 ⟨y, hy1, hy2⟩
          exact ⟨h1, fun hc => h2 (by rw [hd]; simp [hc])⟩
    · intro y
      rw [hli]
      by_cases hyx : y = x
      · subst hyx; rw [rdm]; exact fun _ => h.zeroLength
      · rw [if_neg hyx, hrc y hyx]; exact hr.zeroLength y
    · intro y z v hy hz hyv hzv
      have hd := h.dfree
      have a := hr.dummyOne y z v
      have b := hr.dummy v
      have c := hrc y
      have c' := hrc z
      have hv : u = some v → v ∈ s.dfree := fun hu => by rw [hd, hu]; simp
      rw [hli] at hy hz
      clear hr hd hdn hdl
      grind
  · have a1 := h.alloc
    have a2 := h.tokOf
    have a3 := h.tok
    obtain ⟨p1, p2, p3⟩ := hk
    refine ⟨?_, ?_, ?_⟩ <;> simp only [a1, a2, a3] <;> assumption

/-! A TD is drained (R261, R266). -/

/-- TD `d`, the first of the done list, and its Token `k` are free. -/
structure DrainedAt (d k : Nat) (s t : State) : Prop where
  td : t.td d = { s.td d with alloc := false, place := .free, token := none }
  tds : ∀ i, i ≠ d → t.td i = s.td i
  tok : t.tok k = { s.tok k with alloc := false }
  toks : ∀ i, i ≠ k → t.tok i = s.tok i
  done : s.done = d :: t.done
  frame : Framed [.mem, .out, .kfree, .toks, .tfree, .tds, .done] s t

theorem State.Paired.drained {d k : Nat} {s t : State} (hk : (s.td d).token = some k) (h : DrainedAt d k s t)
    (hs : s.Paired) : t.Paired := by
  obtain ⟨hp, hr, ht, hg⟩ := hs
  have hdd : (s.td d).place = .done := (hp.done d).2 (by rw [h.done]; simp)
  have hnd := hp.doneNodup
  rw [h.done, List.nodup_cons] at hnd
  have hdx : (s.td d).txn = none := by
    have a := hp.activeTxn d
    grind
  have hx := txn_congr (h.frame.txns_eq (by decide))
  have he := ed_congr (h.frame.eds_eq (by decide))
  have hf := h.frame.frame_eq (by decide)
  have hpo := pkt_congr (h.frame.pkts_eq (by decide))
  have htx : ∀ i, (t.td i).txn = (s.td i).txn := by
    intro i
    by_cases hi : i = d
    · rw [hi, h.td]
    · rw [h.tds i hi]
  refine ⟨?_, ?_, ?_, by rw [h.frame.diag_eq (by decide)]; exact hg⟩
  · have hm : ∀ i, i ∈ s.done ↔ i = d ∨ i ∈ t.done := fun i => by rw [h.done, List.mem_cons]
    have hpl : ∀ i, (t.td i).place = if i = d then .free else (s.td i).place := by
      intro i
      split
      · rename_i hi; rw [hi, h.td]
      · rename_i hi; rw [h.tds i hi]
    have hal : ∀ i, (t.td i).alloc = if i = d then false else (s.td i).alloc := by
      intro i
      split
      · rename_i hi; rw [hi, h.td]
      · rename_i hi; rw [h.tds i hi]
    have hed : ∀ i, (t.td i).ed = (s.td i).ed := by
      intro i
      by_cases hi : i = d
      · rw [hi, h.td]
      · rw [h.tds i hi]
    have htg : ∀ i, (t.td i).toggle = (s.td i).toggle := by
      intro i
      by_cases hi : i = d
      · rw [hi, h.td]
      · rw [h.tds i hi]
    refine ⟨?_, ?_, ?_, ?_, ?_, ?_, ?_, ?_, ?_, ?_, ?_, ?_⟩
    · intro i; rw [hpl, hal]; have a := hp.free i; clear hr ht; grind
    · intro i; rw [hpl]; simp only [he]; have a := hp.queued i; clear hr ht; grind
    · intro i j; rw [he, hed]; exact hp.queueEd i j
    · intro i; rw [he]; exact hp.queueNodup i
    · intro i; rw [he]; exact hp.queueFree i
    · intro i; rw [hpl, hf]; have a := hp.active i; clear hr ht; grind
    · rw [hf]; exact hp.activeNodup
    · intro i; rw [hpl, htx]; have a := hp.activeTxn i; clear hr ht; grind
    · intro i j; rw [he, hpl]; have a := hp.activeHead i j; clear hr ht; grind
    · intro i; rw [hpl, htg]; have a := hp.activeToggle i; clear hr ht; grind
    · intro i; rw [hpl]; have a := hp.done i; have b := hm i; clear hr ht; grind
    · exact hnd.2
  · obtain ⟨r1, r2, r3, r4, r5, r6, r7, r8, r9, r10⟩ := hr
    refine ⟨?_, ?_, ?_, ?_, ?_, ?_, ?_, ?_, ?_, ?_⟩ <;>
      simp only [hx, htx, hpo, h.frame.cfg_eq (by decide), h.frame.dfree_eq (by decide)] <;> try assumption
    intro x i h1 h2
    have hne : i ≠ d := by
      rintro rfl
      have := (r3 i x).2 ⟨h1, h2⟩
      rw [hdx] at this
      simp at this
    rw [h.tds i hne]
    exact r4 x i h1 h2
  · obtain ⟨p1, p2, p3⟩ := ht
    have hkd := (p2 d k).1 hk
    refine ⟨?_, ?_, ?_⟩
    · intro i hi
      by_cases hid : i = d
      · rw [hid, h.td] at hi; exact Bool.noConfusion hi
      · rw [h.tds i hid] at hi ⊢; exact p1 i hi
    · intro i j
      have a := p2 i j
      have b := h.tds i
      have c := h.toks j
      have e := h.td
      have f := h.tok
      have g := p2 d j
      clear hp hr
      by_cases hid : i = d <;> by_cases hj : j = k <;> grind
    · intro j hj
      have c := h.toks j
      have f := h.tok
      by_cases hjk : j = k
      · rw [hjk, f] at hj; exact Bool.noConfusion hj
      · rw [c hjk] at hj ⊢
        obtain ⟨i, hi1, hi2⟩ := p3 j hj
        refine ⟨i, hi1, ?_⟩
        have hid : i ≠ d := by
          rintro rfl
          have := (p2 i j).2 ⟨hj, hi1⟩
          rw [hk] at this
          exact hjk (Option.some.inj this).symm
        rw [h.tds i hid]
        exact hi2

/-! A TD is made (R176). -/

/-- Free TD `d` and free Token `k` are at the tail of the queue of ED `e`. -/
structure MadeAt (e d k : Nat) (s t : State) : Prop where
  td : (t.td d).links = (true, .queued, some e, (t.td d).links.2.2.2.1, some k, none)
  tds : ∀ i, i ≠ d → t.td i = s.td i
  tok : (t.tok k).alloc = true ∧ (t.tok k).td = some d
  toks : ∀ i, i ≠ k → t.tok i = s.tok i
  queue : ∀ i, (t.ed i).queue = if i = e then (s.ed i).queue ++ [d] else (s.ed i).queue
  edAlloc : ∀ i, (t.ed i).alloc = (s.ed i).alloc
  frame : Framed [.kfree, .toks, .tfree, .tds, .eds] s t

theorem State.Paired.made {e d k : Nat} {s t : State} (hd : (s.td d).alloc = false) (hk : (s.tok k).alloc = false)
    (hea : (s.ed e).alloc = true) (h : MadeAt e d k s t) (hs : s.Paired) : t.Paired := by
  obtain ⟨hp, hr, ht, hg⟩ := hs
  have hdf := (hp.free d).2 hd
  have hx := txn_congr (h.frame.txns_eq (by decide))
  have hf := h.frame.frame_eq (by decide)
  have hpo := pkt_congr (h.frame.pkts_eq (by decide))
  have hdx : (s.td d).txn = none := by
    have a := hp.activeTxn d
    grind
  have hdq : ∀ i, d ∉ (s.ed i).queue := fun i hi => by
    have := (hp.queued d).2 ⟨i, hi⟩
    grind
  have htd := h.td
  simp only [Td.links, Prod.mk.injEq, true_and] at htd
  obtain ⟨t1, t2, t3, t4, t5⟩ := htd
  have htx : ∀ i, (t.td i).txn = (s.td i).txn := by
    intro i
    by_cases hi : i = d
    · rw [hi, t5, hdx]
    · rw [h.tds i hi]
  have hpl : ∀ i, (t.td i).place = if i = d then .queued else (s.td i).place := by
    intro i
    split
    · rename_i hi; rw [hi, t2]
    · rename_i hi; rw [h.tds i hi]
  have hm : ∀ i j, j ∈ (t.ed i).queue ↔ j ∈ (s.ed i).queue ∨ (i = e ∧ j = d) := by
    intro i j
    rw [h.queue]
    split
    · rename_i hi; simp [hi]
    · rename_i hi; simp [hi]
  refine ⟨?_, ?_, ?_, by rw [h.frame.diag_eq (by decide)]; exact hg⟩
  · refine ⟨?_, ?_, ?_, ?_, ?_, ?_, ?_, ?_, ?_, ?_, ?_, ?_⟩
    · intro i; rw [hpl]; have a := hp.free i; have b := h.tds i; clear hr ht; grind
    · intro i; rw [hpl]; simp only [hm]
      have a := hp.queued i
      by_cases hi : i = d
      · subst hi; simp
      · simp only [hi, and_false, or_false, if_false]; exact a
    · intro i j hj; rw [hm] at hj
      rcases hj with hj | ⟨rfl, rfl⟩
      · rw [h.tds j (fun hjd => hdq i (hjd ▸ hj))]; exact hp.queueEd i j hj
      · exact t3
    · intro i
      rw [h.queue]
      split
      · refine List.nodup_append.2 ⟨hp.queueNodup i, by simp, ?_⟩
        intro a ha b hb
        rw [List.mem_singleton] at hb
        subst hb
        rintro rfl
        exact hdq i ha
      · exact hp.queueNodup i
    · intro i hi
      rw [h.edAlloc] at hi
      rw [h.queue, if_neg (by rintro rfl; rw [hea] at hi; exact Bool.noConfusion hi)]
      exact hp.queueFree i hi
    · intro i; rw [hpl, hf]; have a := hp.active i; have b := hp.active d; clear hr ht; grind
    · rw [hf]; exact hp.activeNodup
    · intro i; rw [hpl, htx]; have a := hp.activeTxn i; clear hr ht; grind
    · intro i j hj ha
      rw [hpl] at ha
      have hjd : j ≠ d := by rintro rfl; simp at ha
      rw [if_neg hjd] at ha
      have hj' : j ∈ (s.ed i).queue := ((hm i j).1 hj).resolve_right (fun hc => hjd hc.2)
      have a := hp.activeHead i j hj' ha
      rw [h.queue]
      split
      · rw [List.head?_append, a]; rfl
      · exact a
    · intro i; rw [hpl]; have a := hp.activeToggle i; have b := h.tds i; clear hr ht; grind
    · intro i; rw [hpl, h.frame.done_eq (by decide)]; have a := hp.done i; clear hr ht; grind
    · rw [h.frame.done_eq (by decide)]; exact hp.doneNodup
  · obtain ⟨r1, r2, r3, r4, r5, r6, r7, r8, r9, r10⟩ := hr
    refine ⟨?_, ?_, ?_, ?_, ?_, ?_, ?_, ?_, ?_, ?_⟩ <;>
      simp only [hx, htx, hpo, h.frame.cfg_eq (by decide), h.frame.dfree_eq (by decide)] <;> try assumption
    intro x i h1 h2
    have hne : i ≠ d := by
      rintro rfl
      have := (r3 i x).2 ⟨h1, h2⟩
      rw [hdx] at this
      simp at this
    rw [h.tds i hne]
    exact r4 x i h1 h2
  · obtain ⟨p1, p2, p3⟩ := ht
    refine ⟨?_, ?_, ?_⟩
    · intro i hi
      by_cases hid : i = d
      · exact ⟨k, by rw [hid]; exact t4⟩
      · rw [h.tds i hid] at hi ⊢; exact p1 i hi
    · intro i j
      have a := p2 i j
      have b := h.tds i
      have c := h.toks j
      have e := h.tok
      have q := p3 j
      clear hp hr hm
      by_cases hid : i = d <;> by_cases hj : j = k <;> grind
    · intro j hj
      by_cases hjk : j = k
      · exact ⟨d, by rw [hjk]; exact h.tok.2, t1⟩
      · rw [h.toks j hjk] at hj ⊢
        obtain ⟨i, hi1, hi2⟩ := p3 j hj
        exact ⟨i, hi1, by rw [h.tds i (by rintro rfl; rw [hd] at hi2; exact Bool.noConfusion hi2)]; exact hi2⟩

end Sys2Proof.Machine
end

