-- ==== Sys2Proof/Laws/Flights.lean ====
section
/-! SUPPORT. Laws/Flights.lean: the bodies of the operations keep TDs, Transaction records, Packets, dummy buffers and
Tokens paired (R65(b), (f), (g)). -/

namespace Sys2Proof.Machine

/-! Changes that the pairing does not see. -/

theorem modEd_samePairs (e : Nat) (g : Ed → Ed) (s : State) (hq : (g (s.ed e)).queue = (s.ed e).queue)
    (ha : (g (s.ed e)).alloc = (s.ed e).alloc) : SamePairs s (s.modEd e g) :=
  { SamePairs.refl s with
    queue := modEd_keeps Ed.queue e g s hq
    queueFree := fun h i hi => by
      rw [modEd_keeps Ed.queue e g s hq]
      exact h i (by rw [← modEd_keeps Ed.alloc e g s ha]; exact hi) }

theorem modTd_samePairs (d : Nat) (g : Td → Td) (s : State) (h : (g (s.td d)).links = (s.td d).links) :
    SamePairs s (s.modTd d g) :=
  { SamePairs.refl s with td := modTd_keeps Td.links d g s h }

theorem modPkt_samePairs (p : Nat) (g : Pkt → Pkt) (s : State) (h : (g (s.pkt p)).out = (s.pkt p).out) :
    SamePairs s (s.modPkt p g) :=
  { SamePairs.refl s with out := modPkt_keeps Pkt.out p g s h }

theorem setPktStatus_samePairs (p : Nat) (st : Ts) (s : State) : SamePairs s (setPktStatus p st s) :=
  modPkt_samePairs p _ s rfl

/-- A live record steps into `DATA_WAIT` (R210). -/
theorem dataWait_samePairs (x : Nat) (s : State) : SamePairs s (s.modTxn x (fun t => { t with phase := .dataWait })) :=
  { SamePairs.refl s with
    live := modTxn_keeps Txn.alloc x _ s rfl
    txn := fun i _ => by
      refine ⟨modTxn_keeps Txn.links x _ s rfl i, ?_⟩
      by_cases hi : i = x
      · subst hi
        by_cases hl : i < s.txns.length
        · rw [modTxn_txn_self i _ s hl]; exact .inr rfl
        · have h1 : s.txns.modify i (fun t => { t with phase := .dataWait }) = s.txns :=
            List.modify_eq_self (by omega)
          exact .inl (by simp only [State.modTxn, h1]; rfl)
      · rw [modTxn_txn_other x i _ s (Ne.symm hi)]; exact .inl rfl }

/-- Diagnostics other than a double release. -/
theorem setDiag_samePairs (v : Diag) (s : State) (h : v.doubleRelease = s.diag.doubleRelease) :
    SamePairs s (s.setDiag v) :=
  { SamePairs.refl s with diag := fun hd => h.trans hd }

theorem closeFrame_samePairs (st : FrameStatus) (s : State) : SamePairs s (closeFrame st s) :=
  { SamePairs.refl s with }

theorem openFrame_samePairs (s : State) : SamePairs s (openFrame s) := { SamePairs.refl s with }

/-! The end of a transaction (R215). -/

/-- A live record has its TD and Packet, and all it needs to end in order (R39, R41, R44). -/
theorem State.Paired.liveTxn {s : State} (hs : s.Paired) (hp : s.poolsOk) (d x : Nat) (h : (s.td d).txn = some x) :
    ∃ p, s.liveTxn x p d := by
  obtain ⟨ha, hd⟩ := (hs.records.link d x).1 h
  obtain ⟨p, hpk⟩ := hs.records.pkt x ha
  have ho := (hs.records.pktOut p).2 ⟨x, ha, hpk⟩
  have hx : x < s.txns.length := txn_lt_of_ne_initial s x (fun hc => by rw [hc] at ha; exact Bool.noConfusion ha)
  have hpl : p < s.pkts.length := pkt_lt_of_ne_initial s p (fun hc => by rw [hc] at ho; exact Bool.noConfusion ho)
  have hdl : d < s.tds.length := td_lt_of_ne_initial s d (fun hc => by rw [hc] at h; simp [Td.initial] at h)
  obtain ⟨-, ⟨z1, z2, z3, z4, z5, z6⟩, -⟩ := hp
  exact ⟨p, ⟨hx, ha, hpk, hd, fun i _ hi hip => hs.records.pktOne i x hi ha (hip.trans hpk.symm)⟩, z4 ▸ hx, z5 ▸ hpl,
    ho, hdl, fun u hu => (hs.records.dummy u).2 ⟨x, ha, hu⟩⟩

theorem ended_at (s : State) (x p d : Nat) (h : s.liveTxn x p d) : EndedAt x p d s (s.ended x p d) := by
  obtain ⟨⟨hx, -⟩, -, hpc, ho, hd, -⟩ := h
  have hpl : p < s.pkts.length := pkt_lt_of_ne_initial s p (fun hc => by rw [hc] at ho; exact Bool.noConfusion ho)
  have htd : ∀ i, (s.ended x p d).td i = if i = d then { s.td d with txn := none, place := .queued } else s.td i := by
    intro i
    split
    · rename_i hi; subst hi; exact ended_td_self s x p i hd
    · rename_i hi; exact ended_td_other s x p d i hi
  have htx : ∀ i, (s.ended x p d).txn i = if i = x then { s.txn x with alloc := false } else s.txn i := by
    intro i
    split
    · rename_i hi; subst hi; exact modTxn_txn_self i _ s hx
    · rename_i hi; exact modTxn_txn_other x i _ s (Ne.symm hi)
  refine ⟨?_, ?_, ?_, ?_, ?_, ?_, ?_, ?_, ?_, rfl, rfl, fun _ => rfl, fun _ => rfl, fun _ => rfl, rfl, rfl, rfl⟩
  · intro i; rw [htd]; split; subst i; rfl; rfl
  · intro i; rw [htd]; split <;> rfl
  · intro i; rw [htd]; split; subst i; rfl; rfl
  · intro i; rw [htd]; split; exact .inl (by assumption); exact .inr rfl
  · intro i; rw [htd]; split; subst i; rfl; rfl
  · intro i; rw [htd]; split <;> rfl
  · intro i; rw [htx]; split <;> rfl
  · intro i hi; rw [htx, if_neg hi]
  · intro i
    split
    · rename_i hi; subst hi; exact congrArg Pkt.out (modPkt_pkt_self i _ s hpl)
    · rename_i hi; exact congrArg Pkt.out (modPkt_pkt_other p i _ s (Ne.symm hi))

theorem ended_paired (s : State) (x p d : Nat) (h : s.liveTxn x p d) (hs : s.Paired) : (s.ended x p d).Paired :=
  hs.ended h.1.2.1 h.1.2.2.2.1 h.1.2.2.1 (ended_at s x p d h)

/-- No TD of a queue whose head is not mid-transaction is (R45). -/
theorem State.Paired.idle {s : State} (hs : s.Paired) (e : Nat)
    (hh : ∀ d, (s.ed e).queue.head? = some d → (s.td d).txn = none) : ∀ i ∈ (s.ed e).queue, (s.td i).txn = none := by
  intro i hi
  by_contra hc
  have ha := (hs.places.activeTxn i).2 hc
  exact hc (hh i (hs.places.activeHead e i hi ha))

/-- Once the transaction of a TD has ended, its queue has none mid-transaction (R45). -/
theorem State.Paired.idle_ended {s : State} (hs : s.Paired) (x p d : Nat) (hl : s.liveTxn x p d) :
    ∃ e, d ∈ (s.ed e).queue ∧ (s.td d).ed = some e ∧
      ∀ i ∈ ((s.ended x p d).ed e).queue, ((s.ended x p d).td i).txn = none := by
  have hx : (s.td d).txn = some x := (hs.records.link d x).2 ⟨hl.1.2.1, hl.1.2.2.2.1⟩
  have ha := (hs.places.activeTxn d).2 (by simp [hx])
  obtain ⟨e, he⟩ := (hs.places.queued d).1 (.inr ha)
  refine ⟨e, he, hs.places.queueEd e d he, (ended_paired s x p d hl hs).idle e ?_⟩
  intro i hi
  have hh := hs.places.activeHead e d he ha
  have : i = d := Option.some.inj (hi.symm.trans hh)
  rw [this, ended_td_self s x p d hl.2.2.2.2.1]

/-! TDs become terminal (R226). -/

theorem finish_finished (e d : Nat) (st : Ts) (s : State) (he : e < s.eds.length) (hd : d < s.tds.length) :
    FinishedAt e d s (finish e d st s) := by
  have htd : ∀ i, (finish e d st s).td i = if i = d then { s.td d with status := st, place := .done } else s.td i := by
    intro i
    split
    · rename_i hi; subst hi; exact finish_td_self e i st s hd
    · rename_i hi; exact finish_td_other e d i st s hi
  have hed : ∀ i, i ≠ e → (finish e d st s).ed i = s.ed i := fun i hi => finish_ed_other e d i st s hi
  refine ⟨?_, ?_, ?_, ?_, rfl, finish_framed e d st s⟩
  · intro i; rw [htd]; split <;> rfl
  · intro i; rw [htd]; split; subst i; exact ⟨rfl, rfl, rfl, rfl, rfl⟩; exact ⟨rfl, rfl, rfl, rfl, rfl⟩
  · intro i
    split
    · rename_i hi; rw [hi, finish_ed_self e d st s he]
    · rename_i hi; rw [hed i hi]
  · intro i
    by_cases hi : i = e
    · rw [hi, finish_ed_self e d st s he]
    · rw [hed i hi]

theorem mem_queue_lt {s : State} {e d : Nat} (h : d ∈ (s.ed e).queue) : e < s.eds.length :=
  ed_lt_of_ne_initial s e (fun hc => by rw [hc] at h; simp [Ed.initial] at h)

theorem State.Paired.mem_lt {s : State} (hs : s.Paired) {e d : Nat} (h : d ∈ (s.ed e).queue) : d < s.tds.length :=
  td_lt_of_ne_initial s d (fun hc => by
    have := hs.places.queueEd e d h
    rw [hc] at this
    simp [Td.initial] at this)

theorem finish_paired (e d : Nat) (st : Ts) (s : State) (hd : d ∈ (s.ed e).queue) (hx : (s.td d).txn = none)
    (hs : s.Paired) : (finish e d st s).Paired :=
  hs.finished hd hx (finish_finished e d st s (mem_queue_lt hd) (hs.mem_lt hd))

theorem finish_txn (e d : Nat) (st : Ts) (s : State) (i : Nat) : ((finish e d st s).td i).txn = (s.td i).txn :=
  finish_td_keeps Td.txn (fun _ _ => rfl) e d st s i

/-- The TDs left on a queue after one is finished. -/
theorem mem_finish_queue (e d i : Nat) (st : Ts) (s : State) (hi : i ∈ (s.ed e).queue) (hne : i ≠ d) :
    i ∈ ((finish e d st s).ed e).queue := by
  rw [finish_ed_self e d st s (mem_queue_lt hi)]
  exact (List.mem_erase_of_ne hne).2 hi

theorem finish_queue_sub (e d i k : Nat) (st : Ts) (s : State) (hi : i ∈ ((finish e d st s).ed k).queue) :
    i ∈ (s.ed k).queue := by
  by_cases hk : k = e
  · subst hk
    have hl : k < s.eds.length := by have := mem_queue_lt hi; rwa [finish_eds_length] at this
    rw [finish_ed_self k d st s hl] at hi
    exact List.mem_of_mem_erase hi
  · rwa [finish_ed_other e d k st s hk] at hi

theorem sweep_paired (e : Nat) (h : Addr) (ds : List Nat) (s : State) (hds : ds.Nodup)
    (hq : ∀ i ∈ ds, i ∈ (s.ed e).queue ∧ (s.td i).txn = none) (hs : s.Paired) : (sweep e h ds s).Paired := by
  induction ds generalizing s with
  | nil => exact hs
  | cons d rest ih =>
    rw [List.nodup_cons] at hds
    by_cases hd : (s.td d).request = h
    · rw [sweep_hit e h d rest s hd]
      refine ih _ hds.2 (fun i hi => ?_) (finish_paired e d .cancelled s (hq d (by simp)).1 (hq d (by simp)).2 hs)
      obtain ⟨h1, h2⟩ := hq i (by simp [hi])
      exact ⟨mem_finish_queue e d i .cancelled s h1 (fun hc => hds.1 (hc ▸ hi)), by rw [finish_txn]; exact h2⟩
    · rw [sweep_miss e h d rest s hd]
      exact ih s hds.2 (fun i hi => hq i (by simp [hi])) hs

/-- A TD, not mid-transaction, on a queue with none mid-transaction becomes terminal (R226). -/
theorem terminate_paired (d e : Nat) (st : Ts) (halt : Bool) (s : State) (hd : d ∈ (s.ed e).queue)
    (hq : ∀ i ∈ (s.ed e).queue, (s.td i).txn = none) (hs : s.Paired) : (terminate d st halt s).Paired := by
  have hf := finish_paired e d st s hd (hq d hd) hs
  rw [terminate_eq d e st halt s (hs.places.queueEd e d hd)]
  refine State.Paired.congr (modEd_samePairs e _ _ (settledState_keeps halt _).1 (settledState_keeps halt _).2.1) ?_
  split
  · exact sweep_paired e _ _ _ (hf.places.queueNodup e)
      (fun i hi => ⟨hi, by rw [finish_txn]; exact hq i (finish_queue_sub e d i e st s hi)⟩) hf
  · exact hf

theorem terminateAll_paired (e : Nat) (st : Ts) (halt : Bool) (ds : List Nat) (s : State) (hst : st.failing = false)
    (hds : ds.Nodup) (hd : ∀ d ∈ ds, d ∈ (s.ed e).queue) (hq : ∀ i ∈ (s.ed e).queue, (s.td i).txn = none)
    (hs : s.Paired) : (terminateAll st halt ds s).Paired := by
  induction ds generalizing s with
  | nil => exact hs
  | cons d rest ih =>
    rw [List.nodup_cons] at hds
    have hde := hd d (by simp)
    have ht := terminate_eq d e st halt s (hs.places.queueEd e d hde)
    rw [hst] at ht
    have hqu : ∀ i, ((terminate d st halt s).ed i).queue = ((finish e d st s).ed i).queue := by
      intro i
      rw [ht]
      exact modEd_keeps Ed.queue e _ _ (settledState_keeps halt _).1 i
    have htd : ∀ i, ((terminate d st halt s).td i).txn = (s.td i).txn := by
      intro i
      rw [ht]
      exact finish_txn e d st s i
    refine ih _ hds.2 (fun i hi => ?_) (fun i hi => ?_) (terminate_paired d e st halt s hde hq hs)
    · rw [hqu]
      exact mem_finish_queue e d i st s (hd i (by simp [hi])) (fun hc => hds.1 (hc ▸ hi))
    · rw [hqu] at hi
      rw [htd]
      exact hq i (finish_queue_sub e d i e st s hi)

/-! EDs are taken away (R186, R188). -/

theorem removeEd_paired (e : Nat) (s : State) (he : e < s.cfg.maxEds) (ha : (s.ed e).alloc = true)
    (hq : (s.ed e).queue = []) (hs : s.Paired) : (removeEd e s).Paired := by
  rw [removeEd_live e s he ha]
  refine State.Paired.congr ?_ hs
  have hk := modEd_keeps Ed.queue e (fun x => { x with alloc := false }) s rfl
  refine { SamePairs.refl s with queue := hk, queueFree := fun h i hi => ?_ }
  by_cases hie : i = e
  · rw [hie]; exact (hk e).trans hq
  · refine (hk i).trans (h i ?_)
    have := congrArg Ed.alloc (modEd_ed_other e i (fun x => { x with alloc := false }) s (Ne.symm hie))
    exact this.symm.trans hi

theorem reapOne_paired (e : Nat) (s : State) (he : e < s.cfg.maxEds) (hs : s.Paired) : (reapOne e s).Paired := by
  cases hr : s.toReap e with
  | false => rw [reapOne_not e s hr]; exact hs
  | true =>
    rw [reapOne_toReap e s hr]
    obtain ⟨ha, -, hf⟩ := (toReap_iff s e).1 hr
    have hel : e < s.eds.length := ed_lt_of_ne_initial s e (fun hc => by rw [hc] at ha; exact Bool.noConfusion ha)
    have hq : ∀ i ∈ (s.ed e).queue, (s.td i).txn = none := hs.idle e (fun d hd => by
      unfold headInFlight at hf
      cases hqe : (s.ed e).queue with
      | nil => rw [hqe] at hd; simp at hd
      | cons a as =>
        rw [hqe] at hf hd
        obtain rfl : a = d := by simpa using hd
        simpa using hf)
    have hc := terminateAll_cancelled e (s.ed e).queue s hel (hs.places.queueEd e)
    refine removeEd_paired e _ (by rw [hc.frame.cfg_eq (by decide)]; exact he) (hc.edAlloc.trans ha)
      (hc.queue.trans (foldl_erase_self _)) ?_
    exact terminateAll_paired e .cancelled false _ s rfl (hs.places.queueNodup e) (fun _ h => h) hq hs

theorem reapList_paired (l : List Nat) (s : State) (hl : ∀ e ∈ l, e < s.cfg.maxEds) (hs : s.Paired) :
    (reapList l s).Paired := by
  induction l generalizing s with
  | nil => exact hs
  | cons e rest ih =>
    refine ih _ (fun i hi => ?_) (reapOne_paired e s (hl e (by simp)) hs)
    rw [(reapOne_framed e s).cfg_eq (by decide)]
    exact hl i (by simp [hi])

theorem reap_paired (s : State) (hs : s.Paired) : (reap s).Paired :=
  reapList_paired _ s (fun _ he => List.mem_range.1 he) hs

/-- `reap()` leaves nothing to reap (R161, R186). -/
theorem State.Paired.reap_nothing {s : State} (hs : s.Paired) (hp : s.poolsOk) (hc : s.classesOk) :
    (reap s).nothingToReap := by
  refine reap_nothingLeft s hp.2.1 (fun e _ _ d hd => ⟨hs.places.queueEd e d hd, ?_⟩) (fun m => ?_)
  · rw [← hp.2.1.2.1]; exact hs.mem_lt hd
  · have : m ∈ [Mode.iso, Mode.intr, Mode.ctrl, Mode.bulk] := by cases m <;> simp
    exact (hc m this).1

/-! Failed transactions (R145, R220 to R224). -/

theorem flushOne_paired (d : Nat) (s : State) (hp : s.poolsOk) (hd : d ∈ s.frame.active) (hs : s.Paired) :
    (flushOne d s).Paired ∧ (flushOne d s).poolsOk ∧ (flushOne d s).frame.active = s.frame.active.erase d := by
  have ha := (hs.places.active d).2 hd
  obtain ⟨x, hx⟩ := Option.ne_none_iff_exists'.1 ((hs.places.activeTxn d).1 ha)
  obtain ⟨p, hl⟩ := hs.liveTxn hp d x hx
  obtain ⟨e, he, hde, hq⟩ := hs.idle_ended x p d hl
  have h1 : flushOne d s = terminate d .timeout true (s.ended x p d) := by
    unfold flushOne abortTxn
    rw [hx, ← endTxn_ended s x p d hl]
  rw [h1]
  refine ⟨terminate_paired d e .timeout true _ he hq (ended_paired s x p d hl hs), ?_, ?_⟩
  · rw [← endTxn_ended s x p d hl]
    exact poolsOk_of_same (terminate_samePools _ _ _ _) (endTxn_poolsOk _ _ hp)
  · rw [(terminate_framed d .timeout true _).frame_eq (by decide)]
    rfl

theorem flushList_paired (l : List Nat) (s : State) (hn : l.Nodup) (hp : s.poolsOk) (hl : ∀ d ∈ l, d ∈ s.frame.active)
    (hs : s.Paired) : (flushList l s).Paired := by
  induction l generalizing s with
  | nil => exact hs
  | cons d rest ih =>
    rw [List.nodup_cons] at hn
    obtain ⟨h1, h2, h3⟩ := flushOne_paired d s hp (hl d (by simp)) hs
    refine ih _ hn.2 h2 (fun i hi => ?_) h1
    rw [h3]
    exact (List.mem_erase_of_ne (show i ≠ d from fun hc => hn.1 (hc ▸ hi))).2 (hl i (by simp [hi]))

theorem nak_samePairs (d : Nat) (s : State) : SamePairs s (nak d s) := modTd_samePairs d _ s rfl

theorem countError_paired (d e : Nat) (st : Ts) (s : State) (hd : d ∈ (s.ed e).queue)
    (hq : ∀ i ∈ (s.ed e).queue, (s.td i).txn = none) (hs : s.Paired) : (countError d st s).Paired := by
  have hk := modTd_keeps Td.txn d (fun t => { t with errorCount := t.errorCount + 1 }) s rfl
  have h1 := State.Paired.congr (modTd_samePairs d (fun t => { t with errorCount := t.errorCount + 1 }) s rfl) hs
  unfold countError
  simp only
  split
  · exact terminate_paired d e st _ _ hd (fun i hi => (hk i).trans (hq i hi)) h1
  · exact h1

theorem failed_paired (d e : Nat) (st : Ts) (s : State) (hd : d ∈ (s.ed e).queue)
    (hq : ∀ i ∈ (s.ed e).queue, (s.td i).txn = none) (hs : s.Paired) : (failed d st s).Paired := by
  unfold failed
  split
  · exact State.Paired.congr (nak_samePairs d s) hs
  · split
    · exact terminate_paired d e _ _ s hd hq hs
    · split
      · exact terminate_paired d e _ _ s hd hq hs
      · exact countError_paired d e st s hd hq hs

/-! The confirm events (R208 to R214). -/

theorem tokenConfirmed_paired (x p d : Nat) (st : Ts) (s : State) (hl : s.liveTxn x p d) (hs : s.Paired) :
    (tokenConfirmed x d st s).Paired := by
  obtain ⟨e, he, -, hq⟩ := hs.idle_ended x p d hl
  have hep := ended_paired s x p d hl hs
  unfold tokenConfirmed
  split
  · split
    · exact State.Paired.congr (dataWait_samePairs x s) hs
    · have hr := ringSubmit_framed (s.txn x).dataDesc s
      split
      · rename_i s1 heq
        rw [heq] at hr
        exact State.Paired.congr ((SamePairs.of_framed hr (by decide)).trans (dataWait_samePairs x s1)) hs
      · rename_i s1 heq
        rw [heq] at hr
        have hl1 : s1.liveTxn x p d := by
          have e1 : s1.txns = s.txns := hr.txns_eq (by decide)
          have e2 : s1.tds = s.tds := hr.tds_eq (by decide)
          have e3 : s1.pkts = s.pkts := hr.pkts_eq (by decide)
          have e4 : s1.cfg = s.cfg := hr.cfg_eq (by decide)
          have e5 : s1.dfree = s.dfree := hr.dfree_eq (by decide)
          unfold State.liveTxn State.onlyTxn
          simp only [State.txn, State.pkt, e1, e2, e3, e4, e5]
          exact hl
        rw [endTxn_ended s1 x p d hl1]
        exact ended_paired s1 x p d hl1 (State.Paired.congr (SamePairs.of_framed hr (by decide)) hs)
  · rw [endTxn_ended s x p d hl]
    split
    · exact State.Paired.congr (nak_samePairs d _) hep
    · exact terminate_paired d e st _ _ he hq hep

theorem terminate_ok_or (td' : Td) (len moved : Nat) (d e : Nat) (z : State) (hd : d ∈ (z.ed e).queue)
    (hq : ∀ i ∈ (z.ed e).queue, (z.td i).txn = none) (hz : z.Paired) :
    (if tdComplete td' len moved then terminate d .ok false z else z).Paired := by
  split
  · exact terminate_paired d e _ _ z hd hq hz
  · exact hz

theorem dataConfirmed_paired (x p d : Nat) (st : Ts) (n : Nat) (s : State) (hl : s.liveTxn x p d) (hs : s.Paired) :
    (dataConfirmed x d st n (setPktStatus p st s)).Paired := by
  obtain ⟨e, he, hde, hq⟩ := hs.idle_ended x p d hl
  by_cases hst : st = .ok
  · subst hst
    have hx : (s.td d).txn = some x := (hs.records.link d x).2 ⟨hl.1.2.1, hl.1.2.2.2.1⟩
    have htg := hs.places.activeToggle d ((hs.places.activeTxn d).2 (by simp [hx]))
    obtain ⟨b, hb⟩ : ∃ b, (s.td d).toggle = .val b := by
      cases h : (s.td d).toggle with
      | val b => exact ⟨b, rfl⟩
      | carry => exact absurd h htg
    rw [dataConfirmed_ok s x p d e b n hl hde hb]
    obtain ⟨td', htd'⟩ : ∃ td' : Td, td' = { s.td d with
      txn := none, place := .queued
      transferred := (s.td d).transferred + BitVec.ofNat 32 (if (s.td d).dir = .inn then n else (s.txn x).len.toNat)
      toggle := .val (if (s.ed e).mode = .iso then b else !b)
      zlpPending := if (s.txn x).len.toNat = 0 then false else (s.td d).zlpPending } := ⟨_, rfl⟩
    obtain ⟨z, hz⟩ : ∃ z : State, z = { s.ended x p d with
          tds := s.tds.modify d (fun _ => td')
          txns := s.txns.modify x (fun t => { t with phase := .confirmed, alloc := false }) } := ⟨_, rfl⟩
    simp only [← htd', ← hz]
    have hE := ended_at s x p d hl
    have hdl := hl.2.2.2.2.1
    have htd : ∀ i, z.td i = if i = d then td' else s.td i := by
      intro i
      rw [hz]
      split
      · rename_i hi; subst hi; exact modTd_td_self i (fun _ => td') s hdl
      · rename_i hi; exact modTd_td_other d i (fun _ => td') s (Ne.symm hi)
    have htx : ∀ i, z.txn i = if i = x then { s.txn x with phase := .confirmed, alloc := false } else s.txn i := by
      intro i
      rw [hz]
      split
      · rename_i hi; subst hi; exact modTxn_txn_self i _ s hl.1.1
      · rename_i hi; exact modTxn_txn_other x i _ s (Ne.symm hi)
    have hzE : EndedAt x p d s z := by
      constructor
      · intro i; rw [htd]; split; subst i; rw [htd']; rfl
      · intro i; rw [htd]; split; rw [htd']; rfl
      · intro i; rw [htd]; split; subst i; rw [htd']; rfl
      · intro i; rw [htd]; split; exact .inl (by assumption); exact .inr rfl
      · intro i; rw [htd]; split; subst i; rw [htd']; rfl
      · intro i; rw [htd]; split; rw [htd']; rfl
      · intro i; rw [htx]; split <;> rfl
      · intro i hi; rw [htx, if_neg hi]
      · rw [hz]; exact hE.out
      all_goals rw [hz]; first | rfl | exact fun _ => rfl
    refine terminate_ok_or td' _ _ d e z ?_ ?_ (hs.ended hl.1.2.1 hl.1.2.2.2.1 hl.1.2.2.1 hzE)
    · rw [hzE.queue]; exact he
    · intro i hi
      rw [hzE.queue] at hi
      rw [hzE.txnOf]
      have := hq i hi
      rwa [hE.txnOf] at this
  · unfold dataConfirmed
    rw [if_pos hst, endTxn_ended _ x p d (liveTxn_pktStatus s x p d st hl), ended_pktStatus]
    exact failed_paired d e st _ he hq (ended_paired s x p d hl hs)

theorem setPktStatus_liveTxn_paired (x p d : Nat) (st : Ts) (s : State) (hl : s.liveTxn x p d) (hs : s.Paired) :
    (tokenConfirmed x d st (setPktStatus p st s)).Paired :=
  tokenConfirmed_paired x p d st _ (liveTxn_pktStatus s x p d st hl) (State.Paired.congr (setPktStatus_samePairs p st s) hs)

/-- The record a search by Packet finds is live, with its TD (R41). -/
theorem txnOfPkt_live {s : State} (hs : s.Paired) (hp : s.poolsOk) {p t : Nat} (h : txnOfPkt s p = some t) :
    ∃ d, (s.txn t).td = some d ∧ s.liveTxn t p d := by
  have hf := List.find?_some h
  simp only [Bool.and_eq_true, decide_eq_true_eq] at hf
  obtain ⟨d, hd⟩ := hs.records.td t hf.1
  obtain ⟨q, hl⟩ := hs.liveTxn hp d t ((hs.records.link d t).2 ⟨hf.1, hd⟩)
  have : q = p := Option.some.inj (hl.1.2.2.1.symm.trans hf.2)
  exact ⟨d, hd, this ▸ hl⟩

theorem flagSpuriousConfirm_paired (s : State) (hs : s.Paired) : s.flagSpuriousConfirm.Paired :=
  State.Paired.congr (setDiag_samePairs _ s rfl) hs

theorem txConfirmBody_paired (st : Ts) (p : Nat) (s : State) (hp : s.poolsOk) (hs : s.Paired) :
    (txConfirmBody st p s).Paired := by
  unfold txConfirmBody
  split
  · exact flagSpuriousConfirm_paired s hs
  · rename_i t ht
    obtain ⟨d, hd, hl⟩ := txnOfPkt_live hs hp ht
    rw [hd]
    simp only
    split
    · exact setPktStatus_liveTxn_paired t p d st s hl hs
    · split
      · exact dataConfirmed_paired t p d st _ s hl hs
      · exact flagSpuriousConfirm_paired s hs

theorem rxConfirmBody_paired (st : Ts) (p n : Nat) (s : State) (hp : s.poolsOk) (hs : s.Paired) :
    (rxConfirmBody st p n s).Paired := by
  unfold rxConfirmBody
  split
  · exact flagSpuriousConfirm_paired s hs
  · rename_i t ht
    obtain ⟨d, hd, hl⟩ := txnOfPkt_live hs hp ht
    rw [hd]
    simp only
    split
    · exact flagSpuriousConfirm_paired s hs
    · split
      · exact dataConfirmed_paired t p d _ _ _ hl (State.Paired.congr (setDiag_samePairs _ s rfl) hs)
      · exact dataConfirmed_paired t p d _ _ s hl hs

end Sys2Proof.Machine
end

