-- ==== Sys2Proof/Laws/FlightsStart.lean ====
section
/-! SUPPORT. Laws/FlightsStart.lean: the frame scheduler, SUBMIT, EP_TEARDOWN and DRAIN keep TDs, Transaction records,
Packets, dummy buffers and Tokens paired (R65(b), (f), (g)). -/

namespace Sys2Proof.Machine

/-! Admission (R152, R156, R204). -/

theorem PutBack.samePairs {s t : State} (h : PutBack s t) (hs : s.poolsOk) : SamePairs s t := by
  have ho : ∀ p, s.ringHandles.head? = some p → (s.pkt p).out = false := by
    intro p hp
    have hm := List.mem_of_head? hp
    exact (hs.2.2.2.2.2.2.2 p (hs.2.2.2.2.2.2.1 p hm)).1 hm
  refine ⟨fun i => by rw [td_congr h.tds], fun i => by rw [tok_congr (h.frame.toks_eq (by decide))], h.txnAlloc,
    fun x hx => ?_, fun p => ?_, fun u => by rw [h.dfree], ?_, h.frame.done_eq (by decide), fun e => ?_, fun hq e => ?_,
    h.frame.cfg_eq (by decide), by rw [h.diag]; exact id⟩
  · rw [h.txn x hx]; exact ⟨rfl, .inl rfl⟩
  · by_cases hp : s.ringHandles.head? = some p
    · rw [h.pktHead p hp, ho p hp]; rfl
    · rw [h.pktOther p hp]
  · rw [h.frame.frame_eq (by decide)]
  · rw [ed_congr (h.frame.eds_eq (by decide))]
  · rw [ed_congr (h.frame.eds_eq (by decide))]; exact hq e

theorem admitted_at (e d x cost us : Nat) (xs : List Nat) (v : Env) (len : Nat) (s : State) (hs : s.poolsOk)
    (hx : s.xfree = x :: xs) (hr : s.ring.cnt ≠ 0) (hu : len = 0 → s.dfree ≠ []) (hd : d < s.tds.length)
    (hlen : len < 2 ^ 11) :
    AdmittedAt x (s.ring.slots.getD s.ring.rd 0) d (if len = 0 then s.dfree.head? else none) s
      (commit d cost us (dispatched e d len (s.ring.slots.getD s.ring.rd 0) x
        (if len = 0 then s.dfree.head? else none) v s)) ∧
    (s.txn x).alloc = false ∧ (s.pkt (s.ring.slots.getD s.ring.rd 0)).out = false := by
  obtain ⟨p, hp⟩ : ∃ p, p = s.ring.slots.getD s.ring.rd 0 := ⟨_, rfl⟩
  obtain ⟨u, hud⟩ : ∃ u, u = (if len = 0 then s.dfree.head? else none) := ⟨_, rfl⟩
  have hpm : p ∈ s.ringHandles := by rw [ringHandles_head s hs.2.2.2 hr, hp]; simp
  have hpc := hs.2.2.2.2.2.2.1 p hpm
  have hpl : p < s.pkts.length := by rw [hs.2.1.2.2.2.2.1]; exact hpc
  have hpo : (s.pkt p).out = false := (hs.2.2.2.2.2.2.2 p hpc).1 hpm
  have hxf := hs.2.2.1.2.2.2.1
  have hxm : x ∈ s.xfree := by rw [hx]; simp
  have hxc : x < s.cfg.maxTxns := hxf.2.1 x hxm
  have hxa : (s.txn x).alloc = false := (hxf.2.2 x hxc).1 hxm
  have hxl : x < s.txns.length := by rw [hs.2.1.2.2.2.1]; exact hxc
  rw [← hp, ← hud]
  refine ⟨?_, hxa, hpo⟩
  obtain ⟨pr, hpr⟩ : ∃ pr, pr = prepare s e d len p u := ⟨_, rfl⟩
  obtain ⟨w, hw⟩ : ∃ w, w = dispatched e d len p x u v s := ⟨_, rfl⟩
  have hwd : w.tds = s.tds.modify d (fun t => { t with toggle := .val pr.toggle, txn := some x }) := by
    rw [hw, hpr]; rfl
  have hwx : w.txns = s.txns.modify x (fun _ => { pr.txn with phase := .tokenWait }) := by rw [hw, hpr]; rfl
  have hwp : w.pkts = s.pkts.modify p (fun _ => pr.pkt) := by rw [hw, hpr]; rfl
  have hwf : w.dfree = if len = 0 then s.dfree.tail else s.dfree := by rw [hw]; rfl
  have hweds : w.eds = s.eds := by rw [hw]; rfl
  have hwtoks : w.toks = s.toks := by rw [hw]; rfl
  have hwdone : w.done = s.done := by rw [hw]; rfl
  have hwdiag : w.diag = s.diag := by rw [hw]; rfl
  have hwcfg : w.cfg = s.cfg := by rw [hw]; rfl
  have hwframe : w.frame = s.frame := by rw [hw]; rfl
  rw [← hw]
  have htd : ∀ i, (commit d cost us w).td i = if i = d then
      { s.td d with place := .active, startFrame := w.frame.number, toggle := .val pr.toggle, txn := some x }
      else s.td i := by
    intro i
    have h1 : ∀ i, w.td i = (s.modTd d (fun t => { t with toggle := .val pr.toggle, txn := some x })).td i :=
      fun i => td_congr hwd i
    split
    · rename_i hi
      subst hi
      have h2 : (commit i cost us w).td i = _ := modTd_td_self i _ _ (by
        show i < w.tds.length
        rw [hwd, List.length_modify]
        exact hd)
      rw [h2]
      show ({ w.td i with place := .active, startFrame := w.frame.number } : Td) = _
      rw [h1, modTd_td_self i _ s hd]
    · rename_i hi
      have h2 : (commit d cost us w).td i = w.td i := modTd_td_other d i _ _ (Ne.symm hi)
      rw [h2, h1, modTd_td_other d i _ s (Ne.symm hi)]
  have htx : ∀ i, (commit d cost us w).txn i = if i = x then { pr.txn with phase := .tokenWait } else s.txn i := by
    intro i
    have h1 : (commit d cost us w).txn i = (s.modTxn x (fun _ => { pr.txn with phase := .tokenWait })).txn i :=
      txn_congr hwx i
    rw [h1]
    split
    · rename_i hi; subst hi; exact modTxn_txn_self i _ s hxl
    · rename_i hi; exact modTxn_txn_other x i _ s (Ne.symm hi)
  constructor
  · intro i; rw [htd]; split; subst i; rfl; rfl
  · intro i; rw [htd]; split <;> rfl
  · intro i; rw [htd]; split; subst i; rfl; rfl
  · intro i; rw [htd]; split <;> simp
  · intro i; rw [htd]; split; subst i; rfl; rfl
  · intro i; rw [htd]; split <;> rfl
  · intro i; rw [htx]; split; rw [hpr]; rfl; rfl
  · rw [htx, if_pos rfl, hpr]; exact ⟨⟨rfl, rfl, rfl, rfl⟩, rfl⟩
  · rw [htx, if_pos rfl, hpr]
    show BitVec.ofNat 11 len = 0#11 ↔ u ≠ none
    rw [← BitVec.toNat_inj, BitVec.toNat_ofNat, BitVec.toNat_ofNat, Nat.mod_eq_of_lt hlen, hud]
    by_cases hl : len = 0
    · obtain ⟨y, ys, hy⟩ := List.exists_cons_of_ne_nil (hu hl)
      simp [hl, hy]
    · simp [hl]
  · intro i hi; rw [htx, if_neg hi]
  · intro i
    have h1 : (commit d cost us w).pkt i = (s.modPkt p (fun _ => pr.pkt)).pkt i := pkt_congr hwp i
    rw [h1]
    split
    · rename_i hi; subst hi; rw [modPkt_pkt_self i _ s hpl, hpr]; rfl
    · rename_i hi; rw [modPkt_pkt_other p i _ s (Ne.symm hi)]
  · show s.dfree = u.toList ++ w.dfree
    rw [hwf, hud]
    by_cases hl : len = 0
    · rw [if_pos hl, if_pos hl]
      obtain ⟨y, ys, hy⟩ := List.exists_cons_of_ne_nil (hu hl)
      rw [hy]; rfl
    · rw [if_neg hl, if_neg hl]; rfl
  · show w.frame.active ++ [d] = _
    rw [hwframe]
  · intro i
    show (w.ed i).queue = _
    rw [ed_congr hweds]
  · intro i
    show (w.ed i).alloc = _
    rw [ed_congr hweds]
  · intro i
    show w.tok i = _
    rw [tok_congr hwtoks]
  · exact hwdone
  · show w.diag.doubleRelease = _
    rw [hwdiag]
  · exact hwcfg

theorem offer_paired (e d len cost us : Nat) (s : State) (hp : s.poolsOk) (hh : (s.ed e).queue.head? = some d)
    (hlen : len < 2 ^ 11) (hx : (s.td d).txn = none) (hs : s.Paired) : (offer e d len cost us s).Paired := by
  unfold offer
  rcases dispatch_cases e d len s hp with ⟨t, h, hb⟩ | ⟨x, xs, v, hxf, hr, hu, h⟩
  · rw [h]
    exact State.Paired.congr (hb.samePairs hp) hs
  · rw [h]
    obtain ⟨h1, h2, h3⟩ := admitted_at e d x cost us xs v len s hp hxf hr hu (hs.mem_lt (List.mem_of_head? hh)) hlen
    exact hs.admitted hh hx h2 h3 hp.2.2.1.2.2.2.2.1 hp.2.2.1.2.2.2.2.2 h1

theorem sofRemaining_samePairs (s : State) : SamePairs s (sofRemaining s).2 :=
  SamePairs.of_framed (sofRemaining_framed s) (by decide)

theorem tryAdmit_paired (e d : Nat) (s : State) (hp : s.poolsOk) (hh : (s.ed e).queue.head? = some d)
    (hx : (s.td d).txn = none) (hs : s.Paired) : (tryAdmit e d s).Paired := by
  have hsof := sofRemaining_framed s
  have hsp := poolsOk_of_framed hsof (by decide) hp
  have hpr := State.Paired.congr (sofRemaining_samePairs s) hs
  have he := ed_congr (hsof.eds_eq (by decide)) e
  have ht := td_congr (hsof.tds_eq (by decide)) d
  unfold tryAdmit
  simp only
  split
  · exact hs
  · split
    · exact State.Paired.congr (closeFrame_samePairs _ _) hs
    · split
      · exact State.Paired.congr (closeFrame_samePairs _ _) hpr
      · exact offer_paired e d _ _ _ _ hsp (by rw [he]; exact hh) (nextLen_lt s e d) (by rw [ht]; exact hx) hpr

theorem scanOne_paired (c : Mode) (e : Nat) (s : State) (hp : s.poolsOk) (hs : s.Paired) : (scanOne c e s).Paired := by
  unfold scanOne
  split
  · exact hs
  · split
    · exact hs
    · rename_i d ds hq
      split
      · exact hs
      · rename_i hx
        split
        · exact hs
        · exact tryAdmit_paired e d s hp (by rw [hq]; rfl) (by simpa using hx) hs

theorem scanList_paired (c : Mode) (l : List Nat) (s : State) (hp : s.poolsOk) (hs : s.Paired) :
    (scanList c l s).Paired := by
  induction l generalizing s with
  | nil => exact hs
  | cons e rest ih => exact ih _ (scanOne_poolsOk c e s hp) (scanOne_paired c e s hp hs)

theorem scan_paired (c : Mode) (s : State) (hp : s.poolsOk) (hs : s.Paired) : (scan c s).Paired :=
  State.Paired.congr (SamePairs.of_framed (setCls_framed _ _) (by decide)) (scanList_paired c _ s hp hs)

theorem newFrame_paired (s : State) (hp : s.poolsOk) (hs : s.Paired) : (newFrame s).Paired := by
  have p0 : (openFrame s).poolsOk := poolsOk_of_framed (setFrame_framed _ s) (by decide) hp
  have s0 := State.Paired.congr (openFrame_samePairs s) hs
  have p1 := scan_poolsOk .iso _ p0
  have s1 := scan_paired .iso _ p0 s0
  have p2 := scan_poolsOk .intr _ p1
  have s2 := scan_paired .intr _ p1 s1
  have p3 := scan_poolsOk .ctrl _ p2
  have s3 := scan_paired .ctrl _ p2 s2
  unfold newFrame scanClasses
  simp only
  split
  · split
    · exact s3
    · exact scan_paired .bulk _ p3 s3
  · exact s0

theorem frameStartBody_paired (s : State) (hp : s.poolsOk) (hs : s.Paired) : (frameStartBody s).Paired := by
  have p1 := poolsOk_of_framed (setFrnum_framed (nextFrnum s.cfg s.frnum) s) (by decide) hp
  have s1 := State.Paired.congr (SamePairs.of_framed (setFrnum_framed (nextFrnum s.cfg s.frnum) s) (by decide)) hs
  unfold frameStartBody
  simp only
  split
  · exact newFrame_paired _ p1 s1
  · split
    · exact newFrame_paired _ (forceFlush_poolsOk _ p1)
        (flushList_paired _ _ s1.places.activeNodup p1 (fun _ h => h) s1)
    · exact s1

/-! DRAIN (R261, R266). -/

/-- A drained TD has its own live Token (R35). -/
theorem State.Paired.done_token {s : State} (hs : s.Paired) (hp : s.poolsOk) (d : Nat) (hd : d ∈ s.done) :
    (s.td d).alloc = true ∧ d < s.tds.length ∧ ∃ k, (s.td d).token = some k ∧ (s.tok k).alloc = true ∧
      k < s.cfg.maxTokens ∧ k < s.toks.length := by
  have hpl := (hs.places.done d).2 hd
  have ha : (s.td d).alloc = true := by
    by_contra hc
    have := (hs.places.free d).2 (by simpa using hc)
    rw [hpl] at this
    exact absurd this (by decide)
  obtain ⟨k, hk⟩ := hs.tokens.has d ha
  have hka := ((hs.tokens.link d k).1 hk).1
  have hkl : k < s.toks.length := tok_lt_of_ne_initial s k (fun hc => by rw [hc] at hka; exact Bool.noConfusion hka)
  exact ⟨ha, td_lt_of_ne_initial s d (fun hc => by rw [hc] at ha; exact Bool.noConfusion ha), k, hk, hka,
    by rw [← hp.2.1.2.2.1]; exact hkl, hkl⟩

theorem drainOne_drained (d : Nat) (rest : List Nat) (s : State) (hp : s.poolsOk) (hd : s.done = d :: rest)
    (hs : s.Paired) : ∃ k, (s.td d).token = some k ∧ DrainedAt d k s (drainOne d (s.setDone rest)) ∧
      (drainOne d (s.setDone rest)).tfree = d :: s.tfree ∧ (drainOne d (s.setDone rest)).kfree = k :: s.kfree := by
  obtain ⟨ha, hdl, k, hk, hka, hkc, hkl⟩ := hs.done_token hp d (by rw [hd]; simp)
  have hdc : d < s.cfg.maxTds := by rw [← hp.2.1.2.1]; exact hdl
  refine ⟨k, hk, ?_⟩
  rw [drainOne_eq]
  obtain ⟨z, hz⟩ : ∃ z, z = beforeFree d (s.setDone rest) := ⟨_, rfl⟩
  have hzf : Framed [.mem, .out, .done] s z := by
    rw [hz]
    exact ((setDone_framed rest s).mono (by decide)).trans ((beforeFree_framed d _).mono (by decide))
  have hzd : z.done = rest := by rw [hz, (beforeFree_framed d _).done_eq (by decide)]; rfl
  have hztd := td_congr (hzf.tds_eq (by decide))
  have hztk := tok_congr (hzf.toks_eq (by decide))
  have hzc := hzf.cfg_eq (by decide)
  rw [← hz]
  have h1 : tokenFreeOpt (z.td d).token z = (z.modTok k (fun t => { t with alloc := false })).setKfree (k :: z.kfree) := by
    rw [hztd, hk]
    exact tokenFree_live z k (by rw [hzc]; exact hkc) (by rw [hztk]; exact hka)
  have h2 : freeTd d z = ((((z.modTok k (fun t => { t with alloc := false })).setKfree (k :: z.kfree)).modTd d
      (fun t => { t with token := none, place := .free })).modTd d (fun t => { t with alloc := false })).setTfree
        (d :: z.tfree) := by
    unfold freeTd
    rw [h1]
    refine tdFree_live _ d (by rw [← hzc] at hdc; exact hdc) ?_
    have := modTd_keeps Td.alloc d (fun t => { t with token := none, place := .free })
      ((z.modTok k (fun t => { t with alloc := false })).setKfree (k :: z.kfree)) rfl d
    rw [this]
    show (z.td d).alloc = true
    rw [hztd]
    exact ha
  rw [h2]
  have hzdl : d < z.tds.length := by rw [hzf.tds_eq (by decide)]; exact hdl
  have hzkl : k < z.toks.length := by rw [hzf.toks_eq (by decide)]; exact hkl
  refine ⟨⟨?_, ?_, ?_, ?_, ?_, ?_⟩, ?_, ?_⟩
  · have e1 := modTd_td_self d (fun t => { t with token := none, place := .free })
      ((z.modTok k (fun t => { t with alloc := false })).setKfree (k :: z.kfree)) hzdl
    have e2 := modTd_td_self d (fun t => { t with alloc := false })
      (((z.modTok k (fun t => { t with alloc := false })).setKfree (k :: z.kfree)).modTd d
        (fun t => { t with token := none, place := .free }))
      (by show d < (z.tds.modify d _).length; rw [List.length_modify]; exact hzdl)
    refine e2.trans ?_
    rw [e1]
    show ({ z.td d with token := none, place := .free, alloc := false } : Td) = _
    rw [hztd]
  · intro i hi
    have e1 := modTd_td_other d i (fun t => { t with token := none, place := .free })
      ((z.modTok k (fun t => { t with alloc := false })).setKfree (k :: z.kfree)) (Ne.symm hi)
    have e2 := modTd_td_other d i (fun t => { t with alloc := false })
      (((z.modTok k (fun t => { t with alloc := false })).setKfree (k :: z.kfree)).modTd d
        (fun t => { t with token := none, place := .free })) (Ne.symm hi)
    exact e2.trans (e1.trans (hztd i))
  · refine (modTok_tok_self k (fun t => { t with alloc := false }) z hzkl).trans ?_
    rw [hztk]
  · intro i hi
    exact (modTok_tok_other k i (fun t => { t with alloc := false }) z (Ne.symm hi)).trans (hztk i)
  · show s.done = d :: z.done
    rw [hzd, hd]
  · exact (hzf.mono (by decide)).trans (((modTok_framed _ _ _).mono (by decide)).trans
      (((setKfree_framed _ _).mono (by decide)).trans (((modTd_framed _ _ _).mono (by decide)).trans
        (((modTd_framed _ _ _).mono (by decide)).trans ((setTfree_framed _ _).mono (by decide))))))
  · show d :: z.tfree = _
    rw [hzf.tfree_eq (by decide)]
  · show k :: z.kfree = _
    rw [hzf.kfree_eq (by decide)]

theorem drainList_paired (l : List Nat) (s : State) (hp : s.poolsOk) (hl : s.done = l) (hs : s.Paired) :
    (drainList l s).Paired ∧ (drainList l s).tfree = l.reverse ++ s.tfree := by
  induction l generalizing s with
  | nil => exact ⟨hs, rfl⟩
  | cons d rest ih =>
    obtain ⟨k, hk, hd, htf, -⟩ := drainOne_drained d rest s hp hl hs
    have hdone : (drainOne d (s.setDone rest)).done = rest := by
      have := hd.done
      rw [hl] at this
      exact (List.cons.inj this).2.symm
    have := ih (drainOne d (s.setDone rest))
      (drainOne_poolsOk _ _ (poolsOk_of_framed (setDone_framed rest s) (by decide) hp)) hdone (hs.drained hk hd)
    refine ⟨this.1, ?_⟩
    rw [drainList, this.2, htf]
    simp

theorem drainPass_paired (s : State) (hp : s.poolsOk) (hs : s.Paired) : (drainPass s).Paired :=
  State.Paired.congr (SamePairs.of_framed (setDrainp_framed false _) (by decide)) (drainList_paired _ s hp rfl hs).1

/-! SUBMIT (R170, R172, R176). -/

theorem makeTd_made (e : Nat) (h : Addr) (sp : TdSpec) (last : Bool) (s : State) (hp : s.poolsOk)
    (he : (s.ed e).alloc = true) (hs : s.Paired) :
    (makeTd e h sp last s).Paired ∧ ((makeTd e h sp last s).ed e).alloc = true := by
  cases ht : s.tfree with
  | nil =>
    have : makeTd e h sp last s = s := by unfold makeTd; simp only [tdAlloc, ht]
    rw [this]
    exact ⟨hs, he⟩
  | cons d ds =>
    cases hk : s.kfree with
    | nil =>
      have : makeTd e h sp last s = s := by
        unfold makeTd
        simp only [tdAlloc, ht, tokenAlloc, State.modTd_kfree, State.setTfree_kfree, hk]
      rw [this]
      exact ⟨hs, he⟩
    | cons k ks =>
      have hdm : d ∈ s.tfree := by rw [ht]; simp
      have hkm : k ∈ s.kfree := by rw [hk]; simp
      obtain ⟨-, f2, f3, -⟩ := hp.2.2.1
      have hdc := f2.2.1 d hdm
      have hkc := f3.2.1 k hkm
      have hda := (f2.2.2 d hdc).1 hdm
      have hka := (f3.2.2 k hkc).1 hkm
      have hdl : d < s.tds.length := by rw [hp.2.1.2.1]; exact hdc
      have hkl : k < s.toks.length := by rw [hp.2.1.2.2.1]; exact hkc
      have hel : e < s.eds.length := ed_lt_of_ne_initial s e (fun hc => by rw [hc] at he; exact Bool.noConfusion he)
      rw [makeTd_eq e h sp last s d k ds ks ht hk]
      obtain ⟨t, htt⟩ : ∃ t : State, t = { s with
        tfree := ds
        kfree := ks
        tds := s.tds.modify d (fun _ => madeTd e k h s.frnum sp last)
        toks := s.toks.modify k (fun _ => madeTok (s.ed e) d sp)
        eds := s.eds.modify e (fun x => { x with queue := x.queue ++ [d] }) } := ⟨_, rfl⟩
      rw [← htt]
      have h1 : ∀ i, t.td i = (s.modTd d (fun _ => madeTd e k h s.frnum sp last)).td i :=
        fun i => td_congr (by rw [htt]; rfl) i
      have h2 : ∀ i, t.tok i = (s.modTok k (fun _ => madeTok (s.ed e) d sp)).tok i :=
        fun i => tok_congr (by rw [htt]; rfl) i
      have h3 : ∀ i, t.ed i = (s.modEd e (fun x => { x with queue := x.queue ++ [d] })).ed i :=
        fun i => ed_congr (by rw [htt]; rfl) i
      have h4 : ∀ i, (t.ed i).alloc = (s.ed i).alloc := fun i => by
        rw [h3]; exact modEd_keeps Ed.alloc e _ s rfl i
      refine ⟨hs.made hda hka he (e := e) ⟨?_, ?_, ?_, ?_, ?_, h4, ?_⟩, (h4 e).trans he⟩
      · rw [h1, modTd_td_self d _ s hdl]; rfl
      · intro i hi; rw [h1, modTd_td_other d i _ s (Ne.symm hi)]
      · rw [h2, modTok_tok_self k _ s hkl]; exact ⟨rfl, rfl⟩
      · intro i hi; rw [h2, modTok_tok_other k i _ s (Ne.symm hi)]
      · intro i
        rw [h3]
        split
        · rename_i hi; rw [hi, modEd_ed_self e _ s hel]
        · rename_i hi; rw [modEd_ed_other e i _ s (Ne.symm hi)]
      · rw [htt]
        intro f hf
        cases f <;> first | rfl | (simp at hf)

theorem linkTds_paired (e : Nat) (h : Addr) (l : List TdSpec) (s : State) (hp : s.poolsOk)
    (he : (s.ed e).alloc = true) (hs : s.Paired) : (linkTds e h l s).Paired := by
  induction l generalizing s with
  | nil => exact hs
  | cons sp rest ih =>
    obtain ⟨h1, h2⟩ := makeTd_made e h sp rest.isEmpty s hp he hs
    exact ih _ (makeTd_poolsOk _ _ _ _ _ hp) h2 h1

theorem createEd_paired (eid : EndpointId) (s : State) (hp : s.poolsOk) (hs : s.Paired) :
    (createEd eid s).2.Paired ∧ ∀ e, (createEd eid s).1 = some e → ((createEd eid s).2.ed e).alloc = true := by
  unfold createEd edAlloc
  cases hf : s.efree with
  | nil => exact ⟨hs, fun e h => by simp at h⟩
  | cons i rest =>
    have him : i ∈ s.efree := by rw [hf]; simp
    have hic := hp.2.2.1.1.2.1 i him
    have hia := (hp.2.2.1.1.2.2 i hic).1 him
    have hil : i < s.eds.length := by rw [hp.2.1.1]; exact hic
    have hq := hs.places.queueFree i hia
    simp only
    obtain ⟨t, ht⟩ : ∃ t, t = ((s.setEfree rest).modEd i (fun e => { e with alloc := true })).modEd i (newEd eid) := ⟨_, rfl⟩
    rw [← ht]
    have hti : t.ed i = newEd eid { s.ed i with alloc := true } := by
      rw [ht]
      have e1 := modEd_ed_self i (fun e => { e with alloc := true }) (s.setEfree rest) hil
      have e2 := modEd_ed_self i (newEd eid) ((s.setEfree rest).modEd i (fun e => { e with alloc := true }))
        (by show i < (s.eds.modify i _).length; rw [List.length_modify]; exact hil)
      rw [e2, e1]
      rfl
    have hto : ∀ j, j ≠ i → t.ed j = s.ed j := by
      intro j hj
      rw [ht, modEd_ed_other i j _ _ (Ne.symm hj), modEd_ed_other i j _ _ (Ne.symm hj)]
      rfl
    have htf : Framed [.eds, .efree] s t := by
      rw [ht]
      exact ((setEfree_framed _ _).mono (by decide)).trans (((modEd_framed _ _ _).mono (by decide)).trans
        ((modEd_framed _ _ _).mono (by decide)))
    have hqs : ∀ j, (t.ed j).queue = (s.ed j).queue := by
      intro j
      by_cases hj : j = i
      · rw [hj, hti, hq]; rfl
      · rw [hto j hj]
    refine ⟨State.Paired.congr (SamePairs.of_framed (setCls_framed _ t) (by decide)) ?_, ?_⟩
    · refine State.Paired.congr ⟨fun i => ?_, fun i => ?_, fun i => ?_, fun x _ => ?_, fun p => ?_, fun u => ?_, ?_,
        htf.done_eq (by decide), hqs, fun h j hj => ?_, htf.cfg_eq (by decide), ?_⟩ hs
      · rw [td_congr (htf.tds_eq (by decide))]
      · rw [tok_congr (htf.toks_eq (by decide))]
      · rw [txn_congr (htf.txns_eq (by decide))]
      · rw [txn_congr (htf.txns_eq (by decide))]; exact ⟨rfl, .inl rfl⟩
      · rw [pkt_congr (htf.pkts_eq (by decide))]
      · rw [htf.dfree_eq (by decide)]
      · rw [htf.frame_eq (by decide)]
      · rw [hqs]
        by_cases hji : j = i
        · rw [hji]; exact hq
        · rw [hto j hji] at hj
          exact h j hj
      · rw [htf.diag_eq (by decide)]; exact id
    · intro e he
      obtain rfl : i = e := Option.some.inj he
      show (t.ed i).alloc = true
      rw [hti]
      rfl

theorem openRequest_samePairs (h : Addr) (s : State) : SamePairs s (openRequest h s) :=
  SamePairs.of_framed (openRequest_framed h s) (by decide)

theorem lookup_alloc {s : State} {k : BitVec 12} {e : Nat} (h : lookup s k = some e) :
    (s.ed e).alloc = true ∧ e < s.eds.length := by
  have hf := List.find?_some h
  simp only [Bool.and_eq_true, decide_eq_true_eq] at hf
  exact ⟨hf.1, List.mem_range.1 (List.mem_of_find?_eq_some h)⟩

theorem acceptOn_paired (e : Nat) (h : Addr) (specs : List TdSpec) (s : State) (hp : s.poolsOk)
    (he : (s.ed e).alloc = true) (hs : s.Paired) : (acceptOn e h specs s).Paired :=
  State.Paired.congr ((modEd_samePairs e _ _ rfl rfl).trans (openRequest_samePairs h _))
    (linkTds_paired e h specs s hp he hs)

theorem respond_samePairs (op : BitVec 8) (c : Code) (v : BitVec 16) (s : State) : SamePairs s (respond op c v s) :=
  SamePairs.of_framed (respond_framed op c v s) (by decide)

theorem verdict_lookup {s : State} {eid : EndpointId} {hw : Word} {e : Option Nat}
    (h : submitVerdict s eid hw = .accept e) : lookup s (pipeKey eid) = e := by
  unfold submitVerdict at h
  simp only at h
  repeat' split at h
  all_goals first
    | exact (SubmitVerdict.accept.inj h)
    | exact SubmitVerdict.noConfusion h

theorem submitBody_paired (eid : EndpointId) (hw : Word) (s : State) (hp : s.poolsOk) (hs : s.Paired) :
    (submitBody eid hw s).Paired := by
  unfold submitBody
  split
  · exact State.Paired.congr (respond_samePairs _ _ _ s) hs
  · rename_i e hv
    refine State.Paired.congr (respond_samePairs _ _ _ _) ?_
    have hl := verdict_lookup hv
    unfold submitAccept
    cases e with
    | some e => exact acceptOn_paired e _ _ s hp (lookup_alloc hl).1 hs
    | none =>
      obtain ⟨h1, h2⟩ := createEd_paired eid s hp hs
      have h3 := createEd_poolsOk eid s hp
      simp only [ensureEd]
      split
      · rename_i s1 heq
        rw [heq] at h1
        exact h1
      · rename_i e s1 heq
        rw [heq] at h1 h2 h3
        exact acceptOn_paired e _ _ s1 h3 (h2 e rfl) h1

/-! The other host commands. -/

theorem cancelBody_paired (hw : Word) (s : State) (hs : s.Paired) : (cancelBody hw s).Paired := by
  unfold cancelBody
  split
  · exact State.Paired.congr (respond_samePairs _ _ _ s) hs
  · split
    · exact State.Paired.congr (respond_samePairs _ _ _ s) hs
    · rename_i t _
      refine State.Paired.congr (respond_samePairs _ _ _ _) ?_
      unfold markDying
      split
      · exact hs
      · exact State.Paired.congr (modEd_samePairs _ _ s rfl rfl) hs

theorem clearHaltBody_paired (eid : EndpointId) (s : State) (hs : s.Paired) : (clearHaltBody eid s).Paired := by
  unfold clearHaltBody
  split
  · exact State.Paired.congr (respond_samePairs _ _ _ s) hs
  · split
    · exact State.Paired.congr (respond_samePairs _ _ _ s) hs
    · refine State.Paired.congr ((modEd_samePairs _ _ s ?_ (clearHalt_alloc _)).trans (respond_samePairs _ _ _ _)) hs
      unfold clearHalt
      split <;> rfl

/-- EP_TEARDOWN of a known pipe (R188). -/
theorem teardownEd_paired (e : Nat) (s : State) (hp : s.poolsOk) (ha : (s.ed e).alloc = true) (hs : s.Paired) :
    (teardownEd e s).Paired := by
  have hel : e < s.eds.length := ed_lt_of_ne_initial s e (fun hc => by rw [hc] at ha; exact Bool.noConfusion ha)
  have key : ∃ u, abortHead e s = u ∧ u.Paired ∧ u.poolsOk ∧ (u.ed e).alloc = true ∧ u.cfg = s.cfg ∧
      (∀ i ∈ (u.ed e).queue, (u.td i).txn = none) := by
    unfold abortHead
    cases hq : (s.ed e).queue with
    | nil => exact ⟨s, rfl, hs, hp, ha, rfl, fun i hi => by rw [hq] at hi; simp at hi⟩
    | cons d ds =>
      simp only
      cases hx : (s.td d).txn with
      | none => exact ⟨s, rfl, hs, hp, ha, rfl, hs.idle e (fun i hi => by
          rw [hq] at hi
          obtain rfl : d = i := by simpa using hi
          exact hx)⟩
      | some x =>
        obtain ⟨p, hl⟩ := hs.liveTxn hp d x hx
        obtain ⟨e', he', hde, hqi⟩ := hs.idle_ended x p d hl
        have : e' = e := Option.some.inj (hde.symm.trans (hs.places.queueEd e d (by rw [hq]; simp)))
        subst this
        refine ⟨s.ended x p d, endTxn_ended s x p d hl, ended_paired s x p d hl hs, ?_, ha, rfl, hqi⟩
        rw [← endTxn_ended s x p d hl]
        exact endTxn_poolsOk x s hp
  obtain ⟨u, hu, hup, hupo, hua, huc, huq⟩ := key
  unfold teardownEd
  simp only [hu]
  have huel : e < u.eds.length := ed_lt_of_ne_initial u e (fun hc => by rw [hc] at hua; exact Bool.noConfusion hua)
  have hc := terminateAll_cancelled e (u.ed e).queue u huel (hup.places.queueEd e)
  have h1 := terminateAll_paired e .cancelled false _ u rfl (hup.places.queueNodup e) (fun _ h => h) huq hup
  have h2 := poolsOk_of_same (terminateAll_samePools .cancelled false (u.ed e).queue u) hupo
  obtain ⟨v, hv⟩ : ∃ v, v = terminateAll .cancelled false (u.ed e).queue u := ⟨_, rfl⟩
  rw [← hv] at hc h1 h2 ⊢
  have hd := drainPass_framed v
  have hed := ed_congr (hd.eds_eq (by decide)) e
  refine removeEd_paired e _ ?_ (by rw [hed, hc.edAlloc]; exact hua) ?_ (drainPass_paired v h2 h1)
  · rw [hd.cfg_eq (by decide), hc.frame.cfg_eq (by decide), huc, ← hp.2.1.1]
    exact hel
  · rw [hed, hc.queue]
    exact foldl_erase_self _

theorem teardownBody_paired (eid : EndpointId) (s : State) (hp : s.poolsOk) (hs : s.Paired) :
    (teardownBody eid s).Paired := by
  unfold teardownBody
  split
  · exact State.Paired.congr (respond_samePairs _ _ _ s) hs
  · split
    · exact State.Paired.congr (respond_samePairs _ _ _ s) hs
    · rename_i e he
      exact State.Paired.congr (respond_samePairs _ _ _ _) (teardownEd_paired e s hp (lookup_alloc he).1 hs)

/-! Passes. -/

theorem runPass_paired (holder : Lock) (body : State → State) (s : State) (hp : s.poolsOk)
    (h : ∀ s, s.poolsOk → s.Paired → (body s).Paired) (hs : s.Paired) : (runPass holder body s).Paired :=
  State.Paired.congr (SamePairs.of_framed (setLock_framed _ _) (by decide))
    (h _ (poolsOk_of_framed (setLock_framed holder s) (by decide) hp)
      (State.Paired.congr (SamePairs.of_framed (setLock_framed holder s) (by decide)) hs))

/-! Reset (R321). -/

theorem getD_replicate {α : Type} (n i : Nat) (x : α) : (List.replicate n x).getD i x = x := by
  rw [List.getD_eq_getElem?_getD, List.getElem?_replicate]
  split <;> rfl

theorem resetOf_ed (c : Config) (i : Nat) : (State.resetOf c).ed i = Ed.initial := getD_replicate _ i _

theorem resetOf_td (c : Config) (i : Nat) : (State.resetOf c).td i = Td.initial := getD_replicate _ i _

theorem resetOf_tok (c : Config) (i : Nat) : (State.resetOf c).tok i = Tok.initial := getD_replicate _ i _

theorem resetOf_txn (c : Config) (i : Nat) : (State.resetOf c).txn i = Txn.initial := getD_replicate _ i _

theorem resetOf_pkt (c : Config) (i : Nat) : (State.resetOf c).pkt i = Pkt.initial := getD_replicate _ i _

/-- At reset nothing is in use, so that all is paired. -/
theorem resetOf_paired (c : Config) : (State.resetOf c).Paired := by
  have he := resetOf_ed c
  have hd := resetOf_td c
  have hk := resetOf_tok c
  have hx := resetOf_txn c
  have hp := resetOf_pkt c
  have ha : (State.resetOf c).frame.active = [] := rfl
  have hn : (State.resetOf c).done = [] := rfl
  have hu : (State.resetOf c).dfree = List.range (State.resetOf c).cfg.nDummy := rfl
  refine ⟨?_, ?_, ?_, rfl⟩
  · constructor <;> simp [he, hd, ha, hn, Ed.initial, Td.initial]
  · constructor <;> simp [hd, hx, hp, hu, Td.initial, Txn.initial, Pkt.initial]
  · constructor <;> simp [hd, hk, Td.initial, Tok.initial]

end Sys2Proof.Machine
end

