-- ==== Sys2Proof/Laws/Grows.lean ====
section
/-! SUPPORT. Laws/Grows.lean: the `DIAG` flags are only ever set (R59), and what the block puts out is only ever
added to (R16), by no operation but a host command's last act with a response (R285). -/

namespace Sys2Proof.Machine

/-- Going from `s` to `t` no `DIAG` flag is cleared, and only outputs that are no response are added. -/
structure Grows (s t : State) : Prop where
  doubleRelease : s.diag.doubleRelease = true → t.diag.doubleRelease = true
  spuriousConfirm : s.diag.spuriousConfirm = true → t.diag.spuriousConfirm = true
  illegalEvent : s.diag.illegalEvent = true → t.diag.illegalEvent = true
  rxOverlen : s.diag.rxOverlen = true → t.diag.rxOverlen = true
  out : ∃ os : List Output, t.out = s.out ++ os ∧ ∀ o ∈ os, o.isResponse = false

theorem Grows.refl (s : State) : Grows s s := ⟨id, id, id, id, [], by simp, by simp⟩

theorem Grows.trans {s t u : State} (h : Grows s t) (k : Grows t u) : Grows s u := by
  obtain ⟨os, h1, h2⟩ := h.out
  obtain ⟨ps, k1, k2⟩ := k.out
  refine ⟨fun x => k.1 (h.1 x), fun x => k.2 (h.2 x), fun x => k.3 (h.3 x), fun x => k.4 (h.4 x), os ++ ps,
    by rw [k1, h1, List.append_assoc], ?_⟩
  intro o ho
  rcases List.mem_append.1 ho with ho | ho
  · exact h2 o ho
  · exact k2 o ho

/-- A change that leaves the flags and the outputs alone. -/
theorem Grows.of_framed {c : List Field} {s t : State} (h : Framed c s t) (hd : Field.diag ∉ c) (ho : Field.out ∉ c) :
    Grows s t := by
  have h1 := h.diag_eq hd
  have h2 := h.out_eq ho
  constructor
  case out => exact ⟨[], by rw [h2]; simp, by simp⟩
  all_goals rw [h1]; exact id

theorem Grows.ite {p : Prop} [Decidable p] {s t u : State} (h : Grows s t) (k : Grows s u) :
    Grows s (if p then t else u) := by
  split
  · exact h
  · exact k

/-! The flags and the outputs themselves. -/

theorem flagDoubleRelease_grows (s : State) : Grows s s.flagDoubleRelease :=
  ⟨fun _ => rfl, id, id, id, [], by simp, by simp⟩

theorem flagSpuriousConfirm_grows (s : State) : Grows s s.flagSpuriousConfirm :=
  ⟨id, fun _ => rfl, id, id, [], by simp, by simp⟩

theorem flagIllegalEvent_grows (s : State) : Grows s s.flagIllegalEvent :=
  ⟨id, id, fun _ => rfl, id, [], by simp, by simp⟩

theorem flagRxOverlen_grows (s : State) : Grows s s.flagRxOverlen :=
  ⟨id, id, id, fun _ => rfl, [], by simp, by simp⟩

theorem emit_grows (o : Output) (s : State) (ho : o.isResponse = false) : Grows s (s.emit o) :=
  ⟨id, id, id, id, [o], by simp, by simpa using ho⟩

theorem memWrite_grows (a : Addr) (v : Word) (s : State) : Grows s (s.memWrite a v) :=
  (Grows.of_framed (setMem_framed _ _) (by decide) (by decide)).trans (emit_grows _ _ rfl)

theorem setField_grows (h : Addr) (off : Nat) (v : Word) (s : State) : Grows s (s.setField h off v) :=
  memWrite_grows _ _ _

theorem callback_grows (h : Addr) (st n : Word) (s : State) : Grows s (callback h st n s) := emit_grows _ _ rfl

theorem ringSubmit_grows (d : TxDesc) (s : State) : Grows s (ringSubmit d s).2 := by
  unfold ringSubmit
  split <;> exact (Grows.of_framed (setEnv_framed _ _) (by decide) (by decide)).trans (emit_grows _ _ rfl)

/-! Releases (R252). -/

theorem pktRelease_grows (p : Nat) (s : State) : Grows s (pktRelease p s) :=
  Grows.ite (flagDoubleRelease_grows s) (Grows.of_framed ((modPkt_framed _ _ _).comp (setRing_framed _ _)
    (e := [.pkts, .ring]) (by decide) (by decide)) (by decide) (by decide))

theorem edFree_grows (i : Nat) (s : State) : Grows s (edFree i s) :=
  Grows.ite (flagDoubleRelease_grows s) (Grows.of_framed ((modEd_framed _ _ _).comp (setEfree_framed _ _)
    (e := [.eds, .efree]) (by decide) (by decide)) (by decide) (by decide))

theorem tdFree_grows (i : Nat) (s : State) : Grows s (tdFree i s) :=
  Grows.ite (flagDoubleRelease_grows s) (Grows.of_framed ((modTd_framed _ _ _).comp (setTfree_framed _ _)
    (e := [.tds, .tfree]) (by decide) (by decide)) (by decide) (by decide))

theorem tokenFree_grows (i : Nat) (s : State) : Grows s (tokenFree i s) :=
  Grows.ite (flagDoubleRelease_grows s) (Grows.of_framed ((modTok_framed _ _ _).comp (setKfree_framed _ _)
    (e := [.toks, .kfree]) (by decide) (by decide)) (by decide) (by decide))

theorem txnFree_grows (i : Nat) (s : State) : Grows s (txnFree i s) :=
  Grows.ite (flagDoubleRelease_grows s) (Grows.of_framed ((modTxn_framed _ _ _).comp (setXfree_framed _ _)
    (e := [.txns, .xfree]) (by decide) (by decide)) (by decide) (by decide))

theorem dummyRelease_grows (u : Nat) (s : State) : Grows s (dummyRelease u s) :=
  Grows.ite (flagDoubleRelease_grows s) (Grows.of_framed (setDfree_framed _ _) (by decide) (by decide))

theorem dummyReleaseOpt_grows (u : Option Nat) (s : State) : Grows s (dummyReleaseOpt u s) := by
  cases u
  · exact Grows.refl _
  · exact dummyRelease_grows _ _

theorem pktReleaseOpt_grows (p : Option Nat) (s : State) : Grows s (pktReleaseOpt p s) := by
  cases p
  · exact flagDoubleRelease_grows _
  · exact pktRelease_grows _ _

theorem tokenFreeOpt_grows (k : Option Nat) (s : State) : Grows s (tokenFreeOpt k s) := by
  cases k
  · exact flagDoubleRelease_grows _
  · exact tokenFree_grows _ _

/-! The Transaction Engine. -/

theorem terminate_grows (d : Nat) (st : Ts) (halt : Bool) (s : State) : Grows s (terminate d st halt s) :=
  Grows.of_framed (terminate_framed d st halt s) (by decide) (by decide)

theorem endTxn_grows (t : Nat) (s : State) : Grows s (endTxn t s) :=
  (dummyReleaseOpt_grows _ s).trans ((pktReleaseOpt_grows _ _).trans
    ((Grows.of_framed (unlinkTdOpt_framed _ _) (by decide) (by decide)).trans (txnFree_grows _ _)))

theorem abortTxn_grows (t : Option Nat) (s : State) : Grows s (abortTxn t s) := by
  cases t
  · exact Grows.refl _
  · exact endTxn_grows _ _

theorem removeEd_grows (e : Nat) (s : State) : Grows s (removeEd e s) :=
  (Grows.of_framed (setCls_framed _ s) (by decide) (by decide)).trans (edFree_grows _ _)

theorem reapOne_grows (e : Nat) (s : State) : Grows s (reapOne e s) :=
  Grows.ite (Grows.refl _) (Grows.ite (Grows.refl _)
    ((Grows.of_framed (terminateAll_framed _ _ _ s) (by decide) (by decide)).trans (removeEd_grows _ _)))

theorem reapList_grows (l : List Nat) (s : State) : Grows s (reapList l s) := by
  induction l generalizing s with
  | nil => exact Grows.refl _
  | cons e rest ih => exact (reapOne_grows _ _).trans (ih _)

theorem reap_grows (s : State) : Grows s (reap s) := reapList_grows _ _

theorem dispatchWith_grows (e d len p t : Nat) (u : Option Nat) (s : State) :
    Grows s (dispatchWith e d len p t u s).2 := by
  have h1 : Grows s ((s.modPkt p (fun _ => (prepare s e d len p u).pkt)).modTxn t
      (fun _ => (prepare s e d len p u).txn)) :=
    Grows.of_framed ((modPkt_framed _ _ _).comp (modTxn_framed _ _ _) (e := [.pkts, .txns]) (by decide) (by decide))
      (by decide) (by decide)
  have h2 := h1.trans (ringSubmit_grows (prepare s e d len p u).token _)
  unfold dispatchWith
  simp only
  split
  · rename_i s2 heq
    rw [heq] at h2
    exact h2.trans ((dummyReleaseOpt_grows _ _).trans ((txnFree_grows _ _).trans (pktRelease_grows _ _)))
  · rename_i s2 heq
    rw [heq] at h2
    exact h2.trans (Grows.of_framed ((modTxn_framed _ _ _).comp (modTd_framed _ _ _) (e := [.txns, .tds]) (by decide)
      (by decide)) (by decide) (by decide))

theorem dispatch_grows (e d len : Nat) (s : State) : Grows s (dispatch e d len s).2 := by
  unfold dispatch
  split
  · exact Grows.refl _
  · rename_i p s1 heq
    have h1 : Grows s s1 := Grows.of_framed (congrArg Prod.snd heq ▸ pktAcquire_framed s) (by decide) (by decide)
    split
    · exact h1.trans (pktRelease_grows _ _)
    · split
      · exact h1.trans (pktRelease_grows _ _)
      · split
        · exact h1.trans (pktRelease_grows _ _)
        · rename_i t s2 heq2
          have h2 : Grows s1 s2 := Grows.of_framed (congrArg Prod.snd heq2 ▸ txnAlloc_framed s1) (by decide) (by decide)
          exact h1.trans (h2.trans ((Grows.of_framed (takeDummy_framed len s2) (by decide) (by decide)).trans
            (dispatchWith_grows _ _ _ _ _ _ _)))

theorem failed_grows (d : Nat) (st : Ts) (s : State) : Grows s (failed d st s) :=
  Grows.of_framed (failed_framed d st s) (by decide) (by decide)

theorem tokenConfirmed_grows (t d : Nat) (st : Ts) (s : State) : Grows s (tokenConfirmed t d st s) := by
  unfold tokenConfirmed
  split
  · split
    · exact Grows.of_framed (modTxn_framed _ _ _) (by decide) (by decide)
    · have hr := ringSubmit_grows (s.txn t).dataDesc s
      split
      · rename_i s1 heq
        rw [heq] at hr
        exact hr.trans (Grows.of_framed (modTxn_framed _ _ _) (by decide) (by decide))
      · rename_i s1 heq
        rw [heq] at hr
        exact hr.trans (endTxn_grows _ _)
  · split
    · exact (endTxn_grows _ _).trans (Grows.of_framed (nak_framed _ _) (by decide) (by decide))
    · exact (endTxn_grows _ _).trans (terminate_grows _ _ _ _)

theorem dataConfirmed_grows (t d : Nat) (st : Ts) (n : Nat) (s : State) : Grows s (dataConfirmed t d st n s) := by
  unfold dataConfirmed
  split
  · exact (endTxn_grows _ _).trans (failed_grows _ _ _)
  · exact (Grows.of_framed (modTxn_framed _ _ s) (by decide) (by decide)).trans
      ((Grows.of_framed (modTd_framed _ _ _) (by decide) (by decide)).trans ((endTxn_grows _ _).trans
        (Grows.ite (terminate_grows _ _ _ _) (Grows.refl _))))

theorem setPktStatus_grows (p : Nat) (st : Ts) (s : State) : Grows s (setPktStatus p st s) :=
  Grows.of_framed (modPkt_framed _ _ _) (by decide) (by decide)

theorem txConfirmBody_grows (st : Ts) (p : Nat) (s : State) : Grows s (txConfirmBody st p s) := by
  have hsp := flagSpuriousConfirm_grows s
  unfold txConfirmBody
  split
  · exact hsp
  · split
    · exact hsp
    · exact Grows.ite ((setPktStatus_grows _ _ _).trans (tokenConfirmed_grows _ _ _ _))
        (Grows.ite ((setPktStatus_grows _ _ _).trans (dataConfirmed_grows _ _ _ _ _)) hsp)

theorem rxConfirmBody_grows (st : Ts) (p n : Nat) (s : State) : Grows s (rxConfirmBody st p n s) := by
  have hsp := flagSpuriousConfirm_grows s
  unfold rxConfirmBody
  split
  · exact hsp
  · split
    · exact hsp
    · exact Grows.ite hsp (Grows.trans (Grows.ite (flagRxOverlen_grows s) (Grows.refl s))
        ((setPktStatus_grows _ _ _).trans (dataConfirmed_grows _ _ _ _ _)))

/-! The Frame Scheduler. -/

theorem flushList_grows (l : List Nat) (s : State) : Grows s (flushList l s) := by
  induction l generalizing s with
  | nil => exact Grows.refl _
  | cons d rest ih => exact ((abortTxn_grows _ _).trans (terminate_grows _ _ _ _)).trans (ih _)

theorem offer_grows (e d len cost t : Nat) (s : State) : Grows s (offer e d len cost t s) := by
  have hd := dispatch_grows e d len s
  unfold offer
  split
  · rename_i s1 heq
    rw [heq] at hd
    exact hd.trans (Grows.of_framed (commit_framed _ _ _ _) (by decide) (by decide))
  · rename_i s1 heq
    rw [heq] at hd
    exact hd

theorem tryAdmit_grows (e d : Nat) (s : State) : Grows s (tryAdmit e d s) := by
  have hf : ∀ (f : Frame) (s : State), Grows s (s.setFrame f) := fun f s =>
    Grows.of_framed (setFrame_framed f s) (by decide) (by decide)
  unfold tryAdmit
  refine Grows.ite (Grows.refl _) (Grows.ite (hf _ _) ?_)
  exact (Grows.of_framed (sofRemaining_framed s) (by decide) (by decide)).trans
    (Grows.ite (hf _ _) (offer_grows _ _ _ _ _ _))

theorem scanOne_grows (c : Mode) (e : Nat) (s : State) : Grows s (scanOne c e s) := by
  unfold scanOne
  refine Grows.ite (Grows.refl _) ?_
  split
  · exact Grows.refl _
  · exact Grows.ite (Grows.refl _) (Grows.ite (Grows.refl _) (tryAdmit_grows _ _ _))

theorem scan_grows (c : Mode) (s : State) : Grows s (scan c s) := by
  have h : ∀ (l : List Nat) (s : State), Grows s (scanList c l s) := by
    intro l
    induction l with
    | nil => exact fun s => Grows.refl s
    | cons e rest ih => exact fun s => (scanOne_grows _ _ _).trans (ih _)
  exact (h _ _).trans (Grows.of_framed (setCls_framed _ _) (by decide) (by decide))

theorem newFrame_grows (s : State) : Grows s (newFrame s) := by
  have ho : Grows s (openFrame s) := Grows.of_framed (setFrame_framed _ _) (by decide) (by decide)
  have h3 := (scan_grows .iso (openFrame s)).trans ((scan_grows .intr _).trans (scan_grows .ctrl _))
  unfold newFrame scanClasses
  exact ho.trans (Grows.ite (h3.trans (Grows.ite (Grows.refl _) (scan_grows _ _))) (Grows.refl _))

theorem frameStartBody_grows (s : State) : Grows s (frameStartBody s) := by
  unfold frameStartBody
  refine (Grows.of_framed (setFrnum_framed _ s) (by decide) (by decide)).trans (Grows.ite (newFrame_grows _)
    (Grows.ite ?_ (Grows.refl _)))
  exact (flushList_grows _ _).trans (newFrame_grows _)

/-! The Completion Processor. -/

theorem updateRequest_grows (d : Nat) (h : Addr) (s : State) : Grows s (updateRequest d h s) :=
  Grows.trans (t := addActual (s.td d) h s) (Grows.ite (Grows.refl _) (setField_grows _ _ _ _))
    (Grows.ite (setField_grows _ _ _ _) (Grows.refl _))

theorem retire_grows (h : Addr) (s : State) : Grows s (retire h s) :=
  Grows.ite ((setField_grows _ _ _ _).trans (callback_grows _ _ _ _)) (callback_grows _ _ _ _)

theorem drainOne_grows (d : Nat) (s : State) : Grows s (drainOne d s) :=
  (updateRequest_grows d _ s).trans ((Grows.ite (Grows.refl _) (retire_grows _ _)).trans
    ((tokenFreeOpt_grows _ _).trans ((Grows.of_framed (modTd_framed _ _ _) (by decide) (by decide)).trans
      (tdFree_grows _ _))))

theorem drainPass_grows (s : State) : Grows s (drainPass s) := by
  have h : ∀ (l : List Nat) (s : State), Grows s (drainList l s) := by
    intro l
    induction l with
    | nil => exact fun s => Grows.refl s
    | cons d rest ih =>
      exact fun s => ((Grows.of_framed (setDone_framed _ s) (by decide) (by decide)).trans (drainOne_grows _ _)).trans
        (ih _)
  exact (h _ _).trans (Grows.of_framed (setDrainp_framed _ _) (by decide) (by decide))

/-! The Queue Manager. -/

theorem submitAccept_grows (eid : EndpointId) (h : Addr) (e : Option Nat) (s : State) :
    Grows s (submitAccept eid h e s) := by
  have he : Grows s (ensureEd eid e s).2 := Grows.of_framed (ensureEd_framed eid e s) (by decide) (by decide)
  unfold submitAccept
  simp only
  split
  · rename_i s1 heq
    rw [heq] at he
    exact he
  · rename_i k s1 heq
    rw [heq] at he
    exact he.trans ((Grows.of_framed (linkTds_framed _ _ _ _) (by decide) (by decide)).trans
      ((Grows.of_framed (modEd_framed _ _ _) (by decide) (by decide)).trans
        ((setField_grows _ _ _ _).trans (setField_grows _ _ _ _))))

theorem teardownEd_grows (e : Nat) (s : State) : Grows s (teardownEd e s) := by
  have h1 : Grows s (abortHead e s) := by
    unfold abortHead
    split
    · exact Grows.refl _
    · exact abortTxn_grows _ _
  exact h1.trans ((Grows.of_framed (terminateAll_framed _ _ _ _) (by decide) (by decide)).trans
    ((drainPass_grows _).trans (removeEd_grows _ _)))

/-- A pass grows when its body does. -/
theorem runPass_grows (holder : Lock) (body : State → State) (s : State) (h : ∀ s, Grows s (body s)) :
    Grows s (runPass holder body s) :=
  (Grows.of_framed (setLock_framed holder s) (by decide) (by decide)).trans
    ((h _).trans (Grows.of_framed (setLock_framed _ _) (by decide) (by decide)))

end Sys2Proof.Machine
end

