-- ==== Sys2Proof/Laws/PerInstr.lean ====
section
/-! SUPPORT. Laws/PerInstr.lean: statements about every instruction as syntax, one lemma per constructor. -/

namespace Sys2Proof.Laws

set_option Elab.async false

/-- The encoding of an instruction has as many words as its word 0 says (30_encoding.md R101, R104: the column
"words"). -/
def EncodeHead.Statement (i : Instr) : Prop := (encode i).length = opWords (opcodeOf ((encode i).headD 0#32))

theorem EncodeHead.submit (eid : EndpointId) (handle : Word) : EncodeHead.Statement (.submit eid handle) := by
  simp [EncodeHead.Statement, encode, opcodeOf_headWord, opWords]

theorem EncodeHead.cancel (handle : Word) : EncodeHead.Statement (.cancel handle) := by
  simp [EncodeHead.Statement, encode, opcodeOf_headWord, opWords]

theorem EncodeHead.epTeardown (eid : EndpointId) : EncodeHead.Statement (.epTeardown eid) := by
  simp [EncodeHead.Statement, encode, opcodeOf_headWord, opWords]

theorem EncodeHead.epClearHalt (eid : EndpointId) : EncodeHead.Statement (.epClearHalt eid) := by
  simp [EncodeHead.Statement, encode, opcodeOf_headWord, opWords]

theorem EncodeHead.getFrame : EncodeHead.Statement .getFrame := by
  simp [EncodeHead.Statement, encode, opcodeOf_headWord, opWords]

theorem EncodeHead.evFrameStart : EncodeHead.Statement .evFrameStart := by
  simp [EncodeHead.Statement, encode, opcodeOf_headWord, opWords]

theorem EncodeHead.evTxConfirm (status : BitVec 8) (pkt : BitVec 16) :
    EncodeHead.Statement (.evTxConfirm status pkt) := by
  simp [EncodeHead.Statement, encode, opcodeOf_headWord, opWords]

theorem EncodeHead.evRxConfirm (status : BitVec 8) (pkt : BitVec 16) (rxLen : Word) :
    EncodeHead.Statement (.evRxConfirm status pkt rxLen) := by
  simp [EncodeHead.Statement, encode, opcodeOf_headWord, opWords]

theorem EncodeHead.evConnect (speed : Speed) : EncodeHead.Statement (.evConnect speed) := by
  simp [EncodeHead.Statement, encode, opcodeOf_headWord, opWords]

theorem EncodeHead.evDisconnect : EncodeHead.Statement .evDisconnect := by
  simp [EncodeHead.Statement, encode, opcodeOf_headWord, opWords]

theorem EncodeHead.drain : EncodeHead.Statement .drain := by
  simp [EncodeHead.Statement, encode, opcodeOf_headWord, opWords]

theorem EncodeHead.tokenOut (devAddr : BitVec 7) (epNum : BitVec 4) (crc5 : BitVec 5) :
    EncodeHead.Statement (.tokenOut devAddr epNum crc5) := by
  simp [EncodeHead.Statement, encode, opcodeOf_headWord, opWords]

theorem EncodeHead.tokenIn (devAddr : BitVec 7) (epNum : BitVec 4) (crc5 : BitVec 5) :
    EncodeHead.Statement (.tokenIn devAddr epNum crc5) := by
  simp [EncodeHead.Statement, encode, opcodeOf_headWord, opWords]

theorem EncodeHead.tokenSetup (devAddr : BitVec 7) (epNum : BitVec 4) (crc5 : BitVec 5) :
    EncodeHead.Statement (.tokenSetup devAddr epNum crc5) := by
  simp [EncodeHead.Statement, encode, opcodeOf_headWord, opWords]

end Sys2Proof.Laws
end

