-- ==== Sys2Proof/Laws/Serving.lean ====
section
/-! SUPPORT. Laws/Serving.lean: the descriptors of a transaction as sums of their fields (R42, R205), and what a class
scan does (R149): which EDs it passes over, what it does for one that is ready, and what it leaves when all that are
ready are admitted, or those before the one that closes the frame. -/

namespace Sys2Proof.Machine

/-! Descriptors. -/

theorem append_toNat {n m : Nat} (x : BitVec n) (y : BitVec m) : (x ++ y).toNat = x.toNat * 2 ^ m + y.toNat := by
  rw [BitVec.toNat_append, Nat.shiftLeft_eq, Nat.mul_comm, ← Nat.two_pow_add_eq_or_of_lt y.isLt]

theorem tokenDesc_sum (p len : Nat) (tg pre iso dm isIn : Bool) (addr : Addr) (token : BitVec 24) (hp : p < 65536) :
    tokenDesc p tg pre iso dm isIn len addr token =
      { w0 := BitVec.ofNat 32 (0 * 2 ^ 31 + pre.toNat * 2 ^ 30 + (if isIn then tg.toNat else 0) * 2 ^ 29 +
          isIn.toNat * 2 ^ 28 + (if isIn then dm.toNat else 0) * 2 ^ 27 + iso.toNat * 2 ^ 26 + p)
        w1 := BitVec.ofNat 32 (3 + (if isIn then len else 0) * 2 ^ 16)
        w2 := if isIn then BitVec.ofNat 32 addr else 0#32
        w3 := BitVec.ofNat 32 token.toNat } := by
  have ht := token.isLt
  simp only [tokenDesc, descWord0, TxDesc.mk.injEq]
  refine ⟨?_, ?_, trivial, ?_⟩
  · apply BitVec.eq_of_toNat_eq
    simp only [append_toNat, BitVec.toNat_ofBool, BitVec.toNat_ofNat]
    cases pre <;> cases tg <;> cases isIn <;> cases dm <;> cases iso <;> simp <;> omega
  · apply BitVec.eq_of_toNat_eq
    cases isIn <;> simp only [append_toNat, BitVec.toNat_ofNat, Bool.false_eq_true, if_false, if_true] <;> omega
  · apply BitVec.eq_of_toNat_eq
    simp only [append_toNat, BitVec.toNat_ofNat]
    omega

theorem dataDesc_sum (p len : Nat) (tg pre iso dm : Bool) (addr : Addr) (hp : p < 65536) (hl : len < 65536) :
    dataDesc p tg pre iso dm len addr =
      { w0 := BitVec.ofNat 32 (1 * 2 ^ 31 + pre.toNat * 2 ^ 30 + tg.toNat * 2 ^ 29 + 0 * 2 ^ 28 + dm.toNat * 2 ^ 27 +
          iso.toNat * 2 ^ 26 + p)
        w1 := BitVec.ofNat 32 len
        w2 := BitVec.ofNat 32 addr
        w3 := 0 } := by
  simp only [dataDesc, descWord0, TxDesc.mk.injEq]
  refine ⟨?_, ?_, trivial, rfl⟩
  · apply BitVec.eq_of_toNat_eq
    simp only [append_toNat, BitVec.toNat_ofBool, BitVec.toNat_ofNat]
    cases pre <;> cases tg <;> cases dm <;> cases iso <;> simp <;> omega
  · apply BitVec.eq_of_toNat_eq
    simp only [append_toNat, BitVec.toNat_ofNat]
    omega

theorem pktInfo_sum (isIn pre tg dm : Bool) :
    pktInfo isIn pre tg dm = BitVec.ofNat 8 (isIn.toNat + 2 * pre.toNat + 4 * tg.toNat + 8 * dm.toNat) := by
  cases isIn <;> cases pre <;> cases tg <;> cases dm <;> rfl

/-! One turn of a scan. -/

/-- A scan passes over an ED with no ready TD (R150, R151). -/
theorem scanOne_notReady (c : Mode) (e : Nat) (s : State) (h : s.readyHead c e = none) : scanOne c e s = s := by
  unfold State.readyHead at h
  unfold scanOne
  by_cases ho : (s.ed e).state = .operational
  · rw [if_neg (by simpa using ho)]
    rw [if_pos ho] at h
    cases hq : (s.ed e).queue with
    | nil => rfl
    | cons d ds =>
      rw [hq] at h
      simp only [List.head?_cons] at h ⊢
      split at h
      · simp at h
      · rename_i hn
        by_cases hx : (s.td d).txn = none
        · rw [hx]
          simp only [Option.isSome_none, Bool.false_eq_true, if_false]
          rw [if_pos]
          have hp : ¬ ((c = .iso ∨ c = .intr) →
              (s.td d).interval.toNat ≤ modDiff s.frame.number (s.td d).startFrame s.cfg.frameWrap) :=
            fun hh => hn ⟨hx, hh⟩
          push Not at hp
          have : periodicEligible s (s.td d) = false := decide_eq_false (by omega)
          rw [this]
          rcases hp.1 with rfl | rfl <;> rfl
        · rw [if_pos (Option.isSome_iff_ne_none.2 hx)]
  · rw [if_pos ho]

/-- A scan offers the ready TD of an ED to the frame (R149). -/
theorem scanOne_ready (c : Mode) (e d : Nat) (s : State) (h : s.readyHead c e = some d) :
    scanOne c e s = tryAdmit e d s ∧ (s.td d).txn = none := by
  unfold State.readyHead at h
  unfold scanOne
  by_cases ho : (s.ed e).state = .operational
  · rw [if_neg (by simpa using ho)]
    rw [if_pos ho] at h
    cases hq : (s.ed e).queue with
    | nil => rw [hq] at h; simp at h
    | cons d' ds =>
      rw [hq] at h
      simp only [List.head?_cons] at h ⊢
      split at h
      · rename_i hn
        obtain rfl := Option.some.inj h
        rw [hn.1]
        simp only [Option.isSome_none, Bool.false_eq_true, if_false, and_true]
        rw [if_neg]
        intro hc
        simp only [Bool.and_eq_true, Bool.not_eq_true'] at hc
        have : periodicEligible s (s.td d') = true :=
          decide_eq_true (hn.2 (by revert hc; cases c <;> simp [periodicMode]))
        rw [this] at hc
        simp at hc
      · simp at h
  · rw [if_neg ho] at h
    simp at h

theorem scanList_notReady (c : Mode) (l : List Nat) (s : State) (h : ∀ e ∈ l, s.readyHead c e = none) :
    scanList c l s = s := by
  induction l with
  | nil => rfl
  | cons e rest ih =>
    rw [scanList, scanOne_notReady c e s (h e (by simp))]
    exact ih (fun e he => h e (by simp [he]))

/-- A scan of a class with nothing ready only rotates its list (R159). -/
theorem scan_notReady (c : Mode) (s : State) (h : ∀ e ∈ s.cls.get c, s.readyHead c e = none) :
    scan c s = rotateClass c s := by rw [scan, scanList_notReady _ _ _ h]

/-- In a closed frame nothing is admitted (R155). -/
theorem scanList_closed (c : Mode) (l : List Nat) (s : State) (h : s.frame.status.closed = true) :
    scanList c l s = s := by
  induction l with
  | nil => rfl
  | cons e rest ih =>
    have h1 : scanOne c e s = s := by
      cases hr : s.readyHead c e with
      | none => exact scanOne_notReady c e s hr
      | some d =>
        rw [(scanOne_ready c e d s hr).1]
        unfold tryAdmit
        rw [if_pos h]
    rw [scanList, h1, ih]

/-- What is left when ED `e`'s ready TD `d` has been admitted with Packet `p` and record `x`, for `cost` bytes and `us`
microseconds (R152, R156, R204). -/
structure AdmittedOne (e d x p cost us : Nat) (v : Env) (s t : State) : Prop where
  frame : t.frame = { bytes := BitVec.ofNat 32 (s.frame.bytes.toNat + cost), status := .transmitted,
                      active := s.frame.active ++ [d], number := s.frame.number,
                      timeUs := BitVec.ofNat 32 (s.frame.timeUs.toNat + us) }
  td : d < s.tds.length → ∃ b, t.td d =
    { s.td d with place := .active, startFrame := s.frame.number, toggle := .val b, txn := some x }
  tdOther : ∀ i, i ≠ d → t.td i = s.td i
  tdsLength : t.tds.length = s.tds.length
  txn : (t.txn x).alloc = true ∧ (t.txn x).phase = .tokenWait ∧ (t.txn x).td = some d ∧ (t.txn x).pkt = some p ∧
    (t.txn x).len = BitVec.ofNat 11 (nextLen s e d)
  txnOther : ∀ i, i ≠ x → t.txn i = s.txn i
  pkt : (t.pkt p).out = true
  pktOther : ∀ i, i ≠ p → t.pkt i = s.pkt i
  xfree : s.xfree = x :: t.xfree
  handles : s.ringHandles = p :: t.ringHandles
  cnt : s.ring.cnt = t.ring.cnt + 1
  dfree : t.dfree = if nextLen s e d = 0 then s.dfree.tail else s.dfree
  env : t.env = v
  out : ∃ desc : TxDesc, t.out = s.out ++ [.ringSubmit desc true] ∧ desc.w0.extractLsb' 0 16 = BitVec.ofNat 16 p ∧
    desc.w3 = BitVec.ofNat 32 (s.tok ((s.td d).token.getD s.cfg.maxTokens)).bytes.toNat
  changes : Framed [.frame, .ring, .pkts, .xfree, .txns, .dfree, .tds, .env, .out] s t

theorem tokenDesc_fields (p len : Nat) (tg pre iso dm isIn : Bool) (addr : Addr) (token : BitVec 24) :
    (tokenDesc p tg pre iso dm isIn len addr token).w0.extractLsb' 0 16 = BitVec.ofNat 16 p ∧
    (tokenDesc p tg pre iso dm isIn len addr token).w3 = BitVec.ofNat 32 token.toNat := by
  constructor
  · apply BitVec.eq_of_toNat_eq
    simp only [tokenDesc, descWord0, BitVec.extractLsb'_toNat, append_toNat, BitVec.toNat_ofNat]
    omega
  · have ht := token.isLt
    apply BitVec.eq_of_toNat_eq
    simp only [tokenDesc, append_toNat, BitVec.toNat_ofNat]
    omega

/-- An admission that both budgets allow, with its resources there and the transceiver accepting. -/
theorem tryAdmit_one (e d rem : Nat) (sofs : List Nat) (answers : List Bool) (s : State) (hp : s.poolsOk)
    (hst : s.frame.status.closed = false)
    (hb : s.frame.bytes.toNat + costOf s.cfg (nextLen s e d) ≤ s.cfg.maxBytesPerFrame)
    (hs : s.env.sofAnswers = rem :: sofs)
    (ht : s.frame.timeUs.toNat + wireTime s.cfg s.bussts.speed (costOf s.cfg (nextLen s e d)) ≤ rem)
    (hr : s.ring.cnt ≠ 0) (hx : s.xfree ≠ []) (hu : nextLen s e d = 0 → s.dfree ≠ [])
    (ha : s.env.ringAnswers = true :: answers) :
    ∃ x p, AdmittedOne e d x p (costOf s.cfg (nextLen s e d))
      (wireTime s.cfg s.bussts.speed (costOf s.cfg (nextLen s e d)))
      { s.env with sofAnswers := sofs, ringAnswers := answers } s (tryAdmit e d s) := by
  obtain ⟨x, xs, hx⟩ := List.exists_cons_of_ne_nil hx
  obtain ⟨p, hpd⟩ : ∃ p, p = s.ring.slots.getD s.ring.rd 0 := ⟨_, rfl⟩
  obtain ⟨cost, hcost⟩ : ∃ cost, cost = costOf s.cfg (nextLen s e d) := ⟨_, rfl⟩
  obtain ⟨us, hus⟩ : ∃ us, us = wireTime s.cfg s.bussts.speed cost := ⟨_, rfl⟩
  obtain ⟨u, hud⟩ : ∃ u, u = (if nextLen s e d = 0 then s.dfree.head? else none) := ⟨_, rfl⟩
  obtain ⟨v, hv⟩ : ∃ v : Env, v = { s.env with sofAnswers := sofs, ringAnswers := answers } := ⟨_, rfl⟩
  have hh := ringHandles_head s hp.2.2.2 hr
  rw [← hpd] at hh
  have hpl : p < s.pkts.length := by
    rw [hp.2.1.2.2.2.2.1]
    exact hp.2.2.2.2.2.2.1 p (by rw [hh]; simp)
  have hxl : x < s.txns.length := by
    rw [hp.2.1.2.2.2.1]
    exact hp.2.2.1.2.2.2.1.2.1 x (by rw [hx]; simp)
  have hadm := tryAdmit_admits e d x rem xs sofs answers s hst hb hs ht hr hx hu ha
  rw [← hcost, ← hus, ← hpd, ← hud, ← hv] at hadm
  obtain ⟨s1, hs1⟩ : ∃ s1, s1 = s.setEnv { s.env with sofAnswers := sofs } := ⟨_, rfl⟩
  rw [← hs1] at hadm
  have hnl : nextLen s e d = nextLen s1 e d := by rw [hs1]; rfl
  obtain ⟨pr, hpr⟩ : ∃ pr, pr = prepare s1 e d (nextLen s e d) p u := ⟨_, rfl⟩
  obtain ⟨z, hz⟩ : ∃ z, z = dispatched e d (nextLen s e d) p x u v s1 := ⟨_, rfl⟩
  rw [← hz] at hadm
  have hF1 : Framed [.env] s s1 := by rw [hs1]; exact setEnv_framed _ _
  have z1 : z.ring = { slots := s.ring.slots, rd := (s.ring.rd + 1) % s.cfg.pktPoolCap, cnt := s.ring.cnt - 1 } := by
    rw [hz, hs1]; rfl
  have z2 : z.pkts = s.pkts.modify p (fun _ => pr.pkt) := by rw [hz, hpr, hs1]; rfl
  have z3 : z.xfree = xs := by
    rw [hz, hs1]
    show s.xfree.tail = _
    rw [hx]; rfl
  have z4 : z.txns = s.txns.modify x (fun _ => { pr.txn with phase := .tokenWait }) := by rw [hz, hpr, hs1]; rfl
  have z5 : z.dfree = if nextLen s e d = 0 then s.dfree.tail else s.dfree := by rw [hz, hs1]; rfl
  have z6 : z.tds = s.tds.modify d (fun t => { t with toggle := .val pr.toggle, txn := some x }) := by
    rw [hz, hpr, hs1]; rfl
  have z7 : z.env = v := by rw [hz]; rfl
  have z8 : z.out = s.out ++ [.ringSubmit pr.token true] := by rw [hz, hpr, hs1]; rfl
  have z9 : z.frame = s.frame := by rw [hz, hs1]; rfl
  have zF : Framed [.ring, .pkts, .xfree, .txns, .dfree, .tds, .env, .out] s z := by
    rw [hz, hs1]
    intro f hf
    cases f <;> first | rfl | (simp at hf)
  have hcF := commit_framed d cost us z
  have hlx : (nextLen s e d) = nextLen s e d := rfl
  refine ⟨x, p, ?_⟩
  rw [← hcost, ← hus, ← hv, hadm]
  constructor
  · show ({ z.frame with
        bytes := BitVec.ofNat 32 (z.frame.bytes.toNat + cost)
        timeUs := BitVec.ofNat 32 (z.frame.timeUs.toNat + us)
        active := z.frame.active ++ [d]
        status := if z.frame.status = .prepared then .transmitted else z.frame.status } : Frame) = _
    rw [z9]
    have : (if s.frame.status = .prepared then FrameStatus.transmitted else s.frame.status) = .transmitted := by
      revert hst
      cases s.frame.status <;> simp [FrameStatus.closed]
    rw [this]
  · intro hdl
    refine ⟨pr.toggle, ?_⟩
    rw [show (commit d cost us z).td d =
        (z.modTd d (fun x => { x with place := .active, startFrame := z.frame.number })).td d from rfl,
      modTd_td_self d _ z (by rw [z6]; simpa using hdl), z9]
    rw [show z.td d = (s.modTd d (fun t => { t with toggle := .val pr.toggle, txn := some x })).td d from by
        simp only [State.td, z6]; rfl, modTd_td_self d _ s hdl]
  · intro i hi
    rw [show (commit d cost us z).td i =
        (z.modTd d (fun x => { x with place := .active, startFrame := z.frame.number })).td i from rfl,
      modTd_td_other d i _ z (Ne.symm hi)]
    rw [show z.td i = (s.modTd d (fun t => { t with toggle := .val pr.toggle, txn := some x })).td i from by
        simp only [State.td, z6]; rfl, modTd_td_other d i _ s (Ne.symm hi)]
  · show (z.tds.modify d _).length = _
    rw [List.length_modify, z6, List.length_modify]
  · rw [txn_congr (hcF.txns_eq (by decide))]
    rw [show z.txn x = (s.modTxn x (fun _ => { pr.txn with phase := .tokenWait })).txn x from by
        simp only [State.txn, z4]; rfl, modTxn_txn_self x _ s hxl, hpr]
    exact ⟨rfl, rfl, rfl, rfl, rfl⟩
  · intro i hi
    rw [txn_congr (hcF.txns_eq (by decide))]
    rw [show z.txn i = (s.modTxn x (fun _ => { pr.txn with phase := .tokenWait })).txn i from by
        simp only [State.txn, z4]; rfl, modTxn_txn_other x i _ s (Ne.symm hi)]
  · rw [pkt_congr (hcF.pkts_eq (by decide))]
    rw [show z.pkt p = (s.modPkt p (fun _ => pr.pkt)).pkt p from by simp only [State.pkt, z2]; rfl,
      modPkt_pkt_self p _ s hpl, hpr]
    rfl
  · intro i hi
    rw [pkt_congr (hcF.pkts_eq (by decide))]
    rw [show z.pkt i = (s.modPkt p (fun _ => pr.pkt)).pkt i from by simp only [State.pkt, z2]; rfl,
      modPkt_pkt_other p i _ s (Ne.symm hi)]
  · rw [hcF.xfree_eq (by decide), z3, hx]
  · rw [hh]
    congr 1
    have hc : (commit d cost us z).cfg = s.cfg := (hcF.cfg_eq (by decide)).trans (zF.cfg_eq (by decide))
    have hrg : (commit d cost us z).ring = _ := (hcF.ring_eq (by decide)).trans z1
    simp only [State.ringHandles, hc, hrg]
    rfl
  · rw [hcF.ring_eq (by decide), z1]
    simp only
    omega
  · rw [hcF.dfree_eq (by decide), z5]
  · rw [hcF.env_eq (by decide), z7]
  · refine ⟨pr.token, ?_, ?_⟩
    · rw [hcF.out_eq (by decide), z8]
    · have hk : (s1.tok ((s1.td d).token.getD s1.cfg.maxTokens)) = s.tok ((s.td d).token.getD s.cfg.maxTokens) := by
        rw [hs1]; rfl
      rw [hpr, ← hk]
      exact tokenDesc_fields ..
  · exact (zF.mono (by decide)).trans (hcF.mono (by decide))

/-! A whole scan. -/

/-- The EDs of a list with a ready TD, with that TD, in order. -/
def readyPairs (c : Mode) (l : List Nat) (s : State) : List (Nat × Nat) :=
  l.filterMap (fun e => (s.readyHead c e).map (fun d => (e, d)))

theorem readyPairs_none (c : Mode) (e : Nat) (l : List Nat) (s : State) (h : s.readyHead c e = none) :
    readyPairs c (e :: l) s = readyPairs c l s := by
  simp [readyPairs, h]

theorem readyPairs_some (c : Mode) (e d : Nat) (l : List Nat) (s : State) (h : s.readyHead c e = some d) :
    readyPairs c (e :: l) s = (e, d) :: readyPairs c l s := by
  simp [readyPairs, h]

/-- Admitting one ready TD leaves the others as they were. -/
theorem AdmittedOne.readyPairs_eq {c : Mode} {e d x p cost us : Nat} {v : Env} {s t : State} {l : List Nat}
    (h : AdmittedOne e d x p cost us v s t) (hd : d < s.tds.length)
    (hn : d ∉ (readyPairs c l s).map Prod.snd) : readyPairs c l t = readyPairs c l s := by
  have hed : ∀ i, t.ed i = s.ed i := ed_congr (h.changes.eds_eq (by decide))
  have hcfg := h.changes.cfg_eq (by decide)
  have hnum : t.frame.number = s.frame.number := by rw [h.frame]
  have key : ∀ i ∈ l, t.readyHead c i = s.readyHead c i := by
    intro i hi
    have hnd : s.readyHead c i ≠ some d := by
      intro hc
      apply hn
      rw [List.mem_map]
      exact ⟨(i, d), List.mem_filterMap.2 ⟨i, hi, by rw [hc]; rfl⟩, rfl⟩
    unfold State.readyHead at hnd ⊢
    rw [hed, hcfg, hnum]
    by_cases ho : (s.ed i).state = .operational
    · rw [if_pos ho] at hnd
      rw [if_pos ho, if_pos ho]
      cases hq : (s.ed i).queue.head? with
      | none => rfl
      | some d' =>
        rw [hq] at hnd
        simp only at hnd ⊢
        by_cases hdd : d' = d
        · subst hdd
          obtain ⟨b, hb⟩ := h.td hd
          have hx : (t.td d').txn = some x := by rw [hb]
          rw [if_neg (by rw [hx]; simp)]
          split at hnd
          · exact absurd rfl hnd
          · rename_i hz
            rw [if_neg hz]
        · rw [h.tdOther d' hdd]
    · rw [if_neg ho, if_neg ho]
  unfold readyPairs
  apply List.filterMap_congr
  intro i hi
  rw [key i hi]

/-- The bytes and the time that admitting a ready TD takes (R152, R153). -/
def pairCost (s : State) (r : Nat × Nat) : Nat := costOf s.cfg (nextLen s r.1 r.2)

def pairTime (s : State) (r : Nat × Nat) : Nat := wireTime s.cfg s.bussts.speed (pairCost s r)

/-- What the scan of a list leaves when all the ready TDs `ready` are admitted (R149, R156, R163). -/
structure ServedAll (ready : List (Nat × Nat)) (sofs : List Nat) (answers : List Bool) (s t : State) : Prop where
  bytes : t.frame.bytes = BitVec.ofNat 32 (s.frame.bytes.toNat + (ready.map (pairCost s)).sum)
  time : t.frame.timeUs = BitVec.ofNat 32 (s.frame.timeUs.toNat + (ready.map (pairTime s)).sum)
  status : t.frame.status = if ready = [] then s.frame.status else .transmitted
  active : t.frame.active = s.frame.active ++ ready.map Prod.snd
  number : t.frame.number = s.frame.number
  each : ∀ (j e d x p : Nat), ready[j]? = some (e, d) → s.xfree[j]? = some x → s.ringHandles[j]? = some p →
    (∃ b, t.td d = { s.td d with place := .active, startFrame := s.frame.number, toggle := .val b, txn := some x }) ∧
    (t.txn x).alloc = true ∧ (t.txn x).phase = .tokenWait ∧ (t.txn x).td = some d ∧ (t.txn x).pkt = some p ∧
    (t.txn x).len = BitVec.ofNat 11 (nextLen s e d) ∧ (t.pkt p).out = true
  tdOther : ∀ d, d ∉ ready.map Prod.snd → t.td d = s.td d
  txnOther : ∀ i, i ∉ s.xfree.take ready.length → t.txn i = s.txn i
  pktOther : ∀ i, i ∉ s.ringHandles.take ready.length → t.pkt i = s.pkt i
  xfree : t.xfree = s.xfree.drop ready.length
  handles : t.ringHandles = s.ringHandles.drop ready.length
  out : ∃ os : List Output, t.out = s.out ++ os ∧ os.length = ready.length ∧
    ∀ (j e d p : Nat), ready[j]? = some (e, d) → s.ringHandles[j]? = some p →
      ∃ desc : TxDesc, os[j]? = some (.ringSubmit desc true) ∧ desc.w0.extractLsb' 0 16 = BitVec.ofNat 16 p ∧
        desc.w3 = BitVec.ofNat 32 (s.tok ((s.td d).token.getD s.cfg.maxTokens)).bytes.toNat
  env : t.env = { s.env with sofAnswers := sofs, ringAnswers := answers }
  changes : Framed [.frame, .ring, .pkts, .xfree, .txns, .dfree, .tds, .env, .out] s t

theorem ServedAll.none {sofs : List Nat} {answers : List Bool} (s : State)
    (hv : s.env = { s.env with sofAnswers := sofs, ringAnswers := answers }) :
    ServedAll [] sofs answers s s := by
  refine ⟨?_, ?_, rfl, by simp, rfl, by simp, fun _ _ => rfl, fun _ _ => rfl, fun _ _ => rfl, rfl, rfl,
    ⟨[], by simp, rfl, by simp⟩, hv, Framed.refl _ _⟩
  · simp
  · simp

/-- One admission and then all the others. -/
theorem ServedAll.cons {e d x p : Nat} {r : List (Nat × Nat)} {sofs : List Nat} {answers : List Bool} {v : Env}
    {s t u : State} (hp : s.poolsOk) (hd : d < s.tds.length) (hn : d ∉ r.map Prod.snd)
    (h : AdmittedOne e d x p (pairCost s (e, d)) (pairTime s (e, d)) v s t)
    (hv : ({ v with sofAnswers := sofs, ringAnswers := answers } : Env) =
      { s.env with sofAnswers := sofs, ringAnswers := answers })
    (hu : ServedAll r sofs answers t u) : ServedAll ((e, d) :: r) sofs answers s u := by
  have hnl : ∀ q ∈ r, nextLen t q.1 q.2 = nextLen s q.1 q.2 := by
    intro q hq
    have hne : q.2 ≠ d := fun hc => hn (hc ▸ List.mem_map_of_mem hq)
    simp only [nextLen, h.tdOther _ hne, ed_congr (h.changes.eds_eq (by decide)) q.1]
  have hcost : ∀ q ∈ r, pairCost t q = pairCost s q := fun q hq => by
    simp only [pairCost, hnl q hq, h.changes.cfg_eq (by decide)]
  have htime : ∀ q ∈ r, pairTime t q = pairTime s q := fun q hq => by
    simp only [pairTime, hcost q hq, h.changes.cfg_eq (by decide), h.changes.bussts_eq (by decide)]
  have hmc : (r.map (pairCost t)) = r.map (pairCost s) := List.map_congr_left hcost
  have hmt : (r.map (pairTime t)) = r.map (pairTime s) := List.map_congr_left htime
  have hxn : x ∉ t.xfree := by
    have := hp.2.2.1.2.2.2.1.1
    rw [h.xfree] at this
    exact (List.nodup_cons.1 this).1
  have hpn : p ∉ t.ringHandles := by
    have := hp.2.2.2.2.2.1
    rw [h.handles] at this
    exact (List.nodup_cons.1 this).1
  have hxu : u.txn x = t.txn x := hu.txnOther x (fun hc => hxn (List.mem_of_mem_take hc))
  have hpu : u.pkt p = t.pkt p := hu.pktOther p (fun hc => hpn (List.mem_of_mem_take hc))
  have hdu : u.td d = t.td d := hu.tdOther d hn
  have htn : t.frame.number = s.frame.number := by rw [h.frame]
  obtain ⟨desc, ho, hw0, hw3⟩ := h.out
  obtain ⟨os, huo, hol, hoe⟩ := hu.out
  refine ⟨?_, ?_, ?_, ?_, hu.number.trans htn, ?_, ?_, ?_, ?_, ?_, ?_, ?_, ?_, ?_⟩
  · rw [hu.bytes, hmc, h.frame, List.map_cons, List.sum_cons]
    apply BitVec.eq_of_toNat_eq
    simp only [BitVec.toNat_ofNat]
    omega
  · rw [hu.time, hmt, h.frame, List.map_cons, List.sum_cons]
    apply BitVec.eq_of_toNat_eq
    simp only [BitVec.toNat_ofNat]
    omega
  · rw [hu.status, h.frame]
    simp
  · rw [hu.active, h.frame]
    simp
  · intro j e' d' x' p' h1 h2 h3
    rw [h.xfree] at h2
    rw [h.handles] at h3
    cases j with
    | zero =>
      simp only [List.getElem?_cons_zero, Option.some.injEq, Prod.mk.injEq] at h1 h2 h3
      obtain ⟨⟨rfl, rfl⟩, rfl, rfl⟩ := And.intro h1 (And.intro h2 h3)
      rw [hdu, hxu, hpu]
      exact ⟨h.td hd, h.txn.1, h.txn.2.1, h.txn.2.2.1, h.txn.2.2.2.1, h.txn.2.2.2.2, h.pkt⟩
    | succ j =>
      simp only [List.getElem?_cons_succ] at h1 h2 h3
      have hq := List.mem_of_getElem? h1
      have hne : d' ≠ d := fun hc => hn (hc ▸ List.mem_map_of_mem (f := Prod.snd) hq)
      have := hu.each j e' d' x' p' h1 h2 h3
      rw [h.tdOther d' hne, htn, hnl _ hq] at this
      exact this
  · intro i hi
    rw [List.map_cons, List.mem_cons, not_or] at hi
    rw [hu.tdOther i hi.2, h.tdOther i hi.1]
  · intro i hi
    rw [h.xfree, List.length_cons, List.take_succ_cons, List.mem_cons, not_or] at hi
    rw [hu.txnOther i hi.2, h.txnOther i hi.1]
  · intro i hi
    rw [h.handles, List.length_cons, List.take_succ_cons, List.mem_cons, not_or] at hi
    rw [hu.pktOther i hi.2, h.pktOther i hi.1]
  · rw [hu.xfree, h.xfree, List.length_cons, List.drop_succ_cons]
  · rw [hu.handles, h.handles, List.length_cons, List.drop_succ_cons]
  · refine ⟨.ringSubmit desc true :: os, by rw [huo, ho]; simp, by simp [hol], ?_⟩
    intro j e' d' p' h1 h3
    rw [h.handles] at h3
    cases j with
    | zero =>
      simp only [List.getElem?_cons_zero, Option.some.injEq, Prod.mk.injEq] at h1 h3
      obtain ⟨⟨rfl, rfl⟩, rfl⟩ := And.intro h1 h3
      exact ⟨desc, by simp, hw0, hw3⟩
    | succ j =>
      simp only [List.getElem?_cons_succ] at h1 h3
      have hq := List.mem_of_getElem? h1
      have hne : d' ≠ d := fun hc => hn (hc ▸ List.mem_map_of_mem (f := Prod.snd) hq)
      obtain ⟨desc', k1, k2, k3⟩ := hoe j e' d' p' h1 h3
      rw [h.tdOther d' hne, h.changes.cfg_eq (by decide), tok_congr (h.changes.toks_eq (by decide))] at k3
      exact ⟨desc', by simpa using k1, k2, k3⟩
  · rw [hu.env, h.env, hv]
  · exact h.changes.trans hu.changes

/-- The loop of a scan, when the resources and both budgets allow all the ready TDs of the list (R149, R152, R163). -/
theorem scanList_served (c : Mode) (l : List Nat) (rems sofs : List Nat) (answers : List Bool) (s : State)
    (hp : s.poolsOk) (hst : s.frame.status.closed = false) (hn : ((readyPairs c l s).map Prod.snd).Nodup)
    (hd : ∀ r ∈ readyPairs c l s, r.2 < s.tds.length)
    (hb : s.frame.bytes.toNat + ((readyPairs c l s).map (pairCost s)).sum ≤ s.cfg.maxBytesPerFrame)
    (hs : s.env.sofAnswers = rems ++ sofs) (hl : rems.length = (readyPairs c l s).length)
    (ht : ∀ rem ∈ rems, s.frame.timeUs.toNat + ((readyPairs c l s).map (pairTime s)).sum ≤ rem)
    (ha : s.env.ringAnswers = List.replicate (readyPairs c l s).length true ++ answers)
    (hr : (readyPairs c l s).length ≤ s.ring.cnt) (hx : (readyPairs c l s).length ≤ s.xfree.length)
    (hu : ((readyPairs c l s).filter (fun r => decide (nextLen s r.1 r.2 = 0))).length ≤ s.dfree.length) :
    ServedAll (readyPairs c l s) sofs answers s (scanList c l s) := by
  induction l generalizing s rems with
  | nil =>
    obtain rfl : rems = [] := List.length_eq_zero_iff.1 hl
    refine ServedAll.none s ?_
    have h1 : s.env.sofAnswers = sofs := hs
    have h2 : s.env.ringAnswers = answers := ha
    rw [← h1, ← h2]
  | cons e rest ih =>
    rw [scanList]
    cases hh : s.readyHead c e with
    | none =>
      rw [scanOne_notReady c e s hh]
      rw [readyPairs_none c e rest s hh] at *
      exact ih rems s hp hst hn hd hb hs hl ht ha hr hx hu
    | some d =>
      rw [(scanOne_ready c e d s hh).1]
      rw [readyPairs_some c e d rest s hh] at *
      obtain ⟨rem, rems, rfl⟩ : ∃ r rs, rems = r :: rs := by
        cases rems with
        | nil => simp at hl
        | cons r rs => exact ⟨r, rs, rfl⟩
      simp only [List.map_cons, List.sum_cons, List.length_cons] at hn hb hl ht ha hr hx
      obtain ⟨hdn, hn⟩ := List.nodup_cons.1 hn
      have hdl : d < s.tds.length := hd (e, d) (by simp)
      have htr := ht rem (by simp)
      obtain ⟨x, p, h1⟩ := tryAdmit_one e d rem (rems ++ sofs)
        (List.replicate (readyPairs c rest s).length true ++ answers) s hp hst
        (by show _ + pairCost s (e, d) ≤ _; omega) hs (by show _ + pairTime s (e, d) ≤ _; omega) (by omega)
        (by intro hc; rw [hc] at hx; simp at hx)
        (by
          intro hz hc
          rw [hc, List.filter_cons_of_pos (by simpa using hz)] at hu
          simp at hu)
        (by rw [ha]; rfl)
      have h1' : AdmittedOne e d x p (pairCost s (e, d)) (pairTime s (e, d))
        { s.env with sofAnswers := rems ++ sofs,
                     ringAnswers := List.replicate (readyPairs c rest s).length true ++ answers } s
        (tryAdmit e d s) := h1
      have hp1 := tryAdmit_poolsOk e d s hp
      obtain ⟨t, hteq⟩ : ∃ t, t = tryAdmit e d s := ⟨_, rfl⟩
      rw [← hteq] at h1' hp1 ⊢
      have hrp := h1'.readyPairs_eq hdl hdn
      have hnl : ∀ q ∈ readyPairs c rest s, nextLen t q.1 q.2 = nextLen s q.1 q.2 := by
        intro q hq
        have hne : q.2 ≠ d := fun hc => hdn (hc ▸ List.mem_map_of_mem hq)
        simp only [nextLen, h1'.tdOther _ hne, ed_congr (h1'.changes.eds_eq (by decide)) q.1]
      have hcost : ∀ q ∈ readyPairs c rest s, pairCost t q = pairCost s q := fun q hq => by
        simp only [pairCost, hnl q hq, h1'.changes.cfg_eq (by decide)]
      have htime : ∀ q ∈ readyPairs c rest s, pairTime t q = pairTime s q := fun q hq => by
        simp only [pairTime, hcost q hq, h1'.changes.cfg_eq (by decide), h1'.changes.bussts_eq (by decide)]
      have hb1 : t.frame.bytes.toNat ≤ s.frame.bytes.toNat + pairCost s (e, d) := by
        rw [h1'.frame]
        exact (BitVec.toNat_ofNat _ _).trans_le (Nat.mod_le _ _)
      have ht1 : t.frame.timeUs.toNat ≤ s.frame.timeUs.toNat + pairTime s (e, d) := by
        rw [h1'.frame]
        exact (BitVec.toNat_ofNat _ _).trans_le (Nat.mod_le _ _)
      have hih := ih rems t hp1 (by rw [h1'.frame]; rfl) (by rw [hrp]; exact hn)
        (by rw [hrp, h1'.tdsLength]; exact fun r hr => hd r (by simp [hr]))
        (by rw [hrp, List.map_congr_left hcost, h1'.changes.cfg_eq (by decide)]; omega)
        (by rw [h1'.env]) (by rw [hrp]; omega)
        (by
          intro r hr
          have := ht r (by simp [hr])
          rw [hrp, List.map_congr_left htime]
          omega)
        (by rw [hrp, h1'.env])
        (by have := h1'.cnt; rw [hrp]; omega)
        (by have := congrArg List.length h1'.xfree; rw [List.length_cons] at this; rw [hrp]; omega)
        (by
          have hfc : (readyPairs c rest s).filter (fun r => decide (nextLen t r.1 r.2 = 0)) =
              (readyPairs c rest s).filter (fun r => decide (nextLen s r.1 r.2 = 0)) :=
            List.filter_congr (fun q hq => by rw [hnl q hq])
          rw [hrp, hfc, h1'.dfree]
          by_cases hz : nextLen s e d = 0
          · rw [List.filter_cons_of_pos (by simpa using hz), List.length_cons] at hu
            rw [if_pos hz, List.length_tail]
            omega
          · rw [List.filter_cons_of_neg (by simpa using hz)] at hu
            rw [if_neg hz]
            exact hu)
      rw [hrp] at hih
      exact ServedAll.cons hp hdl hdn h1' rfl hih

/-! A scan in which the frame closes part-way (R155, R158). -/

theorem scanList_append (c : Mode) (l m : List Nat) (s : State) :
    scanList c (l ++ m) s = scanList c m (scanList c l s) := by
  induction l generalizing s with
  | nil => rfl
  | cons e rest ih => exact ih _

/-- Admitting some ready TDs leaves the EDs after them with the ready TDs they had. -/
theorem ServedAll.readyPairs_eq {c : Mode} {served : List (Nat × Nat)} {sofs : List Nat} {answers : List Bool}
    {s t : State} {l : List Nat} (h : ServedAll served sofs answers s t) (hx : served.length ≤ s.xfree.length)
    (hr : served.length ≤ s.ringHandles.length)
    (hn : ∀ d ∈ served.map Prod.snd, d ∉ (readyPairs c l s).map Prod.snd) : readyPairs c l t = readyPairs c l s := by
  have hed : ∀ i, t.ed i = s.ed i := ed_congr (h.changes.eds_eq (by decide))
  have hcfg := h.changes.cfg_eq (by decide)
  have key : ∀ i ∈ l, t.readyHead c i = s.readyHead c i := by
    intro i hi
    unfold State.readyHead
    rw [hed, hcfg, h.number]
    by_cases ho : (s.ed i).state = .operational
    · rw [if_pos ho, if_pos ho]
      cases hq : (s.ed i).queue.head? with
      | none => rfl
      | some d =>
        simp only
        by_cases hd : d ∈ served.map Prod.snd
        · have hnot : s.readyHead c i ≠ some d := fun hc => hn d hd
            (List.mem_map.2 ⟨(i, d), List.mem_filterMap.2 ⟨i, hi, by rw [hc]; rfl⟩, rfl⟩)
          have htx : (t.td d).txn ≠ Option.none := by
            obtain ⟨⟨e, d'⟩, hm, rfl⟩ := List.mem_map.1 hd
            obtain ⟨j, hj⟩ := List.mem_iff_getElem?.1 hm
            have hjl := (List.getElem?_eq_some_iff.1 hj).1
            obtain ⟨⟨b, hb⟩, -⟩ := h.each j e d' _ _ hj (List.getElem?_eq_getElem (by omega : j < s.xfree.length))
              (List.getElem?_eq_getElem (by omega : j < s.ringHandles.length))
            rw [hb]
            simp
          unfold State.readyHead at hnot
          rw [if_pos ho, hq] at hnot
          simp only at hnot
          rw [if_neg (fun hc => htx hc.1)]
          split at hnot
          · exact absurd rfl hnot
          · rename_i hz
            rw [if_neg hz]
        · rw [h.tdOther d hd]
    · rw [if_neg ho, if_neg ho]
  unfold readyPairs
  apply List.filterMap_congr
  intro i hi
  rw [key i hi]

/-- The first ready TD that fails a budget test closes the frame, and nothing more happens (R152, R155, R158). -/
theorem scanList_closes (c : Mode) (l : List Nat) (r : Nat × Nat) (more : List (Nat × Nat)) (s u : State)
    (hr : readyPairs c l s = r :: more) (hu : tryAdmit r.1 r.2 s = u) (hc : u.frame.status.closed = true) :
    scanList c l s = u := by
  induction l with
  | nil => simp [readyPairs] at hr
  | cons e rest ih =>
    rw [scanList]
    cases hh : s.readyHead c e with
    | none =>
      rw [readyPairs_none c e rest s hh] at hr
      rw [scanOne_notReady c e s hh]
      exact ih hr
    | some d =>
      rw [readyPairs_some c e d rest s hh] at hr
      obtain ⟨rfl, -⟩ := List.cons.inj hr
      rw [(scanOne_ready c e d s hh).1, hu]
      exact scanList_closed c rest u hc

/-- A failed byte test (R152, R158). -/
theorem tryAdmit_overBytes (e d : Nat) (s : State) (hst : s.frame.status.closed = false)
    (hb : s.cfg.maxBytesPerFrame < s.frame.bytes.toNat + pairCost s (e, d)) :
    tryAdmit e d s = closeFrame .endOfTransmission s := by
  have h : overBytes s (costOf s.cfg (nextLen s e d)) = true := decide_eq_true hb
  simp only [tryAdmit, hst, h]
  rfl

/-- A failed time test (R152, R158). -/
theorem tryAdmit_overTime (e d rem : Nat) (sofs : List Nat) (s : State) (hst : s.frame.status.closed = false)
    (hb : s.frame.bytes.toNat + pairCost s (e, d) ≤ s.cfg.maxBytesPerFrame) (hs : s.env.sofAnswers = rem :: sofs)
    (ht : rem < s.frame.timeUs.toNat + pairTime s (e, d)) :
    tryAdmit e d s = closeFrame .timerForcedEnd (s.setEnv { s.env with sofAnswers := sofs }) := by
  have h1 : overBytes s (costOf s.cfg (nextLen s e d)) = false := decide_eq_false (Nat.not_lt.2 hb)
  have h2 : sofRemaining s = (rem, s.setEnv { s.env with sofAnswers := sofs }) := by simp only [sofRemaining, hs]
  have h3 : overTime (s.setEnv { s.env with sofAnswers := sofs })
      (wireTime s.cfg s.bussts.speed (costOf s.cfg (nextLen s e d))) rem = true := decide_eq_true ht
  simp only [tryAdmit, hst, h1, h2, h3]
  rfl

/-- The loop of a scan is one turn for each ED of the list: an admission attempt if a TD of it is ready (R149). -/
theorem scanList_foldl (c : Mode) (l : List Nat) (s : State) :
    scanList c l s = l.foldl (fun u e => match u.readyHead c e with
      | none => u
      | some d => tryAdmit e d u) s := by
  induction l generalizing s with
  | nil => rfl
  | cons e rest ih =>
    rw [scanList, List.foldl_cons, ih]
    congr 1
    cases hh : s.readyHead c e with
    | none => exact scanOne_notReady c e s hh
    | some d => exact (scanOne_ready c e d s hh).1

end Sys2Proof.Machine
end

