-- ==== Sys2Proof/Tests/Slice0.lean ====
section
/-! SUPPORT. Tests/Slice0.lean: tests whose expected values come from spec/95_test_vectors.md or are worked out by
hand from the rules named, and for every obligation with hypotheses a witness that they can be met. -/

namespace Sys2Proof.Tests

set_option Elab.async false

open Sys2Proof.Machine

/-! ## Small states -/

/-- `ep(5, 1, OUT, BULK, FULL, 64)`, the word `0x00403085` of V1. -/
def eidOut : EndpointId :=
  { devAddr := 5, epNum := 1, dirIn := false, mode := .bulk, speed := .full, rsv15 := false, maxPacket := 64,
    rsvHi := 0 }

/-- Store words to host memory, as the core does. -/
def withWords : List (Addr × Word) → State → State
  | [], s => s
  | (a, v) :: rest, s => withWords rest (s.setMem (s.mem.write32 s.cfg a v))

/-- The reset state, connected at full speed, with a request record at `0x1000` and the environment's answers. -/
def base (length buffer flags period subs : Word) (sof : List Nat) (ring : List Bool) : State :=
  withWords [(0x1000, length), (0x1004, buffer), (0x1008, flags), (0x1010, period), (0x1014, subs),
      (0x1018, 0xDEADBEEF#32), (0x101C, 0xDEADBEEF#32)]
    { State.reset with
      bussts := { connected := true, speed := .full }
      env := { Env.quiet with sofAnswers := sof, ringAnswers := ring } }

/-- 100 bytes from `0x20000`. -/
def plain : State := base 100 0x20000 0 0 0 [990] [true]

/-- A bulk pipe of `eidOut` with the TDs 0 .. n-1 queued. -/
def bulkEd (n : Nat) : Ed :=
  { alloc := true, state := .operational, devAddr := 5, epNum := 1, dirIn := false, mode := .bulk, speed := .full,
    maxPacket := 64, toggleCarry := false, queue := List.range n }

/-- A TD of the request at `0x1000` with Token `k`. -/
def bulkTd (dir : Dir) (k : Nat) : Td :=
  { Td.initial with alloc := true, place := .queued, request := 0x1000, ed := some 0, dir := dir, data := 0x20000,
                    length := 100, toggle := .carry, ioc := true, token := some k }

/-- The state with ED 0 and its TDs and Tokens in place, the free-lists to match. -/
def piped (e : Ed) (tds : List Td) (s : State) : State :=
  let n := tds.length
  { s with
    eds := s.eds.set 0 e
    tds := tds ++ s.tds.drop n
    toks := (List.range n).map (fun i => { alloc := true, bytes := 0x6085E1, td := some i }) ++ s.toks.drop n
    efree := s.efree.tail
    tfree := s.tfree.drop n
    kfree := s.kfree.drop n
    cls := s.cls.set e.mode [0] }

/-- The state with TD 0 in flight: record 0, Packet 0, in a frame opened at number 1. -/
def flying (phase : Phase) (len : BitVec 11) (dummy : Option Nat) (s : State) : State :=
  let desc : TxDesc := { w0 := 0x80000000, w1 := 0x40, w2 := 0x20000, w3 := 0 }
  { s with
    frnum := 1
    tds := s.tds.modify 0 (fun t =>
      { t with place := .active, startFrame := 1, txn := some 0, toggle := .val false })
    txns := s.txns.set 0 { alloc := true, phase := phase, td := some 0, pkt := some 0, token := some 0,
                           len := len, dummy := dummy, dataDesc := desc }
    xfree := s.xfree.tail
    dfree := match dummy with
      | some _ => s.dfree.tail
      | none => s.dfree
    pkts := s.pkts.set 0 { pointer := 0x20000, length := 64, status := .ok, info := 0, out := true }
    ring := { s.ring with rd := 1, cnt := 10 }
    frame := { bytes := 80, status := .transmitted, active := [0], number := 1, timeUs := 53 } }

/-- One OUT TD queued. -/
def queuedOut : State := piped (bulkEd 1) [bulkTd .out 0] plain
/-- One IN TD queued. -/
def queuedIn : State := piped { bulkEd 1 with dirIn := true } [bulkTd .inn 0] plain
/-- One OUT TD in flight. -/
def flyOut (phase : Phase) : State := flying phase 64 none queuedOut
/-- One IN TD in flight. -/
def flyIn (phase : Phase) : State := flying phase 64 none queuedIn
/-- The state with ED 0 in another state. -/
def edIn (st : EdState) (s : State) : State := { s with eds := s.eds.modify 0 (fun e => { e with state := st }) }
/-- The state with its first TD changed. -/
def tdWith (f : Td → Td) (s : State) : State := { s with tds := s.tds.modify 0 f }
/-- One TD on the done list, and a drain outstanding. -/
def doneState : State :=
  { tdWith (fun t => { t with place := .done, transferred := 100 })
      (edIn .skip { queuedOut with eds := queuedOut.eds.modify 0 (fun e => { e with queue := [] }) }) with
    mem := (queuedOut.mem.write32 queuedOut.cfg 0x1018 0).write32 queuedOut.cfg 0x101C 0
    done := [0]
    drainp := true }
/-- A scripted choice. -/
def choosing (src : Source) (s : State) : State := { s with env := { s.env with sched := [src] } }

/-- The state after an operation. -/
def after (i : Instr) (s : State) : State :=
  match exec i s with
  | .next t => t
  | .fault _ => s
  | .refused _ => s

/-! Three states of a run, with everything paired. -/

/-- 100 bytes submitted on a new bulk pipe. -/
def submitted : State := after (.submit eidOut 0x1000) plain
/-- Their first transaction in flight. -/
def started : State := after .evFrameStart submitted
/-- The request cancelled before a frame starts. -/
def cancelled : State := after (.cancel 0x1000) submitted

theorem plain_poolsOk : plain.poolsOk :=
  ⟨by decide +kernel, by decide +kernel, by decide +kernel, by decide +kernel⟩
theorem submitted_poolsOk : submitted.poolsOk :=
  ⟨by decide +kernel, by decide +kernel, by decide +kernel, by decide +kernel⟩
theorem started_poolsOk : started.poolsOk :=
  ⟨by decide +kernel, by decide +kernel, by decide +kernel, by decide +kernel⟩
theorem cancelled_poolsOk : cancelled.poolsOk :=
  ⟨by decide +kernel, by decide +kernel, by decide +kernel, by decide +kernel⟩
theorem withWords_framed (l : List (Addr × Word)) (s : State) : Framed [.mem] s (withWords l s) := by
  induction l generalizing s with
  | nil => exact Framed.refl _ _
  | cons a rest ih => exact (setMem_framed _ _).trans (ih _)
theorem withWords_paired {s : State} (l : List (Addr × Word)) (h : s.Paired) : (withWords l s).Paired :=
  State.Paired.congr (SamePairs.of_framed (withWords_framed l s) (by decide)) h
theorem base_paired (length buffer flags period subs : Word) (sof : List Nat) (ring : List Bool) :
    (base length buffer flags period subs sof ring).Paired :=
  withWords_paired _ (State.Paired.congr
    (SamePairs.of_framed (c := [.bussts, .env]) (fun f hf => by cases f <;> first | rfl | (simp at hf)) (by decide))
    (resetOf_paired Config.atReset))
theorem plain_paired : plain.Paired := base_paired ..
theorem submitted_paired : submitted.Paired :=
  runPass_paired .heldH (submitBody eidOut 0x1000) plain plain_poolsOk (submitBody_paired eidOut 0x1000) plain_paired
theorem started_paired : started.Paired :=
  runPass_paired .heldA (fun s => reap (frameStartBody s)) submitted submitted_poolsOk
    (fun s hp hs => reap_paired _ (frameStartBody_paired s hp hs)) submitted_paired
theorem cancelled_paired : cancelled.Paired :=
  runPass_paired .heldH (cancelBody 0x1000) submitted submitted_poolsOk (fun s _ => cancelBody_paired 0x1000 s)
    submitted_paired

/-! Two transactions in flight, on two pipes. -/

/-- `ep(5, 2, OUT, BULK, FULL, 64)`. -/
def eidTwo : EndpointId := { eidOut with epNum := 2 }
/-- Requests of 100 bytes at `0x1000` and at `0x2000`. -/
def plainTwo : State :=
  withWords [(0x2000, 100), (0x2004, 0x30000), (0x2008, 0)] (base 100 0x20000 0 0 0 [990, 990] [true, true])
def submittedOne : State := after (.submit eidOut 0x1000) plainTwo
def submittedTwo : State := after (.submit eidTwo 0x2000) submittedOne
/-- Both in flight since frame 1, and the frame counter at 6. -/
def staleTwo : State := { after .evFrameStart submittedTwo with frnum := 6 }

theorem plainTwo_poolsOk : plainTwo.poolsOk :=
  ⟨by decide +kernel, by decide +kernel, by decide +kernel, by decide +kernel⟩
theorem submittedOne_poolsOk : submittedOne.poolsOk :=
  ⟨by decide +kernel, by decide +kernel, by decide +kernel, by decide +kernel⟩
theorem submittedTwo_poolsOk : submittedTwo.poolsOk :=
  ⟨by decide +kernel, by decide +kernel, by decide +kernel, by decide +kernel⟩
theorem submittedOne_paired : submittedOne.Paired :=
  runPass_paired .heldH (submitBody eidOut 0x1000) plainTwo plainTwo_poolsOk (submitBody_paired eidOut 0x1000)
    (withWords_paired _ (base_paired ..))
theorem submittedTwo_paired : submittedTwo.Paired :=
  runPass_paired .heldH (submitBody eidTwo 0x2000) submittedOne submittedOne_poolsOk (submitBody_paired eidTwo 0x2000)
    submittedOne_paired
theorem frnum_paired {s : State} (n : BitVec 16) (h : s.Paired) : ({ s with frnum := n } : State).Paired :=
  State.Paired.congr (SamePairs.of_framed (setFrnum_framed n s) (by decide)) h
theorem staleTwo_paired : staleTwo.Paired :=
  frnum_paired 6 (runPass_paired .heldA (fun s => reap (frameStartBody s)) submittedTwo submittedTwo_poolsOk
    (fun s hp hs => reap_paired _ (frameStartBody_paired s hp hs)) submittedTwo_paired)

/-! ## Well-formedness: an ill-formed term for each check -/

theorem test_wf_submit : (Instr.submit eidOut 0x1000).wellFormed = true := by decide
theorem test_ill_submit_bit15 : (Instr.submit { eidOut with rsv15 := true } 0x1000).wellFormed = false := by decide
theorem test_ill_submit_bit27 : (Instr.submit { eidOut with rsvHi := 1 } 0x1000).wellFormed = false := by decide
theorem test_ill_submit_maxPacket : (Instr.submit { eidOut with maxPacket := 0 } 0x1000).wellFormed = false := by
  decide
theorem test_ill_submit_handle : (Instr.submit eidOut 0x1002).wellFormed = false := by decide
theorem test_ill_cancel_handle : (Instr.cancel 0x1001).wellFormed = false := by decide
theorem test_ill_teardown : (Instr.epTeardown { eidOut with rsv15 := true }).wellFormed = false := by decide
theorem test_ill_clearHalt : (Instr.epClearHalt { eidOut with rsvHi := 16 }).wellFormed = false := by decide
theorem test_ill_txConfirm : (Instr.evTxConfirm 9 0).wellFormed = false := by decide
theorem test_ill_rxConfirm : (Instr.evRxConfirm 9 0 0).wellFormed = false := by decide
theorem test_ill_tokenOut : (Instr.tokenOut 5 2 0b11110).wellFormed = false := by decide +kernel
theorem test_ill_tokenIn : (Instr.tokenIn 5 0 0).wellFormed = false := by decide +kernel
theorem test_ill_tokenSetup : (Instr.tokenSetup 5 0 0).wellFormed = false := by decide +kernel
theorem test_wf_tokenOut : (Instr.tokenOut 5 2 0b11111).wellFormed = true := by decide +kernel

/-! ## Decoding: words of V1, V2 and V3 -/

theorem test_decode_submit :
    decode [0x01000000#32, 0x00403085#32, 0x00001000#32] = .ok (.submit eidOut 0x1000, []) := by decide
theorem test_decode_submit_top : decode [0x01000000#32, 0x07FF7FFF#32, 0x00001000#32] =
    .ok (.submit { devAddr := 127, epNum := 15, dirIn := true, mode := .bulk, speed := .low, rsv15 := false,
                   maxPacket := 2047, rsvHi := 0 } 0x1000, []) := by decide
theorem test_decode_cancel : decode [0x02000000#32, 0x00001040#32] = .ok (.cancel 0x1040, []) := by decide
theorem test_decode_teardown : decode [0x03000000#32, 0x00081882#32] =
    .ok (.epTeardown { devAddr := 2, epNum := 1, dirIn := true, mode := .intr, speed := .full, rsv15 := false,
                       maxPacket := 8, rsvHi := 0 }, []) := by decide
theorem test_decode_clearHalt : decode [0x04000000#32, 0x00800104#32] =
    .ok (.epClearHalt { devAddr := 4, epNum := 2, dirIn := false, mode := .iso, speed := .full, rsv15 := false,
                        maxPacket := 128, rsvHi := 0 }, []) := by decide
theorem test_decode_getFrame : decode [0x05000000#32] = .ok (.getFrame, []) := by decide
theorem test_decode_frameStart : decode [0x10000000#32] = .ok (.evFrameStart, []) := by decide
theorem test_decode_txConfirm : decode [0x11080002#32] = .ok (.evTxConfirm 8 2, []) := by decide
theorem test_decode_rxConfirm : decode [0x12000005#32, 8#32] = .ok (.evRxConfirm 0 5 8, []) := by decide
theorem test_decode_connect : decode [0x13000001#32] = .ok (.evConnect .low, []) := by decide
theorem test_decode_disconnect : decode [0x14000000#32] = .ok (.evDisconnect, []) := by decide
theorem test_decode_drain : decode [0x20000000#32] = .ok (.drain, []) := by decide
theorem test_decode_tokenOut : decode [0x006085E1#32] = .ok (.tokenOut 5 1 0b01100, []) := by decide
theorem test_decode_tokenIn : decode [0x0047FF69#32] = .ok (.tokenIn 127 15 0b01000, []) := by decide
theorem test_decode_tokenSetup : decode [0x00E8012D#32] = .ok (.tokenSetup 1 0 0b11101, []) := by decide
theorem test_reject_opcode : decode [0x06000000#32] = .error .unknownOpcode := by decide
theorem test_reject_reserved : decode [0x01000001#32] = .error .reservedBits := by decide
theorem test_reject_short : decode [0x02000000#32] = .error .incomplete := by decide
theorem test_table_submit :
    decodeTableWord 96 0x000010000040308501000000 = some (.submit eidOut 0x1000) := by decide
theorem test_encode_rxConfirm : encode (.evRxConfirm 2 0 0) = [0x12020000#32, 0#32] := by decide
theorem test_encode_connect : encode (.evConnect .low) = [0x13000001#32] := by decide
/-- V2: the tokens for addresses 4, 0x15, 0x3A and 0x70. -/
theorem test_tokens : tokenBytes .out 4 2 = 0x0104E1 ∧ tokenBytes .out 0x15 0xE = 0xEF15E1 ∧
    tokenBytes .out 0x3A 0xA = 0x3D3AE1 ∧ tokenBytes .out 0x70 4 = 0x7270E1 := by decide +kernel

/-! ## Operations -/

/-- V32: the response, the two writes; R176: the new TD. -/
theorem test_submit : (after (.submit eidOut 0x1000) plain).out =
      [.memWrite 0x1018 0, .memWrite 0x101C 0, .response 0x01000000] ∧
    ((after (.submit eidOut 0x1000) plain).td 0).data = 0x20000 ∧
    ((after (.submit eidOut 0x1000) plain).td 0).length = 100 ∧
    ((after (.submit eidOut 0x1000) plain).tok 0).bytes = 0x6085E1 ∧
    (after (.submit eidOut 0x1000) plain).cls.bulk = [0] := by decide +kernel
/-- V31: 32769 bytes need nine TDs; there are eight. -/
theorem test_submit_busy :
    (after (.submit eidOut 0x1000) (base 32769 0 0 0 0 [] [])).out = [.response 0x01010001] := by decide +kernel
/-- V33, P5: CANCEL marks the ED. -/
theorem test_cancel : ((after (.cancel 0x1000) queuedOut).ed 0).state = .pendingDelete ∧
    (after (.cancel 0x1000) queuedOut).out = [.response 0x02000000] := by decide +kernel
/-- V32: an aligned handle of no request. -/
theorem test_cancel_notFound : (after (.cancel 0x5550) queuedOut).out = [.response 0x02020000] := by decide +kernel
/-- V33: the tear-down of a pipe with a transaction in flight. -/
theorem test_teardown :
    (after (.epTeardown eidOut) (flyOut .dataWait)).out.getLast? = some (.response 0x03000000) ∧
    (after (.epTeardown eidOut) (flyOut .dataWait)).ringHandles = [1, 2, 3, 4, 5, 6, 7, 8, 9, 10, 0] ∧
    (after (.epTeardown eidOut) (flyOut .dataWait)).cls.bulk = [] ∧
    (after (.epTeardown eidOut) (flyOut .dataWait)).frame.bytes = 80 := by decide +kernel
theorem test_teardown_notFound : (after (.epTeardown eidOut) plain).out = [.response 0x03020000] := by decide +kernel
/-- V34: a halted ED with a queue becomes `Operational`. -/
theorem test_clearHalt : ((after (.epClearHalt eidOut) (edIn .halted queuedOut)).ed 0).state = .operational := by
  decide +kernel
theorem test_clearHalt_notFound : (after (.epClearHalt eidOut) plain).out = [.response 0x04020000] := by decide +kernel
/-- V4: `GET_FRAME` at 2047. -/
theorem test_getFrame : (after .getFrame { plain with frnum := 2047 }).out = [.response 0x050007FF] := by
  decide +kernel
/-- V33: the token descriptor, and the frame charged with 80 bytes and 53 us (V20). -/
theorem test_frameStart : (after .evFrameStart queuedOut).out =
      [.ringSubmit { w0 := 0, w1 := 3, w2 := 0, w3 := 0x006085E1 } true] ∧
    (after .evFrameStart queuedOut).frame =
      { bytes := 80, status := .transmitted, active := [0], number := 1, timeUs := 53 } := by decide +kernel
/-- V25: the frame counter wraps. -/
theorem test_frameStart_wraps : (after .evFrameStart { State.reset with frnum := 2047 }).frnum = 0 := by
  decide +kernel
/-- V33: the data descriptor goes out and the record awaits its confirm. -/
theorem test_txConfirm : (after (.evTxConfirm 0 0) (flyOut .tokenWait)).out =
      [.ringSubmit { w0 := 0x80000000, w1 := 0x40, w2 := 0x20000, w3 := 0 } true] ∧
    ((after (.evTxConfirm 0 0) (flyOut .tokenWait)).txn 0).phase = .dataWait := by decide +kernel
/-- V42: a stall in the token phase ends the TD and halts the ED. -/
theorem test_txConfirm_stall : ((after (.evTxConfirm 2 0) (flyOut .tokenWait)).td 0).status = .stall ∧
    ((after (.evTxConfirm 2 0) (flyOut .tokenWait)).ed 0).state = .halted := by decide +kernel
/-- R217: a short IN packet ends the TD; its toggle flips. -/
theorem test_rxConfirm_short : ((after (.evRxConfirm 0 0 10) (flyIn .dataWait)).td 0).transferred = 10 ∧
    ((after (.evRxConfirm 0 0 10) (flyIn .dataWait)).td 0).place = .done ∧
    ((after (.evRxConfirm 0 0 10) (flyIn .dataWait)).ed 0).toggleCarry = true := by decide +kernel
/-- R213: too long is an overrun, noted in `DIAG`, and an error of the TD. -/
theorem test_rxConfirm_long : (after (.evRxConfirm 0 0 65) (flyIn .dataWait)).diag.bits = 8 ∧
    ((after (.evRxConfirm 0 0 65) (flyIn .dataWait)).td 0).errorCount = 1 := by decide +kernel
theorem test_connect : (after (.evConnect .low) State.reset).bussts.bits = 3 := by decide +kernel
theorem test_disconnect : (after .evDisconnect plain).bussts.bits = 0 := by decide +kernel
/-- V5: `CS_OK`, handle `0x1000`, 100 bytes. -/
theorem test_drain : (after .drain doneState).out =
    [.memWrite 0x1018 100, .callback 0xC0000000 0x1000 100] := by decide +kernel
/-- V3: the word of an OUT token on the command port is answered as `00000000` is. -/
theorem test_tokenOut : (after (.tokenOut 5 2 0b11111) plain).out = [.response 0x00FF0000] := by decide +kernel
theorem test_tokenIn : (after (.tokenIn 5 0 0b11010) plain).out = [.response 0x00FF0000] := by decide +kernel
theorem test_tokenSetup : (after (.tokenSetup 5 0 0b11010) plain).out = [.response 0x00FF0000] := by decide +kernel

/-! ## Witnesses: for each obligation with hypotheses, states and operands that meet them, clause by clause -/

theorem witness_EncodeUndoesDecode :
    decode [0x02000000#32, 0x00001040#32, 7#32] = .ok (.cancel 0x1040, [7#32]) := by decide

/-- A state with words on both ports and a scripted choice. -/
def worded (src : Source) (cmd evt : List Word) : State :=
  { choosing src State.reset with cmdPort := cmd, evtPort := evt }

theorem witness_StepRunsDecodedOperation_command :
    let s := worded .command [0x02000000, 0x1040] []
    s.attached = true ∧ decode [0x02000000#32, 0x1040#32] = .ok (.cancel 0x1040, []) ∧
    opcodePort (opcodeOf 0x02000000#32) = some .command ∧ s.env.sched = [.command] ∧
    s.cmdPort = [0x02000000, 0x1040] := by decide +kernel
theorem witness_StepRunsDecodedOperation_event :
    let s := worded .event [] [0x13000001, 0x10000000]
    s.attached = true ∧ decode [0x13000001#32, 0x10000000#32] = .ok (.evConnect .low, [0x10000000]) ∧
    opcodePort (opcodeOf 0x13000001#32) = some .event ∧ s.env.sched = [.event] ∧
    s.evtPort = [0x13000001, 0x10000000] := by decide +kernel
theorem witness_StepRunsDecodedOperation_deferred :
    (worded .deferred [] []).attached = true ∧ decode [0x20000000#32] = .ok (.drain, []) ∧
    (worded .deferred [] []).env.sched = [.deferred] := by decide +kernel
theorem witness_PlacedOperationRunsNext :
    State.reset.attached = true ∧ decodeTableWord 64 0x000010400200_0000 = some (.cancel 0x1040) := by decide +kernel

theorem witness_IllegalCommands_zero : let s := worded .command [0] []
    s.attached = true ∧ s.env.sched = [.command] ∧ s.cmdPort = [0] ∧
    ¬ (1 ≤ (opcodeOf 0#32).toNat ∧ (opcodeOf 0#32).toNat ≤ 5) := by decide +kernel
theorem witness_IllegalCommands_six : let s := worded .command [0x06000000] []
    s.attached = true ∧ s.env.sched = [.command] ∧ s.cmdPort = [0x06000000] ∧
    ¬ (1 ≤ (opcodeOf 0x06000000#32).toNat ∧ (opcodeOf 0x06000000#32).toNat ≤ 5) := by decide +kernel
theorem witness_IllegalCommands_reserved : let s := worded .command [0x01000001, 5, 6] []
    s.attached = true ∧ s.env.sched = [.command] ∧ s.cmdPort = [0x01000001, 5, 6] ∧
    belowOpcode 0x01000001#32 ≠ 0#24 := by decide +kernel
theorem witness_IllegalCommands_operands :
    ({ eidOut with rsv15 := true } : EndpointId).rsv15 = true ∧ ({ eidOut with rsvHi := 1 } : EndpointId).rsvHi ≠ 0#5 ∧
    ({ eidOut with maxPacket := 0 } : EndpointId).maxPacket = 0#11 ∧ (0x1002#32).toNat % 4 ≠ 0 := by decide

theorem witness_IllegalEvents_opcode : let s := worded .event [] [0x15000000]
    s.attached = true ∧ s.env.sched = [.event] ∧ s.evtPort = [0x15000000] ∧
    ¬ (0x10 ≤ (opcodeOf 0x15000000#32).toNat ∧ (opcodeOf 0x15000000#32).toNat ≤ 0x14) := by decide +kernel
theorem witness_IllegalEvents_reserved :
    (opcodeOf 0x10000001#32 = 0x10#8 ∧ belowOpcode 0x10000001#32 ≠ 0#24) ∧
    (opcodeOf 0x14800000#32 = 0x14#8 ∧ belowOpcode 0x14800000#32 ≠ 0#24) ∧
    (opcodeOf 0x13000002#32 = 0x13#8 ∧ (0x13000002#32).extractLsb' 1 23 ≠ 0#23) := by decide
theorem witness_IllegalEvents_tx : let s := worded .event [] [0x11090000]
    s.attached = true ∧ s.env.sched = [.event] ∧ s.evtPort = [0x11090000] ∧ opcodeOf 0x11090000#32 = 0x11#8 ∧
    8 < ((0x11090000#32).extractLsb' 16 8).toNat := by decide +kernel
theorem witness_IllegalEvents_rx : let s := worded .event [] [0x120A0000, 0]
    s.attached = true ∧ s.env.sched = [.event] ∧ s.evtPort = [0x120A0000, 0] ∧ opcodeOf 0x120A0000#32 = 0x12#8 ∧
    8 < ((0x120A0000#32).extractLsb' 16 8).toNat := by decide +kernel

theorem witness_Detached_refused : ({ State.reset with attached := false } : State).attached = false := by decide
theorem witness_Detached_detach : (choosing .detach State.reset).attached = true ∧
    (choosing .detach State.reset).env.sched = [.detach] := by decide +kernel

theorem witness_Cancel_illegal : (0x1003#32).toNat % 4 ≠ 0 := by decide
theorem witness_Cancel_notFound : (0x1000#32).toNat % 4 = 0 ∧
    ∀ d, ¬ plain.liveTdOf (plain.handle 0x1000#32) d := by
  have h : ∀ d < plain.tds.length, ¬ plain.liveTdOf (plain.handle 0x1000#32) d := by decide +kernel
  exact ⟨by decide, fun d hd => h d hd.1 hd⟩
theorem witness_Cancel_ok : (0x1000#32).toNat % 4 = 0 ∧ queuedOut.liveTdOf (queuedOut.handle 0x1000#32) 0 ∧
    ∀ i, queuedOut.liveTdOf (queuedOut.handle 0x1000#32) i → (queuedOut.td i).ed = some 0 := by
  have h : ∀ i < queuedOut.tds.length, queuedOut.liveTdOf (queuedOut.handle 0x1000#32) i →
      (queuedOut.td i).ed = some 0 := by decide +kernel
  exact ⟨by decide, by decide +kernel, fun i hi => h i hi.1 hi⟩

theorem witness_ClearHalt_illegal : ({ eidOut with rsvHi := 1 } : EndpointId).rsvHi ≠ 0#5 := by decide
theorem witness_ClearHalt_notFound : eidOut.rsv15 = false ∧ eidOut.rsvHi = 0#5 ∧ plain.noPipe (pipeKey eidOut) := by
  decide +kernel
theorem witness_ClearHalt_halted : let s := edIn .halted queuedOut
    s.onlyPipe 0 (pipeKey eidOut) ∧ (s.ed 0).state = .halted ∧ (s.ed 0).queue ≠ [] := by decide +kernel
theorem witness_ClearHalt_haltedEmpty : let s := edIn .halted (piped (bulkEd 0) [] plain)
    s.onlyPipe 0 (pipeKey eidOut) ∧ (s.ed 0).state = .halted ∧ (s.ed 0).queue = [] := by decide +kernel
theorem witness_ClearHalt_other : queuedOut.onlyPipe 0 (pipeKey eidOut) ∧ (queuedOut.ed 0).state ≠ .halted := by
  decide +kernel

theorem witness_SubmitToAHaltedPipe : let s := edIn .halted (piped (bulkEd 0) [] plain)
    submitValid s eidOut 0x1000 = true ∧ s.onlyPipe 0 (pipeKey eidOut) ∧ (s.ed 0).state = .halted := by decide +kernel
theorem witness_SubmitToADyingPipe : let s := edIn .pendingDelete (piped (bulkEd 0) [] plain)
    submitValid s eidOut 0x1000 = true ∧ s.onlyPipe 0 (pipeKey eidOut) ∧ (s.ed 0).state = .pendingDelete := by
  decide +kernel
theorem witness_SubmitValidates : (∃ d < queuedOut.tds.length, (queuedOut.td d).alloc = true ∧
      (queuedOut.td d).request = queuedOut.handle 0x1000#32) ∧
    ({ eidOut with maxPacket := 0 } : EndpointId).maxPacket = 0#11 ∧ (0x1001#32).toNat % 4 ≠ 0 ∧
    ({ eidOut with rsv15 := true } : EndpointId).rsv15 = true ∧
    ({ eidOut with rsvHi := 16 } : EndpointId).rsvHi ≠ 0#5 := by decide +kernel
theorem witness_SubmitRefuses_flags : let s := base 10 0x20000 4 0 0 [] []
    submitValid s eidOut 0x1000 = true ∧ s.noPipe (pipeKey eidOut) ∧
    (s.field (s.handle 0x1000#32) 0x08).extractLsb' 2 30 ≠ 0#30 := by decide +kernel
theorem witness_SubmitRefuses_iso : let s := base 10 0x20000 0 0 0 [] []
    let eid := { eidOut with mode := .iso }
    submitValid s eid 0x1000 = true ∧ s.noPipe (pipeKey eid) ∧ (pipeOf s eid none).mode = .iso ∧
    s.field (s.handle 0x1000#32) 0x14 = 0#32 := by decide +kernel
/-- V31: 32769 bytes need nine TDs, one more than there are. -/
theorem witness_SubmitRefuses_busy : let s := piped (bulkEd 0) [] (base 32769 0x20000 3 0 0 [] [])
    let n := tdCount s (pipeOf s eidOut (some 0)).mode (s.handle 0x1000#32)
    submitValid s eidOut 0x1000 = true ∧ s.onlyPipe 0 (pipeKey eidOut) ∧ (s.ed 0).state ≠ .halted ∧
    (s.ed 0).state ≠ .pendingDelete ∧ (s.field (s.handle 0x1000#32) 0x08).extractLsb' 2 30 = 0#30 ∧ n ≠ 0 ∧
    s.tfree.length < n ∧ n = s.tfree.length + 1 := by decide +kernel
theorem witness_SubmitRefuses_noEd : let s := { plain with efree := [] }
    submitValid s eidOut 0x1000 = true ∧ s.noPipe (pipeKey eidOut) ∧
    tdCount s (pipeOf s eidOut none).mode (s.handle 0x1000#32) ≠ 0 ∧ s.efree = [] := by decide +kernel
/-- V31: 32768 bytes take all eight TDs. -/
theorem witness_SubmitQueues : let s := piped (bulkEd 0) [] (base 32768 0x20000 3 0 0 [] [])
    let n := (tdSpecs s (pipeOf s eidOut (some 0)) (s.handle 0x1000#32)).length
    s.poolsOk ∧ Memory.wf s.mem ∧ 6 ≤ s.cfg.addrBits ∧ submitValid s eidOut 0x1000 = true ∧
    s.onlyPipe 0 (pipeKey eidOut) ∧ (s.ed 0).state ≠ .halted ∧ (s.ed 0).state ≠ .pendingDelete ∧
    (s.field (s.handle 0x1000#32) 0x08).extractLsb' 2 30 = 0#30 ∧ n ≠ 0 ∧ n = s.tfree.length ∧
    n ≤ s.kfree.length :=
  ⟨⟨by decide +kernel, by decide +kernel, by decide +kernel, by decide +kernel⟩, by decide +kernel⟩
theorem witness_SubmitCreates :
    let n := (tdSpecs plain (pipeOf plain eidOut none) (plain.handle 0x1000#32)).length
    plain.poolsOk ∧ Memory.wf plain.mem ∧ 6 ≤ plain.cfg.addrBits ∧ submitValid plain eidOut 0x1000 = true ∧
    plain.noPipe (pipeKey eidOut) ∧
    plain.efree = 0 :: [1, 2, 3] ∧ (plain.field (plain.handle 0x1000#32) 0x08).extractLsb' 2 30 = 0#30 ∧
    n ≠ 0 ∧ n ≤ plain.tfree.length ∧ n ≤ plain.kfree.length :=
  ⟨⟨by decide +kernel, by decide +kernel, by decide +kernel, by decide +kernel⟩, by decide +kernel⟩
/-- V31: control requests with and without data. -/
theorem witness_ControlRequestStages :
    let pipe : Pipe := { mode := .ctrl, maxPacket := 8, dirIn := false }
    pipe.mode = .ctrl ∧ plain.field 0x1000 0x00 ≠ 0#32 ∧ (base 0 0 0 0 0 [] []).field 0x1000 0x00 = 0#32 := by
  decide +kernel
/-- V31: 4097 bytes make two chunks, the second from 4096 bytes on; an interrupt request has its interval. -/
theorem witness_ChunksCoverTheRequest :
    let s := base 4097 0x20000 2 0 0 [] []
    let pipe : Pipe := { mode := .bulk, maxPacket := 64, dirIn := false }
    let specs := tdSpecs s pipe 0x1000
    s.cfg.valid ∧ pipe.mode = .bulk ∧ (specs[1]?).map (fun sp => sp.data) = some 0x21000 ∧ specs.length = 2 := by
  decide +kernel
theorem witness_ChunksCoverTheRequest_interrupt :
    let s := base 64 0x20000 2 8 0 [] []
    let pipe : Pipe := { mode := .intr, maxPacket := 64, dirIn := false }
    s.cfg.valid ∧ pipe.mode = .intr ∧
    ((tdSpecs s pipe 0x1000)[0]?).map (fun sp => (sp.interval, sp.zlpPending)) = some (8#16, true) := by
  decide +kernel
/-- V31: `period = (2040 << 16) | 4` with four sub-packets; the last one wraps to frame 4. -/
theorem witness_IsochronousTargetFrames :
    let s := withWords [(0x1038, 0x300), (0x103C, 0x80)] (base 0 0x50000 0 0x07F80004 4 [] [])
    let pipe : Pipe := { mode := .iso, maxPacket := 128, dirIn := false }
    s.cfg.valid ∧ pipe.mode = .iso ∧
    ((tdSpecs s pipe 0x1000)[3]?).map (fun sp => (sp.startFrame, sp.data, sp.length)) =
      some (some 4, 0x50300, 0x80#32) := by
  decide +kernel

theorem witness_Teardown_notFound : eidOut.rsv15 = false ∧ eidOut.rsvHi = 0#5 ∧ plain.noPipe (pipeKey eidOut) := by
  decide +kernel
/-- The pipe's one TD is mid-transaction; and it is all of its request. -/
theorem witness_Teardown_inFlight : started.onlyPipe 0 (pipeKey eidOut) ∧ 0 < started.cfg.maxEds ∧
    (∀ d ∈ (started.ed 0).queue, (started.td d).ed = some 0 ∧ d < started.cfg.maxTds) ∧
    (started.ed 0).queue = 0 :: [] ∧ (started.td 0).txn = some 0 ∧ started.liveTxn 0 0 0 := by decide +kernel
theorem witness_Teardown_oneRequest : started.Paired ∧ started.poolsOk ∧ Memory.wf started.mem ∧
    6 ≤ started.cfg.addrBits ∧ started.done = [] ∧ (started.ed 0).queue ≠ [] ∧
    (∀ d < started.tds.length, (started.td d).alloc = true →
      ((started.td d).request = 0x1000 ↔ d ∈ (started.ed 0).queue)) ∧
    (∀ d ∈ (started.ed 0).queue, (started.td d).request = 0x1000) ∧ started.field 0x1000 0x1C = 0#32 :=
  ⟨started_paired, started_poolsOk, by decide +kernel⟩
/-- Its TD is queued. -/
theorem witness_Teardown_queued : submitted.Paired ∧ submitted.onlyPipe 0 (pipeKey eidOut) ∧
    0 < submitted.cfg.maxEds ∧ (∀ d ∈ (submitted.ed 0).queue, (submitted.td d).ed = some 0 ∧ d < submitted.cfg.maxTds) ∧
    (submitted.ed 0).queue = 0 :: [] ∧ (submitted.td 0).txn = none :=
  ⟨submitted_paired, by decide +kernel⟩

theorem witness_BusEvents : let s := edIn .pendingDelete (flyOut .tokenWait)
    s.nothingToReap ∧ (s.ed 0).state = .pendingDelete := by decide +kernel
theorem witness_DyingPipeIsReaped : let s := edIn .pendingDelete queuedOut
    s.sized ∧ (∀ m, (s.cls.get m).Nodup) ∧
    (∀ e < s.cfg.maxEds, s.toReap e = true → ∀ d ∈ (s.ed e).queue, (s.td d).ed = some e ∧ d < s.cfg.maxTds) ∧
    (List.range s.cfg.maxEds).filter s.toReap = [0] ∧ (s.ed 0).queue ≠ [] :=
  ⟨by decide +kernel, fun m => by cases m <;> decide +kernel, by decide +kernel, by decide +kernel, by decide +kernel⟩
/-- Every event, the dying pipe waiting. -/
theorem witness_DyingPipeIsReaped_events : cancelled.poolsOk ∧ cancelled.classesOk ∧ cancelled.Paired ∧
    cancelled.toReap 0 = true ∧
    exec .evFrameStart cancelled = .next (after .evFrameStart cancelled) ∧
    exec .evDisconnect cancelled = .next (after .evDisconnect cancelled) ∧
    exec (.evConnect .low) cancelled = .next (after (.evConnect .low) cancelled) ∧
    exec (.evTxConfirm 8 0) cancelled = .next (after (.evTxConfirm 8 0) cancelled) ∧
    exec (.evRxConfirm 0 0 0) cancelled = .next (after (.evRxConfirm 0 0 0) cancelled) :=
  ⟨cancelled_poolsOk, by decide +kernel, cancelled_paired, by decide +kernel, rfl, rfl, rfl, rfl, rfl⟩

theorem witness_FrameStartCountsTheFrame : ({ State.reset with frnum := 2047 } : State).cfg.valid := by decide
/-- Five frame-counts after frame 1 (V24). -/
theorem witness_BlockedFrame : let s := { flyOut .tokenWait with frnum := 5 }
    s.frame.active ≠ [] ∧
    modDiff (nextFrnum s.cfg s.frnum) s.frame.number s.cfg.frameWrap = s.cfg.flushThreshold := by decide +kernel
/-- A dying pipe waits to be reaped. -/
theorem witness_DisconnectedFrame : let s := { edIn .pendingDelete queuedOut with bussts := State.reset.bussts }
    s.frame.active = [] ∧ s.bussts.connected = false ∧ s.toReap 0 = true := by decide +kernel
/-- The hypotheses of IdleFrameRotatesTheClasses. -/
abbrev Idle (s : State) : Prop :=
  (s.frame.active = [] ∧ s.bussts.connected = true) ∧
  ∀ k, ∀ e ∈ s.cls.get k, (s.ed e).state ≠ .operational ∨ (s.ed e).queue = [] ∨
    ∃ d ds, (s.ed e).queue = d :: ds ∧ ((s.td d).txn ≠ none ∨ ((k = .iso ∨ k = .intr) ∧
      modDiff (nextFrnum s.cfg s.frnum) (s.td d).startFrame s.cfg.frameWrap < (s.td d).interval.toNat))
/-- They hold in a state whose one ED, of class `m`, is passed over. -/
theorem idle_of_one (s : State) (m : Mode) (ha : s.frame.active = [] ∧ s.bussts.connected = true)
    (hc : s.cls = ({ iso := [], intr := [], ctrl := [], bulk := [] } : Classes).set m [0])
    (h : (s.ed 0).state ≠ .operational ∨ (s.ed 0).queue = [] ∨
      ∃ d ds, (s.ed 0).queue = d :: ds ∧ ((s.td d).txn ≠ none ∨ ((m = .iso ∨ m = .intr) ∧
        modDiff (nextFrnum s.cfg s.frnum) (s.td d).startFrame s.cfg.frameWrap < (s.td d).interval.toNat))) :
    Idle s := by
  refine ⟨ha, fun k e he => ?_⟩
  rw [hc] at he
  have hk : k = m ∧ e = 0 := by cases k <;> cases m <;> simp_all [Classes.get, Classes.set]
  rw [hk.1, hk.2]
  exact h
theorem witness_IdleFrame_state : Idle (edIn .skip queuedOut) :=
  idle_of_one _ .bulk (by decide +kernel) (by decide +kernel)
    (.inl (by decide +kernel))
theorem witness_IdleFrame_queue : Idle (piped (bulkEd 0) [] plain) :=
  idle_of_one _ .bulk (by decide +kernel) (by decide +kernel)
    (.inr (.inl (by decide +kernel)))
theorem witness_IdleFrame_inFlight : Idle (tdWith (fun t => { t with txn := some 3 }) queuedOut) :=
  idle_of_one _ .bulk (by decide +kernel) (by decide +kernel)
    (.inr (.inr ⟨0, [], by decide +kernel, .inl (by decide +kernel)⟩))
/-- V26: an interrupt TD made in frame 0 with `interval = 8`, in frame 7. -/
theorem witness_IdleFrame_interval :
    Idle { piped { bulkEd 1 with mode := .intr } [{ bulkTd .inn 0 with interval := 8 }] plain with frnum := 6 } :=
  idle_of_one _ .intr (by decide +kernel) (by decide +kernel)
    (.inr (.inr ⟨0, [], by decide +kernel, .inr ⟨.inr rfl, by decide +kernel⟩⟩))
theorem witness_Scans_frame : queuedOut.frame.active = [] ∧ queuedOut.bussts.connected = true := by decide +kernel
theorem witness_Scans_closed : let s := { queuedOut with frame := { queuedOut.frame with status := .timerForcedEnd } }
    s.frame.status = .timerForcedEnd := by decide +kernel
/-- Two ready pipes of 64 bytes each: 160 bytes, and 106 us, exactly the time left. -/
def twoPipes : State :=
  let s := piped (bulkEd 1) [{ bulkTd .out 0 with length := 64 }, { bulkTd .out 1 with length := 64, ed := some 1 }]
    (base 64 0x20000 0 0 0 [106, 106] [true, true])
  { s with
    eds := s.eds.set 1 { bulkEd 1 with epNum := 2, queue := [1] }
    efree := s.efree.tail
    cls := { s.cls with bulk := [1, 0] } }
/-- The ready TDs of the bulk class, with their EDs. -/
abbrev bulkReady (s : State) : List (Nat × Nat) :=
  (s.cls.get .bulk).filterMap (fun e => (s.readyHead .bulk e).map (fun d => (e, d)))
theorem twoPipes_poolsOk : twoPipes.poolsOk :=
  ⟨by decide +kernel, by decide +kernel, by decide +kernel, by decide +kernel⟩
theorem witness_Scans_two : let s := twoPipes
    s.poolsOk ∧ s.frame.status = .prepared ∧ bulkReady s = [(1, 1), (0, 0)] ++ [] ∧ s.frame.bytes = 0 ∧
    s.frame.timeUs = 0 ∧ nextLen s 1 1 = 64 ∧ nextLen s 0 0 = 64 ∧
    2 * (64 + s.cfg.pktOverhead) ≤ s.cfg.maxBytesPerFrame ∧
    2 * ((64 + s.cfg.pktOverhead) * s.cfg.kFullN / s.cfg.kFullD) = 106 ∧ s.bussts.speed = .full ∧
    s.env.sofAnswers = [106, 106] ++ [] ∧ s.env.ringAnswers = List.replicate 2 true ++ [] ∧ 2 ≤ s.ring.cnt ∧
    2 ≤ s.xfree.length := ⟨twoPipes_poolsOk, by decide +kernel⟩
/-- V23: with 41 bytes in the frame, the first fits (121 bytes) and the second does not (201), by one byte. -/
theorem witness_Scans_full : let s := { twoPipes with frame := { twoPipes.frame with bytes := 41 } }
    s.frame.status = .prepared ∧ bulkReady s = [(1, 1)] ++ [(0, 0)] ∧
    s.frame.bytes.toNat + (nextLen s 1 1 + s.cfg.pktOverhead) = 121 ∧
    s.cfg.maxBytesPerFrame + 1 = 121 + (nextLen s 0 0 + s.cfg.pktOverhead) ∧
    s.env.sofAnswers = [106] ++ [106] ∧ s.env.ringAnswers = List.replicate 1 true ++ [true] := by decide +kernel
/-- P7: with 1 us in the frame, the first takes it to 54 us and the second would to 107, one more than is left. -/
theorem witness_Scans_late : let s := { twoPipes with frame := { twoPipes.frame with timeUs := 1 } }
    s.frame.status = .prepared ∧ bulkReady s = [(1, 1)] ++ [(0, 0)] ∧ s.bussts.speed = .full ∧
    s.frame.timeUs.toNat + (nextLen s 1 1 + s.cfg.pktOverhead) * s.cfg.kFullN / s.cfg.kFullD = 54 ∧
    54 + (nextLen s 0 0 + s.cfg.pktOverhead) * s.cfg.kFullN / s.cfg.kFullD = 106 + 1 ∧
    80 + (nextLen s 0 0 + s.cfg.pktOverhead) ≤ s.cfg.maxBytesPerFrame ∧
    s.env.sofAnswers = [106] ++ 106 :: [] ∧ s.env.ringAnswers = List.replicate 1 true ++ [true] := by decide +kernel
/-- The hypotheses of FrameStartAdmitsTheReadyPipe for TD 0 of ED 0. -/
abbrev ready (s : State) (m : Mode) (rem : Nat) : Prop :=
  s.poolsOk ∧ s.frame.active = [] ∧ s.bussts.connected = true ∧
  s.cls = ({ iso := [], intr := [], ctrl := [], bulk := [] } : Classes).set m [0] ∧
  (s.ed 0).state = .operational ∧ (s.ed 0).mode = m ∧ (s.ed 0).queue = [0] ∧ 0 < s.tds.length ∧
  (s.td 0).txn = none ∧
  (m = .iso ∨ m = .intr →
    (s.td 0).interval.toNat ≤ modDiff (nextFrnum s.cfg s.frnum) (s.td 0).startFrame s.cfg.frameWrap) ∧
  nextLen s 0 0 + s.cfg.pktOverhead ≤ s.cfg.maxBytesPerFrame ∧
  (match s.bussts.speed with
    | .full => (nextLen s 0 0 + s.cfg.pktOverhead) * s.cfg.kFullN / s.cfg.kFullD
    | .low => (nextLen s 0 0 + s.cfg.pktOverhead) * s.cfg.kLowN / s.cfg.kLowD) ≤ rem ∧ s.env.sofAnswers = [rem] ∧
  s.env.ringAnswers = [true] ∧ s.ring.cnt ≠ 0 ∧ s.xfree = 0 :: [1, 2, 3] ∧ (nextLen s 0 0 = 0 → s.dfree ≠ [])
/-- V20: 184 bytes exactly fill the frame, and 133 us exactly the time left. -/
theorem witness_FrameStartAdmits_full :
    ready (piped { bulkEd 1 with maxPacket := 184 } [{ bulkTd .out 0 with length := 184 }]
      (base 184 0x20000 0 0 0 [133] [true])) .bulk 133 :=
  ⟨⟨by decide +kernel, by decide +kernel, by decide +kernel, by decide +kernel⟩, by decide +kernel⟩
/-- The status stage of a control pipe: a zero-length IN transaction, which takes a dummy buffer. -/
theorem witness_FrameStartAdmits_empty :
    ready (piped { bulkEd 1 with mode := .ctrl } [{ bulkTd .inn 0 with length := 0 }]
      (base 0 0 0 0 0 [10] [true])) .ctrl 10 :=
  ⟨⟨by decide +kernel, by decide +kernel, by decide +kernel, by decide +kernel⟩, by decide +kernel⟩
/-- V26: an interrupt TD made in frame 0 with `interval = 8`, in frame 8. -/
theorem witness_FrameStartAdmits_periodic :
    ready { piped { bulkEd 1 with mode := .intr } [{ bulkTd .inn 0 with interval := 8 }]
      (base 100 0x20000 0 0 0 [990] [true]) with frnum := 7 } .intr 990 :=
  ⟨⟨by decide +kernel, by decide +kernel, by decide +kernel, by decide +kernel⟩, by decide +kernel⟩
/-- V26: an isochronous TD of target frame 3 with `interval = 2`, in frame 1: 2046 frames count as past. -/
theorem witness_FrameStartAdmits_iso :
    ready (piped { bulkEd 1 with mode := .iso }
      [{ bulkTd .out 0 with interval := 2, startFrame := 3, toggle := .val false }]
      (base 100 0x20000 0 0 0 [990] [true])) .iso 990 :=
  ⟨⟨by decide +kernel, by decide +kernel, by decide +kernel, by decide +kernel⟩, by decide +kernel⟩
/-- Six frame-counts after frame 1, two TDs active, a device connected (P8). -/
theorem witness_StaleFrameIsFlushed_two : staleTwo.poolsOk ∧ staleTwo.Paired ∧ staleTwo.frame.active = [0, 1] ∧
    staleTwo.cfg.flushThreshold <
      modDiff (nextFrnum staleTwo.cfg staleTwo.frnum) staleTwo.frame.number staleTwo.cfg.frameWrap ∧
    staleTwo.bussts.connected = true ∧ (staleTwo.td 0).ed = some 0 ∧ (staleTwo.td 1).ed = some 1 :=
  ⟨⟨by decide +kernel, by decide +kernel, by decide +kernel, by decide +kernel⟩, staleTwo_paired, by decide +kernel⟩
/-- V24: six frame-counts after frame 1, with a second TD of the same request behind. -/
theorem witness_StaleFrameIsFlushed :
    let s := { flying .dataWait 0 (some 0)
        (piped (bulkEd 2) [bulkTd .out 0, bulkTd .out 1] plain) with
      frnum := 6, bussts := { connected := false, speed := .full } }
    s.sized ∧ s.bussts.connected = false ∧ s.frame.active = [0] ∧ s.liveTxn 0 0 0 ∧
    s.cfg.flushThreshold < modDiff (nextFrnum s.cfg s.frnum) s.frame.number s.cfg.frameWrap ∧
    (s.td 0).txn = some 0 ∧ (s.td 0).ed = some 0 ∧ 0 < s.cfg.maxEds ∧ (s.ed 0).alloc = true ∧
    (s.ed 0).queue = 0 :: [1] ∧ [0, 1].Nodup ∧ (∀ i ∈ [1], i < s.tds.length ∧ (s.td i).toggle = .carry) ∧
    (s.td 0).toggle = .val false ∧ (s.ed 0).mode ≠ .iso := by decide +kernel
/-- The same with the ED dying. -/
theorem witness_StaleFrameIsFlushed_dying :
    let s := edIn .pendingDelete { flyOut .tokenWait with frnum := 6, bussts := { connected := false, speed := .full } }
    s.sized ∧ s.bussts.connected = false ∧ s.frame.active = [0] ∧ s.liveTxn 0 0 0 ∧
    s.cfg.flushThreshold < modDiff (nextFrnum s.cfg s.frnum) s.frame.number s.cfg.frameWrap ∧
    (s.td 0).txn = some 0 ∧ (s.td 0).ed = some 0 ∧ 0 < s.cfg.maxEds ∧ (s.ed 0).alloc = true ∧
    (s.ed 0).queue = 0 :: [] ∧ (s.td 0).toggle = .val false ∧ (s.ed 0).mode ≠ .iso ∧
    (s.ed 0).state = .pendingDelete := by decide +kernel
theorem witness_RotationBringsEveryoneToTheHead :
    2 < (({ State.reset with cls := { State.reset.cls with bulk := [3, 0, 2] } } : State).cls.get .bulk).length := by
  decide
/-- The state with an open frame. -/
def framed (bytes us : BitVec 32) (st : FrameStatus) (sof : List Nat) : State :=
  { piped (bulkEd 1) [bulkTd .out 0] (base 100 0x20000 0 0 0 sof []) with
    frame := { bytes := bytes, status := st, active := [], number := 1, timeUs := us } }
theorem witness_Rejected_closed :
    (framed 0 0 .endOfTransmission []).frame.status = .endOfTransmission ∧
    (framed 0 0 .timerForcedEnd []).frame.status = .timerForcedEnd := by decide +kernel
/-- V21: 121 + 80 is one more than 200. -/
theorem witness_Rejected_bytes : let s := framed 121 0 .transmitted []
    s.frame.status = .transmitted ∧
    s.frame.bytes.toNat + (nextLen s 0 0 + s.cfg.pktOverhead) = s.cfg.maxBytesPerFrame + 1 := by decide +kernel
/-- V22: 53 + 53 is one more than 105. -/
theorem witness_Rejected_time : let s := framed 120 53 .prepared [105]
    s.frame.status = .prepared ∧ s.frame.bytes.toNat + (nextLen s 0 0 + s.cfg.pktOverhead) ≤ s.cfg.maxBytesPerFrame ∧
    s.env.sofAnswers = [105] ∧
    s.bussts.speed = .full ∧
    s.frame.timeUs.toNat + (nextLen s 0 0 + s.cfg.pktOverhead) * s.cfg.kFullN / s.cfg.kFullD = 105 + 1 := by
  decide +kernel
/-- The hypotheses of DeferredDispatchPutsBack for an admission attempt with TD 0 of ED 0, but for the reason. -/
abbrev attempt (s : State) (accepted : Bool) : Prop :=
  s.poolsOk ∧ s.frame.status = .prepared ∧
  s.frame.bytes.toNat + (nextLen s 0 0 + s.cfg.pktOverhead) ≤ s.cfg.maxBytesPerFrame ∧ s.bussts.speed = .full ∧
  s.frame.timeUs.toNat + (nextLen s 0 0 + s.cfg.pktOverhead) * s.cfg.kFullN / s.cfg.kFullD ≤ 990 ∧
  s.env.sofAnswers = [990] ∧ s.env.ringAnswers = [accepted]
/-- V43: the transceiver refuses the token. -/
theorem witness_Deferred_refused : let s := { queuedOut with env := { queuedOut.env with ringAnswers := [false] } }
    attempt s false ∧ dispatch 0 0 64 s = (false, (dispatch 0 0 64 s).2) :=
  ⟨⟨⟨by decide +kernel, by decide +kernel, by decide +kernel, by decide +kernel⟩, by decide +kernel⟩, by decide +kernel⟩
/-- V43: no dummy buffer is free for a zero-length transaction. -/
theorem witness_Deferred_noDummy : let s := { tdWith (fun t => { t with length := 0 }) queuedOut with dfree := [] }
    attempt s true ∧ nextLen s 0 0 = 0 ∧ s.dfree = [] ∧ dispatch 0 0 0 s = (false, (dispatch 0 0 0 s).2) :=
  ⟨⟨⟨by decide +kernel, by decide +kernel, by decide +kernel, by decide +kernel⟩, by decide +kernel⟩, by decide +kernel⟩
/-- No record is free. -/
theorem witness_Deferred_noRecord : let s := { queuedOut with
      txns := List.replicate 4 { Txn.initial with alloc := true }, xfree := [] }
    attempt s true ∧ s.xfree = [] :=
  ⟨⟨⟨by decide +kernel, by decide +kernel, by decide +kernel, by decide +kernel⟩, by decide +kernel⟩, by decide +kernel⟩
/-- Every Packet is out. -/
theorem witness_Deferred_noPacket : let s := { queuedOut with
      pkts := List.replicate 11 { Pkt.initial with out := true }, ring := { queuedOut.ring with cnt := 0 } }
    attempt s true ∧ s.ring.cnt = 0 :=
  ⟨⟨⟨by decide +kernel, by decide +kernel, by decide +kernel, by decide +kernel⟩, by decide +kernel⟩, by decide +kernel⟩
theorem witness_Deferred_ready :
    queuedOut.env.ringAnswers = [true] ∧ queuedOut.ring.cnt ≠ 0 ∧ queuedOut.xfree ≠ [] ∧ queuedOut.dfree ≠ [] := by
  decide +kernel
/-- V26: the difference is exactly the interval; and across the wrap. -/
theorem witness_PeriodicEligibility :
    let s := { State.reset with frame := { State.reset.frame with number := 8 } }
    let t := { Td.initial with startFrame := 2040, interval := 16 }
    s.cfg.valid ∧ t.startFrame.toNat < s.cfg.frameWrap ∧ s.frame.number.toNat < s.cfg.frameWrap ∧
    periodicEligible s t = true ∧ periodicEligible s { t with interval := 17 } = false ∧
    s.cfg.frameWrap ≤ (2048#16).toNat := by decide +kernel

/-- No record is live, and a dying pipe waits to be reaped. -/
theorem witness_Spurious_noTxn : let s := edIn .pendingDelete queuedOut
    s.noTxn (3#16).toNat ∧ s.toReap 0 = true ∧ (8#8).toNat ≤ 8 := by decide +kernel
theorem witness_Spurious_txOfIn : let s := flyIn .dataWait
    s.onlyTxn 0 (0#16).toNat 0 ∧ (s.txn 0).phase = .dataWait ∧ (s.td 0).dir = .inn := by decide +kernel
theorem witness_Spurious_rx :
    ((flyIn .tokenWait).onlyTxn 0 (0#16).toNat 0 ∧ ((flyIn .tokenWait).txn 0).phase ≠ .dataWait) ∧
    ((flyOut .dataWait).onlyTxn 0 (0#16).toNat 0 ∧ ((flyOut .dataWait).td 0).dir ≠ .inn) := by decide +kernel
theorem witness_GoodTokenPhase_in : let s := flyIn .tokenWait
    s.liveTxn 0 (0#16).toNat 0 ∧ (s.txn 0).phase = .tokenWait ∧ (s.td 0).dir = .inn := by decide +kernel
theorem witness_GoodTokenPhase_accepted : let s := flyOut .tokenWait
    s.liveTxn 0 (0#16).toNat 0 ∧ (s.txn 0).phase = .tokenWait ∧ (s.td 0).dir ≠ .inn ∧
    s.env.ringAnswers = [true] := by decide +kernel
theorem witness_GoodTokenPhase_refused :
    let s := flying .tokenWait 64 none (piped (bulkEd 1) [bulkTd .out 0] (base 100 0x20000 0 0 0 [] [false]))
    s.liveTxn 0 (0#16).toNat 0 ∧ (s.txn 0).phase = .tokenWait ∧ (s.td 0).dir ≠ .inn ∧
    s.env.ringAnswers = [false] := by decide +kernel
theorem witness_FailedTokenPhase : let s := tdWith (fun t => { t with nakCount := 65535 }) (flyOut .tokenWait)
    s.liveTxn 0 (0#16).toNat 0 ∧ (s.txn 0).phase = .tokenWait ∧ (s.td 0).nakCount = 65535#16 := by
  decide +kernel
/-- 64 of 100 bytes are left for another transaction. -/
theorem witness_GoodTransmission_more : let s := flyOut .dataWait
    s.liveTxn 0 (0#16).toNat 0 ∧ (s.txn 0).phase = .dataWait ∧ (s.td 0).dir ≠ .inn ∧
    (s.td 0).ed = some 0 ∧ (s.td 0).toggle = .val false ∧
    (s.td 0).transferred + BitVec.ofNat 32 (s.txn 0).len.toNat ≠ (s.td 0).length := by decide +kernel
/-- The zero-length transaction that ends a request (V44). -/
theorem witness_GoodTransmission_last :
    let s := tdWith (fun t => { t with length := 64, transferred := 64, zlpPending := true })
      (flying .dataWait 0 (some 0) queuedOut)
    s.liveTxn 0 (0#16).toNat 0 ∧ (s.txn 0).phase = .dataWait ∧ (s.td 0).dir ≠ .inn ∧
    (s.td 0).ed = some 0 ∧ (s.td 0).toggle = .val false ∧ (s.txn 0).len = 0#11 ∧
    (s.td 0).transferred + BitVec.ofNat 32 (s.txn 0).len.toNat = (s.td 0).length := by decide +kernel
/-- A full packet of 64 bytes of 100, and a short one of 63. -/
theorem witness_GoodReception : let s := flyIn .dataWait
    s.liveTxn 0 (0#16).toNat 0 ∧ (s.txn 0).phase = .dataWait ∧ (s.td 0).dir = .inn ∧
    (s.td 0).ed = some 0 ∧ (s.td 0).toggle = .val false ∧ (64#32).toNat = (s.txn 0).len.toNat ∧
    (s.td 0).transferred + 64#32 ≠ (s.td 0).length ∧ (63#32).toNat < (s.txn 0).len.toNat := by decide +kernel
theorem witness_OverlongReception : let s := flyIn .dataWait
    s.onlyTxn 0 (0#16).toNat 0 ∧ (s.txn 0).phase = .dataWait ∧ (s.td 0).dir = .inn ∧
    (s.txn 0).len.toNat < (65#32).toNat := by decide +kernel
theorem witness_FailedDataPhase : let s := tdWith (fun t => { t with errorCount := 1 }) (flyOut .dataWait)
    s.cfg.valid ∧ s.liveTxn 0 (0#16).toNat 0 ∧ (s.txn 0).phase = .dataWait ∧
    (s.td 0).errorCount.toNat + 1 < s.cfg.retryLimit := by decide +kernel
theorem witness_FailedDataPhase_limit : let s := tdWith (fun t => { t with errorCount := 2 }) (flyIn .dataWait)
    s.cfg.valid ∧ s.liveTxn 0 (0#16).toNat 0 ∧ (s.txn 0).phase = .dataWait ∧
    (s.td 0).errorCount.toNat + 1 = s.cfg.retryLimit := by decide +kernel
/-- Three TDs, the last of another request. -/
theorem witness_TerminalTd :
    let s := piped (bulkEd 3) [bulkTd .out 0, bulkTd .out 1, { bulkTd .out 2 with request := 0x1040 }] plain
    (s.td 0).ed = some 0 ∧ 0 < s.eds.length ∧ 0 < s.tds.length ∧ (s.ed 0).queue.Nodup ∧
    (∀ i ∈ (s.ed 0).queue, i < s.tds.length) ∧ (s.td 1).request = (s.td 0).request ∧ (s.td 1).toggle = .carry ∧
    (s.td 2).request ≠ (s.td 0).request := by decide +kernel

theorem witness_Drain_none : plain.drainp = false := by decide +kernel
theorem witness_Drain_work : doneState.drainp = true ∧ 0 ∈ doneState.done ∧ 0 < doneState.cfg.maxTds := by
  decide +kernel
/-- Three TDs on the done list, the higher index the older: two of one request around one of another. -/
theorem witness_Drain_order :
    let s := { piped (bulkEd 0) [bulkTd .out 0, { bulkTd .out 1 with request := 0x2000 }, bulkTd .out 2] plain with
      done := [2, 1, 0], drainp := true }
    s.drainp = true ∧ s.done = 2 :: [1, 0] ∧ s.done.Nodup ∧
    ∀ d ∈ s.done, d < s.cfg.maxTds ∧ (s.td d).alloc = true := by decide +kernel
/-- R267(a): the request at `0x2000` finishes before the one at `0x1000`, whose last TD comes later. -/
theorem test_drain_callbacks :
    let s := { piped (bulkEd 0) [bulkTd .out 0, { bulkTd .out 1 with request := 0x2000 }, bulkTd .out 2] plain with
      done := [2, 1, 0], drainp := true }
    (after .drain s).out.filterMap callbackOf = [0x2000#32, 0x1000#32] := by decide +kernel
/-- The hypotheses of DrainRetiresTheRequest for TD 0 and Token 0. -/
abbrev retiring (s : State) : Prop :=
  s.poolsOk ∧ Memory.wf s.mem ∧ 6 ≤ s.cfg.addrBits ∧ s.drainp = true ∧ s.done = [0] ∧ 0 < s.cfg.maxTds ∧
  (s.td 0).alloc = true ∧ (s.td 0).token = some 0 ∧ 0 < s.cfg.maxTokens ∧ (s.tok 0).alloc = true
/-- The last TD of its request. -/
theorem witness_DrainRetires_last : retiring doneState ∧
    ∀ i < doneState.tds.length, i ≠ 0 → (doneState.td i).alloc = true →
      (doneState.td i).request ≠ (doneState.td 0).request :=
  ⟨⟨⟨by decide +kernel, by decide +kernel, by decide +kernel, by decide +kernel⟩, by decide +kernel⟩, by decide +kernel⟩
/-- A TD of the same request is still queued. -/
theorem witness_DrainRetires_more :
    let s := { tdWith (fun t => { t with place := .done, transferred := 64 })
        (piped { bulkEd 1 with queue := [1] } [bulkTd .out 0, bulkTd .out 1] plain) with
      done := [0], drainp := true }
    retiring s ∧ ∃ i, i ≠ 0 ∧ i < s.tds.length ∧ (s.td i).alloc = true ∧ (s.td i).request = (s.td 0).request :=
  ⟨⟨⟨by decide +kernel, by decide +kernel, by decide +kernel, by decide +kernel⟩, by decide +kernel⟩, 1, by decide +kernel⟩

theorem witness_PacketRing_acquire : State.reset.poolsOk ∧ State.reset.ringHandles = 0 :: (List.range 11).tail :=
  ⟨⟨by decide +kernel, by decide +kernel, by decide +kernel, by decide +kernel⟩, by decide +kernel⟩
theorem witness_PacketRing_release : let s := flyOut .dataWait
    s.poolsOk ∧ 0 < s.cfg.pktPoolCap ∧ (s.pkt 0).out = true :=
  ⟨⟨by decide +kernel, by decide +kernel, by decide +kernel, by decide +kernel⟩, by decide +kernel⟩
/-- Every Packet is out. -/
theorem witness_PacketRing_empty : let s := { State.reset with
      pkts := List.replicate 11 { Pkt.initial with out := true }, ring := { State.reset.ring with cnt := 0 } }
    s.poolsOk ∧ s.ringHandles = [] :=
  ⟨⟨by decide +kernel, by decide +kernel, by decide +kernel, by decide +kernel⟩, by decide +kernel⟩
theorem witness_PoolsConserve : (flyIn .tokenWait).poolsOk :=
  ⟨by decide +kernel, by decide +kernel, by decide +kernel, by decide +kernel⟩
/-- A word across the top of the address space. -/
theorem witness_MemoryReadsBack : Memory.wf plain.mem ∧ 2 ≤ plain.cfg.addrBits ∧
    wrapAddr plain.cfg (0xFFFFFFFE + 3) = 1 := by decide +kernel
theorem witness_DiagFlagsAreSticky : let s := { State.reset with
      diag := { doubleRelease := true, spuriousConfirm := true, illegalEvent := true, rxOverlen := true } }
    exec (.evConnect .low) s = .next (after (.evConnect .low) s) ∧ s.diag.bits = 15#8 := ⟨rfl, by decide⟩
theorem witness_CommandsAnswer_ok :
    exec (.submit eidOut 0x1000) plain = .next (after (.submit eidOut 0x1000) plain) ∧
    isCommand (.submit eidOut 0x1000) = true := ⟨rfl, rfl⟩
theorem witness_CommandsAnswer_event :
    exec .evFrameStart plain = .next (after .evFrameStart plain) ∧ isCommand .evFrameStart = false ∧
    opcodeOf ((encode .evFrameStart).headD 0#32) ≠ 0#8 := ⟨rfl, rfl, by decide⟩
theorem witness_StepKeepsTheBounds : let s := choosing .deferred doneState
    s.boundsOk ∧ step s = .next (after .drain { s with env := { s.env with sched := [] } }) :=
  ⟨by decide +kernel, rfl⟩
theorem witness_StepKeepsThePools : let s := choosing .deferred doneState
    s.poolsOk ∧ s.classesOk ∧ step s = .next (after .drain { s with env := { s.env with sched := [] } }) :=
  ⟨⟨by decide +kernel, by decide +kernel, by decide +kernel, by decide +kernel⟩, by decide +kernel, rfl⟩
theorem paired_given {s : State} (env : Env) (evt : List Word) (h : s.Paired) :
    ({ s with env := env, evtPort := evt } : State).Paired :=
  State.Paired.congr (SamePairs.of_framed (c := [.env, .evtPort])
    (fun f hf => by cases f <;> first | exact absurd (by decide) hf | rfl) (by decide)) h
theorem step_confirm (s : State) (h : s.attached = true) :
    step { s with env := { s.env with sched := [.event] }, evtPort := [0x11000000#32] } =
      .next (after (.evTxConfirm 0 0) { s with env := { s.env with sched := [] }, evtPort := [] }) :=
  step_event_op _ (.evTxConfirm 0 0) [] [] h rfl
    (show portHead .event [0x11000000#32] = .op (.evTxConfirm 0 0) [] by decide +kernel)
/-- A confirm for the transaction in flight. -/
theorem witness_StepKeepsTheTransactionsPaired :
    let s := { started with env := { started.env with sched := [.event] }, evtPort := [0x11000000#32] }
    s.poolsOk ∧ s.Paired ∧ (s.txn 0).alloc = true ∧
    step s = .next (after (.evTxConfirm 0 0) { started with env := { started.env with sched := [] }, evtPort := [] }) :=
  ⟨⟨by decide +kernel, by decide +kernel, by decide +kernel, by decide +kernel⟩,
    paired_given _ _ started_paired, by decide +kernel,
    step_confirm started (by decide +kernel)⟩
theorem witness_ResetIsSound : Config.atReset.valid := by decide

end Sys2Proof.Tests
end

section
/-! SUPPORT. Every operation is one pass that completes and changes only the fields `mayChange`
lists for it (O53). The bodies' frames are those of Laws/Frames.lean; here they become frames of whole passes. -/

namespace Sys2Proof.Machine

/-- What is claimed of each operation: it completes, gives the exclusion region back and keeps to its frame. -/
def CompletesInItsFrame (i : Instr) (s : State) : Prop :=
  ∃ t, exec i s = .next t ∧ t.lock = .free ∧ Framed (mayChange i) s t

/-- An operation that is one pass (R16) completes in its frame, when its body's fields and `LOCK` are listed for it. -/
theorem completesInItsFrame_of_pass {i : Instr} {s : State} {holder : Lock} {body : State → State} {c : List Field}
    (hexec : exec i s = .next (runPass holder body s)) (hbody : ∀ s, Framed c s (body s))
    (hlisted : ∀ f ∈ Field.lock :: c, f ∈ mayChange i) : CompletesInItsFrame i s :=
  ⟨runPass holder body s, hexec, runPass_lock holder body s, (runPass_framed holder body c hbody s).mono hlisted⟩

/-- The fields `reap()` can change, at the end of every context-(a) pass (R161, R186). -/
abbrev reapFields : List Field := [.cls, .efree, .eds, .tds, .done, .drainp, .diag]

/-- A context-(a) body that ends in `reap()` changes what comes before it changes, and what the reaping does. -/
theorem reap_after_framed {c : List Field} {s t : State} (h : Framed c s t) : Framed (c ++ reapFields) s (reap t) :=
  h.comp (reap_framed t) (fun _ => List.mem_append_left _) (fun _ => List.mem_append_right _)

/-- DRAIN with nothing outstanding is the pass that changes nothing (R260). -/
theorem drainBody_framed (s : State) :
    Framed (.drainp :: .done :: drainFields) s (if s.drainp then drainPass s else s) :=
  Framed.ite (drainPass_framed s) (Framed.refl _ s)

/-- An illegal command is a pass that only answers (R125). -/
theorem completesInItsFrame_of_illegalCommand {i : Instr} {s : State} {op : BitVec 8}
    (hexec : exec i s = .next (illegalCommand op s)) (hlisted : ∀ f ∈ [Field.lock, .out], f ∈ mayChange i) :
    CompletesInItsFrame i s :=
  completesInItsFrame_of_pass hexec (respond_framed op .illegal 0#16) hlisted

/-- An illegal event sets its flag in `DIAG` and does nothing else (R126). -/
theorem completesInItsFrame_of_illegalEvent {i : Instr} {s : State} (hexec : exec i s = .next (illegalEvent s))
    (hlisted : ∀ f ∈ [Field.lock, .diag], f ∈ mayChange i) : CompletesInItsFrame i s :=
  completesInItsFrame_of_pass hexec flagIllegalEvent_framed hlisted

/-- EV_TX_CONFIRM with a status above 8 is an illegal event (R126). -/
theorem exec_evTxConfirm_of_illegal {status : BitVec 8} (h : Ts.ofEvent status = none) (pkt : BitVec 16) (s : State) :
    exec (.evTxConfirm status pkt) s = .next (illegalEvent s) := by
  simp only [exec, execEvTxConfirm, h]

/-- EV_TX_CONFIRM with a legal status is one pass that ends in `reap()` (R161, R208). -/
theorem exec_evTxConfirm_of_legal {status : BitVec 8} {st : Ts} (h : Ts.ofEvent status = some st) (pkt : BitVec 16)
    (s : State) : exec (.evTxConfirm status pkt) s =
      .next (runPass .heldA (fun s => reap (txConfirmBody st pkt.toNat s)) s) := by
  simp only [exec, execEvTxConfirm, h]

/-- EV_RX_CONFIRM with a status above 8 is an illegal event (R126). -/
theorem exec_evRxConfirm_of_illegal {status : BitVec 8} (h : Ts.ofEvent status = none) (pkt : BitVec 16)
    (rxLen : Word) (s : State) : exec (.evRxConfirm status pkt rxLen) s = .next (illegalEvent s) := by
  simp only [exec, execEvRxConfirm, h]

/-- EV_RX_CONFIRM with a legal status is one pass that ends in `reap()` (R161, R212). -/
theorem exec_evRxConfirm_of_legal {status : BitVec 8} {st : Ts} (h : Ts.ofEvent status = some st) (pkt : BitVec 16)
    (rxLen : Word) (s : State) : exec (.evRxConfirm status pkt rxLen) s =
      .next (runPass .heldA (fun s => reap (rxConfirmBody st pkt.toNat rxLen.toNat s)) s) := by
  simp only [exec, execEvRxConfirm, h]

theorem evTxConfirm_completesInItsFrame (status : BitVec 8) (pkt : BitVec 16) (s : State) :
    CompletesInItsFrame (.evTxConfirm status pkt) s := by
  cases hst : Ts.ofEvent status with
  | none => exact completesInItsFrame_of_illegalEvent (exec_evTxConfirm_of_illegal hst pkt s) (by simp [mayChange])
  | some st =>
    exact completesInItsFrame_of_pass (exec_evTxConfirm_of_legal hst pkt s)
      (fun s => reap_after_framed (txConfirmBody_framed st pkt.toNat s)) (by simp [mayChange])

theorem evRxConfirm_completesInItsFrame (status : BitVec 8) (pkt : BitVec 16) (rxLen : Word) (s : State) :
    CompletesInItsFrame (.evRxConfirm status pkt rxLen) s := by
  cases hst : Ts.ofEvent status with
  | none =>
    exact completesInItsFrame_of_illegalEvent (exec_evRxConfirm_of_illegal hst pkt rxLen s) (by simp [mayChange])
  | some st =>
    exact completesInItsFrame_of_pass (exec_evRxConfirm_of_legal hst pkt rxLen s)
      (fun s => reap_after_framed (rxConfirmBody_framed st pkt.toNat rxLen.toNat s)) (by simp [mayChange])

end Sys2Proof.Machine

namespace Sys2Proof.Proofs

open Sys2Proof.Machine

/-- Settles O53, operation by operation: each is one pass, whose body has a frame of its own. -/
theorem everyOperationCompletesInItsFrame : Obligations.EveryOperationCompletesInItsFrame := by
  intro i s
  change CompletesInItsFrame i s
  cases i with
  | submit eid h => exact completesInItsFrame_of_pass rfl (submitBody_framed eid h) (by simp [mayChange])
  | cancel h => exact completesInItsFrame_of_pass rfl (cancelBody_framed h) (by simp [mayChange])
  | epTeardown eid => exact completesInItsFrame_of_pass rfl (teardownBody_framed eid) (by simp [mayChange])
  | epClearHalt eid => exact completesInItsFrame_of_pass rfl (clearHaltBody_framed eid) (by simp [mayChange])
  | getFrame =>
    exact completesInItsFrame_of_pass rfl (fun s => respond_framed 0x05#8 .ok s.frnum s) (by simp [mayChange])
  | evFrameStart =>
    exact completesInItsFrame_of_pass rfl (fun s => reap_after_framed (frameStartBody_framed s)) (by simp [mayChange])
  | evTxConfirm status pkt => exact evTxConfirm_completesInItsFrame status pkt s
  | evRxConfirm status pkt rxLen => exact evRxConfirm_completesInItsFrame status pkt rxLen s
  | evConnect speed =>
    exact completesInItsFrame_of_pass rfl
      (fun s => reap_after_framed (setBussts_framed { connected := true, speed := speed } s)) (by simp [mayChange])
  | evDisconnect =>
    exact completesInItsFrame_of_pass rfl
      (fun s => reap_after_framed (setBussts_framed { s.bussts with connected := false } s)) (by simp [mayChange])
  | drain => exact completesInItsFrame_of_pass rfl drainBody_framed (by simp [mayChange])
  | tokenOut dev ep crc => exact completesInItsFrame_of_illegalCommand rfl (by simp [mayChange])
  | tokenIn dev ep crc => exact completesInItsFrame_of_illegalCommand rfl (by simp [mayChange])
  | tokenSetup dev ep crc => exact completesInItsFrame_of_illegalCommand rfl (by simp [mayChange])

end Sys2Proof.Proofs
end

section
/-! SUPPORT. What one step can do, said once (00_scope.md R16, 60_exceptions.md R296): it runs one pass with one of
the bodies listed here, or the environment acts. Every invariant of the whole machine below is one case split over
these bodies. -/

namespace Sys2Proof.Machine

/-- The bodies of the passes of this machine: those of the operations of R104 with legal operands, and the two that
answer an illegal command and note an illegal event (R125, R126). -/
inductive PassBody : (State → State) → Prop
  | submit (eid : EndpointId) (h : Word) : PassBody (submitBody eid h)
  | cancel (h : Word) : PassBody (cancelBody h)
  | teardown (eid : EndpointId) : PassBody (teardownBody eid)
  | clearHalt (eid : EndpointId) : PassBody (clearHaltBody eid)
  | getFrame : PassBody (fun s => respond 0x05#8 .ok s.frnum s)
  | frameStart : PassBody (fun s => reap (frameStartBody s))
  | txConfirm (st : Ts) (p : Nat) : PassBody (fun s => reap (txConfirmBody st p s))
  | rxConfirm (st : Ts) (p n : Nat) : PassBody (fun s => reap (rxConfirmBody st p n s))
  | connect (speed : Speed) : PassBody (fun s => reap (s.setBussts { connected := true, speed := speed }))
  | disconnect : PassBody (fun s => reap (s.setBussts { s.bussts with connected := false }))
  | drain : PassBody (fun s => if s.drainp then drainPass s else s)
  | illegalCommand (op : BitVec 8) : PassBody (respond op .illegal 0#16)
  | illegalEvent : PassBody State.flagIllegalEvent

/-- `t` is what one pass over `s` ends in. -/
def IsPass (s t : State) : Prop := ∃ holder body, PassBody body ∧ t = runPass holder body s

theorem PassBody.isPass {body : State → State} (h : PassBody body) (holder : Lock) (s : State) :
    IsPass s (runPass holder body s) := ⟨holder, body, h, rfl⟩

theorem illegalCommand_isPass (op : BitVec 8) (s : State) : IsPass s (illegalCommand op s) :=
  (PassBody.illegalCommand op).isPass .heldH s

theorem illegalEvent_isPass (s : State) : IsPass s (illegalEvent s) := PassBody.illegalEvent.isPass .heldA s

/-- Every operation is one pass (R16). -/
theorem exec_isPass (i : Instr) (s : State) : ∃ t, exec i s = .next t ∧ IsPass s t := by
  cases i with
  | submit eid h => exact ⟨_, rfl, (PassBody.submit eid h).isPass .heldH s⟩
  | cancel h => exact ⟨_, rfl, (PassBody.cancel h).isPass .heldH s⟩
  | epTeardown eid => exact ⟨_, rfl, (PassBody.teardown eid).isPass .heldH s⟩
  | epClearHalt eid => exact ⟨_, rfl, (PassBody.clearHalt eid).isPass .heldH s⟩
  | getFrame => exact ⟨_, rfl, PassBody.getFrame.isPass .heldH s⟩
  | evFrameStart => exact ⟨_, rfl, PassBody.frameStart.isPass .heldA s⟩
  | evTxConfirm status pkt =>
    cases hst : Ts.ofEvent status with
    | none => exact ⟨_, exec_evTxConfirm_of_illegal hst pkt s, illegalEvent_isPass s⟩
    | some st => exact ⟨_, exec_evTxConfirm_of_legal hst pkt s, (PassBody.txConfirm st _).isPass .heldA s⟩
  | evRxConfirm status pkt rxLen =>
    cases hst : Ts.ofEvent status with
    | none => exact ⟨_, exec_evRxConfirm_of_illegal hst pkt rxLen s, illegalEvent_isPass s⟩
    | some st => exact ⟨_, exec_evRxConfirm_of_legal hst pkt rxLen s, (PassBody.rxConfirm st _ _).isPass .heldA s⟩
  | evConnect speed => exact ⟨_, rfl, (PassBody.connect speed).isPass .heldA s⟩
  | evDisconnect => exact ⟨_, rfl, PassBody.disconnect.isPass .heldA s⟩
  | drain => exact ⟨_, rfl, PassBody.drain.isPass .heldB s⟩
  | tokenOut dev ep crc => exact ⟨_, rfl, illegalCommand_isPass 0x00#8 s⟩
  | tokenIn dev ep crc => exact ⟨_, rfl, illegalCommand_isPass 0x00#8 s⟩
  | tokenSetup dev ep crc => exact ⟨_, rfl, illegalCommand_isPass 0x00#8 s⟩

/-- The state an operation completes in is that of one pass. -/
theorem isPass_of_exec {i : Instr} {s t : State} (h : exec i s = .next t) : IsPass s t := by
  obtain ⟨u, hu, hpass⟩ := exec_isPass i s
  rw [hu] at h
  injection h with h
  exact h ▸ hpass

/-- All that a step can do: words and choices are taken (`v`), and then nothing, an act of the environment, or one
pass (R63, R296, R320). -/
theorem step_cases {s t : State} (h : step s = .next t) :
    ∃ v, Framed [.cmdPort, .evtPort, .env] s v ∧ (t = v ∨ t = hostWriteNext v ∨ t = detach v ∨ IsPass v t) := by
  unfold step at h
  split at h
  · have hf := fetch_fetched s
    cases hc : fetch s with
    | op i v =>
      rw [hc] at h hf
      exact ⟨v, hf, .inr (.inr (.inr (isPass_of_exec h)))⟩
    | illegalCommand op v =>
      rw [hc] at h hf
      injection h with h
      exact ⟨v, hf, .inr (.inr (.inr (h ▸ illegalCommand_isPass op v)))⟩
    | illegalEvent v =>
      rw [hc] at h hf
      injection h with h
      exact ⟨v, hf, .inr (.inr (.inr (h ▸ illegalEvent_isPass v)))⟩
    | noPass u =>
      rw [hc] at h hf
      injection h with h
      obtain ⟨v, hv, hu⟩ := hf
      subst h
      obtain hu | hu | hu := hu
      · exact ⟨v, hv, .inl hu⟩
      · exact ⟨v, hv, .inr (.inl hu)⟩
      · exact ⟨v, hv, .inr (.inr (.inl hu))⟩
  · cases h

/-- What a property of states needs, to be kept by every step. -/
structure KeptByParts (P : State → Prop) : Prop where
  ports : ∀ s v, Framed [.cmdPort, .evtPort, .env] s v → P s → P v
  hostWrite : ∀ s, P s → P (hostWriteNext s)
  detach : ∀ s, P s → P (detach s)
  pass : ∀ holder body s, PassBody body → P s → P (runPass holder body s)

theorem KeptByParts.step {P : State → Prop} (k : KeptByParts P) {s t : State} (hs : P s) (h : step s = .next t) :
    P t := by
  obtain ⟨v, hv, hcase⟩ := step_cases h
  have hPv : P v := k.ports s v hv hs
  obtain rfl | rfl | rfl | ⟨holder, body, hbody, rfl⟩ := hcase
  · exact hPv
  · exact k.hostWrite v hPv
  · exact k.detach v hPv
  · exact k.pass holder body v hbody hPv

/-! The acts of the environment. -/

/-- A store of the environment changes host memory and uses up the script (R71). -/
theorem hostWriteNext_framed (s : State) : Framed [.mem, .env] s (hostWriteNext s) := by
  unfold hostWriteNext
  split
  · exact Framed.refl _ s
  · exact (setMem_framed _ _).comp (setEnv_framed _ _) (by decide) (by decide)

theorem hostWriteNext_mem_wf (s : State) (h : Memory.wf s.mem) : Memory.wf (hostWriteNext s).mem := by
  unfold hostWriteNext
  split
  · exact h
  · exact memory_wf_write _ _ _ h

/-- A detached block is a block at reset, but for what is not the block's to discard (R320). -/
theorem detach_framed (s : State) : Framed [.attached, .mem, .out, .env] (State.resetOf s.cfg) (detach s) := by
  intro f hf
  cases f
  case attached | mem | out | env => exact absurd (by decide) hf
  all_goals rfl

end Sys2Proof.Machine
end

section
/-! SUPPORT. Reset, for any valid parameters, meets the invariants of the whole machine (R321); `resetOf_paired` of
Laws/ is the fourth. A detached block is a reset one in all they speak of. -/

namespace Sys2Proof.Machine

/-- When no entry is in use, the free-list is the whole range (R48). -/
theorem freeListOk_range (n : Nat) {al : Nat → Bool} (h : ∀ i, al i = false) : FreeListOk n al (List.range n) :=
  ⟨List.nodup_range, fun _ => List.mem_range.1, fun i hi => by simp [h i, hi]⟩

/-- At reset the ring holds every Packet, in index order (R43). -/
theorem resetOf_ringHandles (c : Config) : (State.resetOf c).ringHandles = List.range c.pktPoolCap := by
  refine (List.map_congr_left fun j hj => ?_).trans (List.map_id _)
  have hj : j < c.pktPoolCap := List.mem_range.1 hj
  simp [State.resetOf, Nat.mod_eq_of_lt hj, List.getD_eq_getElem?_getD, hj]

theorem resetOf_ringOk (c : Config) : (State.resetOf c).ringOk := by
  refine ⟨Nat.lt_of_lt_of_le (by decide : 0 < 3) (Nat.le_add_left 3 c.txRingLen), Nat.le_refl _, ?_⟩
  rw [resetOf_ringHandles]
  exact freeListOk_range _ fun p => by rw [resetOf_pkt]; rfl

theorem resetOf_freeListsOk (c : Config) : (State.resetOf c).freeListsOk :=
  ⟨freeListOk_range _ fun i => by rw [resetOf_ed]; rfl, freeListOk_range _ fun i => by rw [resetOf_td]; rfl,
    freeListOk_range _ fun i => by rw [resetOf_tok]; rfl, freeListOk_range _ fun i => by rw [resetOf_txn]; rfl,
    List.nodup_range, fun _ => List.mem_range.1⟩

theorem resetOf_sized (c : Config) : (State.resetOf c).sized := by simp [State.resetOf, State.sized]

theorem resetOf_poolsOk (c : Config) (h : c.valid) : (State.resetOf c).poolsOk :=
  ⟨h, resetOf_sized c, resetOf_freeListsOk c, resetOf_ringOk c⟩

/-- At reset the class lists are empty and no ED is allocated (R50). -/
theorem resetOf_classesOk (c : Config) : (State.resetOf c).classesOk := by
  intro m _
  have hcls : (State.resetOf c).cls.get m = [] := by cases m <;> rfl
  have hfree : ∀ e, ((State.resetOf c).ed e).alloc ≠ true := fun e => by rw [resetOf_ed]; exact Bool.false_ne_true
  rw [hcls]
  exact ⟨List.nodup_nil, fun e he => absurd he List.not_mem_nil, fun e _ ha => absurd ha (hfree e)⟩

theorem frameWrap_pos {c : Config} (h : c.valid) : 0 < c.frameWrap :=
  Nat.lt_of_le_of_lt (Nat.zero_le _) (nextFrnum_lt c 0#16 h)

theorem detach_poolsOk (s : State) (h : s.poolsOk) : (detach s).poolsOk :=
  poolsOk_of_framed (detach_framed s) (by decide) (resetOf_poolsOk s.cfg h.1)

theorem detach_classesOk (s : State) : (detach s).classesOk :=
  classesOk_of_same (SameClasses.of_framed (detach_framed s) (by decide)) (resetOf_classesOk s.cfg)

theorem detach_paired (s : State) : (detach s).Paired :=
  State.Paired.congr (SamePairs.of_framed (detach_framed s) (by decide)) (resetOf_paired s.cfg)

/-- Detach empties the frame and the done list, and leaves host memory alone. -/
theorem detach_boundsOk (s : State) (h : s.boundsOk) : (detach s).boundsOk := by
  obtain ⟨hcfg, -, -, -, hmem, -⟩ := h
  exact ⟨hcfg, Nat.zero_le _, frameWrap_pos hcfg, rfl, hmem, fun hne => absurd rfl hne⟩

end Sys2Proof.Machine
end

section
/-! SUPPORT. Every pass keeps the four invariants of the whole machine: the bodies' lemmas of Laws/, collected over
the bodies there are. -/

namespace Sys2Proof.Machine

/-! The bounds (O56). -/

/-- Between passes the bounds of a pass's body hold. -/
theorem boundsBody_of_boundsOk {s : State} (h : s.boundsOk) : s.boundsBody :=
  let ⟨hcfg, hbytes, hfrnum, _, hmem, hdone⟩ := h
  ⟨hcfg, hbytes, hfrnum, hmem, hdone⟩

theorem PassBody.keeps_boundsBody {body : State → State} (h : PassBody body) (s : State) (hs : s.boundsBody) :
    (body s).boundsBody := by
  cases h with
  | submit eid hw => exact submitBody_bounds eid hw s hs
  | cancel hw => exact boundsBody_of_framed (cancelBody_framed hw s) (by decide) hs
  | teardown eid => exact teardownBody_bounds eid s hs
  | clearHalt eid => exact boundsBody_of_framed (clearHaltBody_framed eid s) (by decide) hs
  | getFrame => exact boundsBody_of_framed (respond_framed _ _ _ s) (by decide) hs
  | frameStart => exact reap_bounds _ (frameStartBody_bounds s hs)
  | txConfirm st p => exact reap_bounds _ (txConfirmBody_bounds st p s hs)
  | rxConfirm st p n => exact reap_bounds _ (rxConfirmBody_bounds st p n s hs)
  | connect speed => exact reap_bounds _ (boundsBody_of_framed (setBussts_framed _ s) (by decide) hs)
  | disconnect => exact reap_bounds _ (boundsBody_of_framed (setBussts_framed _ s) (by decide) hs)
  | drain => exact boundsBody_ite (drainPass_bounds s hs) hs
  | illegalCommand op => exact boundsBody_of_framed (respond_framed _ _ _ s) (by decide) hs
  | illegalEvent => exact boundsBody_of_framed (flagIllegalEvent_framed s) (by decide) hs

/-- Words and choices are taken, the region staying as it is. -/
theorem boundsOk_of_ports {s v : State} (h : Framed [.cmdPort, .evtPort, .env] s v) (hs : s.boundsOk) : v.boundsOk := by
  obtain ⟨hcfg, hbytes, hfrnum, hmem, hdone⟩ := boundsBody_of_framed h (by decide) (boundsBody_of_boundsOk hs)
  obtain ⟨-, -, -, hlock, -, -⟩ := hs
  exact ⟨hcfg, hbytes, hfrnum, (h.lock_eq (by decide)).trans hlock, hmem, hdone⟩

/-- A store of the environment touches nothing the bounds speak of but host memory, whose form it keeps (R71). -/
theorem hostWriteNext_boundsOk (s : State) (hs : s.boundsOk) : (hostWriteNext s).boundsOk := by
  have h := hostWriteNext_framed s
  obtain ⟨hcfg, hbytes, hfrnum, hlock, hmem, hdone⟩ := hs
  unfold State.boundsOk
  rw [h.cfg_eq (by decide), h.frame_eq (by decide), h.frnum_eq (by decide), h.lock_eq (by decide),
    h.done_eq (by decide), h.drainp_eq (by decide)]
  exact ⟨hcfg, hbytes, hfrnum, hlock, hostWriteNext_mem_wf s hmem, hdone⟩

theorem boundsOk_keptByParts : KeptByParts State.boundsOk where
  ports _ _ h hs := boundsOk_of_ports h hs
  hostWrite := hostWriteNext_boundsOk
  detach := detach_boundsOk
  pass holder body s hbody hs :=
    runPass_bounds holder body s hbody.keeps_boundsBody (boundsBody_of_boundsOk hs)

/-! The pools (O57). -/

theorem PassBody.keeps_poolsOk {body : State → State} (h : PassBody body) (s : State) (hs : s.poolsOk) :
    (body s).poolsOk := by
  cases h with
  | submit eid hw => exact submitBody_poolsOk eid hw s hs
  | cancel hw => exact cancelBody_poolsOk hw s hs
  | teardown eid => exact teardownBody_poolsOk eid s hs
  | clearHalt eid => exact clearHaltBody_poolsOk eid s hs
  | getFrame => exact poolsOk_of_framed (respond_framed _ _ _ s) (by decide) hs
  | frameStart => exact reap_poolsOk _ (frameStartBody_poolsOk s hs)
  | txConfirm st p => exact reap_poolsOk _ (txConfirmBody_poolsOk st p s hs)
  | rxConfirm st p n => exact reap_poolsOk _ (rxConfirmBody_poolsOk st p n s hs)
  | connect speed => exact reap_poolsOk _ (poolsOk_of_framed (setBussts_framed _ s) (by decide) hs)
  | disconnect => exact reap_poolsOk _ (poolsOk_of_framed (setBussts_framed _ s) (by decide) hs)
  | drain =>
    dsimp only
    split
    · exact drainPass_poolsOk s hs
    · exact hs
  | illegalCommand op => exact poolsOk_of_framed (respond_framed _ _ _ s) (by decide) hs
  | illegalEvent => exact poolsOk_of_framed (flagIllegalEvent_framed s) (by decide) hs

theorem poolsOk_keptByParts : KeptByParts State.poolsOk where
  ports _ _ h hs := poolsOk_of_framed h (by decide) hs
  hostWrite s hs := poolsOk_of_framed (hostWriteNext_framed s) (by decide) hs
  detach := detach_poolsOk
  pass holder body s hbody hs := runPass_poolsOk holder body s hbody.keeps_poolsOk hs

/-! The class lists (O58). They are kept together with the pools: an ED is put on a list when it is allocated and
taken off when it is freed. -/

theorem respond_classesOk (op : BitVec 8) (code : Code) (value : BitVec 16) (s : State) (hs : s.classesOk) :
    (respond op code value s).classesOk :=
  classesOk_of_same (SameClasses.of_framed (respond_framed op code value s) (by decide)) hs

theorem setBussts_classesOk (b : BusSts) (s : State) (hs : s.classesOk) : (s.setBussts b).classesOk :=
  classesOk_of_same (SameClasses.of_framed (setBussts_framed b s) (by decide)) hs

theorem submitBody_classesOk (eid : EndpointId) (hw : Word) (s : State) (hp : s.poolsOk) (hs : s.classesOk) :
    (submitBody eid hw s).classesOk := by
  unfold submitBody
  split
  · exact respond_classesOk _ _ _ s hs
  · exact respond_classesOk _ _ _ _ (submitAccept_classesOk eid _ _ s hp hs)

theorem cancelBody_classesOk (hw : Word) (s : State) (hs : s.classesOk) : (cancelBody hw s).classesOk := by
  unfold cancelBody
  split
  · exact respond_classesOk _ _ _ s hs
  · split
    · exact respond_classesOk _ _ _ s hs
    · refine respond_classesOk _ _ _ _ ?_
      unfold markDying
      split
      · exact hs
      · exact classesOk_of_same (modEd_sameClasses _ _ s rfl rfl) hs

theorem teardownBody_classesOk (eid : EndpointId) (s : State) (hp : s.poolsOk) (hs : s.classesOk) :
    (teardownBody eid s).classesOk := by
  unfold teardownBody
  split
  · exact respond_classesOk _ _ _ s hs
  · split
    · exact respond_classesOk _ _ _ s hs
    · rename_i e hlookup
      obtain ⟨halloc, hlt⟩ := lookup_alloc hlookup
      exact respond_classesOk _ _ _ _ (teardownEd_classesOk e s hp hlt halloc hs)

theorem clearHalt_mode (x : Ed) : (clearHalt x).mode = x.mode := by
  unfold clearHalt
  split <;> rfl

theorem clearHaltBody_classesOk (eid : EndpointId) (s : State) (hs : s.classesOk) :
    (clearHaltBody eid s).classesOk := by
  unfold clearHaltBody
  split
  · exact respond_classesOk _ _ _ s hs
  · split
    · exact respond_classesOk _ _ _ s hs
    · exact respond_classesOk _ _ _ _
        (classesOk_of_same (modEd_sameClasses _ _ s (clearHalt_alloc _) (clearHalt_mode _)) hs)

theorem PassBody.keeps_classesOk {body : State → State} (h : PassBody body) (s : State) (hp : s.poolsOk)
    (hs : s.classesOk) : (body s).classesOk := by
  cases h with
  | submit eid hw => exact submitBody_classesOk eid hw s hp hs
  | cancel hw => exact cancelBody_classesOk hw s hs
  | teardown eid => exact teardownBody_classesOk eid s hp hs
  | clearHalt eid => exact clearHaltBody_classesOk eid s hs
  | getFrame => exact respond_classesOk _ _ _ s hs
  | frameStart => exact reap_classesOk _ (frameStartBody_poolsOk s hp) (frameStartBody_classesOk s hs)
  | txConfirm st p =>
    exact reap_classesOk _ (txConfirmBody_poolsOk st p s hp) (classesOk_of_same (txConfirmBody_sameClasses st p s) hs)
  | rxConfirm st p n =>
    exact reap_classesOk _ (rxConfirmBody_poolsOk st p n s hp)
      (classesOk_of_same (rxConfirmBody_sameClasses st p n s) hs)
  | connect speed =>
    exact reap_classesOk _ (poolsOk_of_framed (setBussts_framed _ s) (by decide) hp) (setBussts_classesOk _ s hs)
  | disconnect =>
    exact reap_classesOk _ (poolsOk_of_framed (setBussts_framed _ s) (by decide) hp) (setBussts_classesOk _ s hs)
  | drain =>
    dsimp only
    split
    · exact classesOk_of_same (SameClasses.of_framed (drainPass_framed s) (by decide)) hs
    · exact hs
  | illegalCommand op => exact respond_classesOk _ _ _ s hs
  | illegalEvent => exact classesOk_of_same (SameClasses.of_framed (flagIllegalEvent_framed s) (by decide)) hs

/-- Taking the region and giving it back leaves the class lists alone (R58). -/
theorem runPass_classesOk (holder : Lock) (body : State → State) (s : State) (hp : s.poolsOk)
    (h : ∀ s, s.poolsOk → s.classesOk → (body s).classesOk) (hs : s.classesOk) :
    (runPass holder body s).classesOk :=
  classesOk_of_same (SameClasses.of_framed (setLock_framed .free _) (by decide))
    (h _ (poolsOk_of_framed (setLock_framed holder s) (by decide) hp)
      (classesOk_of_same (SameClasses.of_framed (setLock_framed holder s) (by decide)) hs))

theorem classesOk_keptByParts : KeptByParts (fun s => s.poolsOk ∧ s.classesOk) where
  ports s v h := fun ⟨hp, hs⟩ =>
    ⟨poolsOk_keptByParts.ports s v h hp, classesOk_of_same (SameClasses.of_framed h (by decide)) hs⟩
  hostWrite s := fun ⟨hp, hs⟩ =>
    ⟨poolsOk_keptByParts.hostWrite s hp,
      classesOk_of_same (SameClasses.of_framed (hostWriteNext_framed s) (by decide)) hs⟩
  detach s := fun ⟨hp, _⟩ => ⟨detach_poolsOk s hp, detach_classesOk s⟩
  pass holder body s hbody := fun ⟨hp, hs⟩ =>
    ⟨poolsOk_keptByParts.pass holder body s hbody hp, runPass_classesOk holder body s hp hbody.keeps_classesOk hs⟩

/-! The correspondence of TDs, records, Packets, dummy buffers and Tokens (O59). -/

theorem respond_paired (op : BitVec 8) (code : Code) (value : BitVec 16) (s : State) (hs : s.Paired) :
    (respond op code value s).Paired := State.Paired.congr (respond_samePairs op code value s) hs

theorem setBussts_paired (b : BusSts) (s : State) (hs : s.Paired) : (s.setBussts b).Paired :=
  State.Paired.congr (SamePairs.of_framed (setBussts_framed b s) (by decide)) hs

theorem PassBody.keeps_paired {body : State → State} (h : PassBody body) (s : State) (hp : s.poolsOk)
    (hs : s.Paired) : (body s).Paired := by
  cases h with
  | submit eid hw => exact submitBody_paired eid hw s hp hs
  | cancel hw => exact cancelBody_paired hw s hs
  | teardown eid => exact teardownBody_paired eid s hp hs
  | clearHalt eid => exact clearHaltBody_paired eid s hs
  | getFrame => exact respond_paired _ _ _ s hs
  | frameStart => exact reap_paired _ (frameStartBody_paired s hp hs)
  | txConfirm st p => exact reap_paired _ (txConfirmBody_paired st p s hp hs)
  | rxConfirm st p n => exact reap_paired _ (rxConfirmBody_paired st p n s hp hs)
  | connect speed => exact reap_paired _ (setBussts_paired _ s hs)
  | disconnect => exact reap_paired _ (setBussts_paired _ s hs)
  | drain =>
    dsimp only
    split
    · exact drainPass_paired s hp hs
    · exact hs
  | illegalCommand op => exact respond_paired _ _ _ s hs
  | illegalEvent => exact State.Paired.congr (setDiag_samePairs _ s rfl) hs

theorem paired_keptByParts : KeptByParts (fun s => s.poolsOk ∧ s.Paired) where
  ports s v h := fun ⟨hp, hs⟩ =>
    ⟨poolsOk_keptByParts.ports s v h hp, State.Paired.congr (SamePairs.of_framed h (by decide)) hs⟩
  hostWrite s := fun ⟨hp, hs⟩ =>
    ⟨poolsOk_keptByParts.hostWrite s hp,
      State.Paired.congr (SamePairs.of_framed (hostWriteNext_framed s) (by decide)) hs⟩
  detach s := fun ⟨hp, _⟩ => ⟨detach_poolsOk s hp, detach_paired s⟩
  pass holder body s hbody := fun ⟨hp, hs⟩ =>
    ⟨poolsOk_keptByParts.pass holder body s hbody hp, runPass_paired holder body s hp hbody.keeps_paired hs⟩

end Sys2Proof.Machine

namespace Sys2Proof.Proofs

open Sys2Proof.Machine

/-- Settles O59: every part of a step keeps the correspondence, together with the soundness of the pools. -/
theorem stepKeepsTheTransactionsPaired : Obligations.StepKeepsTheTransactionsPaired :=
  fun _ _ hpools hpaired hstep => (paired_keptByParts.step ⟨hpools, hpaired⟩ hstep).2

/-- Settles O58: every part of a step keeps the class lists, together with the soundness of the pools. -/
theorem stepKeepsTheClassLists : Obligations.StepKeepsTheClassLists :=
  fun _ _ hpools hclasses hstep => (classesOk_keptByParts.step ⟨hpools, hclasses⟩ hstep).2

/-- Settles O57: every part of a step keeps the pools sound. -/
theorem stepKeepsThePoolsSound : Obligations.StepKeepsThePoolsSound :=
  fun _ _ hpools hstep => poolsOk_keptByParts.step hpools hstep

/-- Settles O56: every part of a step keeps the bounds. -/
theorem stepKeepsTheBounds : Obligations.StepKeepsTheBounds :=
  fun _ _ hbounds hstep => boundsOk_keptByParts.step hbounds hstep

end Sys2Proof.Proofs
end

section
/-! SUPPORT. The `DIAG` flags are sticky (R59): the relation `Grows` of Laws/Grows.lean without its outputs, so that
it speaks of the passes that respond too. -/

namespace Sys2Proof.Machine

/-- Going from `s` to `t` no `DIAG` flag is cleared. -/
structure FlagsKept (s t : State) : Prop where
  doubleRelease : s.diag.doubleRelease = true → t.diag.doubleRelease = true
  spuriousConfirm : s.diag.spuriousConfirm = true → t.diag.spuriousConfirm = true
  illegalEvent : s.diag.illegalEvent = true → t.diag.illegalEvent = true
  rxOverlen : s.diag.rxOverlen = true → t.diag.rxOverlen = true

theorem Grows.flagsKept {s t : State} (h : Grows s t) : FlagsKept s t :=
  ⟨h.doubleRelease, h.spuriousConfirm, h.illegalEvent, h.rxOverlen⟩

theorem FlagsKept.of_eq {s t : State} (h : t.diag = s.diag) : FlagsKept s t := by
  constructor <;> rw [h] <;> exact id

theorem FlagsKept.of_framed {c : List Field} {s t : State} (h : Framed c s t) (hc : Field.diag ∉ c) : FlagsKept s t :=
  FlagsKept.of_eq (h.diag_eq hc)

theorem FlagsKept.trans {s t u : State} (h : FlagsKept s t) (k : FlagsKept t u) : FlagsKept s u where
  doubleRelease := k.doubleRelease ∘ h.doubleRelease
  spuriousConfirm := k.spuriousConfirm ∘ h.spuriousConfirm
  illegalEvent := k.illegalEvent ∘ h.illegalEvent
  rxOverlen := k.rxOverlen ∘ h.rxOverlen

theorem respond_flagsKept (op : BitVec 8) (code : Code) (value : BitVec 16) (s : State) :
    FlagsKept s (respond op code value s) := FlagsKept.of_framed (respond_framed op code value s) (by decide)

/-- EP_TEARDOWN is the one host command that may set a flag, by its releases (R188, R252). -/
theorem teardownBody_flagsKept (eid : EndpointId) (s : State) : FlagsKept s (teardownBody eid s) := by
  unfold teardownBody
  split
  · exact respond_flagsKept _ _ _ s
  · split
    · exact respond_flagsKept _ _ _ s
    · exact (teardownEd_grows _ s).flagsKept.trans (respond_flagsKept _ _ _ _)

theorem setBussts_grows (b : BusSts) (s : State) : Grows s (s.setBussts b) :=
  Grows.of_framed (setBussts_framed b s) (by decide) (by decide)

theorem PassBody.flagsKept {body : State → State} (h : PassBody body) (s : State) : FlagsKept s (body s) := by
  cases h with
  | submit eid hw => exact FlagsKept.of_framed (submitBody_framed eid hw s) (by decide)
  | cancel hw => exact FlagsKept.of_framed (cancelBody_framed hw s) (by decide)
  | teardown eid => exact teardownBody_flagsKept eid s
  | clearHalt eid => exact FlagsKept.of_framed (clearHaltBody_framed eid s) (by decide)
  | getFrame => exact respond_flagsKept _ _ _ s
  | frameStart => exact ((frameStartBody_grows s).trans (reap_grows _)).flagsKept
  | txConfirm st p => exact ((txConfirmBody_grows st p s).trans (reap_grows _)).flagsKept
  | rxConfirm st p n => exact ((rxConfirmBody_grows st p n s).trans (reap_grows _)).flagsKept
  | connect speed => exact ((setBussts_grows _ s).trans (reap_grows _)).flagsKept
  | disconnect => exact ((setBussts_grows _ s).trans (reap_grows _)).flagsKept
  | drain => exact (Grows.ite (drainPass_grows s) (Grows.refl s)).flagsKept
  | illegalCommand op => exact respond_flagsKept _ _ _ s
  | illegalEvent => exact (flagIllegalEvent_grows s).flagsKept

/-- Entry to a pass and exit from it leave `DIAG` alone (R300, R301). -/
theorem IsPass.flagsKept {s t : State} (h : IsPass s t) : FlagsKept s t := by
  obtain ⟨holder, body, hbody, rfl⟩ := h
  have henter : FlagsKept s (enterPass holder s) := FlagsKept.of_eq rfl
  exact henter.trans ((hbody.flagsKept _).trans (FlagsKept.of_eq rfl))

end Sys2Proof.Machine

namespace Sys2Proof.Proofs

open Sys2Proof.Machine

/-- Settles O54: an operation is one pass, and no pass clears a flag. -/
theorem diagFlagsAreSticky : Obligations.DiagFlagsAreSticky := by
  intro i s t hexec
  obtain ⟨hdouble, hspurious, hillegal, hoverlen⟩ := (isPass_of_exec hexec).flagsKept
  exact ⟨hdouble, hspurious, hillegal, hoverlen⟩

end Sys2Proof.Proofs
end

section
/-! SUPPORT. Placing an operation (log entry 7): the decoder takes exactly the words that word 0 asks for, whatever
words follow (R101, R104), so that words put at the head of a port are what the next step takes. -/

namespace Sys2Proof

/-- The rows of R104 by their number of words. -/
theorem opWords_cases (op : BitVec 8) :
    (op = 0x01#8 ∧ opWords op = 3) ∨
    ((op = 0x02#8 ∨ op = 0x03#8 ∨ op = 0x04#8 ∨ op = 0x12#8) ∧ opWords op = 2) ∨
    ((op ≠ 0x01#8 ∧ op ≠ 0x02#8 ∧ op ≠ 0x03#8 ∧ op ≠ 0x04#8 ∧ op ≠ 0x12#8) ∧ opWords op = 1) := by
  unfold opWords
  split
  · exact .inl ⟨‹_›, rfl⟩
  · split
    · exact .inr (.inl ⟨‹_›, rfl⟩)
    · rename_i h1 h2
      simp only [not_or] at h2
      exact .inr (.inr ⟨⟨h1, h2⟩, rfl⟩)

/-- A one-word operation is read from word 0 alone. -/
theorem decodeFirst_of_one {w0 : Word} (ms : List Word) (h1 : opcodeOf w0 ≠ 0x01#8) (h2 : opcodeOf w0 ≠ 0x02#8)
    (h3 : opcodeOf w0 ≠ 0x03#8) (h4 : opcodeOf w0 ≠ 0x04#8) (h12 : opcodeOf w0 ≠ 0x12#8) :
    decodeFirst w0 ms = (decodeFirst w0 []).map (fun p => (p.1, ms)) := by
  by_cases hknown : opcodeOf w0 ∈ knownOpcodes
  · simp only [knownOpcodes, List.mem_cons, h1, h2, h3, h4, h12, false_or, List.not_mem_nil, or_false] at hknown
    obtain h | h | h | h | h | h | h := hknown
    · rw [decodeFirst_token _ _ h, decodeFirst_token _ _ h]
      cases decodeToken w0 <;> rfl
    · rw [decodeFirst_getFrame _ _ h, decodeFirst_getFrame _ _ h]
      split <;> rfl
    · rw [decodeFirst_evFrameStart _ _ h, decodeFirst_evFrameStart _ _ h]
      split <;> rfl
    · rw [decodeFirst_evTxConfirm _ _ h, decodeFirst_evTxConfirm _ _ h]
      rfl
    · rw [decodeFirst_evConnect _ _ h, decodeFirst_evConnect _ _ h]
      split <;> rfl
    · rw [decodeFirst_evDisconnect _ _ h, decodeFirst_evDisconnect _ _ h]
      split <;> rfl
    · rw [decodeFirst_drain _ _ h, decodeFirst_drain _ _ h]
      split <;> rfl
  · rw [decodeFirst_unknown _ _ hknown, decodeFirst_unknown _ _ hknown]
    rfl

/-- A two-word operation is read from word 0 and the word behind it. -/
theorem decodeFirst_of_two {w0 : Word} (w1 : Word) (ms : List Word)
    (h : opcodeOf w0 = 0x02#8 ∨ opcodeOf w0 = 0x03#8 ∨ opcodeOf w0 = 0x04#8 ∨ opcodeOf w0 = 0x12#8) :
    decodeFirst w0 (w1 :: ms) = (decodeFirst w0 [w1]).map (fun p => (p.1, ms)) := by
  obtain h | h | h | h := h
  · rw [decodeFirst_cancel _ _ h, decodeFirst_cancel _ _ h]
    split <;> rfl
  · rw [decodeFirst_epTeardown _ _ h, decodeFirst_epTeardown _ _ h]
    split <;> rfl
  · rw [decodeFirst_epClearHalt _ _ h, decodeFirst_epClearHalt _ _ h]
    split <;> rfl
  · rw [decodeFirst_evRxConfirm _ _ h, decodeFirst_evRxConfirm _ _ h]
    rfl

/-- SUBMIT is read from word 0 and the two words behind it. -/
theorem decodeFirst_of_three {w0 : Word} (w1 w2 : Word) (ms : List Word) (h : opcodeOf w0 = 0x01#8) :
    decodeFirst w0 (w1 :: w2 :: ms) = (decodeFirst w0 [w1, w2]).map (fun p => (p.1, ms)) := by
  rw [decodeFirst_submit _ _ h, decodeFirst_submit _ _ h]
  split <;> rfl

/-- Behind exactly the words that word 0 asks for, any other words are left as they are (R101). -/
theorem decodeFirst_append (w0 : Word) (ops ms : List Word) (hlen : ops.length + 1 = opWords (opcodeOf w0)) :
    decodeFirst w0 (ops ++ ms) = (decodeFirst w0 ops).map (fun p => (p.1, ms)) := by
  obtain ⟨h, hn⟩ | ⟨h, hn⟩ | ⟨⟨h1, h2, h3, h4, h12⟩, hn⟩ := opWords_cases (opcodeOf w0)
  · obtain ⟨w1, w2, rfl⟩ := List.length_eq_two.1 (show ops.length = 2 by omega)
    exact decodeFirst_of_three w1 w2 ms h
  · obtain ⟨w1, rfl⟩ := List.length_eq_one_iff.1 (show ops.length = 1 by omega)
    exact decodeFirst_of_two w1 ms h
  · obtain rfl := List.length_eq_zero_iff.1 (show ops.length = 0 by omega)
    exact decodeFirst_of_one ms h1 h2 h3 h4 h12

/-- The words a table row's number stands for are a word 0 and as many more as it asks for. -/
theorem tableInstrWords_eq (nbits w : Nat) :
    ∃ w0 ops, tableInstrWords nbits w = w0 :: ops ∧ ops.length + 1 = opWords (opcodeOf w0) := by
  unfold tableInstrWords tableWords
  obtain ⟨-, hn⟩ | ⟨-, hn⟩ | ⟨-, hn⟩ := opWords_cases (opcodeOf (BitVec.ofNat 32 (w % 2 ^ nbits)))
  all_goals
    rw [hn]
    exact ⟨_, _, rfl, hn.symm⟩

/-- The words of a number that decodes are read as that instruction with any words behind them. -/
theorem decode_of_decodeTableWord {nbits w : Nat} {i : Instr} (h : decodeTableWord nbits w = some i) :
    ∃ w0 ops, tableInstrWords nbits w = w0 :: ops ∧ ∀ ms, decode (w0 :: (ops ++ ms)) = .ok (i, ms) := by
  obtain ⟨w0, ops, hwords, hlen⟩ := tableInstrWords_eq nbits w
  unfold decodeTableWord at h
  rw [hwords] at h
  split at h
  · rename_i j rest hdecode
    obtain rfl := Option.some.inj h
    refine ⟨w0, ops, hwords, fun ms => ?_⟩
    replace hdecode : decodeFirst w0 ops = .ok (j, rest) := hdecode
    change decodeFirst w0 (ops ++ ms) = .ok (j, ms)
    rw [decodeFirst_append w0 ops ms hlen, hdecode]
    rfl
  · cases h

/-! The port of a word 0 that decodes (R102). -/

theorem mem_knownOpcodes_of_decode {w0 : Word} {ws rest : List Word} {i : Instr}
    (h : decode (w0 :: ws) = .ok (i, rest)) : opcodeOf w0 ∈ knownOpcodes := by
  by_contra hunknown
  have herror : decode (w0 :: ws) = .error .unknownOpcode := decodeFirst_unknown w0 ws hunknown
  rw [herror] at h
  cases h

theorem opcodePort_isSome_of_known : ∀ op ∈ knownOpcodes, opcodePort op ≠ none := by decide

theorem known_internal : ∀ op ∈ knownOpcodes, opcodePort op = some .internal → op = 0x20#8 := by decide

/-- DRAIN is the one operation of the block itself (R102, R104). -/
theorem eq_drain_of_internal {w0 : Word} {ws rest : List Word} {i : Instr} (h : decode (w0 :: ws) = .ok (i, rest))
    (hp : opcodePort (opcodeOf w0) = some .internal) : i = .drain := by
  have hop := known_internal _ (mem_knownOpcodes_of_decode h) hp
  change decodeFirst w0 ws = _ at h
  rw [decodeFirst_drain _ _ hop] at h
  split at h
  · cases h
  · cases h
    rfl

end Sys2Proof

namespace Sys2Proof.Machine

/-- A choice of the deferred task runs DRAIN (R296). -/
theorem step_deferred_op (s : State) (i : Instr) (later : List Source) (ha : s.attached = true)
    (hs : s.env.sched = .deferred :: later) (hi : i = .drain) :
    step s = exec i (s.setEnv { s.env with sched := later }) := by
  rw [step_attached s ha, fetch_scheduled s _ _ hs, hi]
  simp only [fetchFrom, runFetched]

/-! Where placing puts an operation's words, port by port. -/

theorem withFetchWord_command {nbits w : Nat} {w0 : Word} {ops : List Word}
    (hwords : tableInstrWords nbits w = w0 :: ops) (hp : opcodePort (opcodeOf w0) = some .command) (s : State) :
    s.withFetchWord nbits w =
      (s.setCmdPort (w0 :: (ops ++ s.cmdPort))).setEnv { s.env with sched := .command :: s.env.sched } := by
  simp only [State.withFetchWord, hwords, List.headD_cons, hp, List.cons_append]

theorem withFetchWord_event {nbits w : Nat} {w0 : Word} {ops : List Word}
    (hwords : tableInstrWords nbits w = w0 :: ops) (hp : opcodePort (opcodeOf w0) = some .event) (s : State) :
    s.withFetchWord nbits w =
      (s.setEvtPort (w0 :: (ops ++ s.evtPort))).setEnv { s.env with sched := .event :: s.env.sched } := by
  simp only [State.withFetchWord, hwords, List.headD_cons, hp, List.cons_append]

theorem withFetchWord_internal {nbits w : Nat} {w0 : Word} {ops : List Word}
    (hwords : tableInstrWords nbits w = w0 :: ops) (hp : opcodePort (opcodeOf w0) = some .internal) (s : State) :
    s.withFetchWord nbits w = s.setEnv { s.env with sched := .deferred :: s.env.sched } := by
  simp only [State.withFetchWord, hwords, List.headD_cons, hp]

end Sys2Proof.Machine

namespace Sys2Proof.Proofs

open Sys2Proof.Machine

/-- Settles O7, port by port: the placed words are at the head of their port, the port is chosen, and taking both off
again leaves the state as it was. -/
theorem placedOperationRunsNext : Obligations.PlacedOperationRunsNext := by
  intro s nbits w i ha hw
  obtain ⟨w0, ops, hwords, hdecode⟩ := decode_of_decodeTableWord hw
  cases hp : opcodePort (opcodeOf w0) with
  | none => exact absurd hp (opcodePort_isSome_of_known _ (mem_knownOpcodes_of_decode (hdecode [])))
  | some port =>
    cases port with
    | command =>
      have hhead := portHead_op .command w0 (ops ++ s.cmdPort) s.cmdPort i hp (hdecode s.cmdPort)
      rw [withFetchWord_command hwords hp s]
      refine (step_command_op _ i s.cmdPort s.env.sched ?_ rfl ?_).trans (congrArg (exec i) ?_)
      · exact ha
      · exact hhead
      · rfl
    | event =>
      have hhead := portHead_op .event w0 (ops ++ s.evtPort) s.evtPort i hp (hdecode s.evtPort)
      rw [withFetchWord_event hwords hp s]
      refine (step_event_op _ i s.evtPort s.env.sched ?_ rfl ?_).trans (congrArg (exec i) ?_)
      · exact ha
      · exact hhead
      · rfl
    | internal =>
      have hdrain := eq_drain_of_internal (hdecode []) hp
      rw [withFetchWord_internal hwords hp s]
      refine (step_deferred_op _ i s.env.sched ?_ rfl hdrain).trans (congrArg (exec i) ?_)
      · exact ha
      · rfl

end Sys2Proof.Proofs
end

section
/-! SUPPORT. Host memory (R72, R74): the bytes of a word that is read, and with them what a word write leaves in
memory. -/

namespace Sys2Proof.Machine

/-- Byte `j` of a word comes from the address `j` above its own, so the least significant from the lowest (R72). -/
theorem memRead_byte (s : State) (a : Addr) {j : Nat} (hj : j < 4) :
    (s.memRead a).extractLsb' (8 * j) 8 = s.mem.read (wrapAddr s.cfg (a + j)) := by
  unfold State.memRead
  have hcases : j = 0 ∨ j = 1 ∨ j = 2 ∨ j = 3 := by omega
  obtain rfl | rfl | rfl | rfl := hcases
  · exact BitVec.extractLsb'_append_eq_right
  · rw [BitVec.extractLsb'_append_eq_of_le (by decide)]
    exact BitVec.extractLsb'_append_eq_right
  · rw [BitVec.extractLsb'_append_eq_of_le (by decide), BitVec.extractLsb'_append_eq_of_le (by decide)]
    exact BitVec.extractLsb'_append_eq_right
  · rw [BitVec.extractLsb'_append_eq_of_le (by decide), BitVec.extractLsb'_append_eq_of_le (by decide)]
    exact BitVec.extractLsb'_append_eq_left

end Sys2Proof.Machine

namespace Sys2Proof.Proofs

open Sys2Proof.Machine

/-- Settles O52: the single bytes are those of the word read back, and the frame is that of the four byte stores. -/
theorem memoryReadsBackWhatIsWritten : Obligations.MemoryReadsBackWhatIsWritten := by
  intro s a v hwf hbits
  have hword : (s.memWrite a v).memRead a = v := memRead_memWrite_self s a v hwf hbits
  refine ⟨hword, fun j hj => ?byte, fun b hb => ?frame, memWrite_keeps_wf s a v hwf⟩
  case byte =>
    have hbyte := memRead_byte (s.memWrite a v) a hj
    rw [hword, State.memWrite_cfg] at hbyte
    exact hbyte.symm
  case frame =>
    have houtside : b ∉ wordAddrs s.cfg a := by
      rw [mem_wordAddrs]
      rintro ⟨j, hj, rfl⟩
      exact hb j hj rfl
    exact memory_read_write32_other s.cfg s.mem a b v houtside

end Sys2Proof.Proofs
end

section
/-! SUPPORT. Decoding and encoding undo one another (R101, R104): by rows of R104, and for a token packet by its
packet-ID byte (R121). -/

namespace Sys2Proof

/-! What a row's checks leave. -/

/-- A row that checks its reserved bits accepts only where they are zero. -/
theorem accepted_of_reserved {P : Prop} [Decidable P] {x : Except DecodeError (Instr × List Word)}
    {r : Instr × List Word} (h : (if P then .error .reservedBits else x) = .ok r) : ¬ P ∧ x = .ok r := by
  split at h
  · cases h
  · exact ⟨‹_›, h⟩

/-- A word 0 is known by its opcode and the bits below it (R101). -/
theorem eq_headWord {w : Word} {op : BitVec 8} {low : BitVec 24} (hop : opcodeOf w = op) (hlow : belowOpcode w = low) :
    w = headWord op low := by
  rw [← hop, ← hlow, headWord_of_parts]

/-- A row whose operands lie in further words leaves no bit of word 0 open. -/
theorem eq_headWord_zero {w : Word} {op : BitVec 8} (hop : opcodeOf w = op) (hlow : ¬ belowOpcode w ≠ 0#24) :
    w = headWord op 0#24 := eq_headWord hop (not_not.1 hlow)

/-- A confirm event's word 0 is made of its opcode and its two fields (R104). -/
theorem eq_confirmWord {w : Word} {op : BitVec 8} (hop : opcodeOf w = op) :
    w = headWord op (w.extractLsb' 16 8 ++ w.extractLsb' 0 16) := by
  refine eq_headWord hop ?_
  rw [extract_word w 16 8 (by decide), extract_word w 0 16 (by decide)]
  exact (concat_extract (n := 8) (m := 16) (belowOpcode w)).symm

/-- A bit below the opcode is a bit of the operand fields (R101). -/
theorem getLsbD_headWord (op : BitVec 8) (low : BitVec 24) (i : Nat) (h : i < 24) :
    (headWord op low).getLsbD i = low.getLsbD i := by
  have hbit := getLsbD_concat op low i
  rwa [if_pos h] at hbit

/-- The speed bit of EV_CONNECT's word 0, and the 23 bits above it (R104, R110). -/
theorem connectWord_fields (op : BitVec 8) (b : Bool) :
    (headWord op (0#23 ++ BitVec.ofBool b)).extractLsb' 1 23 = 0#23 ∧
    (headWord op (0#23 ++ BitVec.ofBool b)).getLsbD 0 = b := by
  rw [extract_headWord _ _ 1 23 (by decide), getLsbD_headWord _ _ 0 (by decide)]
  exact ⟨extract_concat_high 0#23 (BitVec.ofBool b), by cases b <;> rfl⟩

/-- With the 23 bits above it zero, EV_CONNECT's word 0 is its opcode over the speed bit. -/
theorem eq_connectWord {w : Word} {op : BitVec 8} (hop : opcodeOf w = op) (h : w.extractLsb' 1 23 = 0#23) :
    w = headWord op (0#23 ++ BitVec.ofBool (w.getLsbD 0)) := by
  have hbit : w.extractLsb' 0 1 = BitVec.ofBool (w.getLsbD 0) := by
    apply BitVec.eq_of_getLsbD_eq
    intro i hi
    obtain rfl : i = 0 := by omega
    simp
  refine eq_headWord hop ?_
  rw [← h, ← hbit, extract_word w 1 23 (by decide), extract_word w 0 1 (by decide)]
  exact (concat_extract (n := 23) (m := 1) (belowOpcode w)).symm

/-! Token packets. -/

/-- A word with opcode byte 0 is the token packet of its fields (R120). -/
theorem eq_tokenWord {w : Word} (hop : opcodeOf w = 0x00#8) :
    w = headWord 0x00#8 (tokenPacket (w.extractLsb' 0 8) (w.extractLsb' 8 7) (w.extractLsb' 15 4)
      (w.extractLsb' 19 5)) := by
  refine eq_headWord hop ?_
  rw [extract_word w 0 8 (by decide), extract_word w 8 7 (by decide), extract_word w 15 4 (by decide),
    extract_word w 19 5 (by decide), tokenPacket_of_fields]

/-- The packet-ID byte decides: one of the three rows of R121, with the fields of the word, or none (R127). -/
theorem decodeToken_cases (w : Word) :
    decodeToken w = .error .unknownOpcode ∨
    (w.extractLsb' 0 8 = pidOut ∧
      decodeToken w = .ok (.tokenOut (w.extractLsb' 8 7) (w.extractLsb' 15 4) (w.extractLsb' 19 5))) ∨
    (w.extractLsb' 0 8 = pidIn ∧
      decodeToken w = .ok (.tokenIn (w.extractLsb' 8 7) (w.extractLsb' 15 4) (w.extractLsb' 19 5))) ∨
    (w.extractLsb' 0 8 = pidSetup ∧
      decodeToken w = .ok (.tokenSetup (w.extractLsb' 8 7) (w.extractLsb' 15 4) (w.extractLsb' 19 5))) := by
  unfold decodeToken
  dsimp only
  split
  · exact .inr (.inl ⟨‹_›, rfl⟩)
  · split
    · exact .inr (.inr (.inl ⟨‹_›, rfl⟩))
    · split
      · exact .inr (.inr (.inr ⟨‹_›, rfl⟩))
      · exact .inl rfl

/-- What reads as a token has the word it was read from for its encoding. -/
theorem encode_of_decodeToken {w : Word} {i : Instr} (hop : opcodeOf w = 0x00#8) (h : decodeToken w = .ok i) :
    encode i = [w] := by
  have hw := eq_tokenWord hop
  obtain herror | ⟨hpid, hrow⟩ | ⟨hpid, hrow⟩ | ⟨hpid, hrow⟩ := decodeToken_cases w
  · rw [herror] at h
    cases h
  all_goals
    rw [hrow] at h
    cases h
    rw [hpid] at hw
    exact congrArg (· :: []) hw.symm

/-- The word of a token packet reads as the row of its packet-ID byte (R121). -/
theorem decode_tokenWord {pid : BitVec 8} {dev : BitVec 7} {ep : BitVec 4} {crc : BitVec 5} {i : Instr}
    (h : decodeToken (headWord 0x00#8 (tokenPacket pid dev ep crc)) = .ok i) (rest : List Word) :
    decode (headWord 0x00#8 (tokenPacket pid dev ep crc) :: rest) = .ok (i, rest) := by
  change decodeFirst _ rest = _
  rw [decodeFirst_token _ _ (opcodeOf_headWord _ _), h]
  rfl

/-! Decoding undoes encoding. -/

/-- The words of any instruction decode to it, whatever words follow (R101, R104). -/
theorem decode_encode_append (i : Instr) (rest : List Word) : decode (encode i ++ rest) = .ok (i, rest) := by
  cases i with
  | submit eid h =>
    change decodeFirst (headWord 0x01#8 0#24) (eid.toWord :: h :: rest) = _
    simp [decodeFirst_submit _ _ (opcodeOf_headWord _ _)]
  | cancel h =>
    change decodeFirst (headWord 0x02#8 0#24) (h :: rest) = _
    simp [decodeFirst_cancel _ _ (opcodeOf_headWord _ _)]
  | epTeardown eid =>
    change decodeFirst (headWord 0x03#8 0#24) (eid.toWord :: rest) = _
    simp [decodeFirst_epTeardown _ _ (opcodeOf_headWord _ _)]
  | epClearHalt eid =>
    change decodeFirst (headWord 0x04#8 0#24) (eid.toWord :: rest) = _
    simp [decodeFirst_epClearHalt _ _ (opcodeOf_headWord _ _)]
  | getFrame =>
    change decodeFirst (headWord 0x05#8 0#24) rest = _
    simp [decodeFirst_getFrame _ _ (opcodeOf_headWord _ _)]
  | evFrameStart =>
    change decodeFirst (headWord 0x10#8 0#24) rest = _
    simp [decodeFirst_evFrameStart _ _ (opcodeOf_headWord _ _)]
  | evTxConfirm st pkt =>
    obtain ⟨hst, hpkt⟩ := confirmWord_fields 0x11#8 st pkt
    change decodeFirst (headWord 0x11#8 (st ++ pkt)) rest = _
    rw [decodeFirst_evTxConfirm _ _ (opcodeOf_headWord _ _), hst, hpkt]
  | evRxConfirm st pkt len =>
    obtain ⟨hst, hpkt⟩ := confirmWord_fields 0x12#8 st pkt
    change decodeFirst (headWord 0x12#8 (st ++ pkt)) (len :: rest) = _
    rw [decodeFirst_evRxConfirm _ _ (opcodeOf_headWord _ _), hst, hpkt]
  | evConnect speed =>
    obtain ⟨hzero, hbit⟩ := connectWord_fields 0x13#8 speed.bit
    change decodeFirst (headWord 0x13#8 (0#23 ++ BitVec.ofBool speed.bit)) rest = _
    rw [decodeFirst_evConnect _ _ (opcodeOf_headWord _ _), hzero, hbit, Speed.ofBit_bit]
    rfl
  | evDisconnect =>
    change decodeFirst (headWord 0x14#8 0#24) rest = _
    simp [decodeFirst_evDisconnect _ _ (opcodeOf_headWord _ _)]
  | drain =>
    change decodeFirst (headWord 0x20#8 0#24) rest = _
    simp [decodeFirst_drain _ _ (opcodeOf_headWord _ _)]
  | tokenOut dev ep crc => exact decode_tokenWord (decodeToken_tokenPacket pidOut dev ep crc) rest
  | tokenIn dev ep crc => exact decode_tokenWord (decodeToken_tokenPacket pidIn dev ep crc) rest
  | tokenSetup dev ep crc => exact decode_tokenWord (decodeToken_tokenPacket pidSetup dev ep crc) rest

/-- Words that an instruction encodes to decode to it. -/
theorem decode_of_encode {ws : List Word} {i : Instr} (h : encode i = ws) : decode ws = .ok (i, []) := by
  have hdecode := decode_encode_append i []
  rwa [List.append_nil, h] at hdecode

/-! Encoding undoes decoding. -/

/-- A one-word row without operands is read from its own encoding. -/
theorem encode_append_of_plainRow {op : BitVec 8} {j : Instr} (hj : encode j = [headWord op 0#24]) {w0 : Word}
    {ws rest : List Word} {i : Instr} (hop : opcodeOf w0 = op)
    (h : (if belowOpcode w0 ≠ 0#24 then .error .reservedBits else .ok (j, ws) :
      Except DecodeError (Instr × List Word)) = .ok (i, rest)) : w0 :: ws = encode i ++ rest := by
  obtain ⟨hlow, h⟩ := accepted_of_reserved h
  cases h
  rw [hj, eq_headWord_zero hop hlow]
  rfl

/-- What the decoder accepts is the encoding of what it answers, row by row (R104). -/
theorem encode_append_of_decodeFirst {w0 : Word} {ws rest : List Word} {i : Instr}
    (h : decodeFirst w0 ws = .ok (i, rest)) : w0 :: ws = encode i ++ rest := by
  have hknown : opcodeOf w0 ∈ knownOpcodes := mem_knownOpcodes_of_decode h
  simp only [knownOpcodes, List.mem_cons, List.not_mem_nil, or_false] at hknown
  obtain hop | hop | hop | hop | hop | hop | hop | hop | hop | hop | hop | hop := hknown
  · rw [decodeFirst_token w0 ws hop] at h
    cases htoken : decodeToken w0 with
    | error err =>
      rw [htoken] at h
      cases h
    | ok j =>
      rw [htoken] at h
      cases h
      rw [encode_of_decodeToken hop htoken]
      rfl
  · rw [decodeFirst_submit w0 ws hop] at h
    obtain ⟨hlow, h⟩ := accepted_of_reserved h
    split at h
    · cases h
      rw [encode, eq_headWord_zero hop hlow, EndpointId.toWord_ofWord]
      rfl
    · cases h
  · rw [decodeFirst_cancel w0 ws hop] at h
    obtain ⟨hlow, h⟩ := accepted_of_reserved h
    split at h
    · cases h
      rw [encode, eq_headWord_zero hop hlow]
      rfl
    · cases h
  · rw [decodeFirst_epTeardown w0 ws hop] at h
    obtain ⟨hlow, h⟩ := accepted_of_reserved h
    split at h
    · cases h
      rw [encode, eq_headWord_zero hop hlow, EndpointId.toWord_ofWord]
      rfl
    · cases h
  · rw [decodeFirst_epClearHalt w0 ws hop] at h
    obtain ⟨hlow, h⟩ := accepted_of_reserved h
    split at h
    · cases h
      rw [encode, eq_headWord_zero hop hlow, EndpointId.toWord_ofWord]
      rfl
    · cases h
  · rw [decodeFirst_getFrame w0 ws hop] at h
    exact encode_append_of_plainRow rfl hop h
  · rw [decodeFirst_evFrameStart w0 ws hop] at h
    exact encode_append_of_plainRow rfl hop h
  · rw [decodeFirst_evTxConfirm w0 ws hop] at h
    cases h
    rw [encode, ← eq_confirmWord hop]
    rfl
  · rw [decodeFirst_evRxConfirm w0 ws hop] at h
    split at h
    · cases h
      rw [encode, ← eq_confirmWord hop]
      rfl
    · cases h
  · rw [decodeFirst_evConnect w0 ws hop] at h
    obtain ⟨hzero, h⟩ := accepted_of_reserved h
    cases h
    rw [encode, Speed.bit_ofBit, ← eq_connectWord hop (not_not.1 hzero)]
    rfl
  · rw [decodeFirst_evDisconnect w0 ws hop] at h
    exact encode_append_of_plainRow rfl hop h
  · rw [decodeFirst_drain w0 ws hop] at h
    exact encode_append_of_plainRow rfl hop h

end Sys2Proof

namespace Sys2Proof.Proofs

open Sys2Proof.Machine

/-- Settles O1, row by row: the fields that the decoder reads are the ones the encoder wrote. -/
theorem decodeUndoesEncode : Obligations.DecodeUndoesEncode := decode_encode_append

/-- Settles O2: a row answers with the fields of its words, and the bits that are in no field are checked. -/
theorem encodeUndoesDecode : Obligations.EncodeUndoesDecode := by
  intro ws i rest h
  cases ws with
  | nil => cases h
  | cons w0 ws => exact encode_append_of_decodeFirst h

/-- Settles O3: the words written out are the encodings of the operations they stand for. -/
theorem specWordsDecode : Obligations.SpecWordsDecode := by
  refine ⟨?_, ?_, ?_, ?_, ?_, ?_, ?_, ?_, ?_⟩
  all_goals exact decode_of_encode (by decide)

/-- Settles O4: the eleven shifts of R122 are run for each address and endpoint, and the packet laid out by R120. -/
theorem workedTokens : Obligations.WorkedTokens := by
  refine ⟨?_, ?_, ?_, ?_, ?_⟩
  all_goals
    simp [tokenBytes, tokenPacket, crc5, crc5Step, List.range_succ, Dir.pid, pidOut, pidIn, pidSetup]

/-- Settles O5: the packet is the encoding of its own kind's row, with the CRC of R122. -/
theorem tokenPacketsReadBack : Obligations.TokenPacketsReadBack := by
  intro dir dev ep
  cases dir with
  | out => exact decode_of_encode (i := .tokenOut dev ep (crc5 dev ep)) rfl
  | inn => exact decode_of_encode (i := .tokenIn dev ep (crc5 dev ep)) rfl
  | setup => exact decode_of_encode (i := .tokenSetup dev ep (crc5 dev ep)) rfl

end Sys2Proof.Proofs
end

section
/-! SUPPORT. Illegal words and illegal operands (R125, R126, R127): what a port makes of a word 0 that is none of its
operations, and the operations that refuse their operands. -/

namespace Sys2Proof

/-! The opcode bytes of each port (R102, R104). -/

/-- A byte of the command port that is in no row of R104, nor that of a token packet, is unknown to the decoder. -/
theorem unknown_of_command : ∀ op : BitVec 8, opcodePort op = some .command → op ≠ 0x00#8 →
    ¬ (1 ≤ op.toNat ∧ op.toNat ≤ 5) → op ∉ knownOpcodes := by decide

/-- A byte of the event port that is in no row of R104 is unknown to the decoder. -/
theorem unknown_of_event : ∀ op : BitVec 8, opcodePort op = some .event →
    ¬ (0x10 ≤ op.toNat ∧ op.toNat ≤ 0x14) → op ∉ knownOpcodes := by decide

/-- The host commands, byte by byte (R104). -/
theorem command_opcode_cases : ∀ op : BitVec 8, 1 ≤ op.toNat ∧ op.toNat ≤ 5 →
    op = 0x01#8 ∨ op = 0x02#8 ∨ op = 0x03#8 ∨ op = 0x04#8 ∨ op = 0x05#8 := by decide

/-! What the decoder rejects. -/

/-- Every host command checks bits 23:0 of its word 0 (R125). -/
theorem decode_command_reserved {w0 : Word} (hop : 1 ≤ (opcodeOf w0).toNat ∧ (opcodeOf w0).toNat ≤ 5)
    (hlow : belowOpcode w0 ≠ 0#24) (ws : List Word) : decode (w0 :: ws) = .error .reservedBits := by
  obtain h | h | h | h | h := command_opcode_cases _ hop
  · exact (decodeFirst_submit w0 ws h).trans (if_pos hlow)
  · exact (decodeFirst_cancel w0 ws h).trans (if_pos hlow)
  · exact (decodeFirst_epTeardown w0 ws h).trans (if_pos hlow)
  · exact (decodeFirst_epClearHalt w0 ws h).trans (if_pos hlow)
  · exact (decodeFirst_getFrame w0 ws h).trans (if_pos hlow)

theorem decode_unknown {w0 : Word} (h : opcodeOf w0 ∉ knownOpcodes) (ws : List Word) :
    decode (w0 :: ws) = .error .unknownOpcode := decodeFirst_unknown w0 ws h

/-- The reserved bits of the events that have some (R126). -/
def EventReservedBits (w0 : Word) : Prop :=
  ((opcodeOf w0 = 0x10#8 ∨ opcodeOf w0 = 0x14#8) ∧ belowOpcode w0 ≠ 0#24) ∨
  (opcodeOf w0 = 0x13#8 ∧ w0.extractLsb' 1 23 ≠ 0#23)

theorem decode_event_reserved {w0 : Word} (h : EventReservedBits w0) (ws : List Word) :
    decode (w0 :: ws) = .error .reservedBits := by
  obtain ⟨hop | hop, hbits⟩ | ⟨hop, hbits⟩ := h
  · exact (decodeFirst_evFrameStart w0 ws hop).trans (if_pos hbits)
  · exact (decodeFirst_evDisconnect w0 ws hop).trans (if_pos hbits)
  · exact (decodeFirst_evConnect w0 ws hop).trans (if_pos hbits)

theorem opcodePort_of_eventReservedBits {w0 : Word} (h : EventReservedBits w0) :
    opcodePort (opcodeOf w0) = some .event := by
  obtain ⟨hop | hop, -⟩ | ⟨hop, -⟩ := h
  all_goals
    rw [hop]
    decide

/-- A handle that is no multiple of 4 fails its check (R77). -/
theorem handleAligned_eq_false {h : Word} (hh : h.toNat % 4 ≠ 0) : handleAligned h = false :=
  Bool.eq_false_iff.2 (hh ∘ (Machine.handleAligned_iff h).1)

/-- The reserved bits of an `endpoint_id`, as its operand check sees them (R111). -/
theorem reservedZero_eq_false {eid : EndpointId} (h : eid.rsv15 = true ∨ eid.rsvHi ≠ 0#5) :
    eid.reservedZero = false := by
  obtain h | h := h
  all_goals simp [EndpointId.reservedZero, h]

end Sys2Proof

namespace Sys2Proof.Machine

/-! The command port. -/

/-- What is no host command is illegal at the head of the command port, but for the words of opcode byte 0 (R125). -/
theorem portHead_command_illegal {w0 : Word} (h0 : opcodeOf w0 ≠ 0x00#8)
    (h : ¬ (1 ≤ (opcodeOf w0).toNat ∧ (opcodeOf w0).toNat ≤ 5) ∨ belowOpcode w0 ≠ 0#24) (ws : List Word) :
    portHead .command (w0 :: ws) = .illegal (opcodeOf w0) ws := by
  by_cases hp : opcodePort (opcodeOf w0) = some .command
  · by_cases hop : 1 ≤ (opcodeOf w0).toNat ∧ (opcodeOf w0).toNat ≤ 5
    · have hlow : belowOpcode w0 ≠ 0#24 := h.resolve_left (not_not.2 hop)
      exact portHead_rejected .command w0 ws _ hp (decode_command_reserved hop hlow ws) (by decide)
    · have hunknown := unknown_of_command _ hp h0 hop
      exact portHead_rejected .command w0 ws _ hp (decode_unknown hunknown ws) (by decide)
  · exact portHead_wrongPort .command w0 ws hp

/-- A word of opcode byte 0 at the head of the command port is taken alone and answered `ILLEGAL`, whether or not it
reads as a token packet (R125, R127). -/
theorem step_command_zero {s : State} {w0 : Word} {ws : List Word} {later : List Source} (ha : s.attached = true)
    (hs : s.env.sched = .command :: later) (hw : s.cmdPort = w0 :: ws) (h0 : opcodeOf w0 = 0x00#8) :
    step s = .next (illegalCommand (opcodeOf w0) ((s.setEnv { s.env with sched := later }).setCmdPort ws)) := by
  have hp : opcodePort (opcodeOf w0) = some .command := by
    rw [h0]
    decide
  have hdecode : decode (w0 :: ws) = (decodeToken w0).map (fun i => (i, ws)) := decodeFirst_token w0 ws h0
  obtain herror | ⟨-, hrow⟩ | ⟨-, hrow⟩ | ⟨-, hrow⟩ := decodeToken_cases w0
  · rw [herror] at hdecode
    have hhead := portHead_rejected .command w0 ws _ hp hdecode (by decide)
    exact step_command_illegal s _ ws later ha hs (hw ▸ hhead)
  all_goals
    rw [hrow] at hdecode
    have hhead := portHead_op .command w0 ws ws _ hp hdecode
    rw [step_command_op s _ ws later ha hs (hw ▸ hhead), h0]
    rfl

/-- An illegal word on the command port is taken alone and answered `ILLEGAL` with the byte received (R125). -/
theorem step_illegalCommand {s : State} {w0 : Word} {ws : List Word} {later : List Source} (ha : s.attached = true)
    (hs : s.env.sched = .command :: later) (hw : s.cmdPort = w0 :: ws)
    (h : ¬ (1 ≤ (opcodeOf w0).toNat ∧ (opcodeOf w0).toNat ≤ 5) ∨ belowOpcode w0 ≠ 0#24) :
    step s = .next (illegalCommand (opcodeOf w0) ((s.setEnv { s.env with sched := later }).setCmdPort ws)) := by
  by_cases h0 : opcodeOf w0 = 0x00#8
  · exact step_command_zero ha hs hw h0
  · exact step_command_illegal s _ ws later ha hs (hw ▸ portHead_command_illegal h0 h ws)

/-! Refused operands. -/

/-- A host command whose body only answers leaves all else as it was (R112, R285). -/
theorem runPass_of_respond {s : State} {body : State → State} {op : BitVec 8} {code : Code} {value : BitVec 16}
    (h : body (s.setLock .heldH) = respond op code value (s.setLock .heldH)) :
    runPass .heldH body s = s.answered op code.num value :=
  (congrArg leavePass h).trans (runPass_respond s op code value)

/-- SUBMIT's checks of its own operands (R171). -/
theorem submitValid_eq_false {eid : EndpointId} {h : Word}
    (hbad : eid.rsv15 = true ∨ eid.rsvHi ≠ 0#5 ∨ eid.maxPacket = 0#11 ∨ h.toNat % 4 ≠ 0) (s : State) :
    submitValid s eid h = false := by
  obtain hbad | hbad | hbad | hbad := hbad
  · simp [submitValid, reservedZero_eq_false (.inl hbad)]
  · simp [submitValid, reservedZero_eq_false (.inr hbad)]
  · simp [submitValid, hbad]
  · simp [submitValid, handleAligned_eq_false hbad]

theorem submitBody_of_invalid {eid : EndpointId} {h : Word} {s : State} (hv : submitValid s eid h = false) :
    submitBody eid h s = respond 0x01#8 .illegal 0#16 s := by
  have hverdict : submitVerdict s eid h = .refuse .illegal 0#16 := if_pos hv
  simp only [submitBody, hverdict]

theorem cancelBody_of_misaligned {h : Word} (hh : handleAligned h = false) (s : State) :
    cancelBody h s = respond 0x02#8 .illegal 0#16 s := if_pos hh

theorem teardownBody_of_reserved {eid : EndpointId} (hr : eid.reservedZero = false) (s : State) :
    teardownBody eid s = respond 0x03#8 .illegal 0#16 s := if_pos hr

theorem clearHaltBody_of_reserved {eid : EndpointId} (hr : eid.reservedZero = false) (s : State) :
    clearHaltBody eid s = respond 0x04#8 .illegal 0#16 s := if_pos hr

/-! The event port. -/

/-- What is no event is illegal at the head of the event port (R126). -/
theorem portHead_event_illegal {w0 : Word}
    (h : ¬ (0x10 ≤ (opcodeOf w0).toNat ∧ (opcodeOf w0).toNat ≤ 0x14) ∨ EventReservedBits w0) (ws : List Word) :
    portHead .event (w0 :: ws) = .illegal (opcodeOf w0) ws := by
  obtain h | h := h
  · by_cases hp : opcodePort (opcodeOf w0) = some .event
    · exact portHead_rejected .event w0 ws _ hp (decode_unknown (unknown_of_event _ hp h) ws) (by decide)
    · exact portHead_wrongPort .event w0 ws hp
  · exact portHead_rejected .event w0 ws _ (opcodePort_of_eventReservedBits h) (decode_event_reserved h ws)
      (by decide)

/-- A status above 8 is none that an event may report (R110, R126). -/
theorem ofEvent_eq_none {st : BitVec 8} (h : 8 < st.toNat) : Ts.ofEvent st = none := by
  unfold Ts.ofEvent
  split
  case h_10 => rfl
  all_goals omega

/-- EV_TX_CONFIRM with a status above 8 is taken as one word, and is an illegal event (R126). -/
theorem step_txConfirm_illegalStatus {s : State} {w0 : Word} {ws : List Word} {later : List Source}
    (ha : s.attached = true) (hs : s.env.sched = .event :: later) (hw : s.evtPort = w0 :: ws)
    (hop : opcodeOf w0 = 0x11#8) (hst : 8 < (w0.extractLsb' 16 8).toNat) :
    step s = .next (illegalEvent ((s.setEnv { s.env with sched := later }).setEvtPort ws)) := by
  have hp : opcodePort (opcodeOf w0) = some .event := by
    rw [hop]
    decide
  have hhead := portHead_op .event w0 ws ws _ hp (decodeFirst_evTxConfirm w0 ws hop)
  rw [step_event_op s _ ws later ha hs (hw ▸ hhead)]
  exact exec_evTxConfirm_of_illegal (ofEvent_eq_none hst) _ _

/-- EV_RX_CONFIRM with a status above 8 is taken as two words, and is an illegal event (R126). -/
theorem step_rxConfirm_illegalStatus {s : State} {w0 w1 : Word} {ws : List Word} {later : List Source}
    (ha : s.attached = true) (hs : s.env.sched = .event :: later) (hw : s.evtPort = w0 :: w1 :: ws)
    (hop : opcodeOf w0 = 0x12#8) (hst : 8 < (w0.extractLsb' 16 8).toNat) :
    step s = .next (illegalEvent ((s.setEnv { s.env with sched := later }).setEvtPort ws)) := by
  have hp : opcodePort (opcodeOf w0) = some .event := by
    rw [hop]
    decide
  have hhead := portHead_op .event w0 (w1 :: ws) ws _ hp (decodeFirst_evRxConfirm w0 (w1 :: ws) hop)
  rw [step_event_op s _ ws later ha hs (hw ▸ hhead)]
  exact exec_evRxConfirm_of_illegal (ofEvent_eq_none hst) _ _ _

end Sys2Proof.Machine

namespace Sys2Proof.Proofs

open Sys2Proof.Machine

/-- Settles O6, source by source: the chosen port's head is the decoded operation. -/
theorem stepRunsDecodedOperation : Obligations.StepRunsDecodedOperation := by
  intro s i w0 ws rest later ha hdecode
  refine ⟨fun hp hs hw => ?command, fun hp hs hw => ?event, fun hi hs => ?deferred⟩
  case command => exact step_command_op s i rest later ha hs (hw ▸ portHead_op .command w0 ws rest i hp hdecode)
  case event => exact step_event_op s i rest later ha hs (hw ▸ portHead_op .event w0 ws rest i hp hdecode)
  case deferred => exact step_deferred_op s i later ha hs hi

/-- Settles O8: illegal words by their opcode byte, illegal operands by the operation that checks them. -/
theorem illegalCommandsAnswerIllegal : Obligations.IllegalCommandsAnswerIllegal := by
  refine ⟨fun s w0 ws later ha hs hw h => ?word, fun s eid h => ⟨fun hbad => ?submit, fun hh => ?cancel,
    fun hr => ⟨?teardown, ?clearHalt⟩⟩⟩
  case word =>
    rw [step_illegalCommand ha hs hw h, illegalCommand_eq]
    rfl
  case submit =>
    exact congrArg _ (runPass_of_respond (submitBody_of_invalid (submitValid_eq_false hbad _)))
  case cancel => exact congrArg _ (runPass_of_respond (cancelBody_of_misaligned (handleAligned_eq_false hh) _))
  case teardown => exact congrArg _ (runPass_of_respond (teardownBody_of_reserved (reservedZero_eq_false hr) _))
  case clearHalt => exact congrArg _ (runPass_of_respond (clearHaltBody_of_reserved (reservedZero_eq_false hr) _))

/-- Settles O9, cause by cause: a word that is no event is taken alone, and a confirm with a status above 8 as the
words it has. -/
theorem illegalEventsOnlySetDiag : Obligations.IllegalEventsOnlySetDiag := by
  intro s w0 ws later ha hs
  constructor
  · intro h hw
    have hstep : step s = .next (illegalEvent ((s.setEnv { s.env with sched := later }).setEvtPort ws)) := by
      obtain hop | hbits | hbits | ⟨hop, hst⟩ := h
      · exact step_event_illegal s _ ws later ha hs (hw ▸ portHead_event_illegal (.inl hop) ws)
      · exact step_event_illegal s _ ws later ha hs (hw ▸ portHead_event_illegal (.inr (.inl hbits)) ws)
      · exact step_event_illegal s _ ws later ha hs (hw ▸ portHead_event_illegal (.inr (.inr hbits)) ws)
      · exact step_txConfirm_illegalStatus ha hs hw hop hst
    rw [hstep, illegalEvent_eq]
    rfl
  · intro ⟨hop, hst⟩ w1 hw
    rw [step_rxConfirm_illegalStatus ha hs hw hop hst, illegalEvent_eq]
    rfl

/-- Settles O48: the meaning of each token row is that of an illegal command. -/
theorem tokenRowsAnswerIllegal : Obligations.TokenRowsAnswerIllegal := by
  intro s dev ep crc
  have hanswer : (.next (illegalCommand 0x00#8 s) : Host.Outcome State Fault Refusal) =
      .next (s.answered 0x00#8 0xFF#8 0#16) := congrArg _ (illegalCommand_eq 0x00#8 s)
  exact ⟨hanswer, hanswer, hanswer⟩

end Sys2Proof.Proofs
end

section
/-! SUPPORT. Failed transactions (R210, R214, R220 to R225): what a failing status does to the TD once its
transaction has ended, code by code (R118). -/

namespace Sys2Proof.Machine

/-! The codes of failing statuses. -/

/-- `code` reports the failing status `st`, which is not a NAK, and `halt` is what `fatal_halts` says of it (R118,
R225). -/
structure FatalCode (c : Config) (code : BitVec 8) (st : Ts) (halt : Bool) : Prop where
  reported : Ts.ofEvent code = some st
  notOk : st ≠ .ok
  notNak : st ≠ .nak
  halts : fatalHalts c st = halt

/-- `code` reports a status of the error class, which the retry limit bounds (R220, R224). -/
structure ErrorCode (c : Config) (code : BitVec 8) (st : Ts) (halt : Bool) : Prop extends FatalCode c code st halt where
  notStall : st ≠ .stall
  notTimeout : st ≠ .timeout

theorem fatalCode_stall (c : Config) : FatalCode c 2#8 .stall true := ⟨rfl, by decide, by decide, rfl⟩

theorem fatalCode_timeout (c : Config) : FatalCode c 8#8 .timeout true := ⟨rfl, by decide, by decide, rfl⟩

theorem errorCode_crc (c : Config) : ErrorCode c 3#8 .crc c.exhaustHaltsEd :=
  ⟨⟨rfl, by decide, by decide, rfl⟩, by decide, by decide⟩

theorem errorCode_bitstuff (c : Config) : ErrorCode c 4#8 .bitstuff c.exhaustHaltsEd :=
  ⟨⟨rfl, by decide, by decide, rfl⟩, by decide, by decide⟩

theorem errorCode_overrun (c : Config) : ErrorCode c 5#8 .overrun c.exhaustHaltsEd :=
  ⟨⟨rfl, by decide, by decide, rfl⟩, by decide, by decide⟩

theorem errorCode_underrun (c : Config) : ErrorCode c 6#8 .underrun true :=
  ⟨⟨rfl, by decide, by decide, rfl⟩, by decide, by decide⟩

theorem errorCode_piderr (c : Config) : ErrorCode c 7#8 .piderr c.exhaustHaltsEd :=
  ⟨⟨rfl, by decide, by decide, rfl⟩, by decide, by decide⟩

/-! What a failure does to its TD (R220 to R224). -/

/-- A NAK counts, up to 65535, and clears the error count (R28, R221). -/
theorem nak_eq (d : Nat) (s : State) : nak d s = { s with tds := s.tds.modify d (fun t => { t with
    errorCount := 0#8
    nakCount := if t.nakCount = 65535#16 then 65535#16 else t.nakCount + 1 }) } := by
  have hsat : ∀ n : BitVec 16, satSucc16 n = if n = 65535#16 then 65535#16 else n + 1 := by
    intro n
    unfold satSucc16
    split
    · rename_i hn
      exact hn
    · rfl
  simp only [nak, hsat]
  rfl

/-- One more error of the error class on a TD (R224). -/
def withErrorCounted (d : Nat) (s : State) : State := s.modTd d (fun t => { t with errorCount := t.errorCount + 1 })

/-- Below the retry limit an error is only counted (R224). -/
theorem countError_below {d : Nat} {st : Ts} {s : State}
    (h : ((withErrorCounted d s).td d).errorCount.toNat < s.cfg.retryLimit) :
    countError d st s = withErrorCounted d s := if_neg (Nat.not_le.2 h)

/-- The error that reaches the retry limit ends the TD (R224, R225). -/
theorem countError_reached {d : Nat} {st : Ts} {s : State}
    (h : s.cfg.retryLimit ≤ ((withErrorCounted d s).td d).errorCount.toNat) :
    countError d st s = terminate d st (fatalHalts s.cfg st) (withErrorCounted d s) := if_pos h

/-- A failure of the error class goes by the error count (R220). -/
theorem failed_error {c : Config} {code : BitVec 8} {st : Ts} {halt : Bool} (hc : ErrorCode c code st halt) (d : Nat)
    (s : State) : failed d st s = countError d st s := by
  rw [failed, if_neg hc.notNak, if_neg hc.notStall, if_neg hc.notTimeout]

/-! The region is read by no failure. -/

theorem ended_setLock (l : Lock) (s : State) (x p d : Nat) :
    (s.setLock l).ended x p d = (s.ended x p d).setLock l := rfl

theorem nak_setLock (d : Nat) (l : Lock) (s : State) : nak d (s.setLock l) = (nak d s).setLock l := rfl

theorem countError_setLock (d : Nat) (st : Ts) (l : Lock) (s : State) :
    countError d st (s.setLock l) = (countError d st s).setLock l := by
  rcases Nat.lt_or_ge ((withErrorCounted d s).td d).errorCount.toNat s.cfg.retryLimit with h | h
  · rw [countError_below h]
    exact countError_below h
  · rw [countError_reached h, ← terminate_setLock]
    exact countError_reached h

theorem failed_setLock (d : Nat) (st : Ts) (l : Lock) (s : State) :
    failed d st (s.setLock l) = (failed d st s).setLock l := by
  unfold failed
  split
  · exact nak_setLock d l s
  · split
    · exact terminate_setLock d .stall true l s
    · split
      · exact terminate_setLock d .timeout true l s
      · exact countError_setLock d st l s

/-- A context-(a) pass whose body is `t` under the region ends in `reap()` of `t` with the region free (R161, R301). -/
theorem reap_pass_end (t : State) : (reap (t.setLock .heldA)).setLock .free = { reap t with lock := .free } := by
  rw [reap_setLock, setLock_setLock]
  rfl

/-! A failed phase, after the end of its transaction (R215). -/

/-- A NAK of the token phase counts as a NAK (R210, R221). -/
theorem tokenConfirmed_nak {s : State} {x p d : Nat} (hl : s.liveTxn x p d) :
    tokenConfirmed x d .nak (setPktStatus p .nak s) = nak d (s.ended x p d) := by
  unfold tokenConfirmed
  rw [if_neg (by decide), if_pos rfl, endTxn_ended _ x p d (liveTxn_pktStatus s x p d .nak hl), ended_pktStatus]

/-- Any other failure of the token phase ends the TD at once (R210). -/
theorem tokenConfirmed_fatal {s : State} {x p d : Nat} {st : Ts} (hl : s.liveTxn x p d) (hok : st ≠ .ok)
    (hnak : st ≠ .nak) :
    tokenConfirmed x d st (setPktStatus p st s) = terminate d st (fatalHalts s.cfg st) (s.ended x p d) := by
  unfold tokenConfirmed
  rw [if_neg hok, if_neg hnak, endTxn_ended _ x p d (liveTxn_pktStatus s x p d st hl), ended_pktStatus]
  rfl

/-- A failed data phase counts nothing; it ends the transaction and goes by its status (R214). -/
theorem dataConfirmed_failed {s : State} {x p d : Nat} {st : Ts} (hl : s.liveTxn x p d) (hok : st ≠ .ok) (n : Nat) :
    dataConfirmed x d st n (setPktStatus p st s) = failed d st (s.ended x p d) := by
  unfold dataConfirmed
  rw [if_pos hok, endTxn_ended _ x p d (liveTxn_pktStatus s x p d st hl), ended_pktStatus]

/-! The confirm events of a failed phase. -/

/-- EV_TX_CONFIRM of a failed token phase with a NAK (R210). -/
theorem exec_tokenPhase_nak {s : State} {p : BitVec 16} {x d : Nat} (hl : s.liveTxn x p.toNat d)
    (hphase : (s.txn x).phase = .tokenWait) :
    exec (.evTxConfirm 1#8 p) s = .next { reap (nak d (s.ended x p.toNat d)) with lock := .free } := by
  rw [tx_exec s 1#8 .nak p x d rfl hl, if_pos hphase, tokenConfirmed_nak (liveTxn_lock s .heldA x p.toNat d hl),
    ended_setLock, nak_setLock, reap_pass_end]

/-- EV_TX_CONFIRM of a token phase that failed for good (R210, R225). -/
theorem exec_tokenPhase_fatal {s : State} {p : BitVec 16} {x d : Nat} {code : BitVec 8} {st : Ts} {halt : Bool}
    (hl : s.liveTxn x p.toNat d) (hphase : (s.txn x).phase = .tokenWait) (hc : FatalCode s.cfg code st halt) :
    exec (.evTxConfirm code p) s = .next { reap (terminate d st halt (s.ended x p.toNat d)) with lock := .free } := by
  have hhalts : fatalHalts (s.setLock .heldA).cfg st = halt := hc.halts
  rw [tx_exec s code st p x d hc.reported hl, if_pos hphase,
    tokenConfirmed_fatal (liveTxn_lock s .heldA x p.toNat d hl) hc.notOk hc.notNak, hhalts, ended_setLock,
    terminate_setLock, reap_pass_end]

/-- The event that confirms the data phase of TD `d`, by its direction (R208, R212). -/
def dataConfirm (s : State) (d : Nat) (p : BitVec 16) (n : Word) (code : BitVec 8) : Instr :=
  if (s.td d).dir = .inn then .evRxConfirm code p n else .evTxConfirm code p

/-- The confirm of a failed data phase, in either direction, that leaves the TD as `t` has it (R214, R220). -/
theorem exec_dataPhase_failed {s t : State} {p : BitVec 16} {n : Word} {x d : Nat} {code : BitVec 8} {st : Ts}
    (hl : s.liveTxn x p.toNat d) (hphase : (s.txn x).phase = .dataWait) (hcode : Ts.ofEvent code = some st)
    (hok : st ≠ .ok) (ht : failed d st (s.ended x p.toNat d) = t) :
    exec (dataConfirm s d p n code) s = .next { reap t with lock := .free } := by
  have hlock := liveTxn_lock s .heldA x p.toNat d hl
  unfold dataConfirm
  split
  case isTrue hdir =>
    have hstatus : rxStatus st n.toNat (s.txn x).len.toNat = st := if_neg fun h => hok h.1
    rw [rx_exec s code st p n x d hcode hl.1 hphase hdir, hstatus, if_neg fun h => hok h.1,
      dataConfirmed_failed hlock hok, ended_setLock, failed_setLock, reap_pass_end, ht]
  case isFalse hdir =>
    rw [tx_exec s code st p x d hcode hl, if_neg (by rw [hphase]; decide), if_pos ⟨hphase, hdir⟩,
      dataConfirmed_failed hlock hok, ended_setLock, failed_setLock, reap_pass_end, ht]

/-! Errors and the retry limit (R224). -/

/-- After the end of its transaction, one more error adds one to the TD's error count: the limit fits in the count's
8 bits (R28, R224). -/
theorem errorCount_after_error {s : State} {x p d : Nat} (hvalid : s.cfg.valid) (hl : s.liveTxn x p d)
    (hle : (s.td d).errorCount.toNat + 1 ≤ s.cfg.retryLimit) :
    ((withErrorCounted d (s.ended x p d)).td d).errorCount.toNat = (s.td d).errorCount.toNat + 1 := by
  obtain ⟨-, -, -, -, hd, -⟩ := hl
  obtain ⟨-, -, -, -, -, -, -, -, -, -, -, -, -, -, -, -, hlimit, -⟩ := hvalid
  have hd' : d < (s.ended x p d).tds.length := by simpa [State.ended] using hd
  rw [withErrorCounted, modTd_td_self d _ _ hd', ended_td_self s x p d hd]
  change ((s.td d).errorCount + 1).toNat = _
  rw [BitVec.toNat_add]
  exact Nat.mod_eq_of_lt (Nat.lt_succ_of_le (hle.trans hlimit))

/-- An error below the retry limit is counted, and the TD goes on (R224). -/
theorem failed_below {s : State} {x p d : Nat} {code : BitVec 8} {st : Ts} {halt : Bool}
    (hc : ErrorCode s.cfg code st halt) (hvalid : s.cfg.valid) (hl : s.liveTxn x p d)
    (hlt : (s.td d).errorCount.toNat + 1 < s.cfg.retryLimit) :
    failed d st (s.ended x p d) = withErrorCounted d (s.ended x p d) := by
  rw [failed_error hc]
  exact countError_below ((errorCount_after_error hvalid hl hlt.le).trans_lt hlt)

/-- The error that reaches the retry limit is counted too, and ends the TD (R224, R225). -/
theorem failed_reached {s : State} {x p d : Nat} {code : BitVec 8} {st : Ts} {halt : Bool}
    (hc : ErrorCode s.cfg code st halt) (hvalid : s.cfg.valid) (hl : s.liveTxn x p d)
    (heq : (s.td d).errorCount.toNat + 1 = s.cfg.retryLimit) :
    failed d st (s.ended x p d) = terminate d st halt (withErrorCounted d (s.ended x p d)) := by
  rw [failed_error hc, ← hc.halts]
  exact countError_reached ((errorCount_after_error hvalid hl heq.le).trans heq).ge

end Sys2Proof.Machine

namespace Sys2Proof.Proofs

open Sys2Proof.Machine

/-- Settles O40: a NAK by itself, and every other code by what `fatal_halts` says of its status. -/
theorem failedTokenPhaseFailsTheTd : Obligations.FailedTokenPhaseFailsTheTd := by
  intro s p x d hl hphase exhausted table
  constructor
  · rw [exec_tokenPhase_nak hl hphase, nak_eq]
  · intro code st halt hmem
    refine exec_tokenPhase_fatal hl hphase ?_
    simp only [table, List.mem_cons, List.not_mem_nil, or_false, Prod.mk.injEq] at hmem
    obtain ⟨rfl, rfl, rfl⟩ | ⟨rfl, rfl, rfl⟩ | ⟨rfl, rfl, rfl⟩ | ⟨rfl, rfl, rfl⟩ | ⟨rfl, rfl, rfl⟩ |
      ⟨rfl, rfl, rfl⟩ | ⟨rfl, rfl, rfl⟩ := hmem
    · exact fatalCode_stall s.cfg
    · exact (errorCode_crc s.cfg).toFatalCode
    · exact (errorCode_bitstuff s.cfg).toFatalCode
    · exact (errorCode_overrun s.cfg).toFatalCode
    · exact (errorCode_underrun s.cfg).toFatalCode
    · exact (errorCode_piderr s.cfg).toFatalCode
    · exact fatalCode_timeout s.cfg

/-- Settles O44: a NAK, a stall and a timeout by themselves, and an error by where its count stands to the limit. -/
theorem failedDataPhaseRetriesOrEnds : Obligations.FailedDataPhaseRetriesOrEnds := by
  intro s p n x d hvalid hl hphase confirm ended counted exhausted errors
  have hfailed : ∀ {code st t}, Ts.ofEvent code = some st → st ≠ .ok → failed d st ended = t →
      exec (confirm code) s = .next { reap t with lock := .free } :=
    fun hcode hok ht => exec_dataPhase_failed hl hphase hcode hok ht
  refine ⟨?nak, ?stall, ?timeout, fun code st halt hmem => ?errors⟩
  case nak => exact hfailed (st := .nak) rfl (by decide) (nak_eq d ended)
  case stall => exact hfailed (st := .stall) rfl (by decide) rfl
  case timeout => exact hfailed (st := .timeout) rfl (by decide) rfl
  case errors =>
    have hc : ErrorCode s.cfg code st halt := by
      simp only [errors, List.mem_cons, List.not_mem_nil, or_false, Prod.mk.injEq] at hmem
      obtain ⟨rfl, rfl, rfl⟩ | ⟨rfl, rfl, rfl⟩ | ⟨rfl, rfl, rfl⟩ | ⟨rfl, rfl, rfl⟩ | ⟨rfl, rfl, rfl⟩ := hmem
      · exact errorCode_crc s.cfg
      · exact errorCode_bitstuff s.cfg
      · exact errorCode_overrun s.cfg
      · exact errorCode_underrun s.cfg
      · exact errorCode_piderr s.cfg
    constructor
    · intro hlt
      exact hfailed hc.reported hc.notOk (failed_below hc hvalid hl hlt)
    · intro heq
      exact hfailed hc.reported hc.notOk (failed_reached hc hvalid hl heq)

end Sys2Proof.Proofs
end

section
/-! SUPPORT. Frame starts without an admission (R141 to R144, R147), and what every context-(a) event leaves to be reaped
(R161, R186). -/

namespace Sys2Proof.Machine

/-! EV_FRAME_START by its branches (R140). -/

/-- A frame start runs its body with the region held, then reaps and gives the region back (R140, R161, R300). -/
theorem exec_evFrameStart (s : State) :
    exec .evFrameStart s = .next { reap (frameStartBody (s.setLock .heldA)) with lock := .free } := rfl

theorem exec_evFrameStart_of_body {s t : State} (h : frameStartBody (s.setLock .heldA) = t.setLock .heldA) :
    exec .evFrameStart s = .next { reap t with lock := .free } := by
  have hexec : exec .evFrameStart s = .next ((reap (frameStartBody (s.setLock .heldA))).setLock .free) := rfl
  rw [hexec, h, reap_pass_end]

/-- The frame as `open_frame()` leaves it: nothing charged, nothing admitted (R147). -/
def Frame.empty (number : BitVec 16) : Frame :=
  { bytes := 0, status := .prepared, active := [], number := number, timeUs := 0 }

/-- The frame is counted (R141). -/
def State.counted (s : State) : State := s.setFrnum (nextFrnum s.cfg s.frnum)

/-- The frame is counted and an empty one is open (R141, R147). -/
def State.opened (s : State) : State := s.counted.setFrame (.empty (nextFrnum s.cfg s.frnum))

theorem State.opened_framed (s : State) : Framed [.frnum, .frame] s s.opened :=
  (setFrnum_framed _ _).comp (setFrame_framed _ _) (by decide) (by decide)

/-- With no unfinished TD, `open_frame()` opens an empty frame (R147). -/
theorem openFrame_of_noActive {s : State} (h : s.frame.active = []) : openFrame s = s.setFrame (.empty s.frnum) := by
  simp only [openFrame, h, Frame.empty]

theorem newFrame_connected {s : State} (h : s.bussts.connected = true) : newFrame s = scanClasses (openFrame s) :=
  if_pos h

theorem newFrame_disconnected {s : State} (h : s.bussts.connected = false) : newFrame s = openFrame s :=
  if_neg (by rw [Bool.not_eq_true]; exact h)

theorem frameStartBody_open {s : State} (h : s.frame.active = []) : frameStartBody s = newFrame s.counted := if_pos h

/-- On a connected bus with no unfinished TD, a frame start opens an empty frame and scans the classes (R143, R148). -/
theorem frameStartBody_connected {s : State} (hactive : s.frame.active = []) (hbus : s.bussts.connected = true) :
    frameStartBody s = scanClasses s.opened :=
  calc frameStartBody s = newFrame s.counted := frameStartBody_open hactive
    _ = scanClasses (openFrame s.counted) := newFrame_connected hbus
    _ = scanClasses s.opened := congrArg scanClasses (openFrame_of_noActive (s := s.counted) hactive)

/-- With no device connected the new frame stays empty (R143). -/
theorem frameStartBody_disconnected {s : State} (hactive : s.frame.active = []) (hbus : s.bussts.connected = false) :
    frameStartBody s = s.opened :=
  calc frameStartBody s = newFrame s.counted := frameStartBody_open hactive
    _ = openFrame s.counted := newFrame_disconnected hbus
    _ = s.opened := openFrame_of_noActive (s := s.counted) hactive

/-- A frame with an unfinished TD that is not stale blocks the next one (R144). -/
theorem frameStartBody_blocked {s : State} (h : s.frame.active ≠ [])
    (hfresh : modDiff (nextFrnum s.cfg s.frnum) s.frame.number s.cfg.frameWrap ≤ s.cfg.flushThreshold) :
    frameStartBody s = s.counted := by
  have hstale : frameStale s.counted = false := decide_eq_false (Nat.not_lt.2 hfresh)
  exact (if_neg h).trans (if_neg (by rw [Bool.not_eq_true]; exact hstale))

/-- A stale frame is flushed first (R142, R145). -/
theorem frameStartBody_stale {s : State} (h : s.frame.active ≠ [])
    (hold : s.cfg.flushThreshold < modDiff (nextFrnum s.cfg s.frnum) s.frame.number s.cfg.frameWrap) :
    frameStartBody s = newFrame (forceFlush s.counted) := by
  have hstale : frameStale s.counted = true := decide_eq_true hold
  exact (if_neg h).trans (if_pos hstale)

/-! A frame start with no ready pipe (R150, R151). -/

/-- Nothing is offered from an ED that R150 or R151 passes over. -/
theorem readyHead_eq_none {s : State} {m : Mode} {e : Nat}
    (h : (s.ed e).state ≠ .operational ∨ (s.ed e).queue = [] ∨
      ∃ d ds, (s.ed e).queue = d :: ds ∧ ((s.td d).txn ≠ none ∨ ((m = .iso ∨ m = .intr) ∧
        modDiff s.frame.number (s.td d).startFrame s.cfg.frameWrap < (s.td d).interval.toNat))) :
    s.readyHead m e = none := by
  unfold State.readyHead
  obtain hstate | hqueue | ⟨d, ds, hqueue, hbusy | ⟨hperiodic, hearly⟩⟩ := h
  · rw [if_neg hstate]
  · simp only [hqueue, List.head?_nil, ite_self]
  · simp only [hqueue, List.head?_cons, hbusy, false_and, if_false, ite_self]
  · have hwait : ¬ ((m = .iso ∨ m = .intr) →
        (s.td d).interval.toNat ≤ modDiff s.frame.number (s.td d).startFrame s.cfg.frameWrap) :=
      fun hc => absurd (hc hperiodic) (Nat.not_le.2 hearly)
    simp only [hqueue, List.head?_cons, hwait, and_false, if_false, ite_self]

/-- Four scans with no admission rotate the four class lists of an open frame (R148, R159). -/
theorem scanClasses_notReady {s : State} (hopen : s.frame.status.closed = false)
    (h : ∀ m, ∀ e ∈ s.cls.get m, s.readyHead m e = none) :
    scanClasses s = s.setCls { iso := rotateList s.cls.iso, intr := rotateList s.cls.intr,
                               ctrl := rotateList s.cls.ctrl, bulk := rotateList s.cls.bulk } := by
  have hiso := scan_notReady .iso s (h .iso)
  have hintr := scan_notReady .intr (rotateClass .iso s) (h .intr)
  have hctrl := scan_notReady .ctrl (rotateClass .intr (rotateClass .iso s)) (h .ctrl)
  have hbulk := scan_notReady .bulk (rotateClass .ctrl (rotateClass .intr (rotateClass .iso s))) (h .bulk)
  unfold scanClasses
  rw [hiso, hintr, hctrl]
  exact (if_neg (by rw [Bool.not_eq_true]; exact hopen)).trans hbulk

/-! What is left to reap (R161, R186). -/

/-- A pass that ends in `reap()` leaves nothing to reap, when what came before kept the invariants. -/
theorem runPass_reap_nothingLeft {body : State → State} {s : State} (hpools : (body (s.setLock .heldA)).poolsOk)
    (hclasses : (body (s.setLock .heldA)).classesOk) (hpaired : (body (s.setLock .heldA)).Paired) :
    (runPass .heldA (fun s => reap (body s)) s).nothingToReap :=
  hpaired.reap_nothing hpools hclasses

theorem classesOk_setLock {s : State} (l : Lock) (h : s.classesOk) : (s.setLock l).classesOk :=
  classesOk_of_same (SameClasses.of_framed (setLock_framed l s) (by decide)) h

theorem poolsOk_setLock {s : State} (l : Lock) (h : s.poolsOk) : (s.setLock l).poolsOk :=
  poolsOk_of_framed (setLock_framed l s) (by decide) h

theorem paired_setLock {s : State} (l : Lock) (h : s.Paired) : (s.setLock l).Paired :=
  State.Paired.congr (SamePairs.of_framed (setLock_framed l s) (by decide)) h

/-- A status of at most 8 is one that an event may report (R110). -/
theorem ofEvent_eq_some {st : BitVec 8} (h : st.toNat ≤ 8) : ∃ ts, Ts.ofEvent st = some ts := by
  unfold Ts.ofEvent
  generalize st.toNat = n at h
  interval_cases n <;> exact ⟨_, rfl⟩

/-- After each event that is not illegal no ED is left to reap (R161, R186). -/
theorem nothingToReap_of_event {s t : State} {i : Instr} (hpools : s.poolsOk) (hclasses : s.classesOk)
    (hpaired : s.Paired)
    (hi : i = .evFrameStart ∨ i = .evDisconnect ∨ (∃ speed, i = .evConnect speed) ∨
      (∃ st p, i = .evTxConfirm st p ∧ st.toNat ≤ 8) ∨ ∃ st p n, i = .evRxConfirm st p n ∧ st.toNat ≤ 8)
    (h : exec i s = .next t) : t.nothingToReap := by
  have hp := poolsOk_setLock .heldA hpools
  have hc := classesOk_setLock .heldA hclasses
  have hr := paired_setLock .heldA hpaired
  have hbus : ∀ b : BusSts, ((s.setLock .heldA).setBussts b).poolsOk := fun b =>
    poolsOk_of_framed (setBussts_framed b _) (by decide) hp
  obtain rfl | rfl | ⟨speed, rfl⟩ | ⟨st, p, rfl, hst⟩ | ⟨st, p, n, rfl, hst⟩ := hi
  · injection h with h
    exact h ▸ runPass_reap_nothingLeft (frameStartBody_poolsOk _ hp) (frameStartBody_classesOk _ hc)
      (frameStartBody_paired _ hp hr)
  · injection h with h
    exact h ▸ runPass_reap_nothingLeft (body := fun s => s.setBussts { s.bussts with connected := false })
      (hbus _) (setBussts_classesOk _ _ hc) (setBussts_paired _ _ hr)
  · injection h with h
    exact h ▸ runPass_reap_nothingLeft (body := State.setBussts { connected := true, speed := speed })
      (hbus _) (setBussts_classesOk _ _ hc) (setBussts_paired _ _ hr)
  · obtain ⟨ts, hts⟩ := ofEvent_eq_some hst
    rw [exec_evTxConfirm_of_legal hts] at h
    injection h with h
    exact h ▸ runPass_reap_nothingLeft (txConfirmBody_poolsOk ts _ _ hp)
      (classesOk_of_same (txConfirmBody_sameClasses ts _ _) hc) (txConfirmBody_paired ts _ _ hp hr)
  · obtain ⟨ts, hts⟩ := ofEvent_eq_some hst
    rw [exec_evRxConfirm_of_legal hts] at h
    injection h with h
    exact h ▸ runPass_reap_nothingLeft (rxConfirmBody_poolsOk ts _ _ _ hp)
      (classesOk_of_same (rxConfirmBody_sameClasses ts _ _ _) hc) (rxConfirmBody_paired ts _ _ _ hp hr)

/-! The frame counter (R141). -/

theorem frameWrap_le {c : Config} (h : c.valid) : c.frameWrap ≤ 2 ^ 16 := by
  obtain ⟨-, -, -, -, -, -, -, -, -, -, -, -, -, -, -, -, -, hwrap⟩ := h
  obtain ⟨k, hk, hpow⟩ := List.mem_map.1 hwrap
  rw [← hpow]
  exact Nat.pow_le_pow_right (by decide) (by have := List.mem_range.1 hk; omega)

/-- The counted frame number is in the counter's range, so no bit of it is lost (R55, R141). -/
theorem nextFrnum_toNat {c : Config} (h : c.valid) (n : BitVec 16) :
    (nextFrnum c n).toNat = (n.toNat + 1) % c.frameWrap := by
  have hlt := Nat.mod_lt (n.toNat + 1) (frameWrap_pos h)
  have hle := frameWrap_le h
  rw [nextFrnum, BitVec.toNat_ofNat, Nat.mod_eq_of_lt (by omega)]

/-- Whatever a frame start does, it counts the frame (R141). -/
theorem frameStartBody_frnum (s : State) : (frameStartBody s).frnum = nextFrnum s.cfg s.frnum := by
  have hnew : ∀ z : State, (newFrame z).frnum = z.frnum := fun z => (newFrame_framed z).frnum_eq (by decide)
  by_cases hactive : s.frame.active = []
  · rw [frameStartBody_open hactive, hnew]
    rfl
  · rcases Nat.lt_or_ge s.cfg.flushThreshold
      (modDiff (nextFrnum s.cfg s.frnum) s.frame.number s.cfg.frameWrap) with hold | hfresh
    · rw [frameStartBody_stale hactive hold, hnew, (forceFlush_framed _).frnum_eq (by decide)]
      rfl
    · rw [frameStartBody_blocked hactive hfresh]
      rfl

end Sys2Proof.Machine

namespace Sys2Proof.Proofs

open Sys2Proof.Machine

/-- Settles O24: the whole of `reap()` and the reaping after each event are those of the lemmas about them. -/
theorem dyingPipeIsReaped : Obligations.DyingPipeIsReaped := by
  refine ⟨reap_nothing, ?reaped, ?busEvents, fun s t i => nothingToReap_of_event⟩
  case reaped =>
    intro s hsized hnodup hqueues dying gone t
    have h : ReapedAll dying s t := reap_reaped s hsized hqueues hnodup
    refine ⟨h.edIn, h.edOut, h.efree, h.cls, h.done, h.drainp, fun d hd => ?_, fun d hd => ?_, h.frame⟩
    · obtain ⟨e, he, hde⟩ := List.mem_flatMap.1 hd
      exact h.tdIn e he d hde
    · exact h.tdOut d fun e he hde => hd (List.mem_flatMap.2 ⟨e, he, hde⟩)
  case busEvents =>
    intro s speed
    exact ⟨congrArg _ (reap_pass_end { s with bussts := { connected := true, speed := speed } }),
      congrArg _ (reap_pass_end { s with bussts := { connected := false, speed := s.bussts.speed } })⟩

/-- Settles O25: the frame is O53's, and nothing after the counting writes `FRNUM`. -/
theorem frameStartCountsTheFrame : Obligations.FrameStartCountsTheFrame := by
  intro s hvalid
  obtain ⟨t, hexec, -, hframe⟩ := everyOperationCompletesInItsFrame .evFrameStart s
  refine ⟨t, hexec, ?_, hframe⟩
  injection hexec with hexec
  have hfrnum : t.frnum = nextFrnum s.cfg s.frnum := by
    rw [← hexec]
    exact ((reap_framed _).frnum_eq (by decide)).trans (frameStartBody_frnum _)
  rw [hfrnum, nextFrnum_toNat hvalid]

/-- Settles O26. -/
theorem blockedFrameOnlyCounts : Obligations.BlockedFrameOnlyCounts :=
  fun s hactive hfresh =>
    exec_evFrameStart_of_body (t := s.counted) (frameStartBody_blocked (s := s.setLock .heldA) hactive hfresh)

/-- Settles O27. -/
theorem disconnectedFrameAdmitsNothing : Obligations.DisconnectedFrameAdmitsNothing :=
  fun s hactive hbus =>
    exec_evFrameStart_of_body (t := s.opened) (frameStartBody_disconnected (s := s.setLock .heldA) hactive hbus)

/-- Settles O28: each of the four scans passes over every ED of its class. -/
theorem idleFrameRotatesTheClasses : Obligations.IdleFrameRotatesTheClasses := by
  intro s hactive hbus n hidle
  refine exec_evFrameStart_of_body ?_
  calc frameStartBody (s.setLock .heldA) = scanClasses (s.setLock .heldA).opened := frameStartBody_connected hactive hbus
    _ = _ := scanClasses_notReady rfl fun m e he => readyHead_eq_none (hidle m e he)

end Sys2Proof.Proofs
end

section
/-! SUPPORT. The class scans (R148, R149, R159): rotation, the admission attempts that the frame has no room for (R152,
R155, R158), and a scan that serves its class in order until the frame closes (R163). -/

namespace Sys2Proof.Machine

/-! Rotation (R159, R160). -/

theorem rotateList_eq_rotate (l : List Nat) : rotateList l = l.rotate 1 := by
  cases l <;> simp [rotateList]

theorem rotateList_iterate (l : List Nat) (p : Nat) : rotateList^[p] l = l.rotate p := by
  induction p with
  | zero => simp
  | succ p ih => rw [Function.iterate_succ_apply', ih, rotateList_eq_rotate, List.rotate_rotate]

/-- Admissions leave the class lists alone, so a scan leaves only its own list rotated (R159). -/
theorem scan_cls (c : Mode) (s : State) : (scan c s).cls = s.cls.set c (rotateList (s.cls.get c)) := by
  have hcls : (scanList c (s.cls.get c) s).cls = s.cls := (scanList_framed _ _ _).cls_eq (by decide)
  simp only [scan, rotateClass, State.setCls_cls, hcls]

theorem scan_cls_get (c m : Mode) (s : State) :
    (scan c s).cls.get m = if m = c then rotateList (s.cls.get c) else s.cls.get m := by
  rw [scan_cls, Classes.get_set]

/-- Each scan of a class rotates its list once more (R160). -/
theorem scan_iterate_cls_get (c : Mode) (s : State) (p : Nat) :
    ((scan c)^[p] s).cls.get c = (s.cls.get c).rotate p := by
  rw [← rotateList_iterate]
  induction p with
  | zero => rfl
  | succ p ih => rw [Function.iterate_succ_apply', Function.iterate_succ_apply', scan_cls_get, if_pos rfl, ih]

/-! Open and closed frames (R155, R158). -/

theorem FrameStatus.closed_iff (st : FrameStatus) :
    st.closed = true ↔ st = .endOfTransmission ∨ st = .timerForcedEnd := by
  cases st <;> simp [FrameStatus.closed]

theorem FrameStatus.not_closed_iff (st : FrameStatus) :
    st.closed = false ↔ st = .prepared ∨ st = .transmitted := by
  cases st <;> simp [FrameStatus.closed]

theorem tryAdmit_closed (e d : Nat) {s : State} (h : s.frame.status.closed = true) : tryAdmit e d s = s := if_pos h

theorem scan_closed (c : Mode) {s : State} (h : s.frame.status.closed = true) : scan c s = rotateClass c s := by
  rw [scan, scanList_closed c _ s h]

/-- The bulk class is scanned only while the frame is open (R148). -/
theorem scanClasses_eq (s : State) :
    scanClasses s =
      if (scan .ctrl (scan .intr (scan .iso s))).frame.status = .endOfTransmission ∨
          (scan .ctrl (scan .intr (scan .iso s))).frame.status = .timerForcedEnd then
        scan .ctrl (scan .intr (scan .iso s))
      else scan .bulk (scan .ctrl (scan .intr (scan .iso s))) := by
  simp only [scanClasses, FrameStatus.closed_iff]

/-! A scan that serves the ready TDs in order until one does not fit (R152, R155, R163). -/

/-- The frame has stopped with a status, the answers `sofs` about the time left being still to come. -/
def State.stopped (st : FrameStatus) (sofs : List Nat) (s : State) : State :=
  { s with frame := { s.frame with status := st }, env := { s.env with sofAnswers := sofs } }

theorem State.stopped_frame (st : FrameStatus) (sofs : List Nat) (s : State) :
    (s.stopped st sofs).frame = { bytes := s.frame.bytes, status := st, active := s.frame.active,
                                  number := s.frame.number, timeUs := s.frame.timeUs } := rfl

theorem State.stopped_framed (st : FrameStatus) (sofs : List Nat) (s : State) :
    Framed [.frame, .env] s (s.stopped st sofs) := by
  intro f hf
  cases f
  case frame | env => exact absurd (by decide) hf
  all_goals rfl

/-- Why the admissions of a scan end in `s`, where the ready TDs `refused` are still to be offered: there is none, or the
first of them fails the byte test or the time test (R152, R155, R158). -/
inductive StopsWith (s : State) : List (Nat × Nat) → FrameStatus → List Nat → Prop
  | allServed : StopsWith s [] s.frame.status s.env.sofAnswers
  | overBytes {r more} (h : s.cfg.maxBytesPerFrame < s.frame.bytes.toNat + pairCost s r) :
      StopsWith s (r :: more) .endOfTransmission s.env.sofAnswers
  | overTime {r more rem sofs} (hfits : s.frame.bytes.toNat + pairCost s r ≤ s.cfg.maxBytesPerFrame)
      (hsofs : s.env.sofAnswers = rem :: sofs) (h : rem < s.frame.timeUs.toNat + pairTime s r) :
      StopsWith s (r :: more) .timerForcedEnd sofs

theorem readyHead_of_readyPairs_nil {c : Mode} {l : List Nat} {s : State} (h : readyPairs c l s = []) :
    ∀ e ∈ l, s.readyHead c e = none := fun e he =>
  Option.map_eq_none_iff.1 (List.filterMap_eq_nil_iff.1 h e he)

/-- From there on a scan admits nothing (R155). -/
theorem scanList_stopsWith {c : Mode} {l : List Nat} {s : State} {refused : List (Nat × Nat)} {st : FrameStatus}
    {sofs : List Nat} (hopen : s.frame.status.closed = false) (hready : readyPairs c l s = refused)
    (h : StopsWith s refused st sofs) : scanList c l s = s.stopped st sofs := by
  cases h with
  | allServed => exact scanList_notReady c l s (readyHead_of_readyPairs_nil hready)
  | overBytes hbytes => exact scanList_closes c l _ _ s _ hready (tryAdmit_overBytes _ _ s hopen hbytes) rfl
  | overTime hfits hsofs htime =>
    exact scanList_closes c l _ _ s _ hready (tryAdmit_overTime _ _ _ _ s hopen hfits hsofs htime) rfl

/-- The scan of class `c` has the resources, the time and the transceiver's answers for the TDs `served`; the ready TDs
`refused` come after them. -/
structure Servable (c : Mode) (served refused : List (Nat × Nat)) (rems sofs : List Nat) (answers : List Bool)
    (s : State) : Prop where
  pools : s.poolsOk
  isOpen : s.frame.status.closed = false
  ready : readyPairs c (s.cls.get c) s = served ++ refused
  nodup : ((served ++ refused).map Prod.snd).Nodup
  inPool : ∀ r ∈ served ++ refused, r.2 < s.tds.length
  bytes : s.frame.bytes.toNat + (served.map (pairCost s)).sum ≤ s.cfg.maxBytesPerFrame
  sofAnswers : s.env.sofAnswers = rems ++ sofs
  remsLength : rems.length = served.length
  time : ∀ rem ∈ rems, s.frame.timeUs.toNat + (served.map (pairTime s)).sum ≤ rem
  ringAnswers : s.env.ringAnswers = List.replicate served.length true ++ answers
  packets : served.length ≤ s.ring.cnt
  records : served.length ≤ s.xfree.length
  dummies : (served.filter (fun r => decide (nextLen s r.1 r.2 = 0))).length ≤ s.dfree.length

/-- Why the scan stops after `served`, in sums: the bytes and the times of `served` leave no room for the next ready TD,
or there is no next one (R152, R155, R158). The sums are within the 32 bits of the frame record (R51). -/
inductive StopsAfter (s : State) (served : List (Nat × Nat)) (sofs : List Nat) :
    List (Nat × Nat) → FrameStatus → List Nat → Prop
  | allServed : StopsAfter s served sofs [] (if served = [] then s.frame.status else .transmitted) sofs
  | overBytes {r more} (hlt : s.frame.bytes.toNat + (served.map (pairCost s)).sum < 2 ^ 32)
      (h : s.cfg.maxBytesPerFrame < s.frame.bytes.toNat + (served.map (pairCost s)).sum + pairCost s r) :
      StopsAfter s served sofs (r :: more) .endOfTransmission sofs
  | overTime {r more rem sofs'} (hlt : s.frame.bytes.toNat + (served.map (pairCost s)).sum < 2 ^ 32)
      (htlt : s.frame.timeUs.toNat + (served.map (pairTime s)).sum < 2 ^ 32)
      (hfits : s.frame.bytes.toNat + (served.map (pairCost s)).sum + pairCost s r ≤ s.cfg.maxBytesPerFrame)
      (hsofs : sofs = rem :: sofs') (h : rem < s.frame.timeUs.toNat + (served.map (pairTime s)).sum + pairTime s r) :
      StopsAfter s served sofs (r :: more) .timerForcedEnd sofs'

theorem ServedAll.isOpen {served : List (Nat × Nat)} {sofs : List Nat} {answers : List Bool} {s t : State}
    (h : ServedAll served sofs answers s t) (hs : s.frame.status.closed = false) : t.frame.status.closed = false := by
  rw [h.status]
  split
  · exact hs
  · rfl

/-- A TD that was not served costs what it did (R153, R202). -/
theorem ServedAll.pairCost_eq {served : List (Nat × Nat)} {sofs : List Nat} {answers : List Bool} {s t : State}
    (h : ServedAll served sofs answers s t) {r : Nat × Nat} (hr : r.2 ∉ served.map Prod.snd) :
    pairCost t r = pairCost s r ∧ pairTime t r = pairTime s r := by
  have hcfg := h.changes.cfg_eq (by decide)
  have hcost : pairCost t r = pairCost s r := by
    simp only [pairCost, nextLen, h.tdOther _ hr, ed_congr (h.changes.eds_eq (by decide)), hcfg]
  exact ⟨hcost, by simp only [pairTime, hcost, hcfg, h.changes.bussts_eq (by decide)]⟩

theorem Servable.not_served {c : Mode} {served refused : List (Nat × Nat)} {rems sofs : List Nat}
    {answers : List Bool} {s : State} (h : Servable c served refused rems sofs answers s) :
    ∀ r ∈ refused, r.2 ∉ served.map Prod.snd := by
  have hnodup := h.nodup
  rw [List.map_append, List.nodup_append] at hnodup
  obtain ⟨-, -, hapart⟩ := hnodup
  exact fun r hr hs => hapart r.2 hs r.2 (List.mem_map_of_mem hr) rfl

/-- Once `served` are admitted, the frame holds their sums (R156). -/
theorem Servable.stopsWith {c : Mode} {served refused : List (Nat × Nat)} {rems sofs sofs' : List Nat}
    {answers : List Bool} {st : FrameStatus} {s t : State} (h : Servable c served refused rems sofs answers s)
    (hstop : StopsAfter s served sofs refused st sofs') (ht : ServedAll served sofs answers s t) :
    StopsWith t refused st sofs' := by
  have hsofs : t.env.sofAnswers = sofs := by rw [ht.env]
  have hcfg : t.cfg = s.cfg := ht.changes.cfg_eq (by decide)
  have hbytes := congrArg BitVec.toNat ht.bytes
  have htime := congrArg BitVec.toNat ht.time
  cases hstop with
  | allServed =>
    rw [← ht.status, ← hsofs]
    exact .allServed
  | overBytes hlt hover =>
    obtain ⟨hcost, -⟩ := ht.pairCost_eq (h.not_served _ List.mem_cons_self)
    rw [← hsofs]
    refine .overBytes ?_
    rwa [hcfg, hcost, hbytes, BitVec.toNat_ofNat, Nat.mod_eq_of_lt hlt]
  | overTime hlt htlt hfits hnext hover =>
    obtain ⟨hcost, htimeEq⟩ := ht.pairCost_eq (h.not_served _ List.mem_cons_self)
    refine .overTime ?_ (hsofs.trans hnext) ?_
    · rwa [hcfg, hcost, hbytes, BitVec.toNat_ofNat, Nat.mod_eq_of_lt hlt]
    · rwa [htimeEq, htime, BitVec.toNat_ofNat, Nat.mod_eq_of_lt htlt]

/-- A scan admits the TDs it has everything for, in order, and stops at the next (R149, R163). -/
theorem Servable.scan_eq {c : Mode} {served refused : List (Nat × Nat)} {rems sofs sofs' : List Nat}
    {answers : List Bool} {st : FrameStatus} {s : State} (h : Servable c served refused rems sofs answers s)
    (hstop : StopsAfter s served sofs refused st sofs') :
    ∃ t, ServedAll served sofs answers s t ∧ scan c s = rotateClass c (t.stopped st sofs') := by
  obtain ⟨l, l', hl, hserved, hrefused⟩ := List.filterMap_eq_append_iff.1 h.ready
  change readyPairs c l s = served at hserved
  change readyPairs c l' s = refused at hrefused
  have hservedNodup : (served.map Prod.snd).Nodup := by
    have hnodup := h.nodup
    rw [List.map_append] at hnodup
    exact hnodup.of_append_left
  have hall : ServedAll served sofs answers s (scanList c l s) := by
    rw [← hserved] at h hservedNodup ⊢
    exact scanList_served c l rems sofs answers s h.pools h.isOpen hservedNodup
      (fun r hr => h.inPool r (List.mem_append_left _ hr)) h.bytes h.sofAnswers h.remsLength h.time h.ringAnswers
      h.packets h.records h.dummies
  refine ⟨_, hall, ?_⟩
  have hrest : readyPairs c l' (scanList c l s) = refused := by
    rw [hall.readyPairs_eq h.records (by simpa [State.ringHandles] using h.packets), hrefused]
    intro d hd hd'
    rw [hrefused] at hd'
    obtain ⟨r, hr, rfl⟩ := List.mem_map.1 hd'
    exact h.not_served r hr hd
  rw [scan, hl, scanList_append, scanList_stopsWith (hall.isOpen h.isOpen) hrest (h.stopsWith hstop hall)]

end Sys2Proof.Machine

namespace Sys2Proof.Proofs

open Sys2Proof.Machine

/-- Settles O32. -/
theorem scanRotatesItsClass : Obligations.ScanRotatesItsClass :=
  ⟨fun s c m => scan_cls_get c m s, rfl, fun _ => rfl, fun _ _ _ => rfl⟩

/-- Settles O33: `p` scans rotate the list by `p`. -/
theorem rotationBringsEveryoneToTheHead : Obligations.RotationBringsEveryoneToTheHead := by
  intro c s p hp
  rw [scan_iterate_cls_get, List.head?_rotate hp]

/-- Settles O35, test by test. -/
theorem rejectedAdmissionDefersTheTd : Obligations.RejectedAdmissionDefersTheTd := by
  intro s e d rem sofs cost us
  refine ⟨fun hclosed => ?_, fun hopen hbytes => ?_, fun hopen hbytes hsofs htime => ?_⟩
  · exact tryAdmit_closed e d ((FrameStatus.closed_iff _).2 hclosed)
  · exact tryAdmit_overBytes e d s ((FrameStatus.not_closed_iff _).2 hopen) hbytes
  · exact tryAdmit_overTime e d rem sofs s ((FrameStatus.not_closed_iff _).2 hopen) hbytes hsofs htime

/-- Settles O29: the order of the classes and of the visits by the definitions of the scans, and what a scan of ready
TDs leaves by the admissions of those that fit, followed by the stop. -/
theorem scansServeTheClassesInOrder : Obligations.ScansServeTheClassesInOrder := by
  refine ⟨?classes, ?visits, ?closed, ?served⟩
  case classes =>
    intro s hactive hbus n s0 s3
    have hbody : frameStartBody (s.setLock .heldA) = scanClasses s0 :=
      frameStartBody_connected (s := s.setLock .heldA) hactive hbus
    rw [exec_evFrameStart, hbody, scanClasses_eq]
  case visits =>
    intro s c t
    rw [scan, scanList_foldl]
    rfl
  case closed =>
    intro s c hclosed
    exact scan_closed c ((FrameStatus.closed_iff _).2 hclosed)
  case served =>
    intro s c served refused rems sofs sofs' answers st hpools hopen ready n cost us bytes time hready hnodup hinPool
      hbytes hsofs hrems htime hanswers hpackets hrecords hdummies hstop t
    have hservable : Servable c served refused rems sofs answers s :=
      ⟨hpools, (FrameStatus.not_closed_iff _).2 hopen, hready, hready ▸ hnodup, hready ▸ hinPool, hbytes, hsofs, hrems,
        htime, hanswers, hpackets, hrecords, hdummies⟩
    have hstops : StopsAfter s served sofs refused st sofs' := by
      obtain ⟨rfl, rfl, rfl⟩ | ⟨hlt, r, more, rfl, hover, rfl, rfl⟩ |
        ⟨hlt, htlt, r, more, rem, rfl, hfits, hsofs, hover, rfl⟩ := hstop
      · exact .allServed
      · exact .overBytes hlt hover
      · exact .overTime hlt htlt hfits hsofs hover
    obtain ⟨u, hu, hscan⟩ := hservable.scan_eq hstops
    have ht : t = rotateClass c (u.stopped st sofs') := hscan
    obtain ⟨os, hout, hlength, hdescs⟩ := hu.out
    rw [ht]
    refine ⟨?frame, ?each, hu.tdOther, hu.xfree, hu.handles, ?outLength, ?outTake, ?env, ?cls, ?changes⟩
    case frame =>
      show (u.stopped st sofs').frame = _
      rw [State.stopped_frame, hu.bytes, hu.active, hu.number, hu.time]
      rfl
    case each =>
      intro j e d x p hj hx hp
      obtain ⟨htd, halloc, hphase, htxnTd, htxnPkt, hlen, hpktOut⟩ := hu.each j e d x p hj hx hp
      obtain ⟨desc, hdesc, hw0, hw3⟩ := hdescs j e d p hj hp
      refine ⟨htd, halloc, hphase, htxnTd, htxnPkt, hlen, hpktOut, desc, ?_, hw0, hw3⟩
      show u.out[s.out.length + j]? = _
      rw [hout, List.getElem?_append_right (Nat.le_add_right _ _), Nat.add_sub_cancel_left, hdesc]
    case env =>
      show ({ u.env with sofAnswers := sofs' } : Env) = _
      rw [hu.env]
    case outLength =>
      show u.out.length = _
      rw [hout, List.length_append, hlength]
    case outTake =>
      show u.out.take s.out.length = _
      rw [hout, List.take_left]
    case cls =>
      show u.cls.set c (rotateList (u.cls.get c)) = _
      rw [hu.changes.cls_eq (by decide)]
    case changes =>
      exact hu.changes.comp ((State.stopped_framed st sofs' u).comp (setCls_framed _ _) (e := [.frame, .env, .cls])
        (by decide) (by decide)) (by decide) (by decide)

end Sys2Proof.Proofs
end

section
/-! SUPPORT. Deferral (R157, R204, R206): when a dispatch asks the transceiver and when it is deferred, and what an
admission attempt leaves after a deferral. Periodic eligibility (R151) as a difference of frame numbers. -/

namespace Sys2Proof.Machine

/-! Dispatches by their resources (R204, R206). -/

/-- A dispatch of `len` bytes lacks a Packet, a record, or the dummy buffer of a zero-length transaction (R204, R207). -/
abbrev State.lacking (s : State) (len : Nat) : Prop := s.ring.cnt = 0 ∨ s.xfree = [] ∨ (len = 0 ∧ s.dfree = [])

theorem not_lacking_iff (s : State) (len : Nat) :
    ¬ s.lacking len ↔ s.ring.cnt ≠ 0 ∧ s.xfree ≠ [] ∧ (len = 0 → s.dfree ≠ []) := by
  simp only [not_or, not_and]

/-- Short of a resource, a dispatch is deferred and the transceiver is not asked (R204). -/
theorem dispatch_lacking {s : State} {len : Nat} (e d : Nat) (h : s.lacking len) :
    (dispatch e d len s).1 = false ∧ (dispatch e d len s).2.env = s.env ∧ (dispatch e d len s).2.out = s.out := by
  rw [dispatch_short e d len s h]
  split
  · exact ⟨rfl, rfl, rfl⟩
  · have hframed : Framed [.ring, .pkts, .diag] s (pktRelease (s.ring.slots.getD s.ring.rd 0) (pktAcquire s).2) :=
      (pktAcquire_framed s).comp (pktRelease_framed _ _) (by decide) (by decide)
    exact ⟨rfl, hframed.env_eq (by decide), hframed.out_eq (by decide)⟩

/-- With all resources there, a dispatch asks the transceiver once and goes by its answer (R204, R206). -/
theorem dispatch_asks {s : State} {len : Nat} {accepted : Bool} {answers : List Bool} (e d : Nat)
    (h : ¬ s.lacking len) (hanswers : s.env.ringAnswers = accepted :: answers) :
    (dispatch e d len s).1 = accepted ∧ (dispatch e d len s).2.env = { s.env with ringAnswers := answers } ∧
      ∃ desc, (dispatch e d len s).2.out = s.out ++ [.ringSubmit desc accepted] := by
  obtain ⟨hpacket, hrecord, hdummy⟩ := (not_lacking_iff s len).1 h
  obtain ⟨x, xs, hx⟩ := List.exists_cons_of_ne_nil hrecord
  obtain ⟨a, v, hv, ha, heq⟩ := dispatchWith_eq e d len (s.ring.slots.getD s.ring.rd 0) x
    (if len = 0 then s.dfree.head? else none) s
  obtain rfl := ha accepted answers hanswers
  rw [dispatch_ready e d len x xs s hpacket hx hdummy, heq, hv answers hanswers]
  cases a with
  | true => exact ⟨rfl, rfl, _, rfl⟩
  | false =>
    have hframed := fun z => (((dummyReleaseOpt_framed (if len = 0 then s.dfree.head? else none) z).comp
      (txnFree_framed x _) (e := [.dfree, .xfree, .txns, .diag]) (by decide) (by decide)).comp
      (pktRelease_framed (s.ring.slots.getD s.ring.rd 0) _) (e := [.dfree, .xfree, .txns, .ring, .pkts, .diag])
      (by decide) (by decide))
    exact ⟨rfl, (hframed _).env_eq (by decide), _, (hframed _).out_eq (by decide)⟩

/-- A dispatch is deferred for want of a resource or by the transceiver's refusal, and not otherwise (R206). -/
theorem dispatch_deferred_iff {s : State} {accepted : Bool} {answers : List Bool} (e d len : Nat)
    (hanswers : s.env.ringAnswers = accepted :: answers) :
    (dispatch e d len s).1 = false ↔ s.lacking len ∨ accepted = false := by
  by_cases h : s.lacking len
  · exact iff_of_true (dispatch_lacking e d h).1 (.inl h)
  · obtain ⟨hanswer, -⟩ := dispatch_asks e d h hanswers
    rw [hanswer]
    exact ⟨.inr, fun hc => hc.resolve_left h⟩

/-- A deferred dispatch puts back all that it took (R206). -/
theorem putBack_of_deferred {e d len : Nat} {s t : State} (hs : s.poolsOk) (h : dispatch e d len s = (false, t)) :
    PutBack s t := by
  obtain ⟨u, hu, hput⟩ | ⟨x, xs, v, -, -, -, hu⟩ := dispatch_cases e d len s hs
  · obtain rfl : t = u := congrArg Prod.snd (h.symm.trans hu)
    exact hput
  · exact absurd (congrArg Prod.fst (h.symm.trans hu)) Bool.false_ne_true

/-! Admission attempts that both budgets allow (R152). -/

/-- The answer `rem` about the time left has been used up (R307). -/
def State.askedTime (s : State) (sofs : List Nat) : State := s.setEnv { s.env with sofAnswers := sofs }

theorem State.askedTime_framed (s : State) (sofs : List Nat) : Framed [.env] s (s.askedTime sofs) := setEnv_framed _ s

/-- An attempt that passes both budget tests comes to its dispatch (R152). -/
theorem tryAdmit_offers {s : State} {e d rem : Nat} {sofs : List Nat} (hopen : s.frame.status.closed = false)
    (hbytes : s.frame.bytes.toNat + pairCost s (e, d) ≤ s.cfg.maxBytesPerFrame) (hsofs : s.env.sofAnswers = rem :: sofs)
    (htime : s.frame.timeUs.toNat + pairTime s (e, d) ≤ rem) :
    tryAdmit e d s = offer e d (nextLen s e d) (pairCost s (e, d)) (pairTime s (e, d)) (s.askedTime sofs) := by
  have hasked : sofRemaining s = (rem, s.askedTime sofs) := by simp only [sofRemaining, hsofs, State.askedTime]
  have hb : overBytes s (costOf s.cfg (nextLen s e d)) = false := decide_eq_false (Nat.not_lt.2 hbytes)
  have ht : overTime (s.askedTime sofs) (wireTime s.cfg s.bussts.speed (costOf s.cfg (nextLen s e d))) rem = false :=
    decide_eq_false (Nat.not_lt.2 htime)
  simp only [tryAdmit, hopen, hb, hasked, ht]
  rfl

/-- A deferred offer commits nothing (R157). -/
theorem offer_deferred {s : State} {e d len : Nat} (cost us : Nat) (h : (dispatch e d len s).1 = false) :
    offer e d len cost us s = (dispatch e d len s).2 := by
  unfold offer
  split
  · rename_i heq
    rw [heq] at h
    exact absurd h.symm Bool.false_ne_true
  · rename_i heq
    rw [heq]

/-! Periodic eligibility (R151). -/

/-- The frames from `b` to `a`, both below `m`, counted modulo `m` (R14). -/
theorem modDiff_eq {a b : BitVec 16} {m : Nat} (ha : a.toNat < m) (hb : b.toNat < m) :
    modDiff a b m = if b.toNat ≤ a.toNat then a.toNat - b.toNat else a.toNat + m - b.toNat := by
  unfold modDiff
  split
  · rw [Int.emod_eq_of_lt (by omega) (by omega)]
    omega
  · rw [← Int.add_emod_right, Int.emod_eq_of_lt (by omega) (by omega)]
    omega

theorem modDiff_lt (a b : BitVec 16) {m : Nat} (hm : 0 < m) : modDiff a b m < m := by
  have hlt := Int.emod_lt_of_pos ((a.toNat : Int) - b.toNat) (by omega : (0 : Int) < m)
  unfold modDiff
  omega

end Sys2Proof.Machine

namespace Sys2Proof.Proofs

open Sys2Proof.Machine

/-- Settles O36: when a dispatch is deferred, what it puts back, and the admission attempt that ends in it. -/
theorem deferredDispatchPutsBack : Obligations.DeferredDispatchPutsBack := by
  refine ⟨?deferred, ?putBack, ?attempt⟩
  case deferred =>
    intro s e d len accepted answers hanswers ready r
    refine ⟨?_, fun hready => ?_, fun hready => ?_⟩
    · exact (dispatch_deferred_iff e d len hanswers).trans (by simp only [or_assoc])
    · exact (dispatch_lacking e d (not_not.1 fun h => hready ((not_lacking_iff s len).1 h))).2
    · exact (dispatch_asks e d ((not_lacking_iff s len).2 hready) hanswers).2
  case putBack =>
    intro s t e d len hpools h
    have hput := putBack_of_deferred hpools h
    exact ⟨hput.xfree, hput.dfree, hput.tds, hput.diag, hput.txn, hput.txnAlloc, hput.handles, hput.pktHead,
      hput.pktOther, hput.frame⟩
  case attempt =>
    intro s e d rem sofs accepted answers len cost us hpools hopen hbytes hsofs htime hanswers hwhy t
    let z := s.askedTime sofs
    have hwhy' : s.lacking len ∨ accepted = false := by simpa only [or_assoc] using hwhy
    have hdeferred : (dispatch e d len z).1 = false := (dispatch_deferred_iff (s := z) e d len hanswers).2 hwhy'
    have ht : t = (dispatch e d len z).2 :=
      (tryAdmit_offers ((FrameStatus.not_closed_iff _).2 hopen) hbytes hsofs htime).trans
        (offer_deferred _ _ hdeferred)
    have hput : PutBack z t := by
      rw [ht]
      exact putBack_of_deferred (poolsOk_of_framed (s.askedTime_framed sofs) (by decide) hpools)
        (Prod.ext hdeferred rfl)
    have henv : t.env.sofAnswers = sofs ∧
        t.env.ringAnswers = if s.lacking len then s.env.ringAnswers else answers := by
      rw [ht]
      by_cases hlacking : s.lacking len
      · obtain ⟨-, henv, -⟩ := dispatch_lacking (s := z) e d hlacking
        rw [henv, if_pos hlacking]
        exact ⟨rfl, rfl⟩
      · obtain ⟨-, henv, -⟩ := dispatch_asks (s := z) e d hlacking hanswers
        rw [henv, if_neg hlacking]
        exact ⟨rfl, rfl⟩
    exact ⟨hput.frame.frame_eq (by decide), hput.tds, hput.frame.eds_eq (by decide), hput.xfree, hput.dfree, hput.txn,
      hput.txnAlloc, hput.handles, hput.pktHead, hput.pktOther, henv.1, henv.2,
      (s.askedTime_framed sofs).comp hput.frame (by decide) (by decide)⟩

/-- Settles O37. -/
theorem periodicEligibilityIsModular : Obligations.PeriodicEligibilityIsModular := by
  intro s t hvalid hstart hnumber
  refine ⟨?_, fun h => ?_, fun h => ?_⟩
  · rw [periodicEligible, decide_eq_true_iff, modDiff_eq hnumber hstart]
  · exact decide_eq_true (by rw [h]; exact Nat.zero_le _)
  · exact decide_eq_false (Nat.not_le.2 ((modDiff_lt _ _ (frameWrap_pos hvalid)).trans_le h))

end Sys2Proof.Proofs
end

section
/-! SUPPORT. A frame start that admits one transaction (R140, R156, R204, R205, R207): the scans of a bus with one pipe,
the entries that an accepted dispatch and its admission write, and the prepared transaction as sums of its fields. -/

namespace Sys2Proof.Machine

/-! The scans of a bus with one pipe (R148). -/

/-- A class list with no ED is scanned in vain. -/
theorem scan_empty {c : Mode} {s : State} (h : s.cls.get c = []) : scan c s = s := by
  rw [scan, h]
  exact rotateClass_short c s (by simp [h])

/-- A scan of one ED with a ready TD is its admission attempt, there being nothing to rotate (R149, R159). -/
theorem scan_single {c : Mode} {e d : Nat} {s : State} (h : s.cls.get c = [e]) (hready : s.readyHead c e = some d) :
    scan c s = tryAdmit e d s := by
  have hcls : (tryAdmit e d s).cls = s.cls := (tryAdmit_framed e d s).cls_eq (by decide)
  have hlist : scanList c [e] s = tryAdmit e d s := (scanOne_ready c e d s hready).1
  rw [scan, h, hlist]
  exact rotateClass_short c _ (by simp [hcls, h])

/-- No class has an ED. -/
abbrev Classes.none : Classes := { iso := [], intr := [], ctrl := [], bulk := [] }

/-- With one ED on the class lists, ready in an open frame that its admission leaves open, the four scans are that
admission. -/
theorem scanClasses_single {m : Mode} {e d : Nat} {s : State} (hcls : s.cls = Classes.none.set m [e])
    (hready : s.readyHead m e = some d) (hopen : s.frame.status.closed = false)
    (hopen' : (tryAdmit e d s).frame.status.closed = false) : scanClasses s = tryAdmit e d s := by
  have hcls' : (tryAdmit e d s).cls = Classes.none.set m [e] :=
    ((tryAdmit_framed e d s).cls_eq (by decide)).trans hcls
  have hself : scan m s = tryAdmit e d s := scan_single (by rw [hcls, Classes.get_set, if_pos rfl]) hready
  have hempty : ∀ c, c ≠ m → (Classes.none.set m [e]).get c = [] := fun c hc => by
    rw [Classes.get_set, if_neg hc]
    cases c <;> rfl
  have hbefore : ∀ c, c ≠ m → scan c s = s := fun c hc => scan_empty (by rw [hcls, hempty c hc])
  have hafter : ∀ c, c ≠ m → scan c (tryAdmit e d s) = tryAdmit e d s := fun c hc =>
    scan_empty (by rw [hcls', hempty c hc])
  cases m with
  | iso => simp [scanClasses, hself, hafter, hopen']
  | intr => simp [scanClasses, hself, hbefore, hafter, hopen']
  | ctrl => simp [scanClasses, hself, hbefore, hafter, hopen']
  | bulk => simp [scanClasses, hself, hbefore, hopen]

/-- What makes the head TD of a pipe ready in class `m` (R150, R151). -/
theorem readyHead_eq_some {s : State} {m : Mode} {e d : Nat} {ds : List Nat} (hstate : (s.ed e).state = .operational)
    (hqueue : (s.ed e).queue = d :: ds) (htxn : (s.td d).txn = none)
    (hperiodic : m = .iso ∨ m = .intr →
      (s.td d).interval.toNat ≤ modDiff s.frame.number (s.td d).startFrame s.cfg.frameWrap) :
    s.readyHead m e = some d := by
  unfold State.readyHead
  rw [if_pos hstate, hqueue]
  exact if_pos ⟨htxn, hperiodic⟩

/-! The entries that an accepted dispatch writes (R204). -/

section Dispatched

variable (e d len p x : Nat) (u : Option Nat) (v : Env) (s : State)

theorem dispatched_tds_length : (dispatched e d len p x u v s).tds.length = s.tds.length := List.length_modify ..

theorem dispatched_td_self (hd : d < s.tds.length) : (dispatched e d len p x u v s).td d =
    { s.td d with toggle := .val (txnToggle (s.ed e) (s.td d)), txn := some x } :=
  modTd_td_self d _ s hd

theorem dispatched_td_other (i : Nat) (hi : i ≠ d) : (dispatched e d len p x u v s).td i = s.td i :=
  modTd_td_other d i _ s (Ne.symm hi)

theorem dispatched_txn_self (hx : x < s.txns.length) : (dispatched e d len p x u v s).txn x =
    { (prepare s e d len p u).txn with phase := .tokenWait } :=
  modTxn_txn_self x _ s hx

theorem dispatched_txn_other (i : Nat) (hi : i ≠ x) : (dispatched e d len p x u v s).txn i = s.txn i :=
  modTxn_txn_other x i _ s (Ne.symm hi)

theorem dispatched_pkt_self (hp : p < s.pkts.length) :
    (dispatched e d len p x u v s).pkt p = (prepare s e d len p u).pkt :=
  modPkt_pkt_self p _ s hp

theorem dispatched_pkt_other (i : Nat) (hi : i ≠ p) : (dispatched e d len p x u v s).pkt i = s.pkt i :=
  modPkt_pkt_other p i _ s (Ne.symm hi)

theorem dispatched_framed : Framed [.ring, .pkts, .xfree, .txns, .dfree, .tds, .env, .out] s
    (dispatched e d len p x u v s) := by
  intro f hf
  cases f
  case ring | pkts | xfree | txns | dfree | tds | env | out => exact absurd (by decide) hf
  all_goals rfl

end Dispatched

/-! The entry that an admission writes (R156). -/

theorem commit_td_self (d cost us : Nat) (s : State) (hd : d < s.tds.length) :
    (commit d cost us s).td d = { s.td d with place := .active, startFrame := s.frame.number } :=
  modTd_td_self d _ _ hd

theorem commit_td_other (d cost us i : Nat) (s : State) (hi : i ≠ d) : (commit d cost us s).td i = s.td i :=
  modTd_td_other d i _ _ (Ne.symm hi)

/-- An admission into an empty frame (R147, R156). -/
theorem commit_frame_of_empty {s : State} {n : BitVec 16} (h : s.frame = .empty n) (d cost us : Nat) :
    (commit d cost us s).frame = { bytes := BitVec.ofNat 32 cost, status := .transmitted, active := [d], number := n,
                                   timeUs := BitVec.ofNat 32 us } := by
  have hframe : (commit d cost us s).frame = { s.frame with
      bytes := BitVec.ofNat 32 (s.frame.bytes.toNat + cost)
      timeUs := BitVec.ofNat 32 (s.frame.timeUs.toNat + us)
      active := s.frame.active ++ [d]
      status := if s.frame.status = .prepared then .transmitted else s.frame.status } := rfl
  rw [hframe, h]
  simp [Frame.empty]

/-! The Packet and the record that an admission takes lie in their pools (R43, R48). -/

theorem ringHead_lt {s : State} (hs : s.poolsOk) (h : s.ring.cnt ≠ 0) :
    s.ring.slots.getD s.ring.rd 0 < s.cfg.pktPoolCap := by
  obtain ⟨-, -, -, hring⟩ := hs
  have hhead := ringHandles_head s hring h
  obtain ⟨-, -, -, hlt, -⟩ := hring
  exact hlt _ (by rw [hhead]; exact List.mem_cons_self)

theorem xfreeHead_lt {s : State} {x : Nat} {xs : List Nat} (hs : s.poolsOk) (h : s.xfree = x :: xs) :
    x < s.txns.length := by
  obtain ⟨-, ⟨-, -, -, hsize, -⟩, ⟨-, -, -, ⟨-, hlt, -⟩, -⟩, -⟩ := hs
  rw [hsize]
  exact hlt x (by rw [h]; exact List.mem_cons_self)

/-- A frame start on a connected bus whose one pipe is ready, with all that its transaction needs, is that transaction's
admission into an empty frame (R140, R152, R156). -/
theorem frameStartBody_admits {s : State} {m : Mode} {e d x rem : Nat} {ds xs sofs : List Nat} {answers : List Bool}
    (hactive : s.frame.active = []) (hbus : s.bussts.connected = true) (hcls : s.cls = Classes.none.set m [e])
    (hstate : (s.ed e).state = .operational) (hqueue : (s.ed e).queue = d :: ds) (htxn : (s.td d).txn = none)
    (hperiodic : m = .iso ∨ m = .intr →
      (s.td d).interval.toNat ≤ modDiff (nextFrnum s.cfg s.frnum) (s.td d).startFrame s.cfg.frameWrap)
    (hbytes : pairCost s (e, d) ≤ s.cfg.maxBytesPerFrame) (htime : pairTime s (e, d) ≤ rem)
    (hsofs : s.env.sofAnswers = rem :: sofs) (hanswers : s.env.ringAnswers = true :: answers)
    (hpacket : s.ring.cnt ≠ 0) (hx : s.xfree = x :: xs) (hdummy : nextLen s e d = 0 → s.dfree ≠ []) :
    frameStartBody s = commit d (pairCost s (e, d)) (pairTime s (e, d))
      (dispatched e d (nextLen s e d) (s.ring.slots.getD s.ring.rd 0) x
        (if nextLen s e d = 0 then s.dfree.head? else none) { s.env with sofAnswers := sofs, ringAnswers := answers }
        (s.opened.askedTime sofs)) := by
  have hready : s.opened.readyHead m e = some d := readyHead_eq_some hstate hqueue htxn hperiodic
  have hadmit := tryAdmit_admits e d x rem xs sofs answers s.opened rfl ((Nat.zero_add _).trans_le hbytes) hsofs
    ((Nat.zero_add _).trans_le htime) hpacket hx hdummy hanswers
  have hopen : (tryAdmit e d s.opened).frame.status.closed = false := by
    rw [hadmit, commit_frame_of_empty rfl]
    rfl
  rw [frameStartBody_connected hactive hbus, scanClasses_single (s := s.opened) hcls hready rfl hopen, hadmit]
  rfl

/-- That admission is what EV_FRAME_START does before it reaps (R140, R161). -/
theorem exec_evFrameStart_admits {s : State} {m : Mode} {e d x rem : Nat} {ds xs sofs : List Nat} {answers : List Bool}
    (hactive : s.frame.active = []) (hbus : s.bussts.connected = true) (hcls : s.cls = Classes.none.set m [e])
    (hstate : (s.ed e).state = .operational) (hqueue : (s.ed e).queue = d :: ds) (htxn : (s.td d).txn = none)
    (hperiodic : m = .iso ∨ m = .intr →
      (s.td d).interval.toNat ≤ modDiff (nextFrnum s.cfg s.frnum) (s.td d).startFrame s.cfg.frameWrap)
    (hbytes : pairCost s (e, d) ≤ s.cfg.maxBytesPerFrame) (htime : pairTime s (e, d) ≤ rem)
    (hsofs : s.env.sofAnswers = rem :: sofs) (hanswers : s.env.ringAnswers = true :: answers)
    (hpacket : s.ring.cnt ≠ 0) (hx : s.xfree = x :: xs) (hdummy : nextLen s e d = 0 → s.dfree ≠ []) :
    exec .evFrameStart s = .next { reap (commit d (pairCost s (e, d)) (pairTime s (e, d))
      (dispatched e d (nextLen s e d) (s.ring.slots.getD s.ring.rd 0) x
        (if nextLen s e d = 0 then s.dfree.head? else none) { s.env with sofAnswers := sofs, ringAnswers := answers }
        (s.opened.askedTime sofs))) with lock := .free } := by
  have hbody := frameStartBody_admits (s := s.setLock .heldA) hactive hbus hcls hstate hqueue htxn hperiodic hbytes
    htime hsofs hanswers hpacket hx hdummy
  exact exec_evFrameStart_of_body (hbody.trans rfl)

/-! The prepared transaction as sums of its fields (R42, R204, R205). -/

/-- The host address of a transaction: its dummy buffer's, or the next byte of the TD's data (R204, R207). -/
def transferAddr (s : State) (d : Nat) : Option Nat → Addr
  | some u => dummyAddr s.cfg u
  | none => wrapAddr s.cfg ((s.td d).data + (s.td d).transferred.toNat)

theorem speed_bit_toNat (speed : Speed) : speed.bit.toNat = if speed = .low then 1 else 0 := by cases speed <;> rfl

theorem isSome_toNat (u : Option Nat) : u.isSome.toNat = if u = none then 0 else 1 := by cases u <;> rfl

theorem decide_toNat (q : Prop) [Decidable q] : (decide q).toNat = if q then 1 else 0 := by split <;> simp [*]

theorem prepare_token (s : State) (e d len p : Nat) (u : Option Nat) : (prepare s e d len p u).token =
    tokenDesc p (txnToggle (s.ed e) (s.td d)) (s.ed e).speed.bit (decide ((s.ed e).mode = .iso)) u.isSome
      (decide ((s.td d).dir = .inn)) len (transferAddr s d u) (s.tok ((s.td d).token.getD s.cfg.maxTokens)).bytes := by
  cases u <;> rfl

theorem prepare_txn (s : State) (e d len p : Nat) (u : Option Nat) : (prepare s e d len p u).txn =
    { alloc := true, phase := .idle, td := some d, pkt := some p, token := (s.td d).token, len := BitVec.ofNat 11 len,
      dummy := u
      dataDesc := if decide ((s.td d).dir = .inn) then TxDesc.zero
        else dataDesc p (txnToggle (s.ed e) (s.td d)) (s.ed e).speed.bit (decide ((s.ed e).mode = .iso)) u.isSome len
          (transferAddr s d u) } := by
  cases u <;> rfl

theorem prepare_pkt (s : State) (e d len p : Nat) (u : Option Nat) : (prepare s e d len p u).pkt =
    { pointer := transferAddr s d u, length := BitVec.ofNat 16 len, status := .ok, out := true
      info := pktInfo (decide ((s.td d).dir = .inn)) (s.ed e).speed.bit (txnToggle (s.ed e) (s.td d)) u.isSome } := by
  cases u <;> rfl

end Sys2Proof.Machine

namespace Sys2Proof.Proofs

open Sys2Proof.Machine

/-- Settles O30: the one pipe's admission is all that the scans do, and its descriptors are the sums of their fields. -/
theorem frameStartAdmitsTheReadyPipe : Obligations.FrameStartAdmitsTheReadyPipe := by
  intro s m e d x ds xs rem sofs answers hpools hactive hbus hcls hstate hmode hqueue hd htxn hperiodic len cost us n p u
    addr isIn tg pre iso dm desc dataDesc hbytes htime hsofs hanswers hpacket hx hdummy
  subst hmode
  let z := s.opened.askedTime sofs
  let v : Env := { s.env with sofAnswers := sofs, ringAnswers := answers }
  let w := dispatched e d len p x u v z
  have hexec : exec .evFrameStart s = .next { reap (commit d cost us w) with lock := .free } :=
    exec_evFrameStart_admits hactive hbus hcls hstate hqueue htxn hperiodic hbytes htime hsofs hanswers hpacket hx hdummy
  have hp := ringHead_lt hpools hpacket
  have hxl := xfreeHead_lt hpools hx
  obtain ⟨⟨-, hcap, -⟩, ⟨-, -, -, -, hsize, -⟩, -⟩ := hpools
  have hp16 : p < 65536 := by omega
  have hpl : p < s.pkts.length := by rw [hsize]; exact hp
  have hlen : len < 65536 := (nextLen_lt s e d).trans (by decide)
  have haddr : addr = transferAddr s d u := rfl
  have htoggle : tg = txnToggle (s.ed e) (s.td d) := rfl
  have hz : Framed [.frnum, .frame, .env] s z := s.opened_framed.comp (s.opened.askedTime_framed sofs) (by decide) (by decide)
  have hframe : z.frame = .empty n := rfl
  have hfrnum : z.frnum = n := rfl
  clear_value z addr tg us cost u p len n
  have htds : z.tds = s.tds := hz.tds_eq (by decide)
  have htd : ∀ i, z.td i = s.td i := td_congr htds
  have htxns : z.txns = s.txns := hz.txns_eq (by decide)
  have hpkts : z.pkts = s.pkts := hz.pkts_eq (by decide)
  have hprepare : prepare z e d len p u = prepare s e d len p u :=
    prepare_congr (hz.cfg_eq (by decide)) (hz.eds_eq (by decide)) htds (hz.toks_eq (by decide)) e d len p u
  have hw := dispatched_framed e d len p x u v z
  have hcommit := commit_framed d cost us w
  have hwtds : d < w.tds.length := by rw [dispatched_tds_length, htds]; exact hd
  refine ⟨commit d cost us w, hexec, (hcommit.frnum_eq (by decide)).trans ((hw.frnum_eq (by decide)).trans hfrnum),
    commit_frame_of_empty hframe d cost us, ?td, ?tdOther, ?txn, ?txnOther, ?xfree, ?pkt, ?pktOther, ?ring, ?dfree,
    rfl, ?out, ?changes⟩
  case td =>
    rw [commit_td_self d cost us w hwtds, dispatched_td_self e d len p x u v z (by rw [htds]; exact hd), htd,
      ed_congr (hz.eds_eq (by decide)), ← htoggle, show w.frame = .empty n from hframe]
    rfl
  case tdOther =>
    intro i hi
    rw [commit_td_other d cost us i w hi, dispatched_td_other e d len p x u v z i hi, htd]
  case txn =>
    refine (dispatched_txn_self e d len p x u v z (by rw [htxns]; exact hxl)).trans ?_
    rw [hprepare, prepare_txn, dataDesc_sum p len _ _ _ _ _ hp16 hlen, speed_bit_toNat, isSome_toNat,
      decide_toNat ((s.ed e).mode = .iso), ← haddr, ← htoggle]
    rfl
  case txnOther =>
    exact fun i hi => (dispatched_txn_other e d len p x u v z i hi).trans (txn_congr htxns i)
  case xfree =>
    show z.xfree.tail = xs
    rw [hz.xfree_eq (by decide), hx, List.tail_cons]
  case pkt =>
    refine (dispatched_pkt_self e d len p x u v z (by rw [hpkts]; exact hpl)).trans ?_
    rw [hprepare, prepare_pkt, pktInfo_sum, speed_bit_toNat, isSome_toNat, ← haddr, ← htoggle]
  case pktOther =>
    exact fun i hi => (dispatched_pkt_other e d len p x u v z i hi).trans (pkt_congr hpkts i)
  case ring =>
    show ({ slots := z.ring.slots, rd := (z.ring.rd + 1) % z.cfg.pktPoolCap, cnt := z.ring.cnt - 1 } : PktRing) = _
    rw [hz.ring_eq (by decide), hz.cfg_eq (by decide)]
  case dfree =>
    show (if len = 0 then z.dfree.tail else z.dfree) = _
    rw [hz.dfree_eq (by decide)]
  case out =>
    show z.out ++ [.ringSubmit (prepare z e d len p u).token true] = _
    rw [hz.out_eq (by decide), hprepare, prepare_token, tokenDesc_sum p len _ _ _ _ _ _ _ hp16, speed_bit_toNat,
      isSome_toNat, decide_toNat ((s.ed e).mode = .iso), ← haddr, ← htoggle]
  case changes =>
    exact hz.comp (hw.comp hcommit (e := [.frame, .ring, .pkts, .xfree, .txns, .dfree, .tds, .env, .out]) (by decide)
      (by decide)) (by decide) (by decide)

end Sys2Proof.Proofs
end

section
/-! SUPPORT. The force-flush (R145, R146, R226): what becomes of one active TD with its transaction, of the TDs of its
request behind it and of its pipe, and of all active TDs in admission order. -/

namespace Sys2Proof.Machine

/-! What goes with an active TD (R226, R228). -/

/-- The TDs among `ds` of the request of TD `d`, which become cancelled when `d` fails. -/
def State.sweptFrom (s : State) (d : Nat) (ds : List Nat) : List Nat :=
  ds.filter (fun i => decide ((s.td i).request = (s.td d).request))

/-- The queue that TD `d` is on. -/
def State.queueOf (s : State) (d : Nat) : List Nat :=
  match (s.td d).ed with
  | none => []
  | some e => (s.ed e).queue

/-- The TDs that go with the failure of TD `d`, the head of its queue. -/
def State.swept (s : State) (d : Nat) : List Nat := s.sweptFrom d (s.queueOf d).tail

/-- The TDs that the failure of the TDs `l` puts on the done list, in order. -/
def State.flushedTds (s : State) (l : List Nat) : List Nat := l.flatMap (fun d => d :: s.swept d)

theorem queueOf_eq {s : State} {d e : Nat} (h : (s.td d).ed = some e) : s.queueOf d = (s.ed e).queue := by
  unfold State.queueOf
  rw [h]

theorem mem_sweptFrom {s : State} {d i : Nat} {ds : List Nat} :
    i ∈ s.sweptFrom d ds ↔ i ∈ ds ∧ (s.td i).request = (s.td d).request := by
  simp [State.sweptFrom]

/-! The failure of the head TD of a pipe (R226, R228). -/

/-- A halting failure halts the ED, unless it is dying (R226). -/
theorem settledState_halt (x : Ed) :
    settledState true x = { x with state := if x.state = .pendingDelete then .pendingDelete else .halted } := by
  unfold settledState
  rw [if_pos rfl]
  split
  · rename_i h
    rw [← h]
  · rfl

/-- TD `d`, the head of the queue `d :: ds` of ED `e`, has failed with status `st`, and its ED halts. -/
structure FailedHead (st : Ts) (e d : Nat) (ds : List Nat) (s t : State) : Prop where
  tdSelf : t.td d = { s.td d with status := st, place := .done }
  tdSwept : ∀ i ∈ s.sweptFrom d ds, t.td i = { s.td i with place := .done, status := .cancelled }
  tdOther : ∀ i, i ≠ d → i ∉ s.sweptFrom d ds → t.td i = s.td i
  done : t.done = s.done ++ d :: s.sweptFrom d ds
  drainp : t.drainp = true
  ed : t.ed e = { s.ed e with
    state := if (s.ed e).state = .pendingDelete then .pendingDelete else .halted
    queue := ds.filter (fun i => decide ((s.td i).request ≠ (s.td d).request))
    toggleCarry := (t.ed e).toggleCarry }
  carry : ∀ b, (s.td d).toggle = .val b → (∀ i ∈ s.sweptFrom d ds, (s.td i).toggle = .carry) →
    (t.ed e).toggleCarry = if (s.ed e).mode = .iso then (s.ed e).toggleCarry else b
  edOther : ∀ i, i ≠ e → t.ed i = s.ed i
  changes : Framed [.eds, .tds, .done, .drainp] s t

theorem terminate_failedHead {s : State} {e d : Nat} {ds : List Nat} {st : Ts} (hst : st.failing = true)
    (he : (s.td d).ed = some e) (hel : e < s.eds.length) (hq : (s.ed e).queue = d :: ds) (hn : (d :: ds).Nodup)
    (hdl : d < s.tds.length) (hds : ∀ i ∈ ds, i < s.tds.length) :
    FailedHead st e d ds s (terminate d st true s) := by
  obtain ⟨hdn, hdsn⟩ := List.nodup_cons.1 hn
  have hne : ∀ i ∈ ds, i ≠ d := fun i hi hc => hdn (hc ▸ hi)
  let f := finish e d st s
  let w := sweep e (s.td d).request ds f
  have hfe : f.ed e = { s.ed e with queue := ds, toggleCarry := carryAfter (s.ed e) (s.td d) } := by
    rw [finish_ed_self e d st s hel, hq, List.erase_cons_head]
  have hfo : ∀ i, i ≠ d → f.td i = s.td i := fun i => finish_td_other e d i st s
  have hreq : ∀ i ∈ ds, (f.td i).request = (s.td i).request := fun i hi => by rw [hfo i (hne i hi)]
  have hfl : e < f.eds.length := by rw [finish_eds_length]; exact hel
  have hw : Swept e (s.td d).request ds f w :=
    sweep_swept e _ ds f hfl (by rw [hfe]; exact hdsn) hdsn (fun i hi => by rw [finish_tds_length]; exact hds i hi)
  have ht : terminate d st true s = w.modEd e (settledState true) := by
    rw [terminate_eq d e st true s he, if_pos hst]
    show (sweep e (s.td d).request (f.ed e).queue f).modEd e _ = _
    rw [hfe]
  have hte : (terminate d st true s).ed e = settledState true (w.ed e) := by
    rw [ht]
    exact modEd_ed_self e _ w (by rw [sweep_eds_length]; exact hfl)
  have hcarry : ((terminate d st true s).ed e).toggleCarry = (w.ed e).toggleCarry := by rw [hte, settledState_halt]
  have htd : ∀ i, (terminate d st true s).td i = w.td i := fun i => by
    rw [ht]
    rfl
  refine ⟨?tdSelf, ?tdSwept, ?tdOther, ?done, ?drainp, ?ed, ?carry, ?edOther, terminate_framed d st true s⟩
  case tdSelf => rw [htd, hw.tdOut d (.inl hdn), finish_td_self e d st s hdl]
  case tdSwept =>
    intro i hi
    obtain ⟨hids, hir⟩ := mem_sweptFrom.1 hi
    rw [htd, hw.tdIn i hids ((hreq i hids).trans hir), hfo i (hne i hids)]
  case tdOther =>
    intro i hid hi
    rw [htd, hw.tdOut i, hfo i hid]
    by_cases hids : i ∈ ds
    · exact .inr fun hc => hi (mem_sweptFrom.2 ⟨hids, (hreq i hids).symm.trans hc⟩)
    · exact .inl hids
  case done =>
    have hswept : ds.filter (fun i => decide ((f.td i).request = (s.td d).request)) = s.sweptFrom d ds :=
      List.filter_congr fun i hi => by rw [hreq i hi]
    rw [ht]
    show w.done = _
    rw [hw.done, hswept, finish_done, List.append_assoc]
    rfl
  case drainp =>
    rw [ht]
    exact hw.drainp rfl
  case ed =>
    have hqueue : (w.ed e).queue = ds.filter (fun i => decide ((s.td i).request ≠ (s.td d).request)) := by
      rw [hw.queue, hfe]
      exact List.filter_congr fun i hi => by simp [hi, hreq i hi]
    rw [hcarry, hte, settledState_halt, ← hqueue, hw.ed, hfe]
  case carry =>
    intro b hb hc
    rw [hcarry, hw.carry, hfe]
    · show carryAfter (s.ed e) (s.td d) = _
      simp only [carryAfter, hb]
    · intro i hi hir
      rw [hfo i (hne i hi)]
      exact hc i (mem_sweptFrom.2 ⟨hi, (hreq i hi).symm.trans hir⟩)
  case edOther =>
    intro i hi
    rw [ht, modEd_ed_other e i _ w (Ne.symm hi), hw.edOther i hi, finish_ed_other e d i st s hi]

/-! One active TD (R145, R146). -/

/-- The transaction of an active TD ends, and the TD fails with a timeout (R145). -/
theorem flushOne_live {s : State} {x p d : Nat} (hl : s.liveTxn x p d) (hx : (s.td d).txn = some x) :
    flushOne d s = terminate d .timeout true (s.ended x p d) := by
  unfold flushOne abortTxn
  rw [hx, ← endTxn_ended s x p d hl]

/-- TD `d`, the head of the queue `d :: ds` of ED `e`, has failed with a timeout; its record `x` and Packet `p` are
free (R145, R215, R226). -/
structure FlushedOne (e d x p : Nat) (ds : List Nat) (s t : State) : Prop where
  tdSelf : t.td d = { s.td d with txn := none, place := .done, status := .timeout }
  tdSwept : ∀ i ∈ s.sweptFrom d ds, t.td i = { s.td i with place := .done, status := .cancelled }
  tdOther : ∀ i, i ≠ d → i ∉ s.sweptFrom d ds → t.td i = s.td i
  done : t.done = s.done ++ d :: s.sweptFrom d ds
  drainp : t.drainp = true
  ed : t.ed e = { s.ed e with
    state := if (s.ed e).state = .pendingDelete then .pendingDelete else .halted
    queue := ds.filter (fun i => decide ((s.td i).request ≠ (s.td d).request))
    toggleCarry := (t.ed e).toggleCarry }
  carry : ∀ b, (s.td d).toggle = .val b → (∀ i ∈ s.sweptFrom d ds, (s.td i).toggle = .carry) →
    (t.ed e).toggleCarry = if (s.ed e).mode = .iso then (s.ed e).toggleCarry else b
  edOther : ∀ i, i ≠ e → t.ed i = s.ed i
  frame : t.frame = { s.frame with active := s.frame.active.erase d }
  xfree : t.xfree = x :: s.xfree
  txn : (t.txn x).alloc = false
  pkt : (t.pkt p).out = false
  dfree : t.dfree = (s.txn x).dummy.toList ++ s.dfree
  changes : Framed [.frame, .tds, .eds, .done, .drainp, .txns, .xfree, .pkts, .ring, .dfree] s t

theorem flushOne_flushed {s : State} {e d x p : Nat} {ds : List Nat} (hl : s.liveTxn x p d) (hp : p < s.pkts.length)
    (hx : (s.td d).txn = some x) (he : (s.td d).ed = some e) (hel : e < s.eds.length)
    (hq : (s.ed e).queue = d :: ds) (hn : (d :: ds).Nodup) (hds : ∀ i ∈ ds, i < s.tds.length) :
    FlushedOne e d x p ds s (flushOne d s) := by
  have hdn : d ∉ ds := (List.nodup_cons.1 hn).1
  obtain ⟨⟨hxl, -⟩, -, -, -, hdl, -⟩ := id hl
  let z := s.ended x p d
  have hzd : z.td d = { s.td d with txn := none, place := .queued } := ended_td_self s x p d hdl
  have hzo : ∀ i, i ≠ d → z.td i = s.td i := ended_td_other s x p d
  have hzds : ∀ i ∈ ds, z.td i = s.td i := fun i hi => hzo i fun hc => hdn (hc ▸ hi)
  have hzl : z.tds.length = s.tds.length := List.length_modify ..
  have h : FailedHead .timeout e d ds z (flushOne d s) := by
    rw [flushOne_live hl hx]
    exact terminate_failedHead rfl (by rw [hzd]; exact he) hel hq hn (by rw [hzl]; exact hdl)
      fun i hi => by rw [hzl]; exact hds i hi
  have hswept : z.sweptFrom d ds = s.sweptFrom d ds :=
    List.filter_congr fun i hi => by rw [hzds i hi, hzd]
  have hrest : ds.filter (fun i => decide ((z.td i).request ≠ (z.td d).request)) =
      ds.filter (fun i => decide ((s.td i).request ≠ (s.td d).request)) :=
    List.filter_congr fun i hi => by rw [hzds i hi, hzd]
  have hsweptTd : ∀ i ∈ s.sweptFrom d ds, z.td i = s.td i := fun i hi => hzds i (mem_sweptFrom.1 hi).1
  refine ⟨by rw [h.tdSelf, hzd], fun i hi => by rw [h.tdSwept i (hswept ▸ hi), hsweptTd i hi],
    fun i hid hi => (h.tdOther i hid (hswept ▸ hi)).trans (hzo i hid), by rw [h.done, hswept]; rfl, h.drainp,
    by rw [← hrest]; exact h.ed, fun b hb hc => ?carry, h.edOther, h.changes.frame_eq (by decide),
    h.changes.xfree_eq (by decide), ?txn, ?pkt, h.changes.dfree_eq (by decide),
    (ended_framed s x p d).comp h.changes (by decide) (by decide)⟩
  case carry =>
    refine h.carry b (by rw [hzd]; exact hb) fun i hi => ?_
    rw [hswept] at hi
    rw [hsweptTd i hi]
    exact hc i hi
  case txn =>
    rw [txn_congr (h.changes.txns_eq (by decide))]
    exact congrArg Txn.alloc (modTxn_txn_self x (fun t => { t with alloc := false }) s hxl)
  case pkt =>
    rw [pkt_congr (h.changes.pkts_eq (by decide))]
    exact congrArg Pkt.out (modPkt_pkt_self p (fun _ => Pkt.initial) s hp)

/-! All active TDs, in admission order (R145). -/

/-- An active TD heads its queue, its transaction is in flight, and no other TD of its queue is active (R45). -/
theorem State.Paired.active_head {s : State} (hs : s.Paired) (hp : s.poolsOk) {d : Nat} (hd : d ∈ s.frame.active) :
    ∃ e x p ds, s.liveTxn x p d ∧ (s.td d).txn = some x ∧ (s.td d).ed = some e ∧ (s.ed e).queue = d :: ds := by
  have ha := (hs.places.active d).2 hd
  obtain ⟨x, hx⟩ := Option.ne_none_iff_exists'.1 ((hs.places.activeTxn d).1 ha)
  obtain ⟨p, hl⟩ := hs.liveTxn hp d x hx
  obtain ⟨e, he⟩ := (hs.places.queued d).1 (.inr ha)
  obtain ⟨ds, hds⟩ := List.head?_eq_some_iff.1 (hs.places.activeHead e d he ha)
  exact ⟨e, x, p, ds, hl, hx, hs.places.queueEd e d he, hds⟩

/-- Different active TDs are on different queues (R45). -/
theorem State.Paired.active_ed_ne {s : State} (hs : s.Paired) (hp : s.poolsOk) {d i : Nat} (hd : d ∈ s.frame.active)
    (hi : i ∈ s.frame.active) (hne : i ≠ d) : (s.td i).ed ≠ (s.td d).ed := by
  obtain ⟨e, -, -, ds, -, -, he, hq⟩ := hs.active_head hp hd
  obtain ⟨e', -, -, ds', -, -, he', hq'⟩ := hs.active_head hp hi
  rw [he, he']
  intro hc
  obtain rfl : e' = e := Option.some.inj hc
  exact hne (List.cons.inj (hq'.symm.trans hq)).1

/-- What goes with an active TD is on its queue (R29). -/
theorem State.Paired.swept_ed {s : State} (hs : s.Paired) (hp : s.poolsOk) {d i : Nat} (hd : d ∈ s.frame.active)
    (hi : i ∈ d :: s.swept d) : (s.td i).ed = (s.td d).ed := by
  obtain ⟨e, -, -, ds, -, -, he, hq⟩ := hs.active_head hp hd
  rcases List.mem_cons.1 hi with rfl | hi
  · rfl
  · obtain ⟨hids, -⟩ := mem_sweptFrom.1 hi
    rw [queueOf_eq he, hq, List.tail_cons] at hids
    rw [he]
    exact hs.places.queueEd e i (by rw [hq]; exact List.mem_cons_of_mem d hids)

/-- What becomes in `t` of ED `e`, whose head TD `d` has failed (R226). -/
structure FlushedEd (d e : Nat) (s t : State) : Prop where
  ed : t.ed e = { s.ed e with
    state := if (s.ed e).state = .pendingDelete then .pendingDelete else .halted
    queue := (s.ed e).queue.tail.filter (fun i => decide ((s.td i).request ≠ (s.td d).request))
    toggleCarry := (t.ed e).toggleCarry }
  carry : ∀ b, (s.td d).toggle = .val b → (∀ i ∈ s.swept d, (s.td i).toggle = .carry) →
    (t.ed e).toggleCarry = if (s.ed e).mode = .iso then (s.ed e).toggleCarry else b

/-- It does not matter what happened before to other pipes. -/
theorem FlushedEd.of_kept {d e : Nat} {s t u : State} (h : FlushedEd d e t u) (hed : t.ed e = s.ed e)
    (hd : t.td d = s.td d) (he : (s.td d).ed = some e) (hq : ∀ i ∈ (s.ed e).queue, t.td i = s.td i)
    (hswept : t.swept d = s.swept d) : FlushedEd d e s u := by
  obtain ⟨hed', hcarry⟩ := h
  have hfilter : (s.ed e).queue.tail.filter (fun i => decide ((t.td i).request ≠ (s.td d).request)) =
      (s.ed e).queue.tail.filter (fun i => decide ((s.td i).request ≠ (s.td d).request)) :=
    List.filter_congr fun i hi => by rw [hq i (List.mem_of_mem_tail hi)]
  rw [hed, hd, hfilter] at hed'
  rw [hed, hd, hswept] at hcarry
  refine ⟨hed', fun b hb htoggles => hcarry b hb fun i hi => ?_⟩
  have hiq := (mem_sweptFrom.1 hi).1
  rw [queueOf_eq he] at hiq
  rw [hq i (List.mem_of_mem_tail hiq)]
  exact htoggles i hi

/-- What the flush of the active TDs `l` does, in their order (R145, R226). -/
structure FlushedAll (l : List Nat) (s t : State) : Prop where
  pools : t.poolsOk
  paired : t.Paired
  frame : t.frame = { s.frame with active := l.foldl List.erase s.frame.active }
  tdActive : ∀ d ∈ l, t.td d = { s.td d with txn := none, place := .done, status := .timeout }
  tdSwept : ∀ d ∈ l, ∀ i ∈ s.swept d, t.td i = { s.td i with place := .done, status := .cancelled }
  tdOther : ∀ i, i ∉ s.flushedTds l → t.td i = s.td i
  done : t.done = s.done ++ s.flushedTds l
  drainp : l ≠ [] ∨ s.drainp = true → t.drainp = true
  ed : ∀ d ∈ l, ∀ e, (s.td d).ed = some e → FlushedEd d e s t
  edOther : ∀ e, (∀ d ∈ l, (s.td d).ed ≠ some e) → t.ed e = s.ed e
  xfree : t.xfree = (l.filterMap (fun d => (s.td d).txn)).reverse ++ s.xfree
  changes : Framed [.frame, .tds, .eds, .done, .drainp, .txns, .xfree, .pkts, .ring, .dfree] s t

theorem FlushedAll.none {s : State} (hp : s.poolsOk) (hs : s.Paired) : FlushedAll [] s s where
  pools := hp
  paired := hs
  frame := rfl
  tdActive := by simp
  tdSwept := by simp
  tdOther _ _ := rfl
  done := by simp [State.flushedTds]
  drainp h := h.resolve_left fun hc => hc rfl
  ed := by simp
  edOther _ _ := rfl
  xfree := rfl
  changes := Framed.refl _ _

/-- The flush of an active TD leaves the TDs on other queues, and what goes with the active ones, as they were. -/
structure FlushApart (d : Nat) (s t : State) : Prop where
  td : ∀ i, (s.td i).ed ≠ (s.td d).ed → t.td i = s.td i
  ed : ∀ e, (s.td d).ed ≠ some e → t.ed e = s.ed e
  swept : ∀ i ∈ s.frame.active, i ≠ d → t.swept i = s.swept i

theorem FlushedOne.apart {s t : State} {e d x p : Nat} {ds : List Nat} (h : FlushedOne e d x p ds s t) (hs : s.Paired)
    (hp : s.poolsOk) (hd : d ∈ s.frame.active) (he : (s.td d).ed = some e) (hq : (s.ed e).queue = d :: ds) :
    FlushApart d s t := by
  have hswept : s.sweptFrom d ds = s.swept d := by rw [State.swept, queueOf_eq he, hq, List.tail_cons]
  have htd : ∀ i, (s.td i).ed ≠ (s.td d).ed → t.td i = s.td i := by
    intro i hi
    refine h.tdOther i (fun hc => hi (by rw [hc])) fun hc => hi (hs.swept_ed hp hd (List.mem_cons_of_mem d ?_))
    rwa [← hswept]
  have hed : ∀ i, (s.td d).ed ≠ some i → t.ed i = s.ed i := fun i hi => h.edOther i fun hc => hi (by rw [hc, he])
  refine ⟨htd, hed, fun i hi hne => ?_⟩
  have hied := hs.active_ed_ne hp hd hi hne
  obtain ⟨e', -, -, ds', -, -, he', hq'⟩ := hs.active_head hp hi
  have htail : ∀ j ∈ (s.ed e').queue, t.td j = s.td j := fun j hj =>
    htd j (by rw [hs.places.queueEd e' j hj, ← he']; exact hied)
  unfold State.swept
  rw [queueOf_eq he', queueOf_eq (e := e') (by rw [htd i hied, he']), hed e' (by rw [← he']; exact hied.symm)]
  refine List.filter_congr fun j hj => ?_
  rw [htail j (List.mem_of_mem_tail hj), htd i hied]

/-- The flush of one active TD and then of others (R145). -/
theorem FlushedAll.cons {s t u : State} {e d x p : Nat} {ds rest : List Nat} (hs : s.Paired) (hp : s.poolsOk)
    (hd : d ∈ s.frame.active) (hrest : ∀ i ∈ rest, i ∈ s.frame.active) (hdn : d ∉ rest) (hx : (s.td d).txn = some x)
    (he : (s.td d).ed = some e) (hq : (s.ed e).queue = d :: ds) (h : FlushedOne e d x p ds s t)
    (hu : FlushedAll rest t u) : FlushedAll (d :: rest) s u := by
  have hswept : s.sweptFrom d ds = s.swept d := by rw [State.swept, queueOf_eq he, hq, List.tail_cons]
  have hne : ∀ i ∈ rest, i ≠ d := fun i hi hc => hdn (hc ▸ hi)
  have hapart := h.apart hs hp hd he hq
  have hrestEd : ∀ i ∈ rest, (s.td i).ed ≠ (s.td d).ed := fun i hi => hs.active_ed_ne hp hd (hrest i hi) (hne i hi)
  have htd : ∀ i ∈ rest, t.td i = s.td i := fun i hi => hapart.td i (hrestEd i hi)
  have hsw : ∀ i ∈ rest, t.swept i = s.swept i := fun i hi => hapart.swept i (hrest i hi) (hne i hi)
  have hflushed : t.flushedTds rest = s.flushedTds rest := List.flatMap_congr fun i hi => by rw [hsw i hi]
  have hfar : ∀ i ∈ s.flushedTds rest, (s.td i).ed ≠ (s.td d).ed := by
    intro i hi
    obtain ⟨j, hj, hij⟩ := List.mem_flatMap.1 hi
    rw [hs.swept_ed hp (hrest j hj) hij]
    exact hrestEd j hj
  have hkept : ∀ i ∈ d :: s.swept d, u.td i = t.td i := fun i hi =>
    hu.tdOther i fun hc => hfar i (by rwa [hflushed] at hc) (hs.swept_ed hp hd hi)
  have hedKept : u.ed e = t.ed e := hu.edOther e fun i hi => by
    rw [htd i hi, ← he]
    exact hrestEd i hi
  refine ⟨hu.pools, hu.paired, ?frame, ?tdActive, ?tdSwept, ?tdOther, ?done, ?drainp, ?ed, ?edOther, ?xfree,
    h.changes.trans hu.changes⟩
  case frame => rw [hu.frame, h.frame, List.foldl_cons]
  case tdActive =>
    intro i hi
    rcases List.mem_cons.1 hi with rfl | hi
    · exact (hkept i List.mem_cons_self).trans h.tdSelf
    · rw [hu.tdActive i hi, htd i hi]
  case tdSwept =>
    intro i hi j hj
    rcases List.mem_cons.1 hi with rfl | hi
    · exact (hkept j (List.mem_cons_of_mem _ hj)).trans (h.tdSwept j (by rwa [hswept]))
    · have hjd : (s.td j).ed ≠ (s.td d).ed :=
        hfar j (List.mem_flatMap.2 ⟨i, hi, List.mem_cons_of_mem i hj⟩)
      rw [hu.tdSwept i hi j (by rwa [hsw i hi]), hapart.td j hjd]
  case tdOther =>
    intro i hi
    simp only [State.flushedTds, List.flatMap_cons, List.cons_append, List.mem_cons, List.mem_append, not_or] at hi
    obtain ⟨hid, his, hir⟩ := hi
    rw [hu.tdOther i (by rw [hflushed]; exact hir), h.tdOther i hid (by rwa [hswept])]
  case done =>
    rw [hu.done, h.done, hflushed, hswept, List.append_assoc]
    rfl
  case drainp => exact fun _ => hu.drainp (.inr h.drainp)
  case ed =>
    intro i hi e' he'
    rcases List.mem_cons.1 hi with rfl | hi
    · obtain rfl : e = e' := Option.some.inj (he.symm.trans he')
      have hflushedEd : FlushedEd i e s t := ⟨by rw [hq]; exact h.ed, by rw [← hswept]; exact h.carry⟩
      exact ⟨by rw [hedKept]; exact hflushedEd.ed, by rw [hedKept]; exact hflushedEd.carry⟩
    · have hfarEd : (s.td d).ed ≠ some e' := by rw [← he']; exact (hrestEd i hi).symm
      refine (hu.ed i hi e' (by rw [htd i hi, he'])).of_kept (hapart.ed e' hfarEd) (htd i hi) he' (fun j hj => ?_)
        (hsw i hi)
      exact hapart.td j (by rw [hs.places.queueEd e' j hj]; exact hfarEd.symm)
  case edOther =>
    intro e' he'
    rw [hu.edOther e' fun i hi => by rw [htd i hi]; exact he' i (List.mem_cons_of_mem d hi)]
    exact hapart.ed e' (he' d List.mem_cons_self)
  case xfree =>
    have hmap : rest.filterMap (fun i => (t.td i).txn) = rest.filterMap (fun i => (s.td i).txn) :=
      List.filterMap_congr fun i hi => by rw [htd i hi]
    have hcons : (d :: rest).filterMap (fun i => (s.td i).txn) = x :: rest.filterMap (fun i => (s.td i).txn) :=
      List.filterMap_cons_some hx
    rw [hu.xfree, h.xfree, hmap, hcons, List.reverse_cons, List.append_assoc]
    rfl

/-- The loop of `force_flush()`, over active TDs (R145). -/
theorem flushList_flushed (l : List Nat) (s : State) (hn : l.Nodup) (hp : s.poolsOk) (hl : ∀ d ∈ l, d ∈ s.frame.active)
    (hs : s.Paired) : FlushedAll l s (flushList l s) := by
  induction l generalizing s with
  | nil => exact FlushedAll.none hp hs
  | cons d rest ih =>
    obtain ⟨hdn, hrn⟩ := List.nodup_cons.1 hn
    have hd := hl d List.mem_cons_self
    have hrest : ∀ i ∈ rest, i ∈ s.frame.active := fun i hi => hl i (List.mem_cons_of_mem d hi)
    obtain ⟨e, x, p, ds, hlive, hx, he, hq⟩ := hs.active_head hp hd
    have hpl : p < s.pkts.length := by
      obtain ⟨-, ⟨-, -, -, -, hsize, -⟩, -⟩ := hp
      obtain ⟨-, -, hcap, -⟩ := hlive
      exact hsize ▸ hcap
    have hone : FlushedOne e d x p ds s (flushOne d s) :=
      flushOne_flushed hlive hpl hx he (mem_queue_lt (s := s) (d := d) (by rw [hq]; exact List.mem_cons_self)) hq
        (hq ▸ hs.places.queueNodup e) fun i hi => hs.mem_lt (e := e) (by rw [hq]; exact List.mem_cons_of_mem d hi)
    obtain ⟨hpaired, hpools, hactive⟩ := flushOne_paired d s hp hd hs
    refine FlushedAll.cons hs hp hd hrest hdn hx he hq hone (ih _ hrn hpools (fun i hi => ?_) hpaired)
    rw [hactive]
    exact (List.mem_erase_of_ne (show i ≠ d from fun hc => hdn (hc ▸ hi))).2 (hrest i hi)

/-- `force_flush()` flushes all active TDs (R145). -/
theorem forceFlush_flushed {s : State} (hp : s.poolsOk) (hs : s.Paired) :
    FlushedAll s.frame.active s (forceFlush s) :=
  flushList_flushed _ s hs.places.activeNodup hp (fun _ hd => hd) hs

/-! Nothing is left in flight (R145). -/

/-- With no active TD, no transaction holds a record, a Packet or a dummy buffer (R39, R44, R46). -/
theorem State.Paired.nothingInFlight {s : State} (hs : s.Paired) (h : s.frame.active = []) :
    (∀ x, (s.txn x).alloc = false) ∧ (∀ p, (s.pkt p).out = false) ∧ ∀ k < s.cfg.nDummy, k ∈ s.dfree := by
  have hfree : ∀ x, ¬ (s.txn x).alloc = true := by
    intro x hx
    obtain ⟨d, hd⟩ := hs.records.td x hx
    have htxn : (s.td d).txn ≠ none := by
      rw [(hs.records.link d x).2 ⟨hx, hd⟩]
      exact Option.some_ne_none x
    have hactive := (hs.places.active d).1 ((hs.places.activeTxn d).2 htxn)
    rw [h] at hactive
    exact List.not_mem_nil hactive
  refine ⟨fun x => Bool.eq_false_of_not_eq_true (hfree x), fun p => Bool.eq_false_of_not_eq_true fun hp => ?_,
    fun k hk => by_contra fun hkd => ?_⟩
  · obtain ⟨x, hx, -⟩ := (hs.records.pktOut p).1 hp
    exact hfree x hx
  · obtain ⟨x, hx, -⟩ := (hs.records.dummy k).1 ⟨hk, hkd⟩
    exact hfree x hx

/-- An empty frame is open after the flush of all active TDs (R145, R147). -/
def State.flushedOpen (s : State) : State := (forceFlush s).setFrame (.empty s.frnum)

theorem openFrame_forceFlush {s : State} (h : (forceFlush s).frame.active = []) :
    openFrame (forceFlush s) = s.flushedOpen := by
  rw [openFrame_of_noActive h, (forceFlush_framed s).frnum_eq (by decide)]
  rfl

theorem flushedOpen_paired {s : State} (h : (forceFlush s).frame.active = []) (hs : (forceFlush s).Paired) :
    s.flushedOpen.Paired := by
  rw [← openFrame_forceFlush h]
  exact State.Paired.congr (openFrame_samePairs _) hs

/-- After a flush of all active TDs a new frame is opened, and scanned on a connected bus (R143, R147, R148). -/
theorem newFrame_forceFlush {s : State} (h : (forceFlush s).frame.active = []) :
    newFrame (forceFlush s) = if s.flushedOpen.bussts.connected then scanClasses s.flushedOpen else s.flushedOpen := by
  rw [← openFrame_forceFlush h]
  rfl

/-- The flush of the only active TD, with its region held or not (R58, R145). -/
theorem forceFlush_single_setLock {s : State} {x p d : Nat} (hl : s.liveTxn x p d) (hx : (s.td d).txn = some x)
    (ha : s.frame.active = [d]) (l : Lock) : forceFlush (s.setLock l) = (flushOne d s).setLock l := by
  have hflush : forceFlush (s.setLock l) = flushOne d (s.setLock l) := by
    unfold forceFlush
    rw [State.setLock_frame, ha]
    rfl
  rw [hflush, flushOne_live (s := s.setLock l) hl hx, ended_setLock, terminate_setLock, flushOne_live hl hx]

end Sys2Proof.Machine

namespace Sys2Proof.Proofs

open Sys2Proof.Machine

/-- Settles O31: the flush of all active TDs by that of one after another, then the new frame. -/
theorem staleFrameIsFlushed : Obligations.StaleFrameIsFlushed := by
  refine ⟨?all, ?single⟩
  case all =>
    intro s hpools hpaired hactive hold n queueOf swept gone
    let z := (s.setLock .heldA).counted
    have hz : Framed [.lock, .frnum] s z := (setLock_framed .heldA s).comp (setFrnum_framed n _) (by decide) (by decide)
    have hf : FlushedAll s.frame.active z (forceFlush z) :=
      forceFlush_flushed (s := z) (poolsOk_of_framed hz (by decide) hpools)
        (State.Paired.congr (SamePairs.of_framed hz (by decide)) hpaired)
    have hnone : (forceFlush z).frame.active = [] := by
      rw [hf.frame]
      exact foldl_erase_self s.frame.active
    have hu := flushedOpen_paired hnone hf.paired
    obtain ⟨htxns, hpkts, hdummies⟩ := hu.nothingInFlight rfl
    have hbody : frameStartBody (s.setLock .heldA) = newFrame (forceFlush z) := frameStartBody_stale hactive hold
    have hopened : Framed [.frame] (forceFlush z) z.flushedOpen := setFrame_framed _ _
    have hcfg : z.flushedOpen.cfg = s.cfg := (hf.changes.cfg_eq (by decide)).trans (hz.cfg_eq (by decide))
    refine ⟨z.flushedOpen, ?exec, poolsOk_of_framed hopened (by decide) hf.pools, hu, ?frnum, rfl, hf.tdActive,
      hf.tdSwept, hf.tdOther, hf.done, hf.drainp (.inl hactive), fun d hd e he => ?ed, hf.edOther, hf.xfree, htxns,
      hpkts, fun k hk => hdummies k (by rw [hcfg]; exact hk), ?changes⟩
    case exec =>
      rw [exec_evFrameStart, hbody, newFrame_forceFlush hnone, scanClasses_eq]
    case frnum => exact hf.changes.frnum_eq (by decide)
    case ed =>
      obtain ⟨hed, hcarry⟩ := hf.ed d hd e he
      exact ⟨hed, hcarry⟩
    case changes =>
      exact hz.comp (hf.changes.comp hopened (by decide) (by decide)
        (e := [.frame, .tds, .eds, .done, .drainp, .txns, .xfree, .pkts, .ring, .dfree])) (by decide) (by decide)
  case single =>
    intro s x p d e b ds hsized hbus hactive hl hold hx he hem halloc hq hn hds hb hmode swept
    let z := s.counted
    obtain ⟨hedSize, -, -, -, hpktSize, -⟩ := hsized
    have hpl : p < s.pkts.length := by
      obtain ⟨-, -, hcap, -⟩ := hl
      exact hpktSize ▸ hcap
    have hel : e < s.eds.length := hedSize ▸ hem
    have hf : FlushedOne e d x p ds z (flushOne d z) :=
      flushOne_flushed (s := z) hl hpl hx he hel hq hn fun i hi => (hds i hi).1
    have hne : s.frame.active ≠ [] := by rw [hactive]; exact List.cons_ne_nil d []
    have hempty : (flushOne d z).frame.active = [] := by
      rw [hf.frame]
      show s.frame.active.erase d = []
      rw [hactive, List.erase_cons_head]
    let t := (flushOne d z).setFrame (.empty (nextFrnum s.cfg s.frnum))
    have hfrnum : (flushOne d z).frnum = nextFrnum s.cfg s.frnum := hf.changes.frnum_eq (by decide)
    have hbody : frameStartBody (s.setLock .heldA) = t.setLock .heldA :=
      calc frameStartBody (s.setLock .heldA)
        _ = newFrame (forceFlush (z.setLock .heldA)) := frameStartBody_stale (s := s.setLock .heldA) hne hold
        _ = newFrame ((flushOne d z).setLock .heldA) := by
          rw [forceFlush_single_setLock (s := z) hl hx hactive]
        _ = openFrame ((flushOne d z).setLock .heldA) :=
          newFrame_disconnected ((congrArg BusSts.connected (hf.changes.bussts_eq (by decide))).trans hbus)
        _ = ((flushOne d z).setLock .heldA).setFrame (.empty (flushOne d z).frnum) := openFrame_of_noActive hempty
        _ = t.setLock .heldA := by
          rw [hfrnum]
          rfl
    refine ⟨t, exec_evFrameStart_of_body hbody, rfl, hf.tdSelf, hf.tdSwept, hf.tdOther, hf.done, hf.drainp, ?ed,
      hf.edOther, hf.xfree, hf.txn, hf.pkt, hf.dfree, ?changes⟩
    case ed =>
      have hcarry := hf.carry b hb fun i hi => (hds i (mem_sweptFrom.1 hi).1).2
      rw [show (z.ed e).mode = (s.ed e).mode from rfl, if_neg hmode] at hcarry
      have hed := hf.ed
      rw [hcarry] at hed
      exact hed
    case changes =>
      exact (setFrnum_framed _ s).comp (hf.changes.comp (setFrame_framed _ _) (by decide) (by decide)
        (e := [.frame, .tds, .eds, .done, .drainp, .txns, .xfree, .pkts, .ring, .dfree])) (by decide) (by decide)

end Sys2Proof.Proofs
end

section
/-! SUPPORT. The host commands that build nothing (R180, R183, R191, R193): what each answers, and the one ED that
CANCEL and EP_CLEAR_HALT change. -/

namespace Sys2Proof

/-- The reserved bits of an `endpoint_id` that passes its operand check (R111). -/
theorem reservedZero_eq_true {eid : EndpointId} (h15 : eid.rsv15 = false) (hHi : eid.rsvHi = 0#5) :
    eid.reservedZero = true := by
  simp [EndpointId.reservedZero, h15, hHi]

end Sys2Proof

namespace Sys2Proof.Machine

/-- A host command that updates one ED and answers changes nothing else (R112, R285). -/
theorem runPass_of_modEd_respond {s : State} {body : State → State} {e : Nat} {g : Ed → Ed} {op : BitVec 8}
    {code : Code} {value : BitVec 16}
    (h : body (s.setLock .heldH) = respond op code value ((s.setLock .heldH).modEd e g)) :
    runPass .heldH body s = ({ s with eds := s.eds.modify e g } : State).answered op code.num value :=
  (congrArg leavePass h).trans (runPass_modEd_respond s e g op code value)

/-! CANCEL (R183). -/

theorem cancelBody_of_noTd {h : Word} {s : State} (ha : handleAligned h = true)
    (hnone : liveTd s (s.handle h) = none) : cancelBody h s = respond 0x02#8 .notFound 0#16 s := by
  simp only [cancelBody, ha, hnone, Bool.true_eq_false, if_false]

theorem cancelBody_of_td {h : Word} {s : State} {t : Td} {e : Nat} (ha : handleAligned h = true)
    (hsome : liveTd s (s.handle h) = some t) (he : t.ed = some e) :
    cancelBody h s = respond 0x02#8 .ok 0#16 (s.modEd e (fun x => { x with state := .pendingDelete })) := by
  simp only [cancelBody, ha, hsome, he, markDying, Bool.true_eq_false, if_false]

/-! EP_CLEAR_HALT (R191). -/

theorem clearHaltBody_of_unknown {eid : EndpointId} {s : State} (hr : eid.reservedZero = true)
    (hl : lookup s (pipeKey eid) = none) : clearHaltBody eid s = respond 0x04#8 .notFound 0#16 s := by
  simp only [clearHaltBody, hr, hl, Bool.true_eq_false, if_false]

theorem clearHaltBody_of_pipe {eid : EndpointId} {s : State} {e : Nat} (hr : eid.reservedZero = true)
    (hl : lookup s (pipeKey eid) = some e) :
    clearHaltBody eid s = respond 0x04#8 .ok 0#16 (s.modEd e clearHalt) := by
  simp only [clearHaltBody, hr, hl, Bool.true_eq_false, if_false]

theorem modEd_clearHalt_of_halted {s : State} {e : Nat} (h : (s.ed e).state = .halted) :
    s.modEd e clearHalt = s.modEd e (fun x => { x with state := if x.queue = [] then .skip else .operational }) :=
  modEd_congr e _ _ s (if_pos h)

theorem modEd_clearHalt_of_not_halted {s : State} {e : Nat} (h : (s.ed e).state ≠ .halted) :
    s.modEd e clearHalt = s :=
  (modEd_congr e _ _ s (if_neg h)).trans (modEd_same e s)

/-! The refusals of SUBMIT, in the order of R299. -/

theorem submitBody_of_refusal {eid : EndpointId} {h : Word} {s : State} {code : Code} {value : BitVec 16}
    (hv : submitVerdict s eid h = .refuse code value) : submitBody eid h s = respond 0x01#8 code value s := by
  simp only [submitBody, hv]

/-- A refused SUBMIT only answers (R179). -/
theorem exec_submit_refused {eid : EndpointId} {h : Word} {s : State} {code : Code} {value : BitVec 16} {num : BitVec 8}
    (hv : submitVerdict s eid h = .refuse code value) (hnum : code.num = num) :
    exec (.submit eid h) s = .next (s.answered 0x01#8 num value) := by
  have hbody := submitBody_of_refusal (s := s.setLock .heldH) hv
  exact congrArg Host.Outcome.next ((runPass_of_respond hbody).trans (by rw [hnum]))

theorem submitVerdict_of_invalid {s : State} {eid : EndpointId} {h : Word} (hv : submitValid s eid h = false) :
    submitVerdict s eid h = .refuse .illegal 0#16 := if_pos hv

theorem submitVerdict_of_notAccepting {s : State} {eid : EndpointId} {h : Word} (hv : submitValid s eid h = true)
    (hna : notAccepting s (lookup s (pipeKey eid)) = true) :
    submitVerdict s eid h = .refuse .busy busyNotAccepting := by
  simp only [submitVerdict, hv, hna, Bool.true_eq_false, if_false, if_true]

/-- With valid operands and a pipe that takes transfers, the request's own words and the pools decide (R299). -/
theorem submitVerdict_of_accepting {s : State} {eid : EndpointId} {h : Word} {e : Option Nat}
    (hv : submitValid s eid h = true) (hl : lookup s (pipeKey eid) = e) (hna : notAccepting s e = false) :
    submitVerdict s eid h =
      if flagsReservedZero (s.field (s.handle h) offFlags) = false then .refuse .illegal 0#16
      else if tdCount s (pipeOf s eid e).mode (s.handle h) = 0 then .refuse .illegal 0#16
      else if poolsShort s e (tdCount s (pipeOf s eid e).mode (s.handle h)) then .refuse .busy busyPoolExhausted
      else .accept e := by
  simp only [submitVerdict, hv, hl, hna, Bool.true_eq_false, Bool.false_eq_true, if_false]

theorem notAccepting_some_iff {s : State} {e : Nat} :
    notAccepting s (some e) = true ↔ (s.ed e).state = .halted ∨ (s.ed e).state = .pendingDelete := by
  simp [notAccepting]

theorem flagsReservedZero_iff {flags : Word} : flagsReservedZero flags = true ↔ flags.extractLsb' 2 30 = 0#30 := by
  simp [flagsReservedZero]

/-- The shortages for which R179 refuses a request of `n` parts. -/
theorem poolsShort_iff {s : State} {e : Option Nat} {n : Nat} :
    poolsShort s e n = true ↔ s.tfree.length < n ∨ s.kfree.length < n ∨ (e = none ∧ s.efree = []) := by
  simp [poolsShort, or_assoc]

/-- A handle that an allocated TD has already is not valid (R171). -/
theorem submitValid_eq_false_of_inFlight {s : State} {eid : EndpointId} {h : Word} {d : Nat} (hd : d < s.tds.length)
    (ha : (s.td d).alloc = true) (hr : (s.td d).request = s.handle h) : submitValid s eid h = false := by
  have hflight : requestInFlight s (s.handle h) = true := (requestInFlight_iff s _).2 ⟨d, hd, ha, hr⟩
  simp [submitValid, hflight]

/-- What a pipe that takes transfers looks like to SUBMIT: not yet known, or known and neither halted nor dying
(R172, R180). -/
theorem lookup_of_accepting {s : State} {eid : EndpointId} {e : Option Nat}
    (h : e = none ∧ s.noPipe (pipeKey eid) ∨ ∃ k, e = some k ∧ s.onlyPipe k (pipeKey eid) ∧
      (s.ed k).state ≠ .halted ∧ (s.ed k).state ≠ .pendingDelete) :
    lookup s (pipeKey eid) = e ∧ notAccepting s e = false := by
  obtain ⟨rfl, hno⟩ | ⟨k, rfl, honly, hhalt, hdying⟩ := h
  · exact ⟨lookup_noPipe s _ hno, rfl⟩
  · refine ⟨lookup_onlyPipe s k _ honly, Bool.eq_false_iff.2 fun hna => ?_⟩
    exact (notAccepting_some_iff.1 hna).elim hhalt hdying

end Sys2Proof.Machine

namespace Sys2Proof.Proofs

open Sys2Proof.Machine

/-- Settles O11: GET_FRAME is the pass that only answers. -/
theorem getFrameAnswersFrnum : Obligations.GetFrameAnswersFrnum := by
  intro s
  exact congrArg Host.Outcome.next (runPass_respond s 0x05#8 .ok s.frnum)

/-- Settles O12: CANCEL asks for a live TD of the request, and every live TD names the same ED. -/
theorem cancelMarksThePipeDying : Obligations.CancelMarksThePipeDying := by
  intro s h
  refine ⟨rfl, fun hh => ?misaligned, fun hh hnone => ?notFound, fun d e hh hd hed => ?marked⟩
  case misaligned => exact congrArg _ (runPass_of_respond (cancelBody_of_misaligned (handleAligned_eq_false hh) _))
  case notFound =>
    have hfind : liveTd s (s.handle h) = none := liveTd_none s _ hnone
    exact congrArg _ (runPass_of_respond (cancelBody_of_noTd ((handleAligned_iff h).2 hh) hfind))
  case marked =>
    obtain ⟨i, hi, hfind⟩ := liveTd_some s _ d hd
    exact congrArg _ (runPass_of_modEd_respond (cancelBody_of_td ((handleAligned_iff h).2 hh) hfind (hed i hi)))

/-- Settles O13, by what the search for the pipe finds. -/
theorem clearHaltReleasesAHaltedPipe : Obligations.ClearHaltReleasesAHaltedPipe := by
  intro s eid
  refine ⟨rfl, fun hr => ?reserved, fun h15 hHi hno => ?unknown, fun e h15 hHi honly => ⟨fun hh => ?halted,
    fun hh => ?other⟩⟩
  case reserved => exact congrArg _ (runPass_of_respond (clearHaltBody_of_reserved (reservedZero_eq_false hr) _))
  case unknown =>
    have hl : lookup s (pipeKey eid) = none := lookup_noPipe s _ hno
    exact congrArg _ (runPass_of_respond (clearHaltBody_of_unknown (reservedZero_eq_true h15 hHi) hl))
  all_goals
    have hl : lookup (s.setLock .heldH) (pipeKey eid) = some e := lookup_onlyPipe s e _ honly
    have hbody := clearHaltBody_of_pipe (reservedZero_eq_true h15 hHi) hl
  case halted =>
    rw [modEd_clearHalt_of_halted (s := s.setLock .heldH) hh] at hbody
    exact congrArg _ (runPass_of_modEd_respond hbody)
  case other =>
    rw [modEd_clearHalt_of_not_halted (s := s.setLock .heldH) hh] at hbody
    exact congrArg _ (runPass_of_respond hbody)

/-- Settles O14: the pipe's state is asked for right after the operands (R299). -/
theorem submitToAHaltedPipeIsBusy : Obligations.SubmitToAHaltedPipeIsBusy := by
  intro s eid h e hv honly hstate
  have hna : notAccepting s (lookup s (pipeKey eid)) = true := by
    rw [lookup_onlyPipe s e _ honly]
    exact notAccepting_some_iff.2 hstate
  have hverdict := submitVerdict_of_notAccepting hv hna
  exact exec_submit_refused hverdict rfl

/-- Settles O15: three causes in the operands alone, and the fourth in the TDs. -/
theorem submitValidatesItsOperands : Obligations.SubmitValidatesItsOperands := by
  intro s eid h hbad
  have hv : submitValid s eid h = false := by
    obtain h15 | hHi | hmax | halign | ⟨d, hd, ha, hr⟩ := hbad
    · exact submitValid_eq_false (.inl h15) s
    · exact submitValid_eq_false (.inr (.inl hHi)) s
    · exact submitValid_eq_false (.inr (.inr (.inl hmax))) s
    · exact submitValid_eq_false (.inr (.inr (.inr halign))) s
    · exact submitValid_eq_false_of_inFlight hd ha hr
  have hverdict := submitVerdict_of_invalid hv
  exact exec_submit_refused hverdict rfl

/-- Settles O16, check by check in the order of R299. -/
theorem submitRefusesWithoutEffect : Obligations.SubmitRefusesWithoutEffect := by
  intro s eid h e hv hpipe n
  obtain ⟨hl, hna⟩ := lookup_of_accepting hpipe
  have hverdict := submitVerdict_of_accepting hv hl hna
  refine ⟨fun hflags => ?flags, fun hiso hsub => ?noSubPacket, fun hflags hn hshort => ?short⟩
  case flags =>
    have hz : flagsReservedZero (s.field (s.handle h) offFlags) = false :=
      Bool.eq_false_iff.2 fun hz => hflags (flagsReservedZero_iff.1 hz)
    rw [if_pos hz] at hverdict
    exact exec_submit_refused hverdict rfl
  case noSubPacket =>
    have hcount : tdCount s (pipeOf s eid e).mode (s.handle h) = 0 := by
      rw [hiso]
      exact congrArg BitVec.toNat hsub
    rw [if_pos hcount, ite_self] at hverdict
    exact exec_submit_refused hverdict rfl
  case short =>
    have hz : ¬ flagsReservedZero (s.field (s.handle h) offFlags) = false :=
      ne_false_of_eq_true (flagsReservedZero_iff.2 hflags)
    rw [if_neg hz, if_neg hn, if_pos (poolsShort_iff.2 hshort)] at hverdict
    exact exec_submit_refused hverdict rfl

end Sys2Proof.Proofs
end

section
/-! SUPPORT. The parts of a request (R173 to R175): which list `td_specs` is for each mode, and the chunks of a bulk or
interrupt request, whose lengths are what is left of it, cut at `CHUNK_SIZE`. -/

namespace Sys2Proof.Machine

theorem tdSpecs_ctrl {pipe : Pipe} (hm : pipe.mode = .ctrl) (s : State) (h : Addr) :
    tdSpecs s pipe h = controlSpecs s h := by
  simp only [tdSpecs, hm]

/-- A control part of a request: no interval, frame or terminator of its own (R173). -/
def controlPart (dir : Dir) (data : Addr) (length : BitVec 32) (toggle : Toggle) : TdSpec where
  dir := dir
  data := data
  length := length
  toggle := toggle
  startFrame := none
  interval := 0#16
  zlpPending := false

/-- The SETUP part of a control request (R173, R174). -/
def setupPart (s : State) (h : Addr) : TdSpec :=
  controlPart .setup (wrapAddr s.cfg (s.field h offSetup).toNat) 8#32 (.val false)

/-- Without data, the status stage is IN (R174). -/
theorem controlSpecs_of_noData {s : State} {h : Addr} (hlen : s.field h offLength = 0#32) :
    controlSpecs s h = [setupPart s h, controlPart .inn 0 0#32 (.val true)] := by
  simp only [controlSpecs, hlen, ne_eq, not_true_eq_false, false_and, if_false, if_true]
  rfl

/-- With data, the status stage goes against the data stage (R174). -/
theorem controlSpecs_of_data {s : State} {h : Addr} (hlen : s.field h offLength ≠ 0#32) :
    controlSpecs s h =
      [setupPart s h,
        controlPart (if flagDirIn (s.field h offFlags) then .inn else .out)
          (wrapAddr s.cfg (s.field h offBuffer).toNat) (s.field h offLength) .carry,
        controlPart (if flagDirIn (s.field h offFlags) then .out else .inn) 0 0#32 (.val true)] := by
  simp only [controlSpecs, hlen, ne_eq, not_false_eq_true, true_and, if_false]
  rfl

theorem tdSpecs_iso {pipe : Pipe} (hm : pipe.mode = .iso) (s : State) (h : Addr) :
    tdSpecs s pipe h = (List.range (s.field h offNPackets).toNat).map (subPacketSpec s pipe h) := by
  simp only [tdSpecs, tdCount, hm]

/-- The interval of the chunks of a pipe (R173): the request's on an interrupt pipe, 0 on a bulk one. -/
def chunkInterval (s : State) (pipe : Pipe) (h : Addr) : BitVec 16 :=
  if pipe.mode = .intr then (s.field h offPeriod).extractLsb' 0 16 else 0#16

/-- How many chunks a bulk or interrupt request has (R173). -/
def requestChunks (s : State) (h : Addr) : Nat := chunkCount s.cfg (s.field h offLength).toNat

theorem tdSpecs_chunks {pipe : Pipe} (hm : pipe.mode = .bulk ∨ pipe.mode = .intr) (s : State) (h : Addr) :
    tdSpecs s pipe h =
      (List.range (requestChunks s h)).map (chunkSpec s pipe h (chunkInterval s pipe h) (requestChunks s h)) := by
  obtain hm | hm := hm
  · simp only [tdSpecs, tdCount, chunkInterval, requestChunks, hm, reduceCtorEq, if_false]
  · simp only [tdSpecs, tdCount, chunkInterval, requestChunks, hm, if_true]

/-- The parts of a list of parts made by index are those of the indices in range. -/
theorem getElem?_map_range {α : Type} {f : Nat → α} {n i : Nat} {x : α}
    (h : ((List.range n).map f)[i]? = some x) : i < n ∧ f i = x := by
  obtain ⟨hi, hx⟩ := List.getElem?_eq_some_iff.1 h
  exact ⟨by simpa using hi, by simpa using hx⟩

/-! The lengths of the chunks. -/

/-- The first `n` pieces of `len`, cut at `size`, have as much as `n` whole pieces would, or all. -/
theorem sum_pieces (size len n : Nat) :
    ((List.range n).map (fun i => min size (len - i * size))).sum = min len (n * size) := by
  induction n with
  | zero => simp
  | succ n ih =>
    rw [List.range_succ, List.map_append, List.sum_append, ih, List.map_singleton, List.sum_singleton, Nat.succ_mul]
    omega

/-- The chunks are enough for the whole request (R173). -/
theorem le_chunkCount_mul {c : Config} (hsize : 1 ≤ c.chunkSize) (len : Nat) :
    len ≤ chunkCount c len * c.chunkSize := by
  have hceil : len ≤ (len + c.chunkSize - 1) / c.chunkSize * c.chunkSize := by
    have hdiv := Nat.div_add_mod (len + c.chunkSize - 1) c.chunkSize
    have hmod := Nat.mod_lt (len + c.chunkSize - 1) (show 0 < c.chunkSize from hsize)
    rw [Nat.mul_comm] at hdiv
    omega
  exact hceil.trans (Nat.mul_le_mul_right _ (Nat.le_max_right 1 _))

/-- A chunk's length is no more than the request's, so its word holds it (R173). -/
theorem chunkSpec_length_toNat (s : State) (pipe : Pipe) (h : Addr) (interval : BitVec 16) (n i : Nat) :
    (chunkSpec s pipe h interval n i).length.toNat =
      min s.cfg.chunkSize ((s.field h offLength).toNat - i * s.cfg.chunkSize) := by
  have hlt := (s.field h offLength).isLt
  exact (BitVec.toNat_ofNat _ _).trans (Nat.mod_eq_of_lt (by omega))

theorem wantsZlp_iff {s : State} {pipe : Pipe} {h : Addr} :
    wantsZlp s pipe h = true ↔ (s.field h offFlags).getLsbD 1 = true ∧ pipe.dirIn = false ∧
      0 < (s.field h offLength).toNat ∧ (s.field h offLength).toNat % pipe.maxPacket.toNat = 0 := by
  simp only [wantsZlp, flagZeroPacket, Bool.and_eq_true, Bool.not_eq_true', decide_eq_true_eq, and_assoc]

end Sys2Proof.Machine

namespace Sys2Proof.Proofs

open Sys2Proof.Machine

/-- Settles O19, by whether the request has data and by the direction it asks for. -/
theorem controlRequestStages : Obligations.ControlRequestStages := by
  intro s pipe h hm length dirIn part setup
  rw [tdSpecs_ctrl hm]
  by_cases hlen : length = 0#32
  · rw [if_pos hlen]
    exact controlSpecs_of_noData hlen
  · rw [if_neg hlen]
    exact controlSpecs_of_data hlen

/-- Settles O20: the chunks are a list by index, and the pieces of the length add up to it. -/
theorem chunksCoverTheRequest : Obligations.ChunksCoverTheRequest := by
  intro s pipe h hvalid hm specs len buffer size
  have hsize : 1 ≤ s.cfg.chunkSize := by
    obtain ⟨-, -, -, -, -, -, -, -, -, -, -, -, -, -, hsize, -⟩ := hvalid
    exact hsize
  have hspecs : specs = _ := tdSpecs_chunks hm s h
  have hcount : specs.length = requestChunks s h := by rw [hspecs, List.length_map, List.length_range]
  refine ⟨hcount, ?sum, fun i sp hsp => ?part⟩
  case sum =>
    have hlengths : specs.map (fun sp => sp.length.toNat) =
        (List.range (requestChunks s h)).map (fun i => min size (len - i * size)) := by
      rw [hspecs, List.map_map]
      exact List.map_congr_left fun i _ => chunkSpec_length_toNat s pipe h _ _ i
    rw [hlengths, sum_pieces]
    exact Nat.min_eq_left (le_chunkCount_mul hsize len)
  case part =>
    rw [hspecs] at hsp
    obtain ⟨-, rfl⟩ := getElem?_map_range hsp
    refine ⟨rfl, chunkSpec_length_toNat s pipe h _ _ i, rfl, rfl, rfl, rfl, ?_⟩
    rw [hcount]
    simp only [chunkSpec, Bool.and_eq_true, decide_eq_true_eq, wantsZlp_iff]
    rfl

/-- Settles O21: the sub-packets are a list by index, and a target frame fits its 16 bits. -/
theorem isochronousTargetFrames : Obligations.IsochronousTargetFrames := by
  intro s pipe h hvalid hm
  rw [tdSpecs_iso hm]
  refine ⟨by rw [List.length_map, List.length_range]; rfl, fun i sp hsp => ?_⟩
  obtain ⟨-, rfl⟩ := getElem?_map_range hsp
  refine ⟨rfl, rfl, rfl, rfl, rfl, rfl, _, rfl, ?_⟩
  have hlt := Nat.mod_lt (((s.field h offPeriod).extractLsb' 16 16).toNat +
    i * ((s.field h offPeriod).extractLsb' 0 16).toNat) (frameWrap_pos hvalid)
  have hle := frameWrap_le hvalid
  exact (BitVec.toNat_ofNat _ _).trans (Nat.mod_eq_of_lt (by omega))

end Sys2Proof.Proofs
end

section
/-! SUPPORT. An accepted SUBMIT (R170, R172, R176, R178, R179): the pipe's own ED or the one it creates, then the same
making, linking and writing on it, said once as `Queued`. -/

namespace Sys2Proof.Machine

/-- What an accepted SUBMIT of the parts `specs` of request `h` does to a state whose ED `e` is the pipe's (R170). -/
structure Queued (e : Nat) (h : Addr) (specs : List TdSpec) (s t : State) : Prop where
  out : t.out = s.out ++ [.memWrite (wrapAddr s.cfg (h + 0x18)) 0#32, .memWrite (wrapAddr s.cfg (h + 0x1C)) 0#32,
    .response 0x01000000#32]
  actual : t.field h 0x18 = 0#32
  status : t.field h 0x1C = 0#32
  mem : SameOutside h s t
  tfree : t.tfree = s.tfree.drop specs.length
  kfree : t.kfree = s.kfree.drop specs.length
  ed : t.ed e =
    { s.ed e with state := .operational, queue := (s.ed e).queue ++ s.tfree.take specs.length }
  otherEd : ∀ i, i ≠ e → t.ed i = s.ed i
  made : ∀ (j : Nat) (sp : TdSpec) (d k : Nat), specs[j]? = some sp → s.tfree[j]? = some d → s.kfree[j]? = some k →
    t.td d = madeTd e k h s.frnum sp (decide (j + 1 = specs.length)) ∧ t.tok k = madeTok (s.ed e) d sp
  otherTd : ∀ d, d ∉ s.tfree.take specs.length → t.td d = s.td d
  otherTok : ∀ k, k ∉ s.kfree.take specs.length → t.tok k = s.tok k
  frame : Framed [.tfree, .tds, .kfree, .toks, .eds, .mem, .out, .lock] s t

/-- In sound pools the free TDs and Tokens are as many distinct entries as a request asks for. -/
theorem linkTds_linked_of_poolsOk {e : Nat} {specs : List TdSpec} {s : State} (h : Addr) (hp : s.poolsOk)
    (he : e < s.eds.length) (ht : specs.length ≤ s.tfree.length) (hk : specs.length ≤ s.kfree.length) :
    Linked e h specs s (linkTds e h specs s) := by
  obtain ⟨-, ⟨-, htds, htoks, -⟩, ⟨-, ⟨htn, htl, -⟩, ⟨hkn, hkl, -⟩, -⟩, -⟩ := hp
  exact linkTds_linked e h specs s he htn (fun d hd => htds ▸ htl d hd) hkn (fun k hk => htoks ▸ hkl k hk) ht hk

/-- The ED pool keeps its size when TDs are linked. -/
theorem linkTds_eds_length (e : Nat) (h : Addr) (specs : List TdSpec) {s : State} (hp : s.poolsOk) :
    (linkTds e h specs s).eds.length = s.eds.length := by
  obtain ⟨-, ⟨heds, -⟩, -⟩ := linkTds_poolsOk e h specs s hp
  obtain ⟨-, ⟨heds', -⟩, -⟩ := hp
  rw [heds, heds', (linkTds_framed e h specs s).cfg_eq (by decide)]

/-- The answer of an accepted SUBMIT (R112). -/
theorem submit_ok_response : responseWord 0x01#8 .ok 0#16 = 0x01000000#32 := by decide

/-! What follows the linking: the ED is `Operational`, and the request's record is opened. -/

theorem acceptOn_framed_of_linked (e : Nat) (h : Addr) (specs : List TdSpec) (s : State) :
    Framed [.eds, .mem, .out] (linkTds e h specs s) (acceptOn e h specs s) :=
  (modEd_framed e _ _).comp (openRequest_framed h _) (by decide) (by decide)

theorem acceptOn_ed_self {e : Nat} {h : Addr} {specs : List TdSpec} {s : State}
    (he : e < (linkTds e h specs s).eds.length) :
    (acceptOn e h specs s).ed e = { (linkTds e h specs s).ed e with state := .operational } :=
  (ed_congr ((openRequest_framed h _).eds_eq (by decide)) e).trans (modEd_ed_self e _ _ he)

theorem acceptOn_ed_other {e i : Nat} {h : Addr} {specs : List TdSpec} {s : State} (hi : i ≠ e) :
    (acceptOn e h specs s).ed i = (linkTds e h specs s).ed i :=
  (ed_congr ((openRequest_framed h _).eds_eq (by decide)) i).trans (modEd_ed_other e i _ _ (Ne.symm hi))

/-- The writes that end an accepted SUBMIT, by the memory it started from (R79, R170). -/
theorem acceptOn_record (e : Nat) {h : Addr} (specs : List TdSpec) {s : State} (hw : Memory.wf s.mem)
    (hbits : 6 ≤ s.cfg.addrBits) :
    (acceptOn e h specs s).field h 0x18 = 0#32 ∧ (acceptOn e h specs s).field h 0x1C = 0#32 ∧
    SameOutside h s (acceptOn e h specs s) ∧
    (acceptOn e h specs s).out = s.out ++
      [.memWrite (wrapAddr s.cfg (h + 0x18)) 0#32, .memWrite (wrapAddr s.cfg (h + 0x1C)) 0#32] := by
  unfold acceptOn
  generalize hv : (linkTds e h specs s).modEd e (fun x => { x with state := .operational }) = v
  have hF : Framed [.tfree, .tds, .kfree, .toks, .eds] s v :=
    hv ▸ (linkTds_framed e h specs s).comp (modEd_framed e _ _) (by decide) (by decide)
  have hcfg : v.cfg = s.cfg := hF.cfg_eq (by decide)
  have hmem : v.mem = s.mem := hF.mem_eq (by decide)
  obtain ⟨hactual, hstatus, hread⟩ := openRequest_facts h v (by rw [hmem]; exact hw) (by rw [hcfg]; exact hbits)
  have hout := openRequest_out h v
  rw [hF.out_eq (by decide), hcfg, wrapAddr_wrapAddr, wrapAddr_wrapAddr] at hout
  rw [hcfg, hmem] at hread
  exact ⟨hactual, hstatus, hread, hout⟩

/-- The pass from the linking of the TDs to the answer (R170). -/
theorem acceptOn_queued {e : Nat} {h : Addr} {specs : List TdSpec} {s : State} (hp : s.poolsOk)
    (hw : Memory.wf s.mem) (hbits : 6 ≤ s.cfg.addrBits) (he : e < s.eds.length)
    (ht : specs.length ≤ s.tfree.length) (hk : specs.length ≤ s.kfree.length) :
    Queued e h specs s (leavePass (respond 0x01#8 .ok 0#16 (acceptOn e h specs s))) := by
  have hlinked := linkTds_linked_of_poolsOk h hp he ht hk
  have hself := acceptOn_ed_self (h := h) (specs := specs) (by rw [linkTds_eds_length e h specs hp]; exact he)
  have hother := fun i => acceptOn_ed_other (e := e) (i := i) (h := h) (specs := specs) (s := s)
  have hafter := acceptOn_framed_of_linked e h specs s
  obtain ⟨hactual, hstatus, hmem, hout⟩ := acceptOn_record e (h := h) specs hw hbits
  generalize linkTds e h specs s = u at hlinked hself hother hafter
  generalize acceptOn e h specs s = w at hself hother hafter hactual hstatus hmem hout
  have htd : ∀ d, w.td d = u.td d := td_congr (hafter.tds_eq (by decide))
  have htok : ∀ k, w.tok k = u.tok k := tok_congr (hafter.toks_eq (by decide))
  have hF : Framed [.tfree, .tds, .kfree, .toks, .eds, .mem, .out] s w :=
    hlinked.frame.comp hafter (by decide) (by decide)
  exact
    { out := by
        show w.out ++ [.response (responseWord 0x01#8 .ok 0#16)] = _
        rw [hout, List.append_assoc, submit_ok_response]
        rfl
      actual := hactual
      status := hstatus
      mem := hmem
      tfree := (hafter.tfree_eq (by decide)).trans hlinked.tfree
      kfree := (hafter.kfree_eq (by decide)).trans hlinked.kfree
      ed := hself.trans (by rw [hlinked.ed])
      otherEd := fun i hi => (hother i hi).trans (hlinked.otherEd i hi)
      made := fun j sp d k hj hd hk => by
        obtain ⟨hmadeTd, hmadeTok⟩ := hlinked.made j sp d k hj hd hk
        exact ⟨(htd d).trans hmadeTd, (htok k).trans hmadeTok⟩
      otherTd := fun d hd => (htd d).trans (hlinked.otherTd d hd)
      otherTok := fun k hk => (htok k).trans (hlinked.otherTok k hk)
      frame := (hF.mono (by decide)).trans
        (((respond_framed _ _ _ w).mono (by decide)).trans ((setLock_framed _ _).mono (by decide))) }

/-! The creation of the ED (R172). -/

/-- `create_ed` with an ED free, as one state. -/
def State.withNewEd (s : State) (eid : EndpointId) (e : Nat) (efree : List Nat) : State :=
  { s with
    efree := efree
    eds := s.eds.modify e (fun x => newEd eid { x with alloc := true })
    cls := s.cls.set eid.mode (s.cls.get eid.mode ++ [e]) }

theorem createEd_eq {s : State} {eid : EndpointId} {e : Nat} {efree : List Nat} (he : s.efree = e :: efree) :
    createEd eid s = (some e, s.withNewEd eid e efree) := by
  have halloc : edAlloc s = (some e, (s.setEfree efree).modEd e (fun x => { x with alloc := true })) := by
    simp only [edAlloc, he]
  simp only [createEd, halloc, State.modEd, State.setEds, State.setEfree, State.setCls, List.modify_modify_eq]
  rfl

theorem withNewEd_poolsOk {s : State} {eid : EndpointId} {e : Nat} {efree : List Nat} (he : s.efree = e :: efree)
    (hp : s.poolsOk) : (s.withNewEd eid e efree).poolsOk := by
  have h := createEd_poolsOk eid s hp
  rw [createEd_eq he] at h
  exact h

theorem efreeHead_lt {s : State} {e : Nat} {efree : List Nat} (he : s.efree = e :: efree) (hp : s.poolsOk) :
    e < s.eds.length := by
  obtain ⟨-, ⟨heds, -⟩, ⟨⟨-, hlt, -⟩, -⟩, -⟩ := hp
  rw [heds]
  exact hlt e (by simp [he])

/-- The fields a new ED has before its first TD (R172). -/
theorem withNewEd_ed_self {s : State} {eid : EndpointId} {e : Nat} {efree : List Nat} (he : e < s.eds.length) :
    (s.withNewEd eid e efree).ed e =
      { alloc := true, state := .skip, devAddr := eid.devAddr, epNum := eid.epNum, dirIn := pipeDir eid,
        mode := eid.mode, speed := eid.speed, maxPacket := eid.maxPacket, toggleCarry := false, queue := [] } :=
  modEd_ed_self e (fun x => newEd eid { x with alloc := true }) s he

theorem withNewEd_ed_other {s : State} {eid : EndpointId} {e i : Nat} {efree : List Nat} (hi : i ≠ e) :
    (s.withNewEd eid e efree).ed i = s.ed i :=
  modEd_ed_other e i (fun x => newEd eid { x with alloc := true }) s (Ne.symm hi)

theorem withNewEd_framed (s : State) (eid : EndpointId) (e : Nat) (efree : List Nat) :
    Framed [.efree, .eds, .cls] s (s.withNewEd eid e efree) := by
  intro f hf
  cases f
  case efree | eds | cls => exact absurd (by decide) hf
  all_goals rfl

/-! The two ways to accept. -/

theorem submitBody_of_accept {eid : EndpointId} {h : Word} {s : State} {e : Option Nat}
    (hv : submitVerdict s eid h = .accept e) :
    submitBody eid h s = respond 0x01#8 .ok 0#16 (submitAccept eid (s.handle h) e s) := by
  simp only [submitBody, hv]

theorem submitAccept_known (eid : EndpointId) (h : Addr) (e : Nat) (s : State) :
    submitAccept eid h (some e) s = acceptOn e h (tdSpecs s (pipeOf s eid (some e)) h) s := rfl

theorem submitAccept_new {eid : EndpointId} {s : State} {e : Nat} {efree : List Nat} (h : Addr)
    (he : s.efree = e :: efree) :
    submitAccept eid h none s =
      acceptOn e h (tdSpecs s (pipeOf s eid none) h) (s.withNewEd eid e efree) := by
  simp only [submitAccept, ensureEd, createEd_eq he]

end Sys2Proof.Machine

namespace Sys2Proof.Proofs

open Sys2Proof.Machine

/-- Settles O17: the verdict accepts on the pipe's own ED, and the pass is the making and linking on it. -/
theorem submitQueuesTheRequest : Obligations.SubmitQueuesTheRequest := by
  intro s eid h e hp hw hbits hv honly hhalt hdying hflags specs n hn ht hk
  have hlen : n = tdCount s (pipeOf s eid (some e)).mode (s.handle h) := specs_len s _ _
  obtain ⟨hl, hna⟩ := lookup_of_accepting (.inr ⟨e, rfl, honly, hhalt, hdying⟩)
  have hverdict : submitVerdict (s.setLock .heldH) eid h = .accept (some e) :=
    verdict_accept s eid h (some e) hv hl hna hflags (hlen ▸ hn) (hlen ▸ ht) (hlen ▸ hk) (by simp)
  have hbody := submitBody_of_accept hverdict
  rw [submitAccept_known] at hbody
  obtain ⟨he, -⟩ := honly
  have hq : Queued e (s.handle h) specs (s.setLock .heldH) _ :=
    acceptOn_queued (s := s.setLock .heldH) (h := s.handle h) (poolsOk_setLock _ hp) hw hbits he ht hk
  exact ⟨_, congrArg (fun t => Host.Outcome.next (leavePass t)) hbody, hq.out, hq.actual, hq.status, hq.mem, hq.tfree,
    hq.kfree, hq.ed, hq.otherEd, hq.made, hq.otherTd, hq.otherTok,
    ((setLock_framed .heldH s).mono (by decide)).trans hq.frame⟩

/-- Settles O18: the verdict accepts without an ED, one is created, and the rest is as on a known pipe. -/
theorem submitCreatesTheFirstPipe : Obligations.SubmitCreatesTheFirstPipe := by
  intro s eid h e efree hp hw hbits hv hno hefree hflags specs n hn ht hk
  have hlen : n = tdCount s (pipeOf s eid none).mode (s.handle h) := specs_len s _ _
  obtain ⟨hl, hna⟩ := lookup_of_accepting (.inl ⟨rfl, hno⟩)
  have hverdict : submitVerdict (s.setLock .heldH) eid h = .accept none :=
    verdict_accept s eid h none hv hl hna hflags (hlen ▸ hn) (hlen ▸ ht) (hlen ▸ hk) (by simp [hefree])
  have hbody := submitBody_of_accept hverdict
  rw [submitAccept_new (s := s.setLock .heldH) _ hefree] at hbody
  have he := efreeHead_lt hefree hp
  have hself := withNewEd_ed_self (s := s.setLock .heldH) (eid := eid) (efree := efree) he
  have hq := acceptOn_queued (s := (s.setLock .heldH).withNewEd eid e efree) (h := s.handle h) (specs := specs)
    (withNewEd_poolsOk (s := s.setLock .heldH) hefree (poolsOk_setLock _ hp)) hw hbits
    (by rw [State.withNewEd, List.length_modify]; exact he) ht hk
  have hed := hq.ed
  have hmade := hq.made
  rw [hself] at hed hmade
  refine ⟨_, congrArg (fun t => Host.Outcome.next (leavePass t)) hbody, hq.out, hq.actual, hq.status, hq.mem,
    hq.frame.efree_eq (by decide), hed, fun i hi => (hq.otherEd i hi).trans (withNewEd_ed_other hi),
    hq.frame.cls_eq (by decide), hq.tfree, hq.kfree, hmade, hq.otherTd, hq.otherTok, ?_⟩
  exact ((setLock_framed .heldH s).mono (by decide)).trans
    (((withNewEd_framed _ eid e efree).mono (by decide)).trans (hq.frame.mono (by decide)))

end Sys2Proof.Proofs
end

section
/-! SUPPORT. EP_TEARDOWN (R188, R189), stage by stage: the head's transaction is aborted, the pipe's TDs are cancelled
onto the done list, the done list is drained, the ED is removed. -/

namespace Sys2Proof.Machine

/-! The abort of the head's transaction (R188, R215). -/

/-- The fields the abort of a transaction can change. -/
abbrev abortFields : List Field := [.dfree, .ring, .pkts, .frame, .tds, .xfree, .txns, .diag]

theorem abortHead_framed (e : Nat) (s : State) : Framed abortFields s (abortHead e s) := by
  unfold abortHead
  split
  · exact Framed.refl _ s
  · exact (abortTxn_framed _ s).mono (by decide)

theorem abortHead_live {s : State} {e d x p : Nat} {ds : List Nat} (hq : (s.ed e).queue = d :: ds)
    (hx : (s.td d).txn = some x) (hl : s.liveTxn x p d) : abortHead e s = s.ended x p d := by
  simp only [abortHead, hq, hx, abortTxn]
  exact endTxn_ended s x p d hl

theorem abortHead_idle {s : State} {e : Nat} (h : ∀ d ds, (s.ed e).queue = d :: ds → (s.td d).txn = none) :
    abortHead e s = s := by
  cases hq : (s.ed e).queue with
  | nil => simp only [abortHead, hq]
  | cons d ds => simp only [abortHead, hq, h d ds hq, abortTxn]

/-- The abort reaches no TD but the pipe's head (R39, R215). -/
theorem State.Paired.abortHead_td {s : State} (hs : s.Paired) {e i : Nat} (hi : i ∉ (s.ed e).queue) :
    (abortHead e s).td i = s.td i := by
  refine abortHead_td_other e i s fun d x hd hx hi' => ?_
  obtain ⟨-, hxd⟩ := (hs.records.link d x).1 hx
  obtain rfl : d = i := Option.some.inj (hxd.symm.trans hi')
  exact hi (List.mem_of_mem_head? hd)

/-! The cancelling of the pipe's TDs. -/

/-- Cancelling TDs changes nothing of any TD but its status and its place (R226). -/
theorem terminateAll_td_keeps {α : Type} (f : Td → α)
    (hf : ∀ (t : Td) st, f { t with status := st, place := .done } = f t) (ds : List Nat) (i : Nat) (s : State) :
    f ((terminateAll .cancelled false ds s).td i) = f (s.td i) := by
  induction ds generalizing s with
  | nil => rfl
  | cons d rest ih =>
    refine (ih _).trans ?_
    cases he : (s.td d).ed with
    | none => rw [terminate_noEd d .cancelled false s he]
    | some e =>
      rw [terminate_cancelled d e s he]
      exact finish_td_keeps f hf e d .cancelled s i

/-- EP_TEARDOWN up to its drain (R188). -/
def pipeCancelled (e : Nat) (s : State) : State :=
  terminateAll .cancelled false ((abortHead e s).ed e).queue (abortHead e s)

theorem teardownEd_eq (e : Nat) (s : State) : teardownEd e s = removeEd e (drainPass (pipeCancelled e s)) := rfl

theorem abortHead_ed (e i : Nat) (s : State) : (abortHead e s).ed i = s.ed i :=
  ed_congr ((abortHead_framed e s).eds_eq (by decide)) i

/-- The abort and the cancelling change of a TD its transaction, its place and its status alone (R188, R215, R226). -/
theorem pipeCancelled_td_keeps {α : Type} (f : Td → α)
    (hf : ∀ (t : Td) x st p, f { t with txn := x, status := st, place := p } = f t) (e i : Nat) (s : State) :
    f ((pipeCancelled e s).td i) = f (s.td i) :=
  (terminateAll_td_keeps f (fun t st => hf t t.txn st .done) _ i _).trans
    (abortHead_td_keeps f (fun t => hf t none t.status .queued) e i s)

theorem pipeCancelled_all {s : State} {e : Nat} (he : e < s.eds.length)
    (hq : ∀ d ∈ (s.ed e).queue, (s.td d).ed = some e) :
    AllCancelled e (s.ed e).queue (abortHead e s) (pipeCancelled e s) := by
  have hall := terminateAll_cancelled e (s.ed e).queue (abortHead e s)
    (by rw [(abortHead_framed e s).eds_eq (by decide)]; exact he)
    (fun d hd => (abortHead_td_keeps Td.ed (fun _ => rfl) e d s).trans (hq d hd))
  rw [pipeCancelled, abortHead_ed]
  exact hall

theorem pipeCancelled_eds_length (e : Nat) (s : State) : (pipeCancelled e s).eds.length = s.eds.length :=
  (terminateAll_eds_length ..).trans (congrArg List.length ((abortHead_framed e s).eds_eq (by decide)))

theorem pipeCancelled_tds_length (e : Nat) (s : State) : (pipeCancelled e s).tds.length = s.tds.length :=
  (terminateAll_tds_length ..).trans (abortHead_tds_length e s)

theorem pipeCancelled_framed (e : Nat) (s : State) :
    Framed (.eds :: .done :: .drainp :: abortFields) s (pipeCancelled e s) :=
  (abortHead_framed e s).comp (terminateAll_framed .cancelled false _ _) (by decide) (by decide)

/-! The whole teardown. -/

/-- The fields a teardown can change after the abort. -/
abbrev afterAbortFields : List Field :=
  [.cls, .efree, .eds, .tds, .done, .drainp, .kfree, .toks, .tfree, .mem, .out, .diag, .lock]

/-- What EP_TEARDOWN does on the ED it found, but for how it ends the requests (R188, R189). -/
structure TornDown (e : Nat) (s t : State) : Prop where
  alloc : (t.ed e).alloc = false
  queue : (t.ed e).queue = []
  efree : t.efree = e :: s.efree
  edOther : ∀ i, i ≠ e → t.ed i = s.ed i
  cls : t.cls = s.cls.set (s.ed e).mode ((s.cls.get (s.ed e).mode).erase e)
  freed : ∀ d ∈ s.done ++ (s.ed e).queue, d < s.cfg.maxTds → (t.td d).alloc = false
  tdOut : s.Paired → ∀ d, d ∉ s.done ++ (s.ed e).queue → t.td d = s.td d
  done : t.done = []
  drainp : t.drainp = false
  mem : ∀ a, (∀ d ∈ s.done ++ (s.ed e).queue, ∀ j < 8, a ≠ wrapAddr s.cfg ((s.td d).request + 0x18 + j)) →
    t.mem.read a = s.mem.read a
  callbacks : ∀ w0 w1 w2, Output.callback w0 w1 w2 ∈ t.out →
    Output.callback w0 w1 w2 ∈ s.out ∨ ∃ d ∈ s.done ++ (s.ed e).queue, w1 = BitVec.ofNat 32 (s.td d).request
  aborted : ∀ x p d ds, (s.ed e).queue = d :: ds → (s.td d).txn = some x → s.liveTxn x p d →
    Framed afterAbortFields (s.ended x p d) t
  idle : (∀ d ds, (s.ed e).queue = d :: ds → (s.td d).txn = none) → Framed afterAbortFields s t

/-- EP_TEARDOWN up to the removal of its ED (R188). -/
structure PipeDrained (e : Nat) (s t : State) : Prop where
  queue : (t.ed e).queue = []
  edAlloc : (t.ed e).alloc = (s.ed e).alloc
  edMode : (t.ed e).mode = (s.ed e).mode
  edOther : ∀ i, i ≠ e → t.ed i = s.ed i
  eds_length : t.eds.length = s.eds.length
  freed : ∀ d ∈ s.done ++ (s.ed e).queue, d < s.cfg.maxTds → (t.td d).alloc = false
  tdOut : s.Paired → ∀ d, d ∉ s.done ++ (s.ed e).queue → t.td d = s.td d
  done : t.done = []
  drainp : t.drainp = false
  mem : ∀ a, (∀ d ∈ s.done ++ (s.ed e).queue, ∀ j < 8, a ≠ wrapAddr s.cfg ((s.td d).request + 0x18 + j)) →
    t.mem.read a = s.mem.read a
  callbacks : ∀ w0 w1 w2, Output.callback w0 w1 w2 ∈ t.out →
    Output.callback w0 w1 w2 ∈ s.out ∨ ∃ d ∈ s.done ++ (s.ed e).queue, w1 = BitVec.ofNat 32 (s.td d).request
  afterAbort : Framed [.eds, .tds, .done, .drainp, .kfree, .toks, .tfree, .mem, .out, .diag] (abortHead e s) t

/-- The done list that EP_TEARDOWN drains (R188): what waited there, and then the pipe's TDs. -/
theorem pipeCancelled_done {s : State} {e : Nat} (he : e < s.eds.length)
    (hq : ∀ d ∈ (s.ed e).queue, (s.td d).ed = some e) : (pipeCancelled e s).done = s.done ++ (s.ed e).queue :=
  (pipeCancelled_all he hq).done.trans (by rw [(abortHead_framed e s).done_eq (by decide)])

theorem drainPass_pipeDrained {s : State} {e : Nat} (he : e < s.eds.length)
    (hq : ∀ d ∈ (s.ed e).queue, (s.td d).ed = some e) : PipeDrained e s (drainPass (pipeCancelled e s)) := by
  have hall := pipeCancelled_all he hq
  have hF := pipeCancelled_framed e s
  have hrequest := fun i => pipeCancelled_td_keeps Td.request (fun _ _ _ _ => rfl) e i s
  have hlen := pipeCancelled_eds_length e s
  have hdone := pipeCancelled_done he hq
  generalize pipeCancelled e s = c at hall hF hrequest hlen hdone
  have hcfg : c.cfg = s.cfg := hF.cfg_eq (by decide)
  have hout : c.out = s.out := hF.out_eq (by decide)
  have hdrained := drainList_drained c.done c
  have hcallbacks := drainList_callbacks c.done c
  have hpass := drainPass_framed c
  have hed : ∀ i, (drainPass c).ed i = c.ed i := ed_congr (hpass.eds_eq (by decide))
  rw [hdone] at hdrained hcallbacks
  simp only [hrequest, hout] at hcallbacks
  have hlist : drainPass c = (drainList (s.done ++ (s.ed e).queue) c).setDrainp false := by rw [drainPass, hdone]
  exact
    { queue := by
        rw [hed, hall.queue, abortHead_ed]
        exact foldl_erase_self _
      edAlloc := by rw [hed, hall.edAlloc, abortHead_ed]
      edMode := by rw [hed, hall.edMode, abortHead_ed]
      edOther := fun i hi => by rw [hed, hall.edOther i hi, abortHead_ed]
      eds_length := by rw [hpass.eds_eq (by decide), hlen]
      freed := fun d hd hdl => hlist ▸ hdrained.freed d hd (by rw [hcfg]; exact hdl)
      tdOut := fun hs d hd => by
        have hdq : d ∉ (s.ed e).queue := fun h => hd (List.mem_append_right _ h)
        rw [← hs.abortHead_td hdq, ← hall.tdOut d hdq, hlist]
        exact hdrained.tdOut d hd
      done := drainPass_done c
      drainp := drainPass_drainp c
      mem := fun a h => by
        rw [← hF.mem_eq (by decide), hlist]
        exact hdrained.mem a fun d hd j hj => by rw [hcfg, hrequest]; exact h d hd j hj
      callbacks := fun w0 w1 w2 h => hcallbacks w0 w1 w2 (by rw [hlist] at h; exact h)
      afterAbort := (hall.frame.mono (by decide)).trans (hpass.mono (by decide)) }

theorem teardownEd_tornDown {s : State} {e : Nat} (he : e < s.eds.length) (hcap : e < s.cfg.maxEds)
    (ha : (s.ed e).alloc = true) (hq : ∀ d ∈ (s.ed e).queue, (s.td d).ed = some e) :
    TornDown e s (teardownEd e s) := by
  have hdrained := drainPass_pipeDrained he hq
  rw [teardownEd_eq]
  generalize drainPass (pipeCancelled e s) = p at hdrained
  have hF : Framed (.eds :: .done :: .drainp :: abortFields ++ [.kfree, .toks, .tfree, .mem, .out]) s p :=
    (abortHead_framed e s).comp hdrained.afterAbort (by decide) (by decide)
  have hcfg : p.cfg = s.cfg := hF.cfg_eq (by decide)
  have hcls : p.cls = s.cls := hF.cls_eq (by decide)
  have hefree : p.efree = s.efree := hF.efree_eq (by decide)
  have hr := removeEd_live e p (by rw [hcfg]; exact hcap) (by rw [hdrained.edAlloc, ha])
  have hrF := removeEd_framed e p
  rw [hdrained.edMode, hcls, hefree] at hr
  generalize removeEd e p = r at hr hrF
  have hself : r.ed e = { p.ed e with alloc := false } := by
    rw [hr]
    exact modEd_ed_self e (fun x => { x with alloc := false }) (p.setCls _) (hdrained.eds_length.symm ▸ he)
  have hother : ∀ i, i ≠ e → r.ed i = p.ed i := fun i hi => by
    rw [hr]
    exact modEd_ed_other e i (fun x => { x with alloc := false }) (p.setCls _) (Ne.symm hi)
  have htd : ∀ d, r.td d = p.td d := td_congr (hrF.tds_eq (by decide))
  have hafter : Framed afterAbortFields (abortHead e s) r :=
    (hdrained.afterAbort.mono (by decide)).trans (hrF.mono (by decide))
  exact
    { alloc := by rw [hself]
      queue := by
        rw [hself]
        exact hdrained.queue
      efree := by rw [hr]; rfl
      edOther := fun i hi => (hother i hi).trans (hdrained.edOther i hi)
      cls := by rw [hr]; rfl
      freed := fun d hd hdl => by rw [htd, hdrained.freed d hd hdl]
      tdOut := fun hs d hd => (htd d).trans (hdrained.tdOut hs d hd)
      done := (hrF.done_eq (by decide)).trans hdrained.done
      drainp := (hrF.drainp_eq (by decide)).trans hdrained.drainp
      mem := fun a h => by rw [hrF.mem_eq (by decide), hdrained.mem a h]
      callbacks := fun w0 w1 w2 h => hdrained.callbacks w0 w1 w2 (by rwa [hrF.out_eq (by decide)] at h)
      aborted := fun x p d ds hqd hx hl => abortHead_live hqd hx hl ▸ hafter
      idle := fun hidle => abortHead_idle hidle ▸ hafter }

/-- The TDs of a pipe are those of the one request `h`, which had not failed, and nothing waits to be drained. -/
structure OneRequest (e : Nat) (h : Addr) (s : State) : Prop where
  pools : s.poolsOk
  paired : s.Paired
  mem : Memory.wf s.mem
  bits : 6 ≤ s.cfg.addrBits
  done : s.done = []
  queue : (s.ed e).queue ≠ []
  only : ∀ d < s.tds.length, (s.td d).alloc = true → ((s.td d).request = h ↔ d ∈ (s.ed e).queue)
  all : ∀ d ∈ (s.ed e).queue, (s.td d).request = h
  status : s.field h 0x1C = 0#32

/-- The bytes that the TDs of a pipe have moved, the SETUP TD's not counted (R263). -/
def movedBytes (e : Nat) (s : State) : Word :=
  (((s.ed e).queue.filter (fun d => decide ((s.td d).dir ≠ .setup))).map (fun d => (s.td d).transferred)).sum

/-- A queued TD is an allocated one (R29). -/
theorem State.Paired.alloc_of_queued {s : State} (hs : s.Paired) {e d : Nat} (hd : d ∈ (s.ed e).queue) :
    (s.td d).alloc = true := by
  have hplace := (hs.places.queued d).2 ⟨e, hd⟩
  refine Bool.not_eq_false _ ▸ fun ha => ?_
  rw [(hs.places.free d).2 ha] at hplace
  simp at hplace

/-- The one request of a pipe torn down ends cancelled, with the bytes its TDs had moved (R119, R263, R265). -/
theorem teardownEd_oneRequest {s : State} {e : Nat} {h : Addr} (hone : OneRequest e h s) (he : e < s.eds.length) :
    (teardownEd e s).field h 0x1C = 5#32 ∧
    (teardownEd e s).field h 0x18 = s.field h 0x18 + movedBytes e s ∧
    ∃ os, (teardownEd e s).out =
        s.out ++ os ++ [.callback 0xC0000005#32 (BitVec.ofNat 32 h) (s.field h 0x18 + movedBytes e s)] ∧
      ∀ w0 w1 w2, Output.callback w0 w1 w2 ∉ os := by
  have hall := pipeCancelled_all he (hone.paired.places.queueEd e)
  have hF := pipeCancelled_framed e s
  have hlen := pipeCancelled_tds_length e s
  have hdir := fun i => pipeCancelled_td_keeps Td.dir (fun _ _ _ _ => rfl) e i s
  have hmoved := fun i => pipeCancelled_td_keeps Td.transferred (fun _ _ _ _ => rfl) e i s
  have halloc := fun i => pipeCancelled_td_keeps Td.alloc (fun _ _ _ _ => rfl) e i s
  have hrequest := fun i => pipeCancelled_td_keeps Td.request (fun _ _ _ _ => rfl) e i s
  have hdone := pipeCancelled_done he (hone.paired.places.queueEd e)
  rw [teardownEd_eq]
  generalize pipeCancelled e s = c at hall hF hlen hdir hmoved halloc hrequest hdone
  rw [hone.done, List.nil_append] at hdone
  have hcfg : c.cfg = s.cfg := hF.cfg_eq (by decide)
  have hfield : ∀ off, c.field h off = s.field h off := field_congr hcfg (hF.mem_eq (by decide)) h
  have hlt : ∀ d ∈ (s.ed e).queue, d < s.tds.length := fun d hd => hone.paired.mem_lt hd
  have hdrain := drainList_cancelled h (s.ed e).queue c hone.queue (hone.paired.places.queueNodup e)
    (fun d hd => by
      obtain ⟨-, ⟨-, htds, -⟩, -⟩ := hone.pools
      rw [hcfg, ← htds, hall.tdIn d hd (by rw [abortHead_tds_length]; exact hlt d hd)]
      exact ⟨hlt d hd, rfl⟩)
    (by rw [hF.mem_eq (by decide)]; exact hone.mem) (by rw [hcfg]; exact hone.bits)
    (fun d hd ha => by rw [hrequest]; exact hone.only d (hlen ▸ hd) (halloc d ▸ ha))
    (fun d hd => by
      rw [hlen, halloc, hrequest]
      exact ⟨hlt d hd, hone.paired.alloc_of_queued hd, hone.all d hd⟩)
    (.inl ((hfield 0x1C).trans hone.status))
  have hsum : (((s.ed e).queue.filter (fun d => decide ((c.td d).dir ≠ .setup))).map
      (fun d => (c.td d).transferred)).sum = movedBytes e s := by
    simp only [hdir, hmoved, movedBytes]
  have hout : c.out = s.out := hF.out_eq (by decide)
  simp only [hsum, hfield, hout] at hdrain
  have hr := removeEd_framed e (drainPass c)
  have hpass : drainPass c = (drainList (s.ed e).queue c).setDrainp false := by rw [drainPass, hdone]
  generalize drainList (s.ed e).queue c = l at hdrain hpass
  rw [hpass] at hr ⊢
  have hend : ∀ off, (removeEd e (l.setDrainp false)).field h off = l.field h off :=
    field_congr (hr.cfg_eq (by decide)) (hr.mem_eq (by decide)) h
  rw [hend, hend, hr.out_eq (by decide)]
  exact hdrain

/-! The pass. -/

theorem teardownBody_of_unknown {eid : EndpointId} {s : State} (hr : eid.reservedZero = true)
    (hl : lookup s (pipeKey eid) = none) : teardownBody eid s = respond 0x03#8 .notFound 0#16 s := by
  simp only [teardownBody, hr, hl, Bool.true_eq_false, if_false]

theorem teardownBody_of_pipe {eid : EndpointId} {s : State} {e : Nat} (hr : eid.reservedZero = true)
    (hl : lookup s (pipeKey eid) = some e) : teardownBody eid s = respond 0x03#8 .ok 0#16 (teardownEd e s) := by
  simp only [teardownBody, hr, hl, Bool.true_eq_false, if_false]

/-- The answer of a teardown (R112). -/
theorem teardown_ok_response : responseWord 0x03#8 .ok 0#16 = 0x03000000#32 := by decide

/-- The state after a pass that tears down ED `e`. -/
def State.afterTeardown (s : State) (e : Nat) : State :=
  leavePass (respond 0x03#8 .ok 0#16 (teardownEd e (s.setLock .heldH)))

theorem afterTeardown_out (s : State) (e : Nat) :
    (s.afterTeardown e).out = (teardownEd e (s.setLock .heldH)).out ++ [.response 0x03000000#32] := by
  rw [← teardown_ok_response]
  rfl

/-- The answer and the end of a pass write no host memory (R285). -/
theorem respond_pass_field (op : BitVec 8) (code : Code) (value : BitVec 16) (u : State) (h : Addr) (off : Nat) :
    (leavePass (respond op code value u)).field h off = u.field h off := rfl

theorem afterTeardown_field (s : State) (e : Nat) (h : Addr) (off : Nat) :
    (s.afterTeardown e).field h off = (teardownEd e (s.setLock .heldH)).field h off := respond_pass_field _ _ _ _ h off

theorem exec_epTeardown_of_pipe {eid : EndpointId} {s : State} {e : Nat} (hr : eid.reservedZero = true)
    (honly : s.onlyPipe e (pipeKey eid)) : exec (.epTeardown eid) s = .next (s.afterTeardown e) := by
  have hl : lookup (s.setLock .heldH) (pipeKey eid) = some e := lookup_onlyPipe s e _ honly
  exact congrArg (fun t => Host.Outcome.next (leavePass t)) (teardownBody_of_pipe hr hl)

/-- The answer and the region aside, the pass is the teardown (R285). -/
theorem afterTeardown_tornDown {s : State} {e : Nat} (he : e < s.eds.length) (hcap : e < s.cfg.maxEds)
    (ha : (s.ed e).alloc = true) (hq : ∀ d ∈ (s.ed e).queue, (s.td d).ed = some e) :
    TornDown e s (s.afterTeardown e) := by
  have h := teardownEd_tornDown (s := s.setLock .heldH) he hcap ha hq
  have hout := afterTeardown_out s e
  unfold State.afterTeardown at hout ⊢
  generalize teardownEd e (s.setLock .heldH) = u at h hout ⊢
  have hpass : Framed afterAbortFields u (leavePass (respond 0x03#8 .ok 0#16 u)) :=
    ((respond_framed _ _ _ u).mono (by decide)).trans ((setLock_framed _ _).mono (by decide))
  have henter : ∀ v : State, Framed afterAbortFields v (v.setLock .heldH) := fun v =>
    (setLock_framed _ v).mono (by decide)
  exact
    { alloc := h.alloc
      queue := h.queue
      efree := h.efree
      edOther := h.edOther
      cls := h.cls
      freed := h.freed
      tdOut := fun hs => h.tdOut (paired_setLock .heldH hs)
      done := h.done
      drainp := h.drainp
      mem := h.mem
      callbacks := fun w0 w1 w2 hm => by
        rw [hout, List.mem_append, List.mem_singleton] at hm
        exact h.callbacks w0 w1 w2 (hm.resolve_right Output.noConfusion)
      aborted := fun x p d ds hqd hx hl => by
        have hab := h.aborted x p d ds hqd hx (liveTxn_lock s .heldH x p d hl)
        rw [ended_setLock] at hab
        exact (henter _).trans (hab.trans hpass)
      idle := fun hidle => (henter s).trans ((h.idle hidle).trans hpass) }

theorem OneRequest.setLock {e : Nat} {h : Addr} {s : State} (l : Lock) (hone : OneRequest e h s) :
    OneRequest e h (s.setLock l) :=
  ⟨poolsOk_setLock l hone.pools, paired_setLock l hone.paired, hone.mem, hone.bits, hone.done, hone.queue, hone.only,
    hone.all, hone.status⟩

/-- The one request of a pipe torn down, at the end of the pass: its callback comes just before the answer (R188). -/
theorem afterTeardown_oneRequest {s : State} {e : Nat} {h : Addr} (hone : OneRequest e h s) (he : e < s.eds.length) :
    (s.afterTeardown e).field h 0x1C = 5#32 ∧
    (s.afterTeardown e).field h 0x18 = s.field h 0x18 + movedBytes e s ∧
    ∃ os, (s.afterTeardown e).out = s.out ++ os ++
        [.callback 0xC0000005#32 (BitVec.ofNat 32 h) (s.field h 0x18 + movedBytes e s), .response 0x03000000#32] ∧
      ∀ w0 w1 w2, Output.callback w0 w1 w2 ∉ os := by
  have htorn := teardownEd_oneRequest (hone.setLock .heldH) he
  have hmoved : movedBytes e (s.setLock .heldH) = movedBytes e s := rfl
  have hbefore : (s.setLock .heldH).field h 0x18 = s.field h 0x18 := rfl
  rw [hmoved, hbefore, State.setLock_out] at htorn
  obtain ⟨hstatus, hactual, os, hos, hquiet⟩ := htorn
  have hout := afterTeardown_out s e
  have hfield := afterTeardown_field s e h
  refine ⟨(hfield 0x1C).trans hstatus, (hfield 0x18).trans hactual, os, ?_, hquiet⟩
  rw [hout, hos, List.append_assoc _ [_] [_], List.singleton_append]

end Sys2Proof.Machine

namespace Sys2Proof.Proofs

open Sys2Proof.Machine

/-- Settles O22: the search decides whether there is a pipe, and the pass over it is followed stage by stage. -/
theorem teardownFreesThePipe : Obligations.TeardownFreesThePipe := by
  intro s eid h15 hHi
  have hr := reservedZero_eq_true h15 hHi
  refine ⟨fun hno => ?unknown, fun e honly hcap hq => ?pipe⟩
  case unknown =>
    have hl : lookup s (pipeKey eid) = none := lookup_noPipe s _ hno
    exact congrArg _ (runPass_of_respond (teardownBody_of_unknown hr hl))
  case pipe =>
    have hexec := exec_epTeardown_of_pipe hr honly
    obtain ⟨he, ha, -⟩ := honly
    have ht := afterTeardown_tornDown he hcap ha fun d hd => (hq d hd).1
    have hframe : Framed (mayChange (.epTeardown eid)) s (s.afterTeardown e) := by
      obtain ⟨t, hnext, -, hF⟩ := everyOperationCompletesInItsFrame (.epTeardown eid) s
      rw [hexec] at hnext
      injection hnext with hnext
      exact hnext ▸ hF
    refine ⟨s.afterTeardown e, hexec, by rw [afterTeardown_out, List.getLast?_concat], ht.alloc, ht.queue, ht.efree,
      ht.edOther, ht.cls, ht.freed, ht.tdOut, ht.done, ht.drainp, ht.mem, ht.callbacks,
      fun x p d ds hqd hx hl => ?aborted, fun hidle => ?idle,
      fun h hp hs hw hbits hdone hne honly hall hstatus => ?oneRequest, hframe⟩
    case aborted =>
      have hF := ht.aborted x p d ds hqd hx hl
      exact ⟨hF.dfree_eq (by decide), hF.pkts_eq (by decide), hF.ring_eq (by decide), hF.txns_eq (by decide),
        hF.xfree_eq (by decide), hF.frame_eq (by decide)⟩
    case idle =>
      have hF := ht.idle hidle
      exact ⟨hF.dfree_eq (by decide), hF.pkts_eq (by decide), hF.ring_eq (by decide), hF.txns_eq (by decide),
        hF.xfree_eq (by decide), hF.frame_eq (by decide)⟩
    case oneRequest =>
      exact afterTeardown_oneRequest ⟨hp, hs, hw, hbits, hdone, hne, honly, hall, hstatus⟩ he

end Sys2Proof.Proofs
end

section
/-! SUPPORT. Transactions that go well, and confirms that are not believed (R209 to R214): the bodies of the two confirm
events case by case, and what a good data phase leaves of its TD and its records. -/

namespace Sys2Proof.Machine

/-! The bodies of the confirm events, where no transaction is concerned (R209). -/

/-- A Packet bound to no live record confirms nothing, in either event (R209). -/
theorem txConfirmBody_noTxn {s : State} {p : Nat} (h : s.noTxn p) (st : Ts) :
    txConfirmBody st p s = s.flagSpuriousConfirm := by
  unfold txConfirmBody
  rw [txnOfPkt_noTxn s p h]

theorem rxConfirmBody_noTxn {s : State} {p : Nat} (h : s.noTxn p) (st : Ts) (n : Nat) :
    rxConfirmBody st p n s = s.flagSpuriousConfirm := by
  unfold rxConfirmBody
  rw [txnOfPkt_noTxn s p h]

/-- An IN transaction that awaits its data is not confirmed by EV_TX_CONFIRM (R208, R209). -/
theorem txConfirmBody_inData {s : State} {x p d : Nat} (h : s.onlyTxn x p d) (hphase : (s.txn x).phase = .dataWait)
    (hdir : (s.td d).dir = .inn) (st : Ts) : txConfirmBody st p s = s.flagSpuriousConfirm := by
  have hfind := txnOfPkt_onlyTxn s x p d h
  obtain ⟨-, -, -, htd, -⟩ := h
  simp only [txConfirmBody, hfind, htd]
  rw [if_neg (by rw [hphase]; decide), if_neg fun hc => hc.2 hdir]

/-- EV_RX_CONFIRM confirms nothing but an IN transaction that awaits its data (R209, R212). -/
theorem rxConfirmBody_notInData {s : State} {x p d : Nat} (h : s.onlyTxn x p d)
    (hnot : (s.txn x).phase ≠ .dataWait ∨ (s.td d).dir ≠ .inn) (st : Ts) (n : Nat) :
    rxConfirmBody st p n s = s.flagSpuriousConfirm := by
  have hfind := txnOfPkt_onlyTxn s x p d h
  obtain ⟨-, -, -, htd, -⟩ := h
  simp only [rxConfirmBody, hfind, htd]
  rw [if_pos hnot]

/-- EV_TX_CONFIRM whose body finds the confirm spurious (R209). -/
theorem exec_evTxConfirm_spurious {s : State} {code : BitVec 8} {p : BitVec 16} (hcode : code.toNat ≤ 8)
    (h : ∀ st, txConfirmBody st p.toNat (s.setLock .heldA) = (s.setLock .heldA).flagSpuriousConfirm) :
    exec (.evTxConfirm code p) s = .next { reap s.flagSpuriousConfirm with lock := .free } := by
  obtain ⟨st, hst⟩ := ofEvent_eq_some hcode
  rw [exec_evTxConfirm_of_legal hst, runPassA, h]
  exact congrArg _ (reap_pass_end s.flagSpuriousConfirm)

/-- EV_RX_CONFIRM whose body finds the confirm spurious (R209). -/
theorem exec_evRxConfirm_spurious {s : State} {code : BitVec 8} {p : BitVec 16} {n : Word} (hcode : code.toNat ≤ 8)
    (h : ∀ st, rxConfirmBody st p.toNat n.toNat (s.setLock .heldA) = (s.setLock .heldA).flagSpuriousConfirm) :
    exec (.evRxConfirm code p n) s = .next { reap s.flagSpuriousConfirm with lock := .free } := by
  obtain ⟨st, hst⟩ := ofEvent_eq_some hcode
  rw [exec_evRxConfirm_of_legal hst, runPassA, h]
  exact congrArg _ (reap_pass_end s.flagSpuriousConfirm)

/-! A good token phase (R210, R211). -/

@[simp] theorem setPktStatus_td (p : Nat) (st : Ts) (s : State) (d : Nat) : (setPktStatus p st s).td d = s.td d := rfl

/-- The transaction of record `x` awaits its data, and its Packet has status `TS_OK` (R208, R210). -/
def State.awaitingData (s : State) (x p : Nat) : State :=
  { s with
    pkts := s.pkts.modify p (fun k => { k with status := .ok })
    txns := s.txns.modify x (fun t => { t with phase := .dataWait }) }

/-- Descriptor `desc` was handed over and answered with `accepted`; `answers` are left (R308). -/
def State.submitted (s : State) (desc : TxDesc) (accepted : Bool) (answers : List Bool) : State :=
  { s with env := { s.env with ringAnswers := answers }, out := s.out ++ [.ringSubmit desc accepted] }

/-- The transceiver gives the answer that comes first (R308). -/
theorem ringSubmit_answered {s : State} {accepted : Bool} {answers : List Bool} (desc : TxDesc)
    (h : s.env.ringAnswers = accepted :: answers) :
    ringSubmit desc s = (accepted, s.submitted desc accepted answers) := by
  unfold ringSubmit
  rw [h]
  rfl

/-- An IN transaction has nothing to hand over (R210). -/
theorem tokenConfirmed_in {s : State} {d : Nat} (hdir : (s.td d).dir = .inn) (x p : Nat) :
    tokenConfirmed x d .ok (setPktStatus p .ok s) = s.awaitingData x p := by
  unfold tokenConfirmed
  rw [if_pos rfl, setPktStatus_td, if_pos hdir]
  rfl

/-- An accepted data descriptor starts the data phase (R210). -/
theorem tokenConfirmed_accepted {s : State} {d : Nat} {answers : List Bool} (hdir : (s.td d).dir ≠ .inn)
    (hanswers : s.env.ringAnswers = true :: answers) (x p : Nat) :
    tokenConfirmed x d .ok (setPktStatus p .ok s) =
      (s.submitted (s.txn x).dataDesc true answers).awaitingData x p := by
  unfold tokenConfirmed
  rw [if_pos rfl, setPktStatus_td, if_neg hdir, ringSubmit_answered (s := setPktStatus p .ok s) _ hanswers]
  rfl

/-- A refused data descriptor ends the transaction (R211, R215). -/
theorem tokenConfirmed_refused {s : State} {x p d : Nat} {answers : List Bool} (hl : s.liveTxn x p d)
    (hdir : (s.td d).dir ≠ .inn) (hanswers : s.env.ringAnswers = false :: answers) :
    tokenConfirmed x d .ok (setPktStatus p .ok s) =
      (s.ended x p d).submitted (s.txn x).dataDesc false answers := by
  have hlive : (setPktStatus p .ok (s.submitted (s.txn x).dataDesc false answers)).liveTxn x p d :=
    liveTxn_pktStatus _ x p d .ok hl
  unfold tokenConfirmed
  rw [if_pos rfl, setPktStatus_td, if_neg hdir, ringSubmit_answered (s := setPktStatus p .ok s) _ hanswers]
  show endTxn x (setPktStatus p .ok (s.submitted (s.txn x).dataDesc false answers)) = _
  rw [endTxn_ended _ x p d hlive, ended_pktStatus]
  rfl

/-- EV_TX_CONFIRM of a good token phase that leaves `t` to be reaped (R161, R210). -/
theorem exec_tokenPhase_good {s t : State} {p : BitVec 16} {x d : Nat} (hl : s.liveTxn x p.toNat d)
    (hphase : (s.txn x).phase = .tokenWait)
    (ht : tokenConfirmed x d .ok (setPktStatus p.toNat .ok (s.setLock .heldA)) = t.setLock .heldA) :
    exec (.evTxConfirm 0#8 p) s = .next { reap t with lock := .free } := by
  rw [tx_exec s 0#8 .ok p x d rfl hl, if_pos hphase, ht, reap_pass_end]

/-! A good data phase (R214, R216 to R219). -/

/-- TD `d` after a good data phase that moved `moved` bytes with toggle `b` (R214, R218, R219), its transaction
ended. -/
def State.creditedTd (s : State) (x d e : Nat) (b : Bool) (moved : Nat) : Td :=
  { s.td d with
    txn := none
    place := .queued
    transferred := (s.td d).transferred + BitVec.ofNat 32 moved
    toggle := .val (if (s.ed e).mode = .iso then b else !b)
    zlpPending := if (s.txn x).len.toNat = 0 then false else (s.td d).zlpPending }

/-- The transaction of record `x` has gone well and ended, and its TD has become `td` (R214, R215). -/
def State.creditedWith (s : State) (x p d : Nat) (td : Td) : State :=
  { s.ended x p d with
    tds := s.tds.modify d (fun _ => td)
    txns := s.txns.modify x (fun t => { t with phase := .confirmed, alloc := false }) }

/-- A good data phase that moved `moved` bytes with toggle `b` credits the TD, and ends it when it is complete
(R214). -/
def State.afterGoodData (s : State) (x p d e : Nat) (b : Bool) (moved : Nat) : State :=
  if tdComplete (s.creditedTd x d e b moved) (s.txn x).len.toNat moved
  then terminate d .ok false (s.creditedWith x p d (s.creditedTd x d e b moved))
  else s.creditedWith x p d (s.creditedTd x d e b moved)

theorem afterGoodData_setLock (s : State) (x p d e : Nat) (b : Bool) (moved : Nat) (l : Lock) :
    (s.setLock l).afterGoodData x p d e b moved = (s.afterGoodData x p d e b moved).setLock l := by
  unfold State.afterGoodData
  rw [apply_ite (State.setLock l), ← terminate_setLock]
  rfl

/-- A TD is complete with all its bytes and no terminator pending, or after a short IN packet (R214, R217). -/
theorem tdComplete_iff (t : Td) (len moved : Nat) :
    tdComplete t len moved = true ↔
      (t.transferred = t.length ∧ t.zlpPending = false) ∨ (t.dir = .inn ∧ moved < len) := by
  simp [tdComplete]

/-- The TD is complete: it has its bytes and no terminator pending, or its packet was short (R214, R217). -/
theorem afterGoodData_complete {s : State} {x p d e moved : Nat} {b : Bool} {td : Td}
    (htd : s.creditedTd x d e b moved = td)
    (h : (td.transferred = td.length ∧ td.zlpPending = false) ∨ (td.dir = .inn ∧ moved < (s.txn x).len.toNat)) :
    s.afterGoodData x p d e b moved = terminate d .ok false (s.creditedWith x p d td) := by
  subst htd
  exact if_pos ((tdComplete_iff _ _ _).2 h)

/-- The TD goes on: it lacks bytes or has a terminator pending, and its packet was not short (R214). -/
theorem afterGoodData_goesOn {s : State} {x p d e moved : Nat} {b : Bool} {td : Td}
    (htd : s.creditedTd x d e b moved = td) (hmore : td.transferred ≠ td.length ∨ td.zlpPending = true)
    (hfull : (s.txn x).len.toNat ≤ moved) : s.afterGoodData x p d e b moved = s.creditedWith x p d td := by
  subst htd
  refine if_neg fun hcomplete => ?_
  obtain ⟨hall, hzlp⟩ | ⟨-, hshort⟩ := (tdComplete_iff _ _ _).1 hcomplete
  · exact hmore.elim (absurd hall) fun h => Bool.false_ne_true (hzlp.symm.trans h)
  · exact absurd hshort (Nat.not_lt.2 hfull)

theorem dataConfirmed_good {s : State} {x p d e : Nat} {b : Bool} {n moved : Nat} (hl : s.liveTxn x p d)
    (he : (s.td d).ed = some e) (hb : (s.td d).toggle = .val b)
    (hmoved : (if (s.td d).dir = .inn then n else (s.txn x).len.toNat) = moved) :
    dataConfirmed x d .ok n (setPktStatus p .ok s) = s.afterGoodData x p d e b moved := by
  subst hmoved
  exact dataConfirmed_ok s x p d e b n hl he hb

/-- EV_TX_CONFIRM of a good data phase moves the transaction's length (R214, R216). -/
theorem exec_transmission_good {s t : State} {p : BitVec 16} {x d e : Nat} {b : Bool} (hl : s.liveTxn x p.toNat d)
    (hphase : (s.txn x).phase = .dataWait) (hdir : (s.td d).dir ≠ .inn) (he : (s.td d).ed = some e)
    (hb : (s.td d).toggle = .val b) (ht : s.afterGoodData x p.toNat d e b (s.txn x).len.toNat = t) :
    exec (.evTxConfirm 0#8 p) s = .next { reap t with lock := .free } := by
  rw [tx_exec s 0#8 .ok p x d rfl hl, if_neg (by rw [hphase]; decide), if_pos ⟨hphase, hdir⟩,
    dataConfirmed_good (liveTxn_lock s .heldA x p.toNat d hl) he hb (if_neg hdir), afterGoodData_setLock,
    reap_pass_end]
  exact ht ▸ rfl

/-- EV_RX_CONFIRM of a good reception that is not over-long moves the bytes received (R213, R214, R217). -/
theorem exec_reception_good {s t : State} {p : BitVec 16} {n : Word} {x d e : Nat} {b : Bool}
    (hl : s.liveTxn x p.toNat d) (hphase : (s.txn x).phase = .dataWait) (hdir : (s.td d).dir = .inn)
    (he : (s.td d).ed = some e) (hb : (s.td d).toggle = .val b) (hn : n.toNat ≤ (s.txn x).len.toNat)
    (ht : s.afterGoodData x p.toNat d e b n.toNat = t) :
    exec (.evRxConfirm 0#8 p n) s = .next { reap t with lock := .free } := by
  have hfits : ¬ (Ts.ok = Ts.ok ∧ (s.txn x).len.toNat < n.toNat) := fun h => Nat.not_lt.2 hn h.2
  have hstatus : rxStatus .ok n.toNat (s.txn x).len.toNat = .ok := if_neg hfits
  rw [rx_exec s 0#8 .ok p n x d rfl hl.1 hphase hdir, hstatus, if_neg hfits,
    dataConfirmed_good (liveTxn_lock s .heldA x p.toNat d hl) he hb (if_pos hdir), afterGoodData_setLock,
    reap_pass_end, ht]

/-! An over-long reception (R213). -/

/-- A failed data phase looks at no length (R214). -/
theorem dataConfirmed_notOk {st : Ts} (h : st ≠ .ok) (x d n : Nat) (s : State) :
    dataConfirmed x d st n s = failed d st (endTxn x s) := if_pos h

/-- EV_RX_CONFIRM with the status overrun, whatever length it reports (R212, R220). -/
theorem exec_reception_overrun {s : State} {p : BitVec 16} {n : Word} {x d : Nat} (h : s.onlyTxn x p.toNat d)
    (hphase : (s.txn x).phase = .dataWait) (hdir : (s.td d).dir = .inn) :
    exec (.evRxConfirm 5#8 p n) s = .next ((reap (failed d .overrun (endTxn x
      (setPktStatus p.toNat .overrun (s.setLock .heldA))))).setLock .free) := by
  have hstatus : rxStatus .overrun n.toNat (s.txn x).len.toNat = .overrun := if_neg fun hc => absurd hc.1 (by decide)
  rw [rx_exec s 5#8 .overrun p n x d rfl h hphase hdir, hstatus, if_neg fun hc => absurd hc.1 (by decide),
    dataConfirmed_notOk (st := .overrun) (by decide)]

/-- EV_RX_CONFIRM that reports more bytes as good than were asked for (R213). -/
theorem exec_reception_overlong {s : State} {p : BitVec 16} {n : Word} {x d : Nat} (h : s.onlyTxn x p.toNat d)
    (hphase : (s.txn x).phase = .dataWait) (hdir : (s.td d).dir = .inn) (hn : (s.txn x).len.toNat < n.toNat) :
    exec (.evRxConfirm 0#8 p n) s = .next ((reap (failed d .overrun (endTxn x
      (setPktStatus p.toNat .overrun (s.setLock .heldA).flagRxOverlen)))).setLock .free) := by
  have hstatus : rxStatus .ok n.toNat (s.txn x).len.toNat = .overrun := if_pos ⟨rfl, hn⟩
  rw [rx_exec s 0#8 .ok p n x d rfl h hphase hdir, hstatus, if_pos ⟨rfl, hn⟩,
    dataConfirmed_notOk (st := .overrun) (by decide)]

end Sys2Proof.Machine

namespace Sys2Proof.Proofs

open Sys2Proof.Machine

/-- Settles O34: the model's subtraction of naturals is the statement's `rem` where that is positive, and else 0. -/
theorem nextLengthIsCapped : Obligations.NextLengthIsCapped := by
  intro s e d rem
  unfold nextLen
  constructor
  · intro hpos
    have hleft : (((s.td d).length.toNat - (s.td d).transferred.toNat : Nat) : Int) = rem := by omega
    rw [Nat.cast_min, hleft]
  · intro hnone
    have hleft : (s.td d).length.toNat - (s.td d).transferred.toNat = 0 := by omega
    rw [hleft, Nat.zero_min]

/-- Settles O38: in each of the three cases the body of the event only sets the flag. -/
theorem spuriousConfirmOnlySetsDiag : Obligations.SpuriousConfirmOnlySetsDiag := by
  intro s code p n hcode t
  refine ⟨fun hno => ⟨?noTx, ?noRx⟩, fun x d h hphase hdir => ?tx, fun x d h hnot => ?rx⟩
  case noTx => exact exec_evTxConfirm_spurious hcode (txConfirmBody_noTxn (s := s.setLock .heldA) hno)
  case noRx => exact exec_evRxConfirm_spurious hcode fun st => rxConfirmBody_noTxn (s := s.setLock .heldA) hno st _
  case tx => exact exec_evTxConfirm_spurious hcode (txConfirmBody_inData (s := s.setLock .heldA) h hphase hdir)
  case rx =>
    exact exec_evRxConfirm_spurious hcode fun st => rxConfirmBody_notInData (s := s.setLock .heldA) h hnot st _

/-- Settles O39: by the direction of the TD and the transceiver's answer. -/
theorem goodTokenPhaseStartsTheDataPhase : Obligations.GoodTokenPhaseStartsTheDataPhase := by
  intro s p x d hl hphase
  refine ⟨fun hdir => ?inn, fun answers hdir hanswers => ?accepted, fun answers hdir hanswers => ?refused⟩
  case inn =>
    exact exec_tokenPhase_good (t := s.awaitingData x p.toNat) hl hphase
      (tokenConfirmed_in (s := s.setLock .heldA) hdir x p.toNat)
  case accepted =>
    exact exec_tokenPhase_good (t := (s.submitted (s.txn x).dataDesc true answers).awaitingData x p.toNat) hl hphase
      (tokenConfirmed_accepted (s := s.setLock .heldA) hdir hanswers x p.toNat)
  case refused =>
    exact exec_tokenPhase_good (t := (s.ended x p.toNat d).submitted (s.txn x).dataDesc false answers) hl hphase
      (tokenConfirmed_refused (liveTxn_lock s .heldA x p.toNat d hl) hdir hanswers)

/-- Settles O41: a transmission is never short, so the TD's count and terminator decide. -/
theorem goodTransmissionAdvancesTheTd : Obligations.GoodTransmissionAdvancesTheTd := by
  intro s p x d e b hl hphase hdir he hb len td' freed after
  have htd : s.creditedTd x d e b len = td' := rfl
  constructor
  · intro hmore
    exact exec_transmission_good hl hphase hdir he hb (afterGoodData_goesOn htd hmore le_rfl)
  · intro hall hzlp
    exact exec_transmission_good hl hphase hdir he hb (afterGoodData_complete htd (.inl ⟨hall, hzlp⟩))

/-- Settles O42: the TD's count and terminator decide, unless the packet was short. -/
theorem goodReceptionAdvancesTheTd : Obligations.GoodReceptionAdvancesTheTd := by
  intro s p n x d e b hl hphase hdir he hb hn td' freed after
  have htd : s.creditedTd x d e b n.toNat = td' := by
    simp only [State.creditedTd, td', BitVec.ofNat_toNat, BitVec.setWidth_eq, ← BitVec.toNat_inj, BitVec.toNat_ofNat]
  constructor
  · intro hmore hlen
    exact exec_reception_good hl hphase hdir he hb hn (afterGoodData_goesOn htd hmore hlen.ge)
  · intro hcomplete
    exact exec_reception_good hl hphase hdir he hb hn
      (afterGoodData_complete htd (hcomplete.imp_right fun hshort => ⟨hdir, hshort⟩))

/-- Settles O43: both events fail the TD with an overrun, in the same state. -/
theorem overlongReceptionIsAnOverrun : Obligations.OverlongReceptionIsAnOverrun := by
  intro s p n m x d h hphase hdir hn
  exact (exec_reception_overlong h hphase hdir hn).trans
    (exec_reception_overrun (s := { s with diag := { s.diag with rxOverlen := true } }) h hphase hdir).symm

end Sys2Proof.Proofs
end

section
/-! SUPPORT. A TD becomes terminal (R226, R227, R228), wherever it stands in its queue: what `finish` and, after a
failing status, the sweep of its request leave, and then the settling of the ED. -/

namespace Sys2Proof.Machine

/-! What goes with a TD that becomes terminal (R226, R228). -/

/-- The TDs that become cancelled when TD `d` of ED `e` becomes terminal with status `st`: after a failing status, the
others of its request on the queue. -/
def State.sweptWith (s : State) (e d : Nat) (st : Ts) : List Nat :=
  if st.failing then s.sweptFrom d ((s.ed e).queue.erase d) else []

/-- The queue of ED `e` after TD `d` became terminal with status `st`. -/
def State.leftAfter (s : State) (e d : Nat) (st : Ts) : List Nat :=
  if st.failing then ((s.ed e).queue.erase d).filter (fun i => decide ((s.td i).request ≠ (s.td d).request))
  else (s.ed e).queue.erase d

theorem Ts.failing_eq (st : Ts) : st.failing = decide (st ≠ .ok ∧ st ≠ .cancelled) := by cases st <;> rfl

/-! Before the ED settles (R226). -/

/-- What `finish` of TD `d` of ED `e` with status `st`, and the sweep after a failing status, do. -/
structure Finished (e d : Nat) (st : Ts) (s t : State) : Prop where
  done : t.done = s.done ++ d :: s.sweptWith e d st
  drainp : t.drainp = true
  tdSelf : t.td d = { s.td d with status := st, place := .done }
  tdSwept : ∀ i ∈ s.sweptWith e d st, t.td i = { s.td i with status := .cancelled, place := .done }
  tdOther : ∀ i, i ≠ d → i ∉ s.sweptWith e d st → t.td i = s.td i
  ed : t.ed e = { s.ed e with queue := s.leftAfter e d st, toggleCarry := (t.ed e).toggleCarry }
  carry : (∀ i ∈ s.sweptWith e d st, (s.td i).toggle = .carry) →
    (t.ed e).toggleCarry = carryAfter (s.ed e) (s.td d)
  edOther : ∀ i, i ≠ e → t.ed i = s.ed i
  edsLength : t.eds.length = s.eds.length

/-- A TD with a status that is not failing takes no other with it (R226). -/
theorem finished_of_notFailing {s : State} {e d : Nat} {st : Ts} (hst : st.failing = false) (hel : e < s.eds.length)
    (hdl : d < s.tds.length) : Finished e d st s (finish e d st s) := by
  have hswept : s.sweptWith e d st = [] := by simp [State.sweptWith, hst]
  have hleft : s.leftAfter e d st = (s.ed e).queue.erase d := by simp [State.leftAfter, hst]
  have hed := finish_ed_self e d st s hel
  constructor
  case done => rw [hswept, finish_done]
  case drainp => exact finish_drainp e d st s
  case tdSelf => exact finish_td_self e d st s hdl
  case tdSwept => simp [hswept]
  case tdOther => exact fun i hi _ => finish_td_other e d i st s hi
  case ed => rw [hleft, hed]
  case carry => exact fun _ => by rw [hed]
  case edOther => exact fun i hi => finish_ed_other e d i st s hi
  case edsLength => exact finish_eds_length e d st s

/-- After a failing status the TDs of the same request on the queue follow (R226, R228). -/
theorem finished_of_failing {s : State} {e d : Nat} {st : Ts} (hst : st.failing = true) (hel : e < s.eds.length)
    (hdl : d < s.tds.length) (hq : (s.ed e).queue.Nodup) (hql : ∀ i ∈ (s.ed e).queue, i < s.tds.length) :
    Finished e d st s (sweep e (s.td d).request ((finish e d st s).ed e).queue (finish e d st s)) := by
  have hswept : s.sweptWith e d st = s.sweptFrom d ((s.ed e).queue.erase d) := by simp [State.sweptWith, hst]
  have hdrest : d ∉ (s.ed e).queue.erase d := hq.not_mem_erase
  have hfed := finish_ed_self e d st s hel
  have hfq : ((finish e d st s).ed e).queue = (s.ed e).queue.erase d := by rw [hfed]
  have hreq : ∀ i, ((finish e d st s).td i).request = (s.td i).request :=
    finish_td_keeps Td.request (fun _ _ => rfl) e d st s
  have hw := sweep_swept e (s.td d).request ((s.ed e).queue.erase d) (finish e d st s)
    (by rw [finish_eds_length]; exact hel) (by rw [hfq]; exact hq.erase d) (hq.erase d)
    (fun i hi => by rw [finish_tds_length]; exact hql i (List.mem_of_mem_erase hi))
  rw [hfq]
  have hne : ∀ i ∈ (s.ed e).queue.erase d, i ≠ d := fun i hi hid => hdrest (hid ▸ hi)
  constructor
  case done =>
    rw [hw.done, finish_done, hswept, List.append_assoc]
    simp only [hreq]
    rfl
  case drainp => exact hw.drainp (finish_drainp e d st s)
  case tdSelf => rw [hw.tdOut d (.inl hdrest), finish_td_self e d st s hdl]
  case tdSwept =>
    intro i hi
    rw [hswept] at hi
    obtain ⟨hrest, hir⟩ := mem_sweptFrom.1 hi
    rw [hw.tdIn i hrest ((hreq i).trans hir), finish_td_other e d i st s (hne i hrest)]
  case tdOther =>
    intro i hid hi
    rw [hswept, mem_sweptFrom, not_and_or] at hi
    rw [hw.tdOut i (by rw [hreq]; exact hi), finish_td_other e d i st s hid]
  case ed =>
    have hqueue : ((sweep e (s.td d).request ((s.ed e).queue.erase d) (finish e d st s)).ed e).queue =
        s.leftAfter e d st := by
      rw [hw.queue, hfq, State.leftAfter, if_pos hst]
      exact List.filter_congr fun i hi => by simp [hi, hreq]
    rw [← hqueue, hw.ed, hfed]
  case carry =>
    intro hc
    rw [hw.carry, hfed]
    intro i hrest hir
    rw [finish_td_other e d i st s (hne i hrest)]
    exact hc i (hswept ▸ mem_sweptFrom.2 ⟨hrest, (hreq i).symm.trans hir⟩)
  case edOther => exact fun i hi => by rw [hw.edOther i hi, finish_ed_other e d i st s hi]
  case edsLength => rw [sweep_eds_length, finish_eds_length]

/-! The whole of `terminate` (R226). -/

/-- `terminate` is the settling of the ED once the TD, and what goes with it, is finished. -/
theorem terminate_finished {s : State} {d e : Nat} (st : Ts) (halt : Bool) (he : (s.td d).ed = some e)
    (hel : e < s.eds.length) (hdl : d < s.tds.length) (hq : (s.ed e).queue.Nodup)
    (hql : ∀ i ∈ (s.ed e).queue, i < s.tds.length) :
    ∃ t, Finished e d st s t ∧ terminate d st halt s = t.modEd e (settledState halt) := by
  refine ⟨_, ?_, terminate_eq d e st halt s he⟩
  split
  case isTrue hst => exact finished_of_failing hst hel hdl hq hql
  case isFalse hst => exact finished_of_notFailing (Bool.eq_false_iff.2 hst) hel hdl

/-- Settling changes an ED's state alone (R226). -/
theorem settledState_eq (halt : Bool) (x : Ed) : settledState halt x = { x with
    state := if halt then (if x.state = .pendingDelete then .pendingDelete else .halted)
      else if x.queue = [] ∧ x.state = .operational then .skip else x.state } := by
  cases halt with
  | true => exact settledState_halt x
  | false =>
    simp only [settledState, Bool.false_eq_true, if_false]
    split <;> rfl

end Sys2Proof.Machine

namespace Sys2Proof.Proofs

open Sys2Proof.Machine

/-- Settles O45: `Finished` says what becomes of the TDs and of the ED's queue and toggle, and the settling changes
only the ED's state. -/
theorem terminalTdJoinsTheDoneList : Obligations.TerminalTdJoinsTheDoneList := by
  intro s d e st halt he hel hdl hq hql h rest fails swept left t
  have hfails : fails = st.failing := st.failing_eq.symm
  have hswept : swept = s.sweptWith e d st := by simp only [swept, hfails]; rfl
  have hleft : left = s.leftAfter e d st := by simp only [left, hfails]; rfl
  rw [hswept, hleft]
  obtain ⟨w, hw, ht⟩ := terminate_finished st halt he hel hdl hq hql
  change t = _ at ht
  have hwe := hw.ed
  have hte : t.ed e = settledState halt (w.ed e) := by
    rw [ht]
    exact modEd_ed_self e _ w (hw.edsLength ▸ hel)
  rw [settledState_eq, hwe] at hte
  have hcarry : (t.ed e).toggleCarry = (w.ed e).toggleCarry := by rw [hte]
  have htd : ∀ i, t.td i = w.td i := fun i => by rw [ht]; rfl
  refine ⟨?done, ?drainp, ?tdSelf, ?tdSwept, ?tdOther, ?queue, ?state, ?carry, ?ed, ?edOther,
    terminate_framed d st halt s⟩
  case done => exact ht ▸ hw.done
  case drainp => exact ht ▸ hw.drainp
  case tdSelf => rw [htd, hw.tdSelf]
  case tdSwept => exact fun i hi => (htd i).trans (hw.tdSwept i hi)
  case tdOther => exact fun i hid hi => (htd i).trans (hw.tdOther i hid hi)
  case queue => rw [hte]
  case state => rw [hte]
  case carry => exact fun hc => hcarry.trans (hw.carry hc)
  case ed => rw [hte]
  case edOther => exact fun i hi => by rw [ht, modEd_ed_other e i _ w (Ne.symm hi), hw.edOther i hi]

end Sys2Proof.Proofs
end

section
/-! SUPPORT. The pools (43_pools.md): the Packet ring as a queue of handles (R43, R250, R251), the second release
(R252, R254, R255), and how many entries a sound pool holds (R256). -/

namespace Sys2Proof.Machine

/-! The Packet ring as a queue (R250, R251). -/

theorem ringHandles_length (s : State) : s.ringHandles.length = s.ring.cnt := by
  simp [State.ringHandles]

theorem pktAcquire_of_ringHandles_nil {s : State} (h : s.ringHandles = []) : pktAcquire s = (none, s) := by
  have hc : s.ring.cnt = 0 := by rw [← ringHandles_length, h, List.length_nil]
  rcases pktAcquire_spec s with ⟨_, hacq⟩ | ⟨hne, _⟩
  · exact hacq
  · exact absurd hc hne

/-- An acquisition takes the oldest handle off the ring (R250). -/
theorem pktAcquire_of_ringHandles_cons {s : State} {p : Nat} {rest : List Nat} (hs : s.ringOk)
    (h : s.ringHandles = p :: rest) : (pktAcquire s).1 = some p ∧ (pktAcquire s).2.ringHandles = rest := by
  rcases pktAcquire_spec s with ⟨hc, _⟩ | ⟨hc, hacq⟩
  · have hlen := ringHandles_length s
    rw [h, hc] at hlen
    exact absurd hlen (Nat.succ_ne_zero _)
  · obtain ⟨hp, hrest⟩ := List.cons.inj (h.symm.trans (ringHandles_head s hs hc))
    rw [hacq, hp, hrest]
    exact ⟨rfl, rfl⟩

/-- A Packet that is out has a place in the ring left for it. -/
theorem ring_cnt_lt_of_out {s : State} {p : Nat} (hs : s.ringOk) (hp : p < s.cfg.pktPoolCap)
    (hout : (s.pkt p).out = true) : s.ring.cnt < s.cfg.pktPoolCap := by
  obtain ⟨_, _, hlist⟩ := hs
  rw [← ringHandles_length]
  exact freeListOk_length_lt hlist hp hout

/-- A release resets the Packet and puts its handle behind the others (R251). -/
theorem pktRelease_of_out {s : State} {p : Nat} (hs : s.poolsOk) (hp : p < s.cfg.pktPoolCap)
    (hout : (s.pkt p).out = true) :
    (pktRelease p s).ringHandles = s.ringHandles ++ [p] ∧ (pktRelease p s).pkt p = Pkt.initial := by
  obtain ⟨_, ⟨_, _, _, _, hpkts, hslots⟩, _, hring⟩ := hs
  rcases pktRelease_spec p s with ⟨hrefused, _⟩ | ⟨_, _, hrel⟩
  · rcases hrefused with hrange | hfree
    · exact absurd hp (Nat.not_lt_of_le hrange)
    · exact absurd hfree (by simp [hout])
  · rw [hrel]
    exact ⟨pktRelease_handles p s hslots (ring_cnt_lt_of_out hring hp hout),
      modPkt_pkt_self p _ s (hpkts.symm ▸ hp)⟩

/-! The second release (R252). -/

/-- Where a release of what is out of range or already free only sets `DIAG.DOUBLE_RELEASE`, the flag leaves out
of range what is, and anything in range is free after its release, the second release only sets the flag. -/
theorem release_release {outOfRange free : State → Prop} {release : State → State}
    (hrefused : ∀ s, outOfRange s ∨ free s → release s = s.flagDoubleRelease)
    (hflag : ∀ s, outOfRange s → outOfRange s.flagDoubleRelease)
    (hfrees : ∀ s, ¬ outOfRange s → free (release s)) (s : State) :
    release (release s) = (release s).flagDoubleRelease := by
  refine hrefused _ ?_
  by_cases h : outOfRange s
  · rw [hrefused s (.inl h)]
    exact .inl (hflag s h)
  · exact .inr (hfrees s h)

theorem pktRelease_out_self {p : Nat} {s : State} (hp : ¬ s.cfg.pktPoolCap ≤ p) :
    ((pktRelease p s).pkt p).out = false := by
  rcases pktRelease_spec p s with ⟨hrefused, h⟩ | ⟨_, hout, h⟩ <;> rw [h]
  · exact hrefused.resolve_left hp
  · have hlt : p < s.pkts.length := pkt_lt_of_ne_initial s p fun hi => by simp [hi, Pkt.initial] at hout
    exact congrArg Pkt.out (modPkt_pkt_self p _ s hlt)

theorem edFree_alloc_self {i : Nat} {s : State} (hi : ¬ s.cfg.maxEds ≤ i) : ((edFree i s).ed i).alloc = false := by
  rcases edFree_spec i s with ⟨hrefused, h⟩ | ⟨_, hal, h⟩ <;> rw [h]
  · exact hrefused.resolve_left hi
  · have hlt : i < s.eds.length := ed_lt_of_ne_initial s i fun hi => by simp [hi, Ed.initial] at hal
    exact congrArg Ed.alloc (modEd_ed_self i _ s hlt)

theorem tdFree_alloc_self {i : Nat} {s : State} (hi : ¬ s.cfg.maxTds ≤ i) : ((tdFree i s).td i).alloc = false := by
  rcases tdFree_spec i s with ⟨hrefused, h⟩ | ⟨_, hal, h⟩ <;> rw [h]
  · exact hrefused.resolve_left hi
  · have hlt : i < s.tds.length := td_lt_of_ne_initial s i fun hi => by simp [hi, Td.initial] at hal
    exact congrArg Td.alloc (modTd_td_self i _ s hlt)

theorem tokenFree_alloc_self {i : Nat} {s : State} (hi : ¬ s.cfg.maxTokens ≤ i) :
    ((tokenFree i s).tok i).alloc = false := by
  rcases tokenFree_spec i s with ⟨hrefused, h⟩ | ⟨_, hal, h⟩ <;> rw [h]
  · exact hrefused.resolve_left hi
  · have hlt : i < s.toks.length := tok_lt_of_ne_initial s i fun hi => by simp [hi, Tok.initial] at hal
    exact congrArg Tok.alloc (modTok_tok_self i _ s hlt)

theorem txnFree_alloc_self {i : Nat} {s : State} (hi : ¬ s.cfg.maxTxns ≤ i) :
    ((txnFree i s).txn i).alloc = false := by
  rcases txnFree_spec i s with ⟨hrefused, h⟩ | ⟨_, hal, h⟩ <;> rw [h]
  · exact hrefused.resolve_left hi
  · have hlt : i < s.txns.length := txn_lt_of_ne_initial s i fun hi => by simp [hi, Txn.initial] at hal
    exact congrArg Txn.alloc (modTxn_txn_self i _ s hlt)

/-- After a release a dummy buffer is in the pool (R255). -/
theorem mem_dummyRelease_dfree {u : Nat} {s : State} (hu : ¬ s.cfg.nDummy ≤ u) : u ∈ (dummyRelease u s).dfree := by
  unfold dummyRelease
  split
  case isTrue hrefused => exact hrefused.resolve_left hu
  case isFalse => exact List.mem_cons_self

/-! How many entries a sound pool holds (R256). -/

/-- A sound free-list is the range's free entries in some order. -/
theorem freeListOk_perm {n : Nat} {al : Nat → Bool} {l : List Nat} (h : FreeListOk n al l) :
    l.Perm ((List.range n).filter (fun i => !al i)) := by
  obtain ⟨hnodup, hlt, hmem⟩ := h
  refine (List.perm_ext_iff_of_nodup hnodup (List.nodup_range.filter _)).2 fun i => ?_
  rw [List.mem_filter, List.mem_range, Bool.not_eq_true']
  exact ⟨fun hi => ⟨hlt i hi, (hmem i (hlt i hi)).1 hi⟩, fun ⟨hin, hfree⟩ => (hmem i hin).2 hfree⟩

/-- The free entries and the entries in use add up to the capacity. -/
theorem freeListOk_length_add {n : Nat} {al : Nat → Bool} {l : List Nat} (h : FreeListOk n al l) :
    l.length + ((List.range n).filter al).length = n :=
  calc l.length + ((List.range n).filter al).length
      = ((List.range n).filter al).length + ((List.range n).filter (fun i => !al i)).length := by
        rw [(freeListOk_perm h).length_eq, Nat.add_comm]
    _ = n := by rw [← List.length_eq_length_filter_add, List.length_range]

end Sys2Proof.Machine

namespace Sys2Proof.Proofs

open Sys2Proof.Machine

/-- Settles O49: the handles lose their head to an acquisition and gain their last from a release. -/
theorem packetRingIsFirstInFirstOut : Obligations.PacketRingIsFirstInFirstOut := by
  intro s hs
  refine ⟨fun p rest h => ?_, pktAcquire_of_ringHandles_nil, fun _ => pktRelease_of_out hs⟩
  have ⟨_, _, _, hring⟩ := hs
  obtain ⟨hhandle, hrest⟩ := pktAcquire_of_ringHandles_cons hring h
  exact ⟨hhandle, hrest, pktAcquire_out s p _ hs (Prod.ext hhandle rfl)⟩

/-- Settles O50: each release refuses exactly what is not held, and what has been released is not held. -/
theorem secondReleaseChangesNothing : Obligations.SecondReleaseChangesNothing := by
  intro s i
  refine ⟨?pkt, ?ed, ?td, ?tok, ?txn, ?dummy⟩
  case pkt =>
    exact release_release (outOfRange := fun s => s.cfg.pktPoolCap ≤ i) (free := fun s => (s.pkt i).out = false)
      (fun _ h => if_pos h) (fun _ h => h) (fun _ => pktRelease_out_self) s
  case ed =>
    exact release_release (outOfRange := fun s => s.cfg.maxEds ≤ i) (free := fun s => (s.ed i).alloc = false)
      (fun _ h => if_pos h) (fun _ h => h) (fun _ => edFree_alloc_self) s
  case td =>
    exact release_release (outOfRange := fun s => s.cfg.maxTds ≤ i) (free := fun s => (s.td i).alloc = false)
      (fun _ h => if_pos h) (fun _ h => h) (fun _ => tdFree_alloc_self) s
  case tok =>
    exact release_release (outOfRange := fun s => s.cfg.maxTokens ≤ i) (free := fun s => (s.tok i).alloc = false)
      (fun _ h => if_pos h) (fun _ h => h) (fun _ => tokenFree_alloc_self) s
  case txn =>
    exact release_release (outOfRange := fun s => s.cfg.maxTxns ≤ i) (free := fun s => (s.txn i).alloc = false)
      (fun _ h => if_pos h) (fun _ h => h) (fun _ => txnFree_alloc_self) s
  case dummy =>
    exact release_release (outOfRange := fun s => s.cfg.nDummy ≤ i) (free := fun s => i ∈ s.dfree)
      (fun _ h => if_pos h) (fun _ h => h) (fun _ => mem_dummyRelease_dfree) s

/-- Settles O51: each free-list, and the handles in the ring, are exactly what is free. -/
theorem poolsConserveTheirEntries : Obligations.PoolsConserveTheirEntries := by
  intro s hs
  obtain ⟨_, _, ⟨hed, htd, htok, htxn, _, _⟩, _, _, hpkt⟩ := hs
  have hring := freeListOk_length_add hpkt
  rw [ringHandles_length] at hring
  exact ⟨freeListOk_length_add hed, freeListOk_length_add htd, freeListOk_length_add htok,
    freeListOk_length_add htxn, hring⟩

end Sys2Proof.Proofs
end

section
/-! SUPPORT. DRAIN as a whole (44_completion.md): the pass is the drain of each TD of the done list in turn (R260,
R261); and one TD's turn updates its request, retires it with its last TD and frees the TD and its Token (R263 to
R266). -/

namespace Sys2Proof.Machine

/-! The pass (R260, R261). -/

theorem retask_framed (l : List Nat) (p : Bool) (k : Lock) (s : State) :
    Framed [.done, .drainp, .lock] s (s.retask l p k) :=
  (setDone_framed l s).comp ((setDrainp_framed p _).comp (setLock_framed k _) (e := [.drainp, .lock]) (by decide)
    (by decide)) (by decide) (by decide)

theorem setLock_eq_retask (k : Lock) (s : State) : s.setLock k = s.retask s.done s.drainp k := rfl

theorem setDone_eq_retask (l : List Nat) (s : State) : s.setDone l = s.retask l s.drainp s.lock := rfl

/-- What a drain finds in the done list, `DRAINP` and the lock makes no difference to the state it ends in. -/
theorem drainList_retask_retask (ds l l' : List Nat) (p p' : Bool) (k k' : Lock) (s : State) :
    (drainList ds (s.retask l p k)).retask l' p' k' = (drainList ds s).retask l' p' k' := by
  cases ds with
  | nil => rfl
  | cons d rest =>
    rw [drainList_retask (d :: rest) l p k s (List.cons_ne_nil d rest)]
    rfl

/-- The state that a DRAIN with work ends in (R261). -/
def State.afterDrain (s : State) : State := (drainList s.done s).retask [] false .free

theorem exec_drain (s : State) : exec .drain s =
    .next ((if s.drainp then drainPass (s.setLock .heldB) else s.setLock .heldB).setLock .free) := rfl

theorem exec_drain_of_outstanding {s : State} (h : s.drainp = true) : exec .drain s = .next s.afterDrain :=
  calc exec .drain s
    _ = .next ((drainPass (s.setLock .heldB)).setLock .free) := by rw [exec_drain, if_pos h]
    _ = .next ((drainList s.done (s.retask s.done s.drainp .heldB)).retask [] false .free) := by
        rw [setLock_eq_retask, drainPass_done]; rfl
    _ = .next s.afterDrain := by rw [drainList_retask_retask, State.afterDrain]

theorem exec_drain_of_none {s : State} (h : s.drainp = false) : exec .drain s = .next { s with lock := .free } := by
  rw [exec_drain, if_neg (by simp [h])]
  rfl

/-- Draining one TD, and then the rest (R261). -/
theorem afterDrain_cons {s : State} {d : Nat} {rest : List Nat} (h : s.done = d :: rest) :
    s.afterDrain = (drainList rest (drainOne d s)).retask [] false .free := by
  rw [State.afterDrain, h, drainList, setDone_eq_retask, drainOne_retask, drainList_retask_retask]

/-- What a DRAIN finds in `DRAINP` and the lock makes no difference to the state it ends in. -/
theorem afterDrain_retask (l : List Nat) (p : Bool) (k : Lock) (s : State) :
    (s.retask l p k).afterDrain = (drainList l s).retask [] false .free :=
  drainList_retask_retask l l [] p false k .free s

theorem afterDrain_alone (d : Nat) (p : Bool) (k : Lock) (s : State) :
    (s.retask [d] p k).afterDrain = (drainOne d s).retask [] false .free := by
  rw [afterDrain_cons (s := s.retask [d] p k) rfl, drainOne_retask, drainList_retask_retask, drainList]

/-- Draining one TD alone, and then the rest (R261). -/
theorem afterDrain_inTurn {s : State} {d : Nat} {rest : List Nat} (h : s.done = d :: rest) (p : Bool) (k : Lock) :
    (((s.retask [d] p k).afterDrain).retask rest true .free).afterDrain = s.afterDrain := by
  rw [afterDrain_retask, afterDrain_alone, drainList_retask_retask, ← afterDrain_cons h]

/-! The release of a drained TD and its Token (R261, R266). -/

/-- TD `d` and its Token `k` are free and at the heads of their free-lists. -/
structure TdFreed (d k : Nat) (s t : State) : Prop where
  td : t.td d = { s.td d with alloc := false, place := .free, token := none }
  tds : ∀ i, i ≠ d → t.td i = s.td i
  tok : t.tok k = { s.tok k with alloc := false }
  toks : ∀ i, i ≠ k → t.tok i = s.tok i
  tfree : t.tfree = d :: s.tfree
  kfree : t.kfree = k :: s.kfree

/-- TD `d` and its Token `k` are in use. -/
structure TdInUse (d k : Nat) (s : State) : Prop where
  tdLt : d < s.cfg.maxTds
  tdAlloc : (s.td d).alloc = true
  token : (s.td d).token = some k
  tokLt : k < s.cfg.maxTokens
  tokAlloc : (s.tok k).alloc = true

theorem TdInUse.of_framed {d k : Nat} {c : List Field} {s t : State} (hu : TdInUse d k s) (h : Framed c s t)
    (hcfg : .cfg ∉ c) (htds : .tds ∉ c) (htoks : .toks ∉ c) : TdInUse d k t := by
  have hc := h.cfg_eq hcfg
  have htd := td_congr (h.tds_eq htds) d
  have htok := tok_congr (h.toks_eq htoks) k
  exact ⟨hc ▸ hu.tdLt, htd ▸ hu.tdAlloc, htd ▸ hu.token, hc ▸ hu.tokLt, htok ▸ hu.tokAlloc⟩

/-- The release of a TD in use is the two pools' frees (R254). -/
theorem freeTd_live {d k : Nat} {s : State} (hu : TdInUse d k s) :
    freeTd d s = ((((s.modTok k (fun x => { x with alloc := false })).setKfree (k :: s.kfree)).modTd d
      (fun x => { x with token := none, place := .free })).modTd d (fun x => { x with alloc := false })).setTfree
        (d :: s.tfree) := by
  have htoken : tokenFreeOpt (s.td d).token s =
      (s.modTok k (fun x => { x with alloc := false })).setKfree (k :: s.kfree) := by
    rw [hu.token]
    exact tokenFree_live s k hu.tokLt hu.tokAlloc
  rw [freeTd, htoken]
  refine tdFree_live _ d hu.tdLt ?_
  exact (modTd_keeps Td.alloc d _ ((s.modTok k _).setKfree _) rfl d).trans hu.tdAlloc

/-- Where the TD is in use its release sets no `DIAG` flag. -/
theorem freeTd_live_framed {d k : Nat} {s : State} (hu : TdInUse d k s) :
    Framed [.kfree, .toks, .tfree, .tds] s (freeTd d s) := by
  rw [freeTd_live hu]
  exact ((modTok_framed _ _ _).mono (by decide)).trans (((setKfree_framed _ _).mono (by decide)).trans
    (((modTd_framed _ _ _).mono (by decide)).trans ((modTd_framed _ _ _).comp (setTfree_framed _ _) (by decide)
      (by decide))))

theorem freeTd_freed {d k : Nat} {s : State} (hu : TdInUse d k s) : TdFreed d k s (freeTd d s) := by
  have hdl : d < s.tds.length := td_lt_of_ne_initial s d fun h => by simpa [h, Td.initial] using hu.tdAlloc
  have hkl : k < s.toks.length := tok_lt_of_ne_initial s k fun h => by simpa [h, Tok.initial] using hu.tokAlloc
  rw [freeTd_live hu]
  generalize hv : (s.modTok k (fun x => { x with alloc := false })).setKfree (k :: s.kfree) = v
  have htds : v.tds = s.tds := hv ▸ rfl
  have hvl : d < v.tds.length := htds.symm ▸ hdl
  have htd : ∀ i, v.td i = s.td i := td_congr htds
  constructor
  case td =>
    refine (modTd_td_self d _ (v.modTd d _) (by simpa using hvl)).trans ?_
    rw [modTd_td_self d _ v hvl, htd]
  case tds =>
    intro i hi
    refine (modTd_td_other d i _ (v.modTd d _) hi.symm).trans ?_
    rw [modTd_td_other d i _ v hi.symm, htd]
  case tok => exact hv ▸ modTok_tok_self k _ s hkl
  case toks => exact fun i hi => hv ▸ modTok_tok_other k i _ s hi.symm
  case tfree => rfl
  case kfree => exact hv ▸ rfl

/-- The turn of a TD in use frees it, as its record's update leaves the pools alone (R261). -/
theorem drainOne_freed {d k : Nat} {s : State} (hu : TdInUse d k s) : TdFreed d k s (drainOne d s) := by
  have hF := beforeFree_framed d s
  have hfreed := freeTd_freed (hu.of_framed hF (by decide) (by decide) (by decide))
  have htd := td_congr (hF.tds_eq (by decide))
  have htok := tok_congr (hF.toks_eq (by decide))
  have htfree := hF.tfree_eq (by decide)
  have hkfree := hF.kfree_eq (by decide)
  rw [drainOne_eq]
  exact ⟨htd d ▸ hfreed.td, fun i hi => (hfreed.tds i hi).trans (htd i), htok k ▸ hfreed.tok,
    fun i hi => (hfreed.toks i hi).trans (htok i), htfree ▸ hfreed.tfree, hkfree ▸ hfreed.kfree⟩

theorem drainOne_live_framed {d k : Nat} {s : State} (hu : TdInUse d k s) :
    Framed [.mem, .out, .kfree, .toks, .tfree, .tds] s (drainOne d s) :=
  have hF := beforeFree_framed d s
  hF.comp (freeTd_live_framed (hu.of_framed hF (by decide) (by decide) (by decide))) (by decide) (by decide)

/-! What one TD's turn writes in its request's record (R263, R264, R265). -/

/-- The request's `actual_length` with the bytes of TD `d` added, unless it is a SETUP TD (R263). -/
def State.actualWith (s : State) (d : Nat) : Word :=
  if (s.td d).dir = .setup then s.field (s.td d).request 0x18
  else s.field (s.td d).request 0x18 + (s.td d).transferred

/-- The request's `status` with the status of TD `d` noted if it is the first failure (R263). -/
def State.statusWith (s : State) (d : Nat) : Word :=
  if s.field (s.td d).request 0x1C = 0#32 ∧ (s.td d).status ≠ .ok then (csOf (s.td d).status).code
  else s.field (s.td d).request 0x1C

/-- The `status` with which the request is retired after TD `d`: `CS_SHORT` where it is short without a failure
(R265). -/
def State.finalStatusWith (s : State) (d : Nat) : Word :=
  if s.statusWith d = 0#32 ∧ (s.actualWith d).toNat < (s.field (s.td d).request 0x00).toNat then 1#32
  else s.statusWith d

/-- The request's record after its TD `d` is drained and others of its TDs are left. -/
structure RequestUpdated (d : Nat) (s t : State) : Prop where
  actual : t.field (s.td d).request 0x18 = s.actualWith d
  status : t.field (s.td d).request 0x1C = s.statusWith d
  quiet : Quiet s t

/-- The request's record and the callback after its last TD `d` is drained. -/
structure RequestRetired (d : Nat) (s t : State) : Prop where
  actual : t.field (s.td d).request 0x18 = s.actualWith d
  status : t.field (s.td d).request 0x1C = s.finalStatusWith d
  callback : t.out.getLast? = some (.callback (0xC00000#24 ++ (s.finalStatusWith d).extractLsb' 0 8)
    (BitVec.ofNat 32 (s.td d).request) (s.actualWith d))

theorem otherTdOf_updateRequest (d : Nat) (h : Addr) (s : State) :
    otherTdOf (updateRequest d h s) d h = otherTdOf s d h := by
  have htds := (updateRequest_framed d h s).tds_eq (by decide)
  simp only [otherTdOf, htds, td_congr htds]

theorem beforeFree_of_other {d : Nat} {s : State} (h : otherTdOf s d (s.td d).request = true) :
    beforeFree d s = updateRequest d (s.td d).request s := by
  rw [beforeFree, otherTdOf_updateRequest, if_pos h]

theorem beforeFree_of_last {d : Nat} {s : State} (h : ¬ otherTdOf s d (s.td d).request = true) :
    beforeFree d s = retire (s.td d).request (updateRequest d (s.td d).request s) := by
  rw [beforeFree, otherTdOf_updateRequest, if_neg h]

theorem drainOne_field (d : Nat) (h : Addr) (off : Nat) (s : State) :
    (drainOne d s).field h off = (beforeFree d s).field h off :=
  have hF := freeTd_framed d (beforeFree d s)
  field_congr (hF.cfg_eq (by decide)) (hF.mem_eq (by decide)) h off

theorem drainOne_out (d : Nat) (s : State) : (drainOne d s).out = (beforeFree d s).out :=
  (freeTd_framed d (beforeFree d s)).out_eq (by decide)

theorem drainOne_updated {d : Nat} {s : State} (hw : Memory.wf s.mem) (hc : 6 ≤ s.cfg.addrBits)
    (h : otherTdOf s d (s.td d).request = true) : RequestUpdated d s (drainOne d s) := by
  obtain ⟨hactual, hstatus, -, -, ⟨os, hout, hos⟩, -⟩ := updateRequest_facts d s hw hc
  rw [← beforeFree_of_other h] at hactual hstatus hout
  exact ⟨(drainOne_field d _ _ s).trans hactual, (drainOne_field d _ _ s).trans hstatus,
    os, (drainOne_out d s).trans hout, hos⟩

theorem drainOne_retired {d : Nat} {s : State} (hw : Memory.wf s.mem) (hc : 6 ≤ s.cfg.addrBits)
    (h : ¬ otherTdOf s d (s.td d).request = true) : RequestRetired d s (drainOne d s) := by
  obtain ⟨hactual, hstatus, hlength, hwf, -, hF⟩ := updateRequest_facts d s hw hc
  have hr := retire_fields (s.td d).request (updateRequest d (s.td d).request s) hwf
    (by rw [hF.cfg_eq (by decide)]; exact hc)
  rw [hactual, hstatus, hlength, ← beforeFree_of_last h] at hr
  obtain ⟨hractual, hrstatus, hrout⟩ := hr
  exact ⟨(drainOne_field d _ _ s).trans hractual, (drainOne_field d _ _ s).trans hrstatus,
    (congrArg List.getLast? (drainOne_out d s)).trans hrout⟩

/-- Whether it is the last or not, the TD's bytes are added (R263). -/
theorem drainOne_actual {d : Nat} {s : State} (hw : Memory.wf s.mem) (hc : 6 ≤ s.cfg.addrBits) :
    (drainOne d s).field (s.td d).request 0x18 = s.actualWith d := by
  by_cases h : otherTdOf s d (s.td d).request = true
  · exact (drainOne_updated hw hc h).actual
  · exact (drainOne_retired hw hc h).actual

/-- A quiet change adds no callback. -/
theorem Quiet.callback_mem {s t : State} (h : Quiet s t) {w0 w1 w2 : Word} (hm : .callback w0 w1 w2 ∈ t.out) :
    .callback w0 w1 w2 ∈ s.out := by
  obtain ⟨os, hout, hos⟩ := h
  rw [hout] at hm
  exact (List.mem_append.1 hm).resolve_right (hos w0 w1 w2)

end Sys2Proof.Machine

namespace Sys2Proof.Proofs

open Sys2Proof.Machine

/-- Settles O46: the state after the pass is that of the drain of each TD in turn, and its laws are those of
`drainList`. -/
theorem drainEmptiesTheDoneList : Obligations.DrainEmptiesTheDoneList := by
  intro s
  refine ⟨exec_drain_of_none, fun hp => ⟨fun d rest hdone => ?inTurn, s.afterDrain, exec_drain_of_outstanding hp, ?_⟩⟩
  case inTurn =>
    refine ⟨(s.retask [d] s.drainp s.lock).afterDrain, exec_drain_of_outstanding (s := s.retask [d] s.drainp s.lock) hp,
      (exec_drain_of_outstanding hp).trans ?_⟩
    rw [← afterDrain_inTurn hdone s.drainp s.lock]
    exact (exec_drain_of_outstanding (s := State.retask rest true .free _) rfl).symm
  have hD := drainList_drained s.done s
  exact ⟨rfl, rfl, hD.freed, fun hn hlive => drainList_tfree s.done s hn hlive,
    fun hlt => drainList_callbackOf s.done s hlt, hD.mem,
    (hD.frame.mono (by decide)).trans ((retask_framed _ _ _ _).mono (by decide))⟩

/-- Settles O47: the turn of the one TD on the list updates its request, retires it if it was the last, and frees
the TD and its Token. -/
theorem drainRetiresTheRequest : Obligations.DrainRetiresTheRequest := by
  intro s d k _ hw hc hp hdone hdl halloc htok hkl hkalloc h a noted st final
  have hnoted : noted = (csOf (s.td d).status).code := by
    simp only [noted]
    cases (s.td d).status <;> rfl
  have hst : st = s.statusWith d := by
    simp only [st, hnoted]
    rfl
  have hfinal : final = s.finalStatusWith d := by
    simp only [final, hst]
    rfl
  rw [hst, hfinal]
  have hu : TdInUse d k s := ⟨hdl, halloc, htok, hkl, hkalloc⟩
  have hfreed := drainOne_freed hu
  have hexec : exec .drain s = .next ((drainOne d s).retask [] false .free) := by
    rw [exec_drain_of_outstanding hp, afterDrain_cons hdone, drainList]
  have hF := drainOne_live_framed hu
  have hactual : (drainOne d s).field h 0x18 = a := drainOne_actual hw hc
  have hmem := drainOne_mem d s
  have hmore := drainOne_updated (d := d) hw hc
  have hlast := drainOne_retired (d := d) hw hc
  -- The claims about the drained state hold of any state with these facts; nothing need be evaluated.
  generalize drainOne d s = u at hexec hfreed hF hactual hmem hmore hlast
  refine ⟨_, hexec, rfl, rfl, hactual, hmem, fun hother => ?more, fun honly => ?last,
    hfreed.td, hfreed.tok, hfreed.tfree, hfreed.kfree, hfreed.tds, hfreed.toks,
    hF.comp (retask_framed _ _ _ _) (by decide) (by decide)⟩
  case more =>
    have hupdated := hmore ((otherTdOf_iff s d h).2 hother)
    exact ⟨hupdated.status, fun _ _ _ => hupdated.quiet.callback_mem⟩
  case last =>
    have hnone : ¬ otherTdOf s d h = true := fun hother => by
      obtain ⟨i, hid, hil, hia, hir⟩ := (otherTdOf_iff s d h).1 hother
      exact honly i hil hid hia hir
    have hretired := hlast hnone
    exact ⟨hretired.status, hretired.callback⟩

end Sys2Proof.Proofs
end

section
/-! SUPPORT. The bus events (45_bus_events.md R275, R276, R277) where no pipe is waiting to be reaped. -/

namespace Sys2Proof.Machine

/-- What is to be reaped depends on the EDs and TDs alone, so a write of `BUSSTS` leaves nothing to reap where there
was nothing (R186). -/
theorem State.nothingToReap.setBussts {s : State} (h : s.nothingToReap) (b : BusSts) :
    (s.setBussts b).nothingToReap := h

/-- With nothing to reap, the pass of a bus event is its write of `BUSSTS` (R277). -/
theorem reap_setBussts_of_nothing {s : State} (h : s.nothingToReap) (b : BusSts) :
    reap (s.setBussts b) = s.setBussts b :=
  reap_nothing _ (h.setBussts b)

end Sys2Proof.Machine

namespace Sys2Proof.Proofs

open Sys2Proof.Machine

/-- Settles O23: by O24 each event is its write of `BUSSTS` and then `reap()`, which finds nothing to do. -/
theorem busEventsWriteBussts : Obligations.BusEventsWriteBussts := by
  intro s speed hnothing
  obtain ⟨-, -, hevents, -⟩ := dyingPipeIsReaped
  obtain ⟨hconnect, hdisconnect⟩ := hevents s speed
  have hreap := reap_setBussts_of_nothing hnothing
  constructor
  · calc exec (.evConnect speed) s
        = .next ((reap (s.setBussts { connected := true, speed := speed })).setLock .free) := hconnect
      _ = .next ((s.setBussts { connected := true, speed := speed }).setLock .free) := by rw [hreap]
  · calc exec .evDisconnect s
        = .next ((reap (s.setBussts { connected := false, speed := s.bussts.speed })).setLock .free) := hdisconnect
      _ = .next ((s.setBussts { connected := false, speed := s.bussts.speed }).setLock .free) := by rw [hreap]

end Sys2Proof.Proofs
end

section
/-! SUPPORT. What a pass puts out (R16, R285): the pass of a host command ends with one response, and a refused command
does nothing but respond; the pass of an event or of DRAIN puts out no response. Both rest on the relation `Grows` of
Laws/Grows.lean, which allows any output but a response. -/

namespace Sys2Proof.Machine

/-! Host commands. -/

/-- From `s` to `t` a host command with this opcode byte is carried out: it does its work, which puts out no response,
and then responds; with a code other than `OK` there is no work (R112, R285). -/
def Answers (op : BitVec 8) (s t : State) : Prop :=
  ∃ (u : State) (code : Code) (value : BitVec 16), t = respond op code value u ∧ Grows s u ∧ (code ≠ .ok → u = s)

/-- A body that only responds answers, whatever its code is. -/
theorem answers_respond (op : BitVec 8) (code : Code) (value : BitVec 16) (s : State) :
    Answers op s (respond op code value s) := ⟨s, code, value, rfl, Grows.refl s, fun _ => rfl⟩

/-- A body that does its work and then responds `OK` answers. -/
theorem Grows.answers_ok {s u : State} (h : Grows s u) (op : BitVec 8) (value : BitVec 16) :
    Answers op s (respond op .ok value u) := ⟨u, .ok, value, rfl, h, fun hne => absurd rfl hne⟩

theorem markDying_grows (e : Option Nat) (s : State) : Grows s (markDying e s) := by
  cases e with
  | none => exact Grows.refl s
  | some e => exact Grows.of_framed (modEd_framed _ _ _) (by decide) (by decide)

theorem submitBody_answers (eid : EndpointId) (h : Word) (s : State) : Answers 0x01#8 s (submitBody eid h s) := by
  unfold submitBody
  split
  case h_1 => exact answers_respond _ _ _ s
  case h_2 => exact (submitAccept_grows _ _ _ s).answers_ok _ _

theorem cancelBody_answers (h : Word) (s : State) : Answers 0x02#8 s (cancelBody h s) := by
  unfold cancelBody
  split
  case isTrue => exact answers_respond _ _ _ s
  case isFalse =>
    split
    case h_1 => exact answers_respond _ _ _ s
    case h_2 => exact (markDying_grows _ s).answers_ok _ _

theorem teardownBody_answers (eid : EndpointId) (s : State) : Answers 0x03#8 s (teardownBody eid s) := by
  unfold teardownBody
  split
  case isTrue => exact answers_respond _ _ _ s
  case isFalse =>
    split
    case h_1 => exact answers_respond _ _ _ s
    case h_2 => exact (teardownEd_grows _ s).answers_ok _ _

theorem clearHaltBody_answers (eid : EndpointId) (s : State) : Answers 0x04#8 s (clearHaltBody eid s) := by
  unfold clearHaltBody
  split
  case isTrue => exact answers_respond _ _ _ s
  case isFalse =>
    split
    case h_1 => exact answers_respond _ _ _ s
    case h_2 => exact (Grows.of_framed (modEd_framed _ _ s) (by decide) (by decide)).answers_ok _ _

/-- What is claimed of a host command with this opcode byte: one response, its last output, and no other change where
the code is not `OK` (R285). -/
def AnswersOnce (op : BitVec 8) (s t : State) : Prop :=
  ∃ (os : List Output) (w : Word), t.out = s.out ++ os ++ [.response w] ∧ (∀ o ∈ os, o.isResponse = false) ∧
    w.extractLsb' 24 8 = op ∧
    (w.extractLsb' 16 8 ≠ 0#8 → t = { s with lock := .free, out := s.out ++ [.response w] })

/-- The opcode byte and the code of a response word (R112). -/
theorem responseWord_fields (op : BitVec 8) (code : Code) (value : BitVec 16) :
    (responseWord op code value).extractLsb' 24 8 = op ∧
    (responseWord op code value).extractLsb' 16 8 = code.num := by
  obtain ⟨hop, hcode, -⟩ := response_fields op code.num value
  exact ⟨hop, hcode⟩

/-- A body that answers makes a pass that answers once: the entry to the pass and the exit from it put nothing out. -/
theorem runPass_answersOnce {op : BitVec 8} {body : State → State} (hbody : ∀ s, Answers op s (body s)) (s : State) :
    AnswersOnce op s (runPass .heldH body s) := by
  obtain ⟨u, code, value, hrespond, hgrows, hrefused⟩ := hbody (s.setLock .heldH)
  obtain ⟨os, hout, hos⟩ := hgrows.out
  obtain ⟨hop, hcode⟩ := responseWord_fields op code value
  have hpass : runPass .heldH body s = leavePass (respond op code value u) := congrArg leavePass hrespond
  refine ⟨os, responseWord op code value, ?out, hos, hop, fun hne => ?unchanged⟩
  case out =>
    calc (runPass .heldH body s).out
      _ = u.out ++ [.response (responseWord op code value)] := by rw [hpass]; rfl
      _ = s.out ++ os ++ [.response (responseWord op code value)] := by rw [hout]; rfl
  case unchanged =>
    have hu : u = s.setLock .heldH := hrefused fun hok => hne (by rw [hcode, hok]; rfl)
    rw [hpass, hu]
    rfl

/-- An operation that is one pass with a body that answers, under the operation's own opcode byte, answers once. -/
theorem answersOnce_of_pass {i : Instr} {s t : State} {op : BitVec 8} {body : State → State}
    (hexec : exec i s = .next (runPass .heldH body s)) (hop : opcodeOf ((encode i).headD 0#32) = op)
    (hbody : ∀ s, Answers op s (body s)) (h : exec i s = .next t) :
    AnswersOnce (opcodeOf ((encode i).headD 0#32)) s t := by
  rw [hexec] at h
  injection h with ht
  rw [← ht, hop]
  exact runPass_answersOnce hbody s

/-- Every host command answers once (R285). -/
theorem exec_command_answersOnce {i : Instr} {s t : State} (hcommand : isCommand i = true)
    (h : exec i s = .next t) : AnswersOnce (opcodeOf ((encode i).headD 0#32)) s t := by
  cases i
  case submit eid hw => exact answersOnce_of_pass rfl (opcodeOf_headWord _ _) (submitBody_answers eid hw) h
  case cancel hw => exact answersOnce_of_pass rfl (opcodeOf_headWord _ _) (cancelBody_answers hw) h
  case epTeardown eid => exact answersOnce_of_pass rfl (opcodeOf_headWord _ _) (teardownBody_answers eid) h
  case epClearHalt eid => exact answersOnce_of_pass rfl (opcodeOf_headWord _ _) (clearHaltBody_answers eid) h
  case getFrame =>
    exact answersOnce_of_pass rfl (opcodeOf_headWord _ _) (fun s => answers_respond 0x05#8 .ok s.frnum s) h
  all_goals exact Bool.noConfusion hcommand

/-! Events and DRAIN. -/

/-- An operation that is one pass grows when its body does. -/
theorem grows_of_pass {i : Instr} {s t : State} {holder : Lock} {body : State → State}
    (hexec : exec i s = .next (runPass holder body s)) (hbody : ∀ s, Grows s (body s)) (h : exec i s = .next t) :
    Grows s t := by
  rw [hexec] at h
  injection h with ht
  exact ht ▸ runPass_grows holder body s hbody

/-- A context-(a) body that ends in `reap()` grows when what comes before it does (R161). -/
theorem reap_after_grows {s u : State} (h : Grows s u) : Grows s (reap u) := h.trans (reap_grows u)

theorem exec_evTxConfirm_grows {status : BitVec 8} {pkt : BitVec 16} {s t : State}
    (h : exec (.evTxConfirm status pkt) s = .next t) : Grows s t := by
  cases hst : Ts.ofEvent status with
  | none => exact grows_of_pass (exec_evTxConfirm_of_illegal hst pkt s) flagIllegalEvent_grows h
  | some st =>
    exact grows_of_pass (exec_evTxConfirm_of_legal hst pkt s) (fun s => reap_after_grows (txConfirmBody_grows st _ s)) h

theorem exec_evRxConfirm_grows {status : BitVec 8} {pkt : BitVec 16} {rxLen : Word} {s t : State}
    (h : exec (.evRxConfirm status pkt rxLen) s = .next t) : Grows s t := by
  cases hst : Ts.ofEvent status with
  | none => exact grows_of_pass (exec_evRxConfirm_of_illegal hst pkt rxLen s) flagIllegalEvent_grows h
  | some st =>
    exact grows_of_pass (exec_evRxConfirm_of_legal hst pkt rxLen s)
      (fun s => reap_after_grows (rxConfirmBody_grows st _ _ s)) h

/-- No event, and no DRAIN, puts out a response (R285). Opcode byte 0 is that of the token rows, which are answered
`ILLEGAL` (R125, R127). -/
theorem exec_event_grows {i : Instr} {s t : State} (hcommand : isCommand i = false)
    (hop : opcodeOf ((encode i).headD 0#32) ≠ 0#8) (h : exec i s = .next t) : Grows s t := by
  cases i
  case evFrameStart => exact grows_of_pass rfl (fun s => reap_after_grows (frameStartBody_grows s)) h
  case evTxConfirm => exact exec_evTxConfirm_grows h
  case evRxConfirm => exact exec_evRxConfirm_grows h
  case evConnect => exact grows_of_pass rfl (fun s => reap_after_grows (setBussts_grows _ s)) h
  case evDisconnect => exact grows_of_pass rfl (fun s => reap_after_grows (setBussts_grows _ s)) h
  case drain => exact grows_of_pass rfl (fun s => Grows.ite (drainPass_grows s) (Grows.refl s)) h
  case tokenOut | tokenIn | tokenSetup => exact absurd (opcodeOf_headWord _ _) hop
  all_goals exact Bool.noConfusion hcommand

end Sys2Proof.Machine

namespace Sys2Proof.Proofs

open Sys2Proof.Machine

/-- Settles O55: a command's body works and then responds, or only responds; the other bodies put out no response. -/
theorem commandsAnswerExactlyOnce : Obligations.CommandsAnswerExactlyOnce := by
  intro i s t hexec
  exact ⟨fun hcommand => exec_command_answersOnce hcommand hexec,
    fun hcommand hop => (exec_event_grows hcommand hop hexec).out⟩

end Sys2Proof.Proofs
end

section
/-! SUPPORT. What a step does to a block that is detached and to one that is being detached (R320), and the bounds,
`BUSSTS` and `DIAG` at reset (R321). -/

namespace Sys2Proof.Machine

/-- A detached block takes no work, whatever is scheduled (R320, U25). -/
theorem step_detached {s : State} (h : s.attached = false) : step s = .refused .detached := by
  simp only [step, h, Bool.false_eq_true, if_false]

/-- A scheduled detach is taken as an act of the environment: the step runs no pass (R320). -/
theorem step_detach {s : State} {later : List Source} (ha : s.attached = true) (hs : s.env.sched = .detach :: later) :
    step s = .next (detach (s.setEnv { s.env with sched := later })) := by
  rw [step_attached s ha, fetch_scheduled s _ _ hs]
  simp only [fetchFrom, runFetched]

/-- Detach, field by field: the block's elements are those of reset, and what is not the block's stays (log entry 13). -/
theorem detach_eq (s : State) : detach s =
    { State.resetOf s.cfg with attached := false, mem := s.mem, out := s.out, env := s.env } := rfl

/-- At reset nothing is committed in the frame, nothing waits to be drained and the region is free (R51, R57, R58). -/
theorem resetOf_boundsOk (c : Config) (h : c.valid) : (State.resetOf c).boundsOk :=
  ⟨h, Nat.zero_le _, frameWrap_pos h, rfl, resetOf_mem_wf c, fun hdone => absurd rfl hdone⟩

/-- `BUSSTS` reads 0 at reset: no device is connected (R56, R321). -/
theorem resetOf_bussts_bits (c : Config) : (State.resetOf c).bussts.bits = 0#2 := by
  change BusSts.bits { connected := false, speed := .full } = 0#2
  decide

/-- `DIAG` reads 0 at reset: no flag is set (R59, R321). -/
theorem resetOf_diag_bits (c : Config) : (State.resetOf c).diag.bits = 0#8 := by
  change Diag.bits { doubleRelease := false, spuriousConfirm := false, illegalEvent := false, rxOverlen := false } = 0#8
  decide

end Sys2Proof.Machine

namespace Sys2Proof.Proofs

open Sys2Proof.Machine

/-- Settles O10: the step of a detached block is refused, and a scheduled detach answers `detach`, which is reset but
for what is not the block's. -/
theorem detachedBlockRunsNothing : Obligations.DetachedBlockRunsNothing := by
  refine ⟨fun s hdetached => step_detached hdetached, fun s later hattached hsched => ?_⟩
  rw [step_detach hattached hsched, detach_eq]
  simp only [State.setEnv_cfg, State.setEnv_mem, State.setEnv_out, State.setEnv_env]

/-- Settles O60: the four invariants by their own lemmas, the ring's handles by going round the ring once, and each
value of R321 as `State.resetOf` has it. -/
theorem resetIsSound : Obligations.ResetIsSound := by
  intro c hvalid s
  refine ⟨resetOf_poolsOk c hvalid, resetOf_boundsOk c hvalid, resetOf_classesOk c, resetOf_paired c, ?frnum,
    resetOf_bussts_bits c, ?drainp, ?lock, resetOf_diag_bits c, ?done, ?frame, ?cls, ?eds, ?tds, ?toks, ?txns, ?pkts,
    ?ring, resetOf_ringHandles c, ?dfree, ?efree, ?tfree, ?kfree, ?xfree, ?cmdPort, ?evtPort⟩
  all_goals rfl

end Sys2Proof.Proofs
end
